-- ==== Sys2Proof/Word.lean ====
section
/-! DEFINITION. The word types: a command word and a symbol word are 32 bits, a byte 8 bits, a code a sequence of bits. -/

namespace Sys2Proof

/-- 32 bits: a command word (30_encoding.md R90) or a symbol word (R96). -/
abbrev Word := BitVec 32

/-- "The byte is 8 bits everywhere" (20_memory.md R60). -/
abbrev Byte := BitVec 8

/-- A bit sequence in transmission order: element 0 is written first and read first (00_scope.md R11). -/
abbrev Bits := List Bool

end Sys2Proof
end

