-- ==== Sys2Proof/Syntax.lean ====
section
/-! DEFINITION. The 26 commands, one constructor per row of spec/opcode_table.json (30_encoding.md R93). -/

namespace Sys2Proof

/-- A command with its operands (R91, R92): `b` a byte, `a` an 8-bit CSR address, `v` 16 bits, `n` a 5-bit count. -/
inductive Instr where
  -- host and configuration (40_host_config.md)
  | nop
  | reset
  | csrw (a : BitVec 8) (v : BitVec 16)
  | csrr (a : BitVec 8)
  | push (b : Byte)
  | iclr
  | oclr
  -- lookback buffer (41_lookback.md)
  | lbclr
  | lbrec (b : Byte)
  | lbfind
  -- matcher (42_matcher.md)
  | cbegin
  | mstep
  -- Huffman tree and code map (43_huffman.md)
  | build
  | tstore
  | tload
  -- bit stream (44_bitstream.md)
  | wbits (n : BitVec 5) (v : BitVec 16)
  | wfin
  | rbit
  | ralign
  -- chunk codec (45_chunk_codec.md)
  | estep
  | efin
  | dstep
  | encchunk
  | decchunk
  -- container (46_container.md)
  | compress
  | decompress
  deriving DecidableEq, Repr

end Sys2Proof
end

