-- ==== Sys2Proof/WellFormed.lean ====
section
/-! DEFINITION. Which terms of Instr a command word can stand for (30_encoding.md R92, R94): only format W restricts its operands. -/

namespace Sys2Proof

/-- R92: "`n` must be 1..16 and `v[15:n]` must be 0". -/
def wellFormedBits (n : BitVec 5) (v : BitVec 16) : Bool :=
  decide (1 ≤ n.toNat) && decide (n.toNat ≤ 16) && decide (v.toNat < 2 ^ n.toNat)

/-- A term some command word decodes to. CSR addresses and values are no encoding errors (R94). -/
def Instr.wellFormed : Instr → Bool
  | .wbits n v => wellFormedBits n v
  | .nop | .reset | .csrw _ _ | .csrr _ | .push _ | .iclr | .oclr | .lbclr | .lbrec _ | .lbfind
  | .cbegin | .mstep | .build | .tstore | .tload | .wfin | .rbit | .ralign | .estep | .efin
  | .dstep | .encchunk | .decchunk | .compress | .decompress => true

end Sys2Proof
end

