-- ==== Sys2Proof/Decode.lean ====
section
/-! DEFINITION. Command words (30_encoding.md R90 to R95): the decoder, total on 32-bit words and rejecting by name,
and after it the encoder, written from the format table R91. -/

namespace Sys2Proof

/-- Why a word is illegal (R94). -/
inductive DecodeError where
  /-- (a) the opcode is not in the table of R93. -/
  | unusedOpcode
  /-- (b) a field the format shows as 0 is not 0. -/
  | nonzeroField
  /-- (c) format W with `n = 0` or `n > 16`. -/
  | badBitCount
  /-- (c) format W with `v[15:n] != 0`. -/
  | highBitsSet
  deriving DecidableEq, Repr

/-- Bits [31:24] (R90). -/
def opcodeField (w : Word) : BitVec 8 := w.extractLsb' 24 8

/-- Bits [7:0] (format B), [23:16] (formats C, A), [15:0] (formats C, W), [20:16] (format W) (R91). -/
def byteField (w : Word) : Byte := w.extractLsb' 0 8
def addrField (w : Word) : BitVec 8 := w.extractLsb' 16 8
def valueField (w : Word) : BitVec 16 := w.extractLsb' 0 16
def countField (w : Word) : BitVec 5 := w.extractLsb' 16 5

/-- Format Z: bits [23:0] are 0. -/
def decodeZ (i : Instr) (w : Word) : Except DecodeError Instr :=
  if w.extractLsb' 0 24 = 0#24 then .ok i else .error .nonzeroField

/-- Format B: bits [23:8] are 0, `b` is [7:0]. -/
def decodeB (f : Byte → Instr) (w : Word) : Except DecodeError Instr :=
  if w.extractLsb' 8 16 = 0#16 then .ok (f (byteField w)) else .error .nonzeroField

/-- Format C: `a` is [23:16], `v` is [15:0]. -/
def decodeC (f : BitVec 8 → BitVec 16 → Instr) (w : Word) : Except DecodeError Instr :=
  .ok (f (addrField w) (valueField w))

/-- Format A: bits [15:0] are 0, `a` is [23:16]. -/
def decodeA (f : BitVec 8 → Instr) (w : Word) : Except DecodeError Instr :=
  if w.extractLsb' 0 16 = 0#16 then .ok (f (addrField w)) else .error .nonzeroField

/-- Format W: bits [23:21] are 0, `n` is [20:16], `v` is [15:0], with the limits of R92. -/
def decodeW (f : BitVec 5 → BitVec 16 → Instr) (w : Word) : Except DecodeError Instr :=
  if w.extractLsb' 21 3 = 0#3 then
    if (countField w).toNat = 0 ∨ 16 < (countField w).toNat then .error .badBitCount
    else if wellFormedBits (countField w) (valueField w) then .ok (f (countField w) (valueField w))
    else .error .highBitsSet
  else .error .nonzeroField

/-- R93: "take bits [31:24]; look the opcode up; check the format's must-be-zero fields; for W check `n` and `v`;
anything else is rule R94". -/
def decode (w : Word) : Except DecodeError Instr :=
  match (opcodeField w).toNat with
  | 0x00 => decodeZ .nop w
  | 0x01 => decodeZ .reset w
  | 0x02 => decodeC .csrw w
  | 0x03 => decodeA .csrr w
  | 0x04 => decodeB .push w
  | 0x05 => decodeZ .iclr w
  | 0x06 => decodeZ .oclr w
  | 0x10 => decodeZ .lbclr w
  | 0x11 => decodeB .lbrec w
  | 0x12 => decodeZ .lbfind w
  | 0x20 => decodeZ .cbegin w
  | 0x21 => decodeZ .mstep w
  | 0x30 => decodeZ .build w
  | 0x31 => decodeZ .tstore w
  | 0x32 => decodeZ .tload w
  | 0x40 => decodeW .wbits w
  | 0x41 => decodeZ .wfin w
  | 0x42 => decodeZ .rbit w
  | 0x43 => decodeZ .ralign w
  | 0x50 => decodeZ .estep w
  | 0x51 => decodeZ .efin w
  | 0x52 => decodeZ .dstep w
  | 0x58 => decodeZ .encchunk w
  | 0x59 => decodeZ .decchunk w
  | 0x60 => decodeZ .compress w
  | 0x61 => decodeZ .decompress w
  | _ => .error .unusedOpcode

/-- The five formats of R91, most significant field first. -/
def formatZ (op : BitVec 8) : Word := op ++ 0#24
def formatB (op : BitVec 8) (b : Byte) : Word := op ++ 0#16 ++ b
def formatC (op : BitVec 8) (a : BitVec 8) (v : BitVec 16) : Word := op ++ a ++ v
def formatA (op : BitVec 8) (a : BitVec 8) : Word := op ++ a ++ 0#16
def formatW (op : BitVec 8) (n : BitVec 5) (v : BitVec 16) : Word := op ++ 0#3 ++ n ++ v

/-- The command word of a term, from the opcode map R93 and the formats R91. -/
def encode : Instr → Word
  | .nop => formatZ 0x00#8
  | .reset => formatZ 0x01#8
  | .csrw a v => formatC 0x02#8 a v
  | .csrr a => formatA 0x03#8 a
  | .push b => formatB 0x04#8 b
  | .iclr => formatZ 0x05#8
  | .oclr => formatZ 0x06#8
  | .lbclr => formatZ 0x10#8
  | .lbrec b => formatB 0x11#8 b
  | .lbfind => formatZ 0x12#8
  | .cbegin => formatZ 0x20#8
  | .mstep => formatZ 0x21#8
  | .build => formatZ 0x30#8
  | .tstore => formatZ 0x31#8
  | .tload => formatZ 0x32#8
  | .wbits n v => formatW 0x40#8 n v
  | .wfin => formatZ 0x41#8
  | .rbit => formatZ 0x42#8
  | .ralign => formatZ 0x43#8
  | .estep => formatZ 0x50#8
  | .efin => formatZ 0x51#8
  | .dstep => formatZ 0x52#8
  | .encchunk => formatZ 0x58#8
  | .decchunk => formatZ 0x59#8
  | .compress => formatZ 0x60#8
  | .decompress => formatZ 0x61#8

/-- The command the host's numbered word stands for: a command is exactly one 32-bit word (R90), so the word is the
table's own number; `none` where the decoder rejects it or the number is no 32-bit word. -/
def decodeTableWord (nbits w : Nat) : Option Instr :=
  if w % 2 ^ nbits < 2 ^ 32 then (decode (BitVec.ofNat 32 (w % 2 ^ nbits))).toOption else none

end Sys2Proof
end

