-- ==== Sys2Proof/Config.lean ====
section
/-! DEFINITION. What is fixed for the hardware (00_scope.md R8) and the two open parameters (92_eei_decisions.md D28). -/

namespace Sys2Proof.Config

/-- `NIL`, the absent-child index and the value of ROOT when there is no tree (R8, 10_state.md R30, R31). -/
def nil : BitVec 17 := 0x1FFFF#17

/-- `NODE_MAX`, node memory entries (R8). -/
def nodeMax : Nat := 131071

/-- `TOK_MAX`, token memory entries (R8). -/
def tokMax : Nat := 65535

/-- Entries of `ring` (10_state.md R21). -/
def ringMax : Nat := 65535

/-- The bounds of the open parameters: IN_MAX <= 2^29 - 1, OUT_MAX <= 2^32 - 1 (R8). -/
def inMaxLimit : Nat := 2 ^ 29 - 1
def outMaxLimit : Nat := 2 ^ 32 - 1

/-- The open parameters, "model arguments" (R8, R50): buffer sizes in bytes. Held in State's field `params`,
which no step writes, so that a statement about every state speaks of every value of them (log 3). -/
structure Params where
  inMax  : Nat
  outMax : Nat
  deriving DecidableEq, Repr

/-- The ranges R8 gives: 1 <= IN_MAX <= 2^29 - 1 and 1 <= OUT_MAX <= 2^32 - 1. -/
abbrev Params.legal (p : Params) : Prop :=
  1 ≤ p.inMax ∧ p.inMax ≤ inMaxLimit ∧ 1 ≤ p.outMax ∧ p.outMax ≤ outMaxLimit

end Sys2Proof.Config
end

