-- ==== Sys2Proof/Machine/State.lean ====
section
/-! DEFINITION. The whole state of the block (10_state.md R20), plain data; the reasons a step can stop; the state after reset. -/

namespace Sys2Proof.Machine

open Sys2Proof

/-- A memory of entries `α`: (index, entry) pairs in one canonical form, indices strictly rising and no entry equal to
what an unlisted index reads as (`Mem.wf`, Machine/Ops.lean). -/
abbrev Mem (α : Type) := List (Nat × α)

/-- A byte memory: `ring`, `ibuf`, `obuf`. -/
abbrev Memory := List Host.Cell

/-- STATE, the chunk codec's state (R35; LIZ's six states, `Idle` and `Failed`, 45_chunk_codec.md R220). -/
inductive CodecState where
  | idle
  | collecting
  | treeReady
  | encoding
  | done
  | headerParsed
  | decoding
  | failed
  deriving DecidableEq, Repr

/-- The error kinds (60_exceptions.md R260); ERR = 0 "none" is the absence of one. -/
inductive ErrorKind where
  | malformedHeader
  | decodeTreeMismatch
  | prematureExhaustion
  | invalidMatchReference
  | resourceExhausted
  | illegalCommand
  deriving DecidableEq, Repr

/-- An entry of `nodemem` (R30): `kind` is the constructor, `sym` is meaningful for a leaf, `left` and `right` (node
indices or NIL) for an internal node, `weight` for both. -/
inductive Node where
  | leaf (sym : Word) (weight : BitVec 32)
  | internal (left right : BitVec 17) (weight : BitVec 32)
  deriving DecidableEq, Repr

/-- What the host does next at the block's inputs (00_scope.md R6, 70_reset_and_hazards.md R290). -/
inductive HostInput where
  /-- a command word on the command port (30_encoding.md R90). -/
  | command (w : Word)
  /-- a pulse on the reset input (R290). -/
  | resetInput
  deriving DecidableEq, Repr

/-- Why the machine can stop. Every command in every state the spec speaks of has a next state (60_exceptions.md R270:
"the step function is total on it"), its errors included; these four name what the spec leaves undefined, in states no
run reaches. All are safe: the model stops where the spec says nothing (log 9, 10). -/
inductive Fault where
  /-- Raised by TSTORE and BUILD when the node memory under ROOT holds no finite tree (R31 excludes it). Safe. -/
  | notATree
  /-- Raised by ESTEP, EFIN and WFIN when a symbol has no leaf to take its code from (43_huffman.md R188). Safe. -/
  | noCode
  /-- Raised by DSTEP when a leaf holds a word that is no valid symbol word (30_encoding.md R97). Safe. -/
  | invalidSymbol
  /-- Raised by a composite command that outruns the bound of 45_chunk_codec.md R229. Safe. -/
  | loopBound
  deriving DecidableEq, Repr

/-- Why the model gives no meaning. -/
inductive Refusal where
  /-- Raised by `exec`'s arm of an instruction without a meaning; no arm does so now. Safe. -/
  | notModelled (mnemonic : String)
  deriving DecidableEq, Repr

/-- The complete state (10_state.md R20), every register at the width the rules give, and two fields of the model's own. -/
structure State where
  -- lookback buffer (R21, R22)
  ring    : Memory
  wptr    : BitVec 16
  fill    : BitVec 16
  -- input side (R23, R24)
  ibuf    : Memory
  ilen    : BitVec 32
  ipos    : BitVec 32
  ibit    : BitVec 3
  -- output side (R25 to R27)
  obuf    : Memory
  olen    : BitVec 32
  acc     : BitVec 8
  nacc    : BitVec 3
  omark   : BitVec 32
  -- token memory (R28, R29)
  tokmem  : Mem Word
  ntok    : BitVec 16
  cstart  : BitVec 32
  cend    : BitVec 32
  eidx    : BitVec 16
  -- tree and code map (R30 to R32); TVALID and CMVALID are also FLAGS bits 4 and 5 (R34)
  nodemem : Mem Node
  nnode   : BitVec 17
  nleaf   : BitVec 17
  root    : BitVec 17
  tvalid  : Bool
  codemap : Mem Bits
  cmvalid : Bool
  -- result registers (R33) and FLAGS bits 0 to 3 (R34)
  moff    : BitVec 16
  mlen    : BitVec 8
  dsym    : Word
  fMatch  : Bool
  fBit    : Bool
  fExh    : Bool
  fStop   : Bool
  -- sequencing and error state (R35 to R37)
  state   : CodecState
  err     : Option ErrorKind
  errinfo : Word
  estate  : CodecState
  rdata   : Word
  -- configuration CSRs (R39 to R43)
  cap     : BitVec 16
  win     : BitVec 8
  minlen  : BitVec 8
  chunk   : BitVec 16
  ctrl    : BitVec 2
  -- the model's own: the open parameters (R50, log 3) and what the host does next (R50, log 1)
  params  : Config.Params
  port    : List HostInput
  deriving DecidableEq, Repr

/-- The machine right after reset: every register at its value of R49 (70_reset_and_hazards.md R290), memories with
nothing listed (R291), the largest buffers the spec allows (log 3), the host silent (log 1, log 17). -/
def State.reset : State where
  ring := []
  wptr := 0
  fill := 0
  ibuf := []
  ilen := 0
  ipos := 0
  ibit := 0
  obuf := []
  olen := 0
  acc := 0
  nacc := 0
  omark := 0
  tokmem := []
  ntok := 0
  cstart := 0
  cend := 0
  eidx := 0
  nodemem := []
  nnode := 0
  nleaf := 0
  root := Config.nil
  tvalid := false
  codemap := []
  cmvalid := false
  moff := 0
  mlen := 0
  dsym := 0
  fMatch := false
  fBit := false
  fExh := false
  fStop := false
  state := .idle
  err := none
  errinfo := 0
  estate := .idle
  rdata := 0
  cap := 4096
  win := 255
  minlen := 3
  chunk := 4096
  ctrl := 0b11#2
  params := ⟨Config.inMaxLimit, Config.outMaxLimit⟩
  port := []

end Sys2Proof.Machine
end

