-- ==== Sys2Proof/Machine/Operands.lean ====
section
/-! DEFINITION. Operand forms: the bit sequence of format W (30_encoding.md R92), symbol words (R96, R97), big-endian
bytes (20_memory.md R63), the magic bytes (46_container.md R245). -/

namespace Sys2Proof.Machine

open Sys2Proof

/-- R92: "the bit sequence denoted is `v[n-1], v[n-2], ..., v[0]` in that order". -/
def operandBits (n : BitVec 5) (v : BitVec 16) : Bits :=
  (List.range n.toNat).map fun j => v.getLsbD (n.toNat - 1 - j)

/-- A symbol: a token or `Stop` (R96). -/
inductive Symbol where
  | literal (b : Byte)
  | copy (offset : BitVec 16) (length : BitVec 8)   -- the spec's `Match(offset, length)`
  | stop
  deriving DecidableEq, Repr

/-- R96: `Literal(b)` is tag 0b00 with `b` in [7:0]. -/
def literalWord (b : Byte) : Word := 0b00#2 ++ 0#6 ++ 0#16 ++ b

/-- R96: `Match(offset, length)` is tag 0b01, `offset` in [23:8], `length` in [7:0]. -/
def matchWord (offset : BitVec 16) (length : BitVec 8) : Word := 0b01#2 ++ 0#6 ++ offset ++ length

/-- R96: `Stop` is 0x80000000. -/
def stopWord : Word := 0x80000000#32

def Symbol.toWord : Symbol → Word
  | .literal b => literalWord b
  | .copy o l => matchWord o l
  | .stop => stopWord

/-- The fields of a symbol word (R96): tag [31:30], [29:24], `offset` [23:8], `length` or `b` [7:0]. -/
def symTag (w : Word) : BitVec 2 := w.extractLsb' 30 2
def symReserved (w : Word) : BitVec 6 := w.extractLsb' 24 6
def symOffset (w : Word) : BitVec 16 := w.extractLsb' 8 16
def symLow (w : Word) : BitVec 8 := w.extractLsb' 0 8

/-- The symbol of a VALID symbol word, by the validity rule R97; `none` for every other word. -/
def symbolOf (w : Word) : Option Symbol :=
  if symTag w = 0b00#2 then
    if symReserved w = 0#6 ∧ symOffset w = 0#16 then some (.literal (symLow w)) else none
  else if symTag w = 0b01#2 then
    if symReserved w = 0#6 ∧ symOffset w ≠ 0#16 ∧ symLow w ≠ 0#8 then some (.copy (symOffset w) (symLow w)) else none
  else if symTag w = 0b10#2 then
    if w.extractLsb' 0 30 = 0#30 then some .stop else none
  else none

/-- R97. -/
def validSymbol (w : Word) : Bool := (symbolOf w).isSome

/-- A word a token entry may hold: a valid Literal or Match word, "never Stop" (10_state.md R28). -/
def tokenWord (w : Word) : Bool := validSymbol w && decide (w ≠ stopWord)

/-- The four bytes of a symbol word, most significant first (R63, R100). -/
def wordBytes (w : Word) : List Byte :=
  [w.extractLsb' 24 8, w.extractLsb' 16 8, w.extractLsb' 8 8, w.extractLsb' 0 8]

/-- The symbol word of four bytes, most significant first (43_huffman.md R185). -/
def wordOfBytes (b3 b2 b1 b0 : Byte) : Word := b3 ++ b2 ++ b1 ++ b0

/-- The 16-bit capacity of two bytes, most significant first (46_container.md R247). -/
def capOfBytes (hi lo : Byte) : BitVec 16 := hi ++ lo

/-- "the magic and version marker 0x4C, 0x5A, 0x48, 0x01" (R245). -/
def magicBytes : List Byte := [0x4C, 0x5A, 0x48, 0x01]

/-- The file header: the magic, then `CAP` most significant byte first (R245). -/
def fileHeader (cap : BitVec 16) : List Byte := magicBytes ++ [cap.extractLsb' 8 8, cap.extractLsb' 0 8]

end Sys2Proof.Machine
end

