-- ==== Sys2Proof/Machine/Flags.lean ====
section
/-! DEFINITION. FLAGS (10_state.md R34), CTRL's fields (R43), the codes of STATE and ERR (R35, 60_exceptions.md R260),
and the CSR file as read (R38, R44). -/

namespace Sys2Proof.Machine

open Sys2Proof

/-- The values of STATE (R35). -/
def CodecState.code : CodecState → BitVec 3
  | .idle => 0
  | .collecting => 1
  | .treeReady => 2
  | .encoding => 3
  | .done => 4
  | .headerParsed => 5
  | .decoding => 6
  | .failed => 7

/-- The cause codes (R260). -/
def ErrorKind.code : ErrorKind → BitVec 3
  | .malformedHeader => 1
  | .decodeTreeMismatch => 2
  | .prematureExhaustion => 3
  | .invalidMatchReference => 4
  | .resourceExhausted => 5
  | .illegalCommand => 6

/-- ERR as read: "0 when none" (R36). -/
def errCode : Option ErrorKind → BitVec 3
  | none => 0
  | some k => k.code

/-- FLAGS as a register: bit 0 MATCH, 1 BIT, 2 EXH, 3 STOP, "Bit 4 mirrors `TVALID`, bit 5 mirrors `CMVALID`" (R34). -/
def State.flags (s : State) : BitVec 6 :=
  BitVec.ofBool s.cmvalid ++ BitVec.ofBool s.tvalid ++ BitVec.ofBool s.fStop ++ BitVec.ofBool s.fExh ++
    BitVec.ofBool s.fBit ++ BitVec.ofBool s.fMatch

/-- `CTRL.OVL`, bit 0 (R43). -/
def State.ovl (s : State) : Bool := s.ctrl.getLsbD 0

/-- `CTRL.LAST`, bit 1 (R43). -/
def State.last (s : State) : Bool := s.ctrl.getLsbD 1

/-- BITACC as read: NACC in [10:8], ACC in [7:0] (R44). -/
def State.bitacc (s : State) : BitVec 11 := s.nacc ++ s.acc

/-- ID, "constant 0x4C5A4801" (R44). -/
def idWord : Word := 0x4C5A4801#32

/-- The CSR file as read, zero-extended to 32 bits (R44); `none` for "every other address" (R38). -/
def State.csrRead (s : State) (a : BitVec 8) : Option Word :=
  match a.toNat with
  | 0x00 => some (s.cap.setWidth 32)
  | 0x01 => some (s.win.setWidth 32)
  | 0x02 => some (s.minlen.setWidth 32)
  | 0x03 => some (s.chunk.setWidth 32)
  | 0x04 => some (s.ctrl.setWidth 32)
  | 0x10 => some (s.state.code.setWidth 32)
  | 0x11 => some ((errCode s.err).setWidth 32)
  | 0x12 => some s.errinfo
  | 0x13 => some (s.estate.code.setWidth 32)
  | 0x14 => some (s.flags.setWidth 32)
  | 0x15 => some (s.fill.setWidth 32)
  | 0x16 => some (s.wptr.setWidth 32)
  | 0x17 => some s.ipos
  | 0x18 => some (s.ibit.setWidth 32)
  | 0x19 => some s.ilen
  | 0x1A => some s.olen
  | 0x1B => some (s.bitacc.setWidth 32)
  | 0x1C => some (s.ntok.setWidth 32)
  | 0x1D => some (s.eidx.setWidth 32)
  | 0x1E => some s.cstart
  | 0x1F => some s.cend
  | 0x20 => some (s.nnode.setWidth 32)
  | 0x21 => some (s.nleaf.setWidth 32)
  | 0x22 => some (s.root.setWidth 32)
  | 0x23 => some (s.moff.setWidth 32)
  | 0x24 => some (s.mlen.setWidth 32)
  | 0x25 => some s.dsym
  | 0x26 => some s.omark
  | 0x27 => some s.rdata
  | 0x28 => some idWord
  | _ => none

/-- The addresses `CSRR` may read: 0x00..0x04 and 0x10..0x28 (40_host_config.md R125). -/
def csrImplemented (a : BitVec 8) : Bool :=
  decide (a.toNat ≤ 0x04) || (decide (0x10 ≤ a.toNat) && decide (a.toNat ≤ 0x28))

/-- The (address, value) pairs `CSRW` accepts (40_host_config.md R124). -/
def csrWritable (a : BitVec 8) (v : BitVec 16) : Bool :=
  match a.toNat with
  | 0x00 => decide (1 ≤ v.toNat)
  | 0x01 => decide (1 ≤ v.toNat) && decide (v.toNat ≤ 255)
  | 0x02 => decide (2 ≤ v.toNat) && decide (v.toNat ≤ 255)
  | 0x03 => decide (1 ≤ v.toNat)
  | 0x04 => decide (v.toNat ≤ 3)
  | _ => false

end Sys2Proof.Machine
end

