-- ==== Sys2Proof/Machine/Ops.lean ====
section
/-! DEFINITION. The shared operations: memories in canonical form, the ring, the two byte streams, error entry and the
return from it, the dispatch order and legality of a command. -/

namespace Sys2Proof.Machine

open Sys2Proof

/-! ## Memories (20_memory.md R60, R75) -/

/-- Entry `a`; an unlisted index reads as `d` (log 4). -/
def Mem.read {α : Type} (d : α) : Mem α → Nat → α
  | [], _ => d
  | c :: m, a => if c.1 = a then c.2 else Mem.read d m a

/-- Put an entry for `a` in its place in a rising list that has none. -/
def Mem.insertAt {α : Type} (a : Nat) (v : α) : Mem α → Mem α
  | [] => [(a, v)]
  | c :: m => if a < c.1 then (a, v) :: c :: m else c :: Mem.insertAt a v m

/-- `mem[a] <- v`. Writing what an unlisted index reads as removes the entry, so equal memories are equal lists. -/
def Mem.write {α : Type} [DecidableEq α] (d : α) (m : Mem α) (a : Nat) (v : α) : Mem α :=
  let rest := m.filter fun c => decide (c.1 ≠ a)
  if v = d then rest else Mem.insertAt a v rest

/-- Writes in order at `a`, `a + 1`, ... -/
def Mem.writeSeq {α : Type} [DecidableEq α] (d : α) : Mem α → Nat → List α → Mem α
  | m, _, [] => m
  | m, a, v :: vs => Mem.writeSeq d (Mem.write d m a v) (a + 1) vs

/-- The entries `a`, `a + 1`, ..., `a + n - 1`. -/
def Mem.readSeq {α : Type} (d : α) (m : Mem α) (a n : Nat) : List α := (List.range n).map fun i => Mem.read d m (a + i)

/-- Indices strictly rising. -/
def Mem.rising {α : Type} : Mem α → Bool
  | [] => true
  | [_] => true
  | c :: e :: m => decide (c.1 < e.1) && Mem.rising (e :: m)

/-- The canonical form: indices strictly rising, no entry equal to what an unlisted index reads as. -/
def Mem.wf {α : Type} [DecidableEq α] (d : α) (m : Mem α) : Bool := Mem.rising m && m.all fun c => decide (c.2 ≠ d)

/-- Every listed index is below `n`, the memory's number of entries. -/
def Mem.within {α : Type} (n : Nat) (m : Mem α) : Bool := m.all fun c => decide (c.1 < n)

/-- The canonical form of a byte memory. -/
def Memory.wf (m : Memory) : Bool := Mem.wf (0 : Byte) m

/-- What an entry of `nodemem` never written reads as: all bits zero (log 4). -/
def Node.zero : Node := .leaf 0 0

def State.ringAt (s : State) (i : Nat) : Byte := Mem.read (0 : Byte) s.ring i
def State.ibufAt (s : State) (i : Nat) : Byte := Mem.read (0 : Byte) s.ibuf i
def State.obufAt (s : State) (i : Nat) : Byte := Mem.read (0 : Byte) s.obuf i
def State.tokAt (s : State) (i : Nat) : Word := Mem.read (0 : Word) s.tokmem i
def State.nodeAt (s : State) (i : Nat) : Node := Mem.read Node.zero s.nodemem i
def State.codeAt (s : State) (i : Nat) : Bits := Mem.read ([] : Bits) s.codemap i

/-- `ibuf[a .. a + n)`. -/
def State.ibufSlice (s : State) (a n : Nat) : List Byte := Mem.readSeq (0 : Byte) s.ibuf a n

/-- `obuf[a .. a + n)`. -/
def State.obufSlice (s : State) (a n : Nat) : List Byte := Mem.readSeq (0 : Byte) s.obuf a n

/-- `tokmem[0 .. NTOK)`. -/
def State.tokens (s : State) : List Word := Mem.readSeq (0 : Word) s.tokmem 0 s.ntok.toNat

/-! ## The ring (20_memory.md R61, 41_lookback.md R140, R141) -/

/-- `Hist(d) = ring[(WPTR + CAP - d) mod CAP]`, the byte recorded `d` records ago (R61). -/
def State.hist (s : State) (d : Nat) : Byte := s.ringAt ((s.wptr.toNat + s.cap.toNat - d) % s.cap.toNat)

/-- `History`, oldest first: `[Hist(FILL), ..., Hist(1)]` (R141). -/
def State.history (s : State) : List Byte := (List.range s.fill.toNat).map fun i => s.hist (s.fill.toNat - i)

/-- `Record(b)` (R140). -/
def State.record (s : State) (b : Byte) : State :=
  { s with
    ring := Mem.write (0 : Byte) s.ring s.wptr.toNat b
    wptr := BitVec.ofNat 16 ((s.wptr.toNat + 1) % s.cap.toNat)
    fill := BitVec.ofNat 16 (min (s.fill.toNat + 1) s.cap.toNat) }

/-- `Record` of each byte in order. -/
def State.recordAll : State → List Byte → State
  | s, [] => s
  | s, b :: bs => State.recordAll (s.record b) bs

/-- `WPTR <- 0 ; FILL <- 0` (R145, whose words are that the contents are kept; for the other users of this operation that is
the model's choice, log 26). -/
def State.clearRing (s : State) : State := { s with wptr := 0, fill := 0 }

/-! ## The output bytes (10_state.md R25, 44_bitstream.md R210) -/

/-- `obuf[OLEN] <- b ; OLEN <- OLEN + 1`. -/
def State.appendByte (s : State) (b : Byte) : State :=
  { s with obuf := Mem.write (0 : Byte) s.obuf s.olen.toNat b, olen := BitVec.ofNat 32 (s.olen.toNat + 1) }

/-- `appendByte` of each byte in order. -/
def State.appendBytes : State → List Byte → State
  | s, [] => s
  | s, b :: bs => State.appendBytes (s.appendByte b) bs

/-- The condition of `NeedOut(k)`: `OLEN + k <= OUT_MAX` (R210). -/
def State.hasRoom (s : State) (k : Nat) : Bool := decide (s.olen.toNat + k ≤ s.params.outMax)

/-- `OLEN <- 0 ; OMARK <- 0 ; ACC <- 0 ; NACC <- 0` (40_host_config.md R128). -/
def State.clearOut (s : State) : State := { s with olen := 0, omark := 0, acc := 0, nacc := 0 }

/-! ## Error entry and the return from it (60_exceptions.md R268, R269, R271) -/

/-- `raise K(info)` on the state its step (1) leaves: ESTATE, ERR, ERRINFO, the roll-back of OLEN in HeaderParsed and
Decoding (R269), STATE = Failed. The bytes of `obuf` the roll-back withdraws stay where they are: the model's choice
(DESIGN CHOICE, log 24; 93_implementation_defined.md section 2 row 6 allows any value). -/
def State.raise (s : State) (k : ErrorKind) (info : Word) : State :=
  { s with
    estate := s.state
    err := some k
    errinfo := info
    olen := if s.state = .headerParsed ∨ s.state = .decoding then s.omark else s.olen
    state := .failed }

/-- "every register <- its reset value", memories not cleared (40_host_config.md R123): the only exit from Failed
(R271), by the RESET command and the reset input alike (70_reset_and_hazards.md R290). -/
def State.resetRegisters (s : State) : State :=
  { State.reset with
    ring := s.ring
    ibuf := s.ibuf
    obuf := s.obuf
    tokmem := s.tokmem
    nodemem := s.nodemem
    codemap := s.codemap
    params := s.params
    port := s.port }

/-- How a command's pseudocode ends: it completes, or it raises (on the state that survives step (1) of R268), or it
meets what the spec leaves undefined. -/
inductive Res where
  | ok (s : State)
  | raised (k : ErrorKind) (info : Word) (s : State)
  | stuck (f : Fault)
  deriving DecidableEq, Repr

/-- One piece of pseudocode after another: a raise ends the command. -/
def Res.andThen (r : Res) (f : State → Res) : Res :=
  match r with
  | .ok s => f s
  | .raised k info s => .raised k info s
  | .stuck e => .stuck e

/-- R229: a composite reports its own word for an `IllegalCommand` of a primitive. -/
def Res.inComposite (w : Word) : Res → Res
  | .ok s => .ok s
  | .raised .illegalCommand _ s => .raised .illegalCommand w s
  | .raised k info s => .raised k info s
  | .stuck e => .stuck e

/-- The step's outcome: a raise is error entry, a next state. -/
def Res.outcome : Res → Host.Outcome State Fault Refusal
  | .ok s => .next s
  | .raised k info s => .next (s.raise k info)
  | .stuck f => .fault f

/-- `NeedOut(k)` and then `f` (R210). -/
def State.needOut (s : State) (k : Nat) (f : State → Res) : Res :=
  if s.hasRoom k then f s else .raised .resourceExhausted 2 s

/-- `while cond: body`, at most `fuel` times round; the bound is R229's and is never reached (log 10). -/
def repeatWhile (cond : State → Bool) (body : State → Res) : Nat → State → Res
  | 0, s => if cond s then .stuck .loopBound else .ok s
  | n + 1, s => if cond s then (body s).andThen (repeatWhile cond body n) else .ok s

/-! ## Dispatch (40_host_config.md R120, R121) -/

/-- No chunk is open: `Idle` and `Done` (45_chunk_codec.md R220). -/
def CodecState.noChunk : CodecState → Bool
  | .idle | .done => true
  | .collecting | .treeReady | .encoding | .headerParsed | .decoding | .failed => false

/-- R121, column "Legal in STATE". -/
def legalIn : Instr → CodecState → Bool
  | .nop, _ | .reset, _ | .csrr _, _ => true
  | .csrw _ _, st | .push _, st | .iclr, st | .oclr, st | .lbclr, st | .lbrec _, st | .lbfind, st | .cbegin, st
  | .tload, st | .wbits _ _, st | .wfin, st | .rbit, st | .ralign, st | .encchunk, st | .decchunk, st
  | .compress, st | .decompress, st => st.noChunk
  | .mstep, st | .build, st => decide (st = .collecting)
  | .tstore, st => decide (st = .treeReady)
  | .estep, st | .efin, st => decide (st = .treeReady) || decide (st = .encoding)
  | .dstep, st => decide (st = .headerParsed) || decide (st = .decoding)

/-- R121, column "Extra precondition". -/
def precondition : Instr → State → Bool
  | .nop, _ | .reset, _ | .push _, _ | .iclr, _ | .oclr, _ | .lbclr, _ | .lbrec _, _ | .tstore, _ | .wbits _ _, _
  | .rbit, _ | .ralign, _ | .dstep, _ => true
  | .csrr a, _ => csrImplemented a
  | .csrw a v, _ => csrWritable a v
  | .lbfind, s | .compress, s | .decompress, s => decide (s.ibit = 0)
  | .cbegin, s | .tload, s | .encchunk, s | .decchunk, s => decide (s.ibit = 0) && decide (s.nacc = 0)
  | .mstep, s => decide (s.ipos.toNat < s.cend.toNat)
  | .build, s => decide (s.ipos = s.cend)
  | .wfin, s => decide (s.nacc = 0) || s.cmvalid
  | .estep, s => decide (s.eidx.toNat < s.ntok.toNat)
  | .efin, s => decide (s.eidx = s.ntok)

/-- R120 steps 2 to 5 for the command `i`: malformed word, state, precondition, then its pseudocode. -/
def runChecked (i : Instr) (body : State → Res) (s : State) : Res :=
  if i.wellFormed = false then .raised .illegalCommand (encode i) s
  else if legalIn i s.state = false then .raised .illegalCommand (encode i) s
  else if precondition i s = false then .raised .illegalCommand (encode i) s
  else body s

/-- R120 step 1: what `Failed` still executes, "a well-formed `NOP`, `RESET` or `CSRR` with an implemented address". -/
def runsInFailed : Instr → Bool
  | .nop | .reset => true
  | .csrr a => csrImplemented a
  | .csrw _ _ | .push _ | .iclr | .oclr | .lbclr | .lbrec _ | .lbfind | .cbegin | .mstep | .build | .tstore
  | .tload | .wbits _ _ | .wfin | .rbit | .ralign | .estep | .efin | .dstep | .encchunk | .decchunk | .compress
  | .decompress => false

/-- R120, all of it, for the command `i` with the pseudocode `body`. -/
def command (i : Instr) (body : State → Res) (s : State) : Host.Outcome State Fault Refusal :=
  if s.state = .failed then
    if runsInFailed i then (body s).outcome else .next s
  else (runChecked i body s).outcome

end Sys2Proof.Machine
end

