-- ==== Sys2Proof/Machine/BitStream.lean ====
section
/-! DEFINITION. The bit stream writer and reader (44_bitstream.md): `PutBit`, `PutBits`, `Finish`, `Avail`, `GetBit`,
`Align`, and WBITS, RBIT, RALIGN. (WFIN needs the code map: Machine/Huffman.lean.) -/

namespace Sys2Proof.Machine

open Sys2Proof

/-- `ACC | (b << (7 - NACC))`: "the first bit of a byte goes to bit 7" (R200). -/
def accWith (acc : BitVec 8) (nacc : Nat) (b : Bool) : BitVec 8 :=
  acc ||| ((BitVec.ofBool b).setWidth 8 <<< (7 - nacc))

/-- `PutBit(b)` (R200). -/
def State.putBit (s : State) (b : Bool) : State :=
  if s.nacc.toNat + 1 = 8 then { s.appendByte (accWith s.acc s.nacc.toNat b) with acc := 0, nacc := 0 }
  else { s with acc := accWith s.acc s.nacc.toNat b, nacc := BitVec.ofNat 3 (s.nacc.toNat + 1) }

/-- `PutBits(c)`: "`PutBit(c_0); PutBit(c_1); ...` in that order" (R201). -/
def State.putBits : State → Bits → State
  | s, [] => s
  | s, b :: bs => State.putBits (s.putBit b) bs

/-- The slack bits: "the stop code's bits, repeated from its start" (R202). -/
def padding (code : Bits) (k : Nat) : Bits := (List.range k).map fun j => code.getD (j % code.length) false

/-- `Finish(s)` (R202). -/
def State.finish (s : State) (code : Bits) : State :=
  if 0 < s.nacc.toNat then s.putBits (padding code (8 - s.nacc.toNat)) else s

/-- `Avail()` is `IPOS < ILEN` (R203). -/
def State.avail (s : State) : Bool := decide (s.ipos.toNat < s.ilen.toNat)

/-- The bit under the cursor: `(ibuf[IPOS] >> (7 - IBIT)) & 1` (R203). -/
def State.nextBit (s : State) : Bool := (s.ibufAt s.ipos.toNat).getLsbD (7 - s.ibit.toNat)

/-- The cursor one bit further (R203). -/
def State.skipBit (s : State) : State :=
  if s.ibit.toNat + 1 = 8 then { s with ibit := 0, ipos := BitVec.ofNat 32 (s.ipos.toNat + 1) }
  else { s with ibit := BitVec.ofNat 3 (s.ibit.toNat + 1) }

/-- `Align()` (R204). -/
def State.align (s : State) : State :=
  if s.ibit ≠ 0 then { s with ibit := 0, ipos := BitVec.ofNat 32 (s.ipos.toNat + 1) } else s

/-- The bits of a byte in transmission order, "bit 7 of a byte is read first" (20_memory.md R62, R64). -/
def bitsOfByte (b : Byte) : Bits := (List.range 8).map fun j => b.getLsbD (7 - j)

/-- Every bit written so far, for claims: those of `obuf[0 .. OLEN)`, then the NACC pending ones (10_state.md R25, R26). -/
def State.written (s : State) : Bits :=
  (s.obufSlice 0 s.olen.toNat).flatMap bitsOfByte ++ (bitsOfByte s.acc).take s.nacc.toNat

/-- Every bit not yet read, for claims: those of `ibuf[IPOS .. ILEN)` less the first IBIT (10_state.md R24, R64). -/
def State.unread (s : State) : Bits :=
  ((s.ibufSlice s.ipos.toNat (s.ilen.toNat - s.ipos.toNat)).flatMap bitsOfByte).drop s.ibit.toNat

/-- `WBITS n, v` (R205). -/
def wbitsBody (n : BitVec 5) (v : BitVec 16) (s : State) : Res :=
  s.needOut ((s.nacc.toNat + n.toNat) / 8) fun s => .ok (s.putBits (operandBits n v))

def execWbits (n : BitVec 5) (v : BitVec 16) (s : State) : Host.Outcome State Fault Refusal :=
  command (.wbits n v) (wbitsBody n v) s

/-- `RBIT` (R207): `GetBit` with BIT and EXH, exhaustion reported and never raised. -/
def rbitBody (s : State) : Res :=
  if s.avail then .ok { s.skipBit with fBit := s.nextBit, fExh := false }
  else .ok { s with fBit := false, fExh := true }

def execRbit (s : State) : Host.Outcome State Fault Refusal := command .rbit rbitBody s

/-- `RALIGN` (R208). -/
def ralignBody (s : State) : Res := .ok s.align

def execRalign (s : State) : Host.Outcome State Fault Refusal := command .ralign ralignBody s

end Sys2Proof.Machine
end

