-- ==== Sys2Proof/Machine/Huffman.lean ====
section
/-! DEFINITION. Huffman trees (43_huffman.md): `Freq`, `Build`, `Codes`, `LeafOf`, `Walk`, `Ser`, `SerLen`, `Parse`, and
BUILD, TSTORE, TLOAD; WFIN (44_bitstream.md R206), which pads with the stop code. -/

namespace Sys2Proof.Machine

open Sys2Proof

/-! ## Building (R175 to R177) -/

/-- `Freq(w)`: the count in the token list, and 1 for `Stop` (R175). -/
def freq (toks : List Word) (w : Word) : Nat := if w = stopWord then 1 else toks.count w

/-- Insert a symbol word in a rising list, once. -/
def insertSymbol (w : Word) : List Word → List Word
  | [] => [w]
  | x :: xs => if w.toNat < x.toNat then w :: x :: xs else if w = x then x :: xs else x :: insertSymbol w xs

/-- The alphabet "in increasing order of the symbol word taken as an unsigned 32-bit integer", `Stop` included
(R175, R176). -/
def alphabet (toks : List Word) : List Word := toks.foldr insertSymbol [stopWord]

/-- The leaves, in leaf order, with their weights (R176, R177). -/
def leafNodes (toks : List Word) : List Node :=
  (alphabet toks).map fun w => .leaf w (BitVec.ofNat 32 (freq toks w))

/-- An active node of the construction: its weight and its index. -/
abbrev Active := Nat × Nat

/-- "(weight, index), compared lexicographically" (R177). -/
def Active.less (a b : Active) : Bool := decide (a.1 < b.1) || (decide (a.1 = b.1) && decide (a.2 < b.2))

/-- The least of `a` and a list. -/
def Active.least : Active → List Active → Active
  | a, [] => a
  | a, b :: bs => Active.least (if Active.less b a then b else a) bs

/-- Take the least active node out. -/
def takeLeast : List Active → Option (Active × List Active)
  | [] => none
  | a :: as => some (Active.least a as, (a :: as).erase (Active.least a as))

/-- Two nodes combined: the first taken is the left child (R177). -/
def combined (a b : Active) : Node :=
  .internal (BitVec.ofNat 17 a.2) (BitVec.ofNat 17 b.2) (BitVec.ofNat 32 (a.1 + b.1))

/-- The loop of `Build`: the internal nodes in creation order, the next index `next` (R177). -/
def combineAll : Nat → List Active → Nat → List Node
  | 0, _, _ => []
  | k + 1, active, next =>
    match takeLeast active with
    | none => []
    | some (a, rest) =>
      match takeLeast rest with
      | none => []
      | some (b, rest') => combined a b :: combineAll k ((a.1 + b.1, next) :: rest') (next + 1)

/-- A node's weight field (10_state.md R30). -/
def Node.weight : Node → BitVec 32
  | .leaf _ w => w
  | .internal _ _ w => w

/-- The initial active nodes: all leaves. -/
def activeLeaves (leaves : List Node) : List Active :=
  (leaves.map fun x => x.weight.toNat).zip (List.range leaves.length)

/-- The node list `Build` writes into `nodemem` (R177). -/
def buildNodes (toks : List Word) : List Node :=
  let leaves := leafNodes toks
  if leaves.length = 1 then leaves ++ [.internal 0 Config.nil ((leaves.getD 0 Node.zero).weight)]
  else leaves ++ combineAll (leaves.length - 1) (activeLeaves leaves) leaves.length

/-- `Build()` (R177). -/
def State.buildTree (s : State) : State :=
  let n := (leafNodes s.tokens).length
  { s with
    nodemem := Mem.writeSeq Node.zero s.nodemem 0 (buildNodes s.tokens)
    nleaf := BitVec.ofNat 17 n
    nnode := BitVec.ofNat 17 (if n = 1 then 2 else 2 * n - 1)
    root := BitVec.ofNat 17 (if n = 1 then 1 else 2 * n - 2) }

/-! ## The tree the registers hold (10_state.md R31), its codes (R180) and its bytes (30_encoding.md R100) -/

/-- A tree of node memory, read out: absent child, leaf (its index and symbol), internal node. -/
inductive HTree where
  | nil
  | leaf (index : Nat) (sym : Word)
  | node (left right : HTree)
  deriving DecidableEq, Repr

/-- The tree under index `i`; `none` if it is deeper than `fuel`. -/
def treeAt (nodes : Mem Node) : Nat → BitVec 17 → Option HTree
  | 0, _ => none
  | k + 1, i =>
    if i = Config.nil then some .nil
    else match Mem.read Node.zero nodes i.toNat with
      | .leaf w _ => some (.leaf i.toNat w)
      | .internal l r _ =>
        match treeAt nodes k l, treeAt nodes k r with
        | some L, some R => some (.node L R)
        | _, _ => none

/-- The tree at ROOT. A finite tree of NNODE nodes is at most NNODE deep, its absent children one more. -/
def State.tree (s : State) : Option HTree := treeAt s.nodemem (s.nnode.toNat + 1) s.root

/-- `Visit(i, p)`: the leaves with "the sequence of branch bits on the path from the root", 0 left, 1 right (R180). -/
def HTree.codes : HTree → Bits → List (Nat × Bits)
  | .nil, _ => []
  | .leaf i _, p => [(i, p)]
  | .node l r, p => l.codes (p ++ [false]) ++ r.codes (p ++ [true])

/-- `codemap[k] <- code` for each leaf. -/
def writeCodes : Mem Bits → List (Nat × Bits) → Mem Bits
  | m, [] => m
  | m, (k, c) :: cs => writeCodes (Mem.write ([] : Bits) m k c) cs

/-- `Ser(i)`, pre-order bytes (30_encoding.md R100). -/
def HTree.ser : HTree → List Byte
  | .nil => [0x02]
  | .leaf _ w => 0x01 :: wordBytes w
  | .node l r => 0x00 :: (l.ser ++ r.ser)

/-- `SerLen(i)` (R183). -/
def HTree.serLen : HTree → Nat
  | .nil => 1
  | .leaf _ _ => 5
  | .node l r => 1 + l.serLen + r.serLen

/-- Is node `n` the leaf of the symbol word `w`? -/
def Node.isLeafOf (w : Word) : Node → Bool
  | .leaf x _ => decide (x = w)
  | .internal _ _ _ => false

def Node.isLeaf : Node → Bool
  | .leaf _ _ => true
  | .internal _ _ _ => false

/-- `LeafOf(w)`: the `k < NLEAF` with `nodemem[k].sym = w` (R188). -/
def State.leafOf (s : State) (w : Word) : Option Nat :=
  (List.range s.nleaf.toNat).find? fun k => (s.nodeAt k).isLeafOf w

/-- `Code(w) = codemap[LeafOf(w)]` (R180). -/
def State.codeOf (s : State) (w : Word) : Option Bits := (s.leafOf w).map s.codeAt

/-- Go on with `Code(w)`. -/
def State.withCode (s : State) (w : Word) (f : Bits → Res) : Res :=
  match s.codeOf w with
  | some c => f c
  | none => .stuck .noCode

/-- `Codes()` for the tree `t`, then EIDX, TVALID, CMVALID, STATE (R182). -/
def State.codeTree (s : State) (t : HTree) : State :=
  { s with
    codemap := writeCodes s.codemap (t.codes [])
    eidx := 0
    tvalid := true
    cmvalid := true
    state := .treeReady }

/-- `BUILD` (R182): `Build()`, then `Codes()`. -/
def buildBody (s : State) : Res :=
  match s.buildTree.tree with
  | none => .stuck .notATree
  | some t => .ok (s.buildTree.codeTree t)

def execBuild (s : State) : Host.Outcome State Fault Refusal := command .build buildBody s

/-- `TSTORE` (R184). -/
def tstoreBody (s : State) : Res :=
  match s.tree with
  | none => .stuck .notATree
  | some t => s.needOut t.serLen fun s => .ok (s.appendBytes t.ser)

def execTstore (s : State) : Host.Outcome State Fault Refusal := command .tstore tstoreBody s

/-! ## Parsing (R185) -/

/-- What `Node(top)` returns: its node index or NIL, the position after it, and the nodes it took in pre-order. -/
structure Parsed where
  index : BitVec 17
  pos   : Nat
  nodes : List Node
  deriving DecidableEq, Repr

/-- `Node(top)` of R185 at position `pos` with `cnt` nodes already taken; `.error info` is `Bad(info)`. Each call
consumes a byte, so fuel `ILEN - pos + 1` never runs out before `pos >= ILEN`, where the answer is `Bad(ILEN)` anyway. -/
def parseNode (at_ : Nat → Byte) (ilen : Nat) : Nat → Bool → Nat → Nat → Except Nat Parsed
  | 0, _, _, _ => .error ilen
  | k + 1, top, pos, cnt =>
    if ilen ≤ pos then .error ilen
    else if top ∧ at_ pos ≠ 0x00 then .error pos
    else if at_ pos = 0x00 then
      if Config.nodeMax ≤ cnt then .error pos
      else match parseNode at_ ilen k false (pos + 1) (cnt + 1) with
        | .error e => .error e
        | .ok l =>
          match parseNode at_ ilen k false l.pos (cnt + 1 + l.nodes.length) with
          | .error e => .error e
          | .ok r => .ok ⟨BitVec.ofNat 17 cnt, r.pos, .internal l.index r.index 0 :: (l.nodes ++ r.nodes)⟩
    else if at_ pos = 0x01 then
      if ilen < pos + 1 + 4 then .error ilen
      else if validSymbol (wordOfBytes (at_ (pos + 1)) (at_ (pos + 2)) (at_ (pos + 3)) (at_ (pos + 4))) = false then
        .error pos
      else if Config.nodeMax ≤ cnt then .error pos
      else .ok ⟨BitVec.ofNat 17 cnt, pos + 5,
        [.leaf (wordOfBytes (at_ (pos + 1)) (at_ (pos + 2)) (at_ (pos + 3)) (at_ (pos + 4))) 0]⟩
    else if at_ pos = 0x02 then .ok ⟨Config.nil, pos + 1, []⟩
    else .error pos

/-- `Parse(p)` (R185). -/
def State.parse (s : State) (p : Nat) : Except Nat Parsed :=
  parseNode s.ibufAt s.ilen.toNat (s.ilen.toNat - p + 1) true p 0

/-- A failed `TLOAD` destroys the previous tree (R186): its five registers. `nodemem` and `codemap` keep their entries: the
model's choice (DESIGN CHOICE, log 25; 93_implementation_defined.md section 2 row 4 allows any value). -/
def State.dropTree (s : State) : State :=
  { s with nnode := 0, nleaf := 0, root := Config.nil, tvalid := false, cmvalid := false }

/-- A successful parse, taken into the registers (R186). -/
def State.loadTree (s : State) (t : Parsed) : State :=
  { s with
    nodemem := Mem.writeSeq Node.zero s.nodemem 0 t.nodes
    nnode := BitVec.ofNat 17 t.nodes.length
    nleaf := BitVec.ofNat 17 (t.nodes.countP Node.isLeaf)
    root := 0
    tvalid := true
    cmvalid := false
    ipos := BitVec.ofNat 32 t.pos
    omark := s.olen
    fExh := false
    fStop := false
    state := .headerParsed }

/-- `TLOAD` (R186). -/
def tloadBody (s : State) : Res :=
  match s.parse s.ipos.toNat with
  | .error info => .raised .malformedHeader (BitVec.ofNat 32 info) s.dropTree
  | .ok t => .ok (s.loadTree t)

def execTload (s : State) : Host.Outcome State Fault Refusal := command .tload tloadBody s

/-! ## Walking (R181) -/

/-- What `Walk()` returns; `symbol` carries the state with the cursor after the code. -/
inductive WalkEnd where
  | symbol (w : Word) (s : State)
  | exhausted
  | mismatch
  deriving DecidableEq, Repr

/-- `nodemem[i].left if b = 0 else nodemem[i].right`; a leaf has no children (log 8). -/
def Node.child (b : Bool) : Node → BitVec 17
  | .leaf _ _ => Config.nil
  | .internal l r _ => if b then r else l

/-- The loop of `Walk` from node `i` (R181). The fuel is a bound on the bits left: out of fuel is out of bits. -/
def walkFrom : Nat → BitVec 17 → State → WalkEnd
  | 0, _, _ => .exhausted
  | k + 1, i, s =>
    if s.avail = false then .exhausted
    else if (s.nodeAt i.toNat).child s.nextBit = Config.nil then .mismatch
    else match s.nodeAt ((s.nodeAt i.toNat).child s.nextBit).toNat with
      | .leaf w _ => .symbol w s.skipBit
      | .internal _ _ _ => walkFrom k ((s.nodeAt i.toNat).child s.nextBit) s.skipBit

/-- `Walk()` (R181). -/
def State.walk (s : State) : WalkEnd := walkFrom (8 * (s.ilen.toNat - s.ipos.toNat)) s.root s

/-! ## WFIN -/

/-- `WFIN` (44_bitstream.md R206): pad the pending bits with the stop code. -/
def wfinBody (s : State) : Res :=
  if 0 < s.nacc.toNat then s.needOut 1 fun s => s.withCode stopWord fun c => .ok (s.finish c)
  else .ok s

def execWfin (s : State) : Host.Outcome State Fault Refusal := command .wfin wfinBody s

end Sys2Proof.Machine
end

