-- ==== Sys2Proof/Machine/Lookback.lean ====
section
/-! DEFINITION. Longest-match search and the lookback commands (41_lookback.md): LBCLR, LBREC, LBFIND. -/

namespace Sys2Proof.Machine

open Sys2Proof

/-- `Src(o, U, i)`: a byte already in the lookback buffer, or one this same match produces (R142). -/
def State.src (s : State) (o : Nat) (U : List Byte) (i : Nat) : Byte :=
  if i < o then s.hist (o - i) else U.getD (i - o) 0

/-- `Lmax(o, n)`: `n`, cut at the offset when `CTRL.OVL = 0` (R142). -/
def State.lmax (s : State) (o n : Nat) : Nat := if s.ovl then n else min n o

/-- The first index from `i` on, at most `fuel` further, where `same` fails. -/
def runLength (same : Nat → Bool) : Nat → Nat → Nat
  | 0, i => i
  | k + 1, i => if same i then runLength same k (i + 1) else i

/-- `MatchLen(o, U)`: "the largest L with 0 <= L <= Lmax(o, n) such that Src(o, U, i) = U[i] for every i < L" (R142). -/
def State.matchLen (s : State) (o : Nat) (U : List Byte) : Nat :=
  runLength (fun i => decide (s.src o U i = U.getD i 0)) (s.lmax o U.length) 0

/-- "strictly longer only: the smaller offset keeps a tie" (R143). -/
def longer (o l : Nat) (best : Nat × Nat) : Nat × Nat := if best.2 < l then (o, l) else best

/-- The best (offset, length) over the offsets 1 up to `k`, in increasing order (R143). -/
def State.bestMatch (s : State) (U : List Byte) : Nat → Nat × Nat
  | 0 => (0, 0)
  | k + 1 => longer (k + 1) (s.matchLen (k + 1) U) (s.bestMatch U k)

/-- The acceptance test of R143: at least MINLEN, else `(0, 0)` "no match". -/
def acceptMatch (minlen : Nat) (best : Nat × Nat) : Nat × Nat := if minlen ≤ best.2 then best else (0, 0)

/-- `FindLongest(U)` (R143). -/
def State.findLongest (s : State) (U : List Byte) : Nat × Nat :=
  acceptMatch s.minlen.toNat (s.bestMatch U s.fill.toNat)

/-- `MOFF <- o ; MLEN <- L ; FLAGS.MATCH <- (L != 0)` (R147, R162). -/
def State.setSearch (s : State) (r : Nat × Nat) : State :=
  { s with moff := BitVec.ofNat 16 r.1, mlen := BitVec.ofNat 8 r.2, fMatch := decide (r.2 ≠ 0) }

/-- `LBCLR` (R145). -/
def lbclrBody (s : State) : Res := .ok s.clearRing

def execLbclr (s : State) : Host.Outcome State Fault Refusal := command .lbclr lbclrBody s

/-- `LBREC b` (R146). -/
def lbrecBody (b : Byte) (s : State) : Res := .ok (s.record b)

def execLbrec (b : Byte) (s : State) : Host.Outcome State Fault Refusal := command (.lbrec b) (lbrecBody b) s

/-- The bytes `LBFIND` searches for: `ibuf[IPOS .. IPOS + n)` with `n = min(WIN, ILEN - IPOS)` (R147). -/
def State.lookahead (s : State) : List Byte :=
  s.ibufSlice s.ipos.toNat (min s.win.toNat (s.ilen.toNat - s.ipos.toNat))

/-- `LBFIND` (R147). -/
def lbfindBody (s : State) : Res := .ok (s.setSearch (s.findLongest s.lookahead))

def execLbfind (s : State) : Host.Outcome State Fault Refusal := command .lbfind lbfindBody s

end Sys2Proof.Machine
end

