-- ==== Sys2Proof/Machine/Matcher.lean ====
section
/-! DEFINITION. The LZSS matcher (42_matcher.md): CBEGIN, MSTEP; and `Expand`, what a token stands for (R164). -/

namespace Sys2Proof.Machine

open Sys2Proof

/-- `Upcoming() = ibuf[IPOS .. IPOS + n)` with `n = min(WIN, CEND - IPOS)` (R160). -/
def State.upcoming (s : State) : List Byte :=
  s.ibufSlice s.ipos.toNat (min s.win.toNat (s.cend.toNat - s.ipos.toNat))

/-- A chunk opened at IPOS (R161). The invalidated tree's `nodemem` and `codemap` keep their entries: the model's choice
(DESIGN CHOICE, log 25). -/
def State.openChunk (s : State) : State :=
  { s with
    ntok := 0
    eidx := 0
    cstart := s.ipos
    cend := BitVec.ofNat 32 (min s.ilen.toNat (s.ipos.toNat + s.chunk.toNat))
    tvalid := false
    cmvalid := false
    state := .collecting }

/-- `CBEGIN` (R161). -/
def cbeginBody (s : State) : Res := .ok s.openChunk

def execCbegin (s : State) : Host.Outcome State Fault Refusal := command .cbegin cbeginBody s

/-- `tokmem[NTOK] <- w ; NTOK <- NTOK + 1` (R162). -/
def State.pushToken (s : State) (w : Word) : State :=
  { s with tokmem := Mem.write (0 : Word) s.tokmem s.ntok.toNat w, ntok := BitVec.ofNat 16 (s.ntok.toNat + 1) }

/-- Record the next `n` input bytes and step over them (R162). -/
def State.consume (s : State) (n : Nat) : State :=
  { s.recordAll (s.ibufSlice s.ipos.toNat n) with ipos := BitVec.ofNat 32 (s.ipos.toNat + n) }

/-- One step of the matcher with the search result `(o, L)` (R162). -/
def mstepWith (s : State) (r : Nat × Nat) : State :=
  if r.2 ≠ 0 then ((s.setSearch r).pushToken (matchWord (BitVec.ofNat 16 r.1) (BitVec.ofNat 8 r.2))).consume r.2
  else ((s.setSearch r).pushToken (literalWord (s.ibufAt s.ipos.toNat))).consume 1

/-- `MSTEP` (R162). -/
def mstepBody (s : State) : Res := .ok (mstepWith s (s.findLongest s.upcoming))

def execMstep (s : State) : Host.Outcome State Fault Refusal := command .mstep mstepBody s

/-- The `n` bytes a match at offset `o` produces from the history `H`, each "the byte `o` back from the position being
written" (R164). -/
def expandCopy (o : Nat) : Nat → List Byte → List Byte
  | 0, _ => []
  | n + 1, H => H.getD (H.length - o) 0 :: expandCopy o n (H ++ [H.getD (H.length - o) 0])

/-- `Expand(H, token)` (R164). -/
def expand (H : List Byte) : Symbol → List Byte
  | .literal b => [b]
  | .copy o l => expandCopy o.toNat l.toNat H
  | .stop => []

end Sys2Proof.Machine
end

