-- ==== Sys2Proof/Machine/ChunkCodec.lean ====
section
/-! DEFINITION. The chunk codec (45_chunk_codec.md): ESTEP, EFIN, DSTEP and the composites ENCCHUNK, DECCHUNK. -/

namespace Sys2Proof.Machine

open Sys2Proof

/-! ## Encoding -/

/-- `ESTEP` (R222). -/
def estepBody (s : State) : Res :=
  s.withCode (s.tokAt s.eidx.toNat) fun c =>
    s.needOut ((s.nacc.toNat + c.length) / 8) fun s =>
      .ok { s.putBits c with eidx := BitVec.ofNat 16 (s.eidx.toNat + 1), state := .encoding }

def execEstep (s : State) : Host.Outcome State Fault Refusal := command .estep estepBody s

/-- `EFIN` (R223): the whole stop code, then the padding. -/
def efinBody (s : State) : Res :=
  s.withCode stopWord fun c =>
    s.needOut ((s.nacc.toNat + c.length + 7) / 8) fun s =>
      .ok { (s.putBits c).finish c with state := .done }

def execEfin (s : State) : Host.Outcome State Fault Refusal := command .efin efinBody s

/-! ## Decoding -/

/-- A decoded byte: `Record(b) ; obuf[OLEN] <- b ; OLEN <- OLEN + 1` (R224). -/
def State.emit (s : State) (b : Byte) : State := (s.record b).appendByte b

/-- The match copy: `n` times `b <- Hist(o)`, "on the ring as it is now" (R224). -/
def State.copyMatch (o : Nat) : Nat → State → State
  | 0, s => s
  | n + 1, s => State.copyMatch o n (s.emit (s.hist o))

/-- `DSYM <- w ; FLAGS.STOP <- 0 ; FLAGS.EXH <- 0 ; STATE <- Decoding` (R225). -/
def State.decoded (s : State) (w : Word) : State :=
  { s with dsym := w, fStop := false, fExh := false, state := .decoding }

/-- A chunk ended by `Stop` (R225). -/
def State.stopChunk (s : State) : State :=
  { s.align with dsym := stopWord, fStop := true, fExh := false, state := .done }

/-- A chunk ended by exhaustion (R225, R226). -/
def State.endChunk (s : State) : State :=
  { s with fExh := true, fStop := false, ipos := s.ilen, ibit := 0, state := .done }

/-- `DSTEP` after `Walk() = Symbol(w)` with the cursor after the code in `t`; a raise acts on `s`, where the cursor is
"back at the start of the symbol" and the ring as before (R225, 60_exceptions.md R268). -/
def dstepSymbol (s t : State) (w : Word) : Res :=
  match symbolOf w with
  | none => .stuck .invalidSymbol
  | some .stop => .ok t.stopChunk
  | some (.literal b) => if s.hasRoom 1 then .ok ((t.emit b).decoded w) else .raised .resourceExhausted 2 s
  | some (.copy o l) =>
    if o.toNat ≤ s.fill.toNat then
      if s.hasRoom l.toNat then .ok ((State.copyMatch o.toNat l.toNat t).decoded w)
      else .raised .resourceExhausted 2 s
    else .raised .invalidMatchReference w s

/-- The bit index of the cursor, `8 * IPOS + IBIT` (R225). -/
def State.bitIndex (s : State) : Nat := 8 * s.ipos.toNat + s.ibit.toNat

/-- `DSTEP` (R225) with the exhaustion policy R226. -/
def dstepBody (s : State) : Res :=
  match s.walk with
  | .symbol w t => dstepSymbol s t w
  | .exhausted =>
    if s.last then .ok s.endChunk
    else .raised .prematureExhaustion (BitVec.ofNat 32 s.bitIndex) s
  | .mismatch => .raised .decodeTreeMismatch (BitVec.ofNat 32 s.bitIndex) s

def execDstep (s : State) : Host.Outcome State Fault Refusal := command .dstep dstepBody s

/-! ## Composites (R227 to R229) -/

/-- `while IPOS < CEND: MSTEP` (R227); every MSTEP advances IPOS. -/
def collectAll (s : State) : Res :=
  repeatWhile (fun s => decide (s.ipos.toNat < s.cend.toNat)) (runChecked .mstep mstepBody)
    (s.cend.toNat - s.ipos.toNat) s

/-- `while EIDX < NTOK: ESTEP` (R227). -/
def encodeAll (s : State) : Res :=
  repeatWhile (fun s => decide (s.eidx.toNat < s.ntok.toNat)) (runChecked .estep estepBody)
    (s.ntok.toNat - s.eidx.toNat) s

/-- The primitives of `ENCCHUNK` in order (R227). -/
def encchunkSteps (s : State) : Res :=
  (runChecked .cbegin cbeginBody s).andThen fun s =>
  (collectAll s).andThen fun s =>
  (runChecked .build buildBody s).andThen fun s =>
  (runChecked .tstore tstoreBody s).andThen fun s =>
  (encodeAll s).andThen fun s =>
  runChecked .efin efinBody s

/-- `ENCCHUNK` (R227, R229). -/
def encchunkBody (s : State) : Res := (encchunkSteps s).inComposite (encode .encchunk)

def execEncchunk (s : State) : Host.Outcome State Fault Refusal := command .encchunk encchunkBody s

/-- `while STATE != Done: DSTEP` (R228); "every `DSTEP` that does not end the chunk consumes at least one bit" (R229). -/
def decodeAll (s : State) : Res :=
  repeatWhile (fun s => decide (s.state ≠ .done)) (runChecked .dstep dstepBody)
    (8 * (s.ilen.toNat - s.ipos.toNat) + 1) s

/-- The primitives of `DECCHUNK` in order (R228). -/
def decchunkSteps (s : State) : Res := (runChecked .tload tloadBody s).andThen decodeAll

/-- `DECCHUNK` (R228, R229). -/
def decchunkBody (s : State) : Res := (decchunkSteps s).inComposite (encode .decchunk)

def execDecchunk (s : State) : Host.Outcome State Fault Refusal := command .decchunk decchunkBody s

end Sys2Proof.Machine
end

