-- ==== Sys2Proof/Machine/Container.lean ====
section
/-! DEFINITION. The whole-file commands (46_container.md): COMPRESS, DECOMPRESS. -/

namespace Sys2Proof.Machine

open Sys2Proof

/-- `repeat: body until IPOS >= ILEN`: once, then while bytes remain; at most `ILEN + 1` chunks (45_chunk_codec.md R229). -/
def untilInputUsed (body : State → Res) (s : State) : Res :=
  (body s).andThen fun t =>
    repeatWhile (fun s => decide (s.ipos.toNat < s.ilen.toNat)) body (t.ilen.toNat - t.ipos.toNat) t

/-- `COMPRESS` (R246). -/
def compressBody (s : State) : Res :=
  if 6 ≤ s.params.outMax then
    (untilInputUsed (runChecked .encchunk encchunkBody) ((s.clearOut.clearRing).appendBytes (fileHeader s.cap))).inComposite
      (encode .compress)
  else .raised .resourceExhausted 2 s

def execCompress (s : State) : Host.Outcome State Fault Refusal := command .compress compressBody s

/-- The checks of the file header at `p`, in the order R247 lists them: the capacity, or `Bad(info)`. -/
def State.readHeader (s : State) (p : Nat) : Except Nat (BitVec 16) :=
  if s.ilen.toNat < p + 6 then .error s.ilen.toNat
  else if s.ibufAt p ≠ 0x4C then .error p
  else if s.ibufAt (p + 1) ≠ 0x5A then .error (p + 1)
  else if s.ibufAt (p + 2) ≠ 0x48 then .error (p + 2)
  else if s.ibufAt (p + 3) ≠ 0x01 then .error (p + 3)
  else if capOfBytes (s.ibufAt (p + 4)) (s.ibufAt (p + 5)) = 0 then .error (p + 4)
  else .ok (capOfBytes (s.ibufAt (p + 4)) (s.ibufAt (p + 5)))

/-- The header taken: output cleared, CAP written and the ring cleared, the cursor behind the header (R247). -/
def State.openFile (s : State) (cap : BitVec 16) : State :=
  { ({ s.clearOut with cap := cap }).clearRing with ipos := BitVec.ofNat 32 (s.ipos.toNat + 6) }

/-- `DECOMPRESS` (R247). -/
def decompressBody (s : State) : Res :=
  match s.readHeader s.ipos.toNat with
  | .error info => .raised .malformedHeader (BitVec.ofNat 32 info) s
  | .ok cap => (untilInputUsed (runChecked .decchunk decchunkBody) (s.openFile cap)).inComposite (encode .decompress)

def execDecompress (s : State) : Host.Outcome State Fault Refusal := command .decompress decompressBody s

end Sys2Proof.Machine
end

