-- ==== Sys2Proof/Machine/HostConfig.lean ====
section
/-! DEFINITION. Host and configuration commands (40_host_config.md): NOP, RESET, CSRW, CSRR, PUSH, ICLR, OCLR. -/

namespace Sys2Proof.Machine

open Sys2Proof

/-- `NOP` writes nothing (R122). -/
def execNop (s : State) : Host.Outcome State Fault Refusal := command .nop .ok s

/-- `RESET` (R123). -/
def execReset (s : State) : Host.Outcome State Fault Refusal := command .reset (fun s => .ok s.resetRegisters) s

/-- `CSRW a, v` (R124); a write of CAP also clears the ring (10_state.md R39). -/
def csrwBody (a : BitVec 8) (v : BitVec 16) (s : State) : Res :=
  match a.toNat with
  | 0x00 => .ok ({ s with cap := v }).clearRing
  | 0x01 => .ok { s with win := v.extractLsb' 0 8 }
  | 0x02 => .ok { s with minlen := v.extractLsb' 0 8 }
  | 0x03 => .ok { s with chunk := v }
  | 0x04 => .ok { s with ctrl := v.extractLsb' 0 2 }
  | _ => .raised .illegalCommand (encode (.csrw a v)) s

def execCsrw (a : BitVec 8) (v : BitVec 16) (s : State) : Host.Outcome State Fault Refusal :=
  command (.csrw a v) (csrwBody a v) s

/-- `CSRR a`: RDATA receives the CSR (R125). -/
def csrrBody (a : BitVec 8) (s : State) : Res :=
  match s.csrRead a with
  | some w => .ok { s with rdata := w }
  | none => .raised .illegalCommand (encode (.csrr a)) s

def execCsrr (a : BitVec 8) (s : State) : Host.Outcome State Fault Refusal := command (.csrr a) (csrrBody a) s

/-- `PUSH b` (R126). -/
def pushBody (b : Byte) (s : State) : Res :=
  if s.ilen.toNat < s.params.inMax then
    .ok { s with ibuf := Mem.write (0 : Byte) s.ibuf s.ilen.toNat b, ilen := BitVec.ofNat 32 (s.ilen.toNat + 1) }
  else .raised .resourceExhausted 1 s

def execPush (b : Byte) (s : State) : Host.Outcome State Fault Refusal := command (.push b) (pushBody b) s

/-- `ICLR` (R127). -/
def iclrBody (s : State) : Res := .ok { s with ilen := 0, ipos := 0, ibit := 0 }

def execIclr (s : State) : Host.Outcome State Fault Refusal := command .iclr iclrBody s

/-- `OCLR` (R128). -/
def oclrBody (s : State) : Res := .ok s.clearOut

def execOclr (s : State) : Host.Outcome State Fault Refusal := command .oclr oclrBody s

end Sys2Proof.Machine
end

