-- ==== Sys2Proof/Machine/Dispatch.lean ====
section
/-! DEFINITION. One arm per command: its meaning. -/

namespace Sys2Proof.Machine

open Sys2Proof

def exec (i : Instr) (s : State) : Host.Outcome State Fault Refusal :=
  match i with
  | .nop => Sys2Proof.Machine.execNop s
  | .reset => Sys2Proof.Machine.execReset s
  | .csrw a v => Sys2Proof.Machine.execCsrw a v s
  | .csrr a => Sys2Proof.Machine.execCsrr a s
  | .push b => Sys2Proof.Machine.execPush b s
  | .iclr => Sys2Proof.Machine.execIclr s
  | .oclr => Sys2Proof.Machine.execOclr s
  | .lbclr => Sys2Proof.Machine.execLbclr s
  | .lbrec b => Sys2Proof.Machine.execLbrec b s
  | .lbfind => Sys2Proof.Machine.execLbfind s
  | .cbegin => Sys2Proof.Machine.execCbegin s
  | .mstep => Sys2Proof.Machine.execMstep s
  | .build => Sys2Proof.Machine.execBuild s
  | .tstore => Sys2Proof.Machine.execTstore s
  | .tload => Sys2Proof.Machine.execTload s
  | .wbits n v => Sys2Proof.Machine.execWbits n v s
  | .wfin => Sys2Proof.Machine.execWfin s
  | .rbit => Sys2Proof.Machine.execRbit s
  | .ralign => Sys2Proof.Machine.execRalign s
  | .estep => Sys2Proof.Machine.execEstep s
  | .efin => Sys2Proof.Machine.execEfin s
  | .dstep => Sys2Proof.Machine.execDstep s
  | .encchunk => Sys2Proof.Machine.execEncchunk s
  | .decchunk => Sys2Proof.Machine.execDecchunk s
  | .compress => Sys2Proof.Machine.execCompress s
  | .decompress => Sys2Proof.Machine.execDecompress s

end Sys2Proof.Machine
end

