-- ==== Sys2Proof/Machine/Ports.lean ====
section
/-! DEFINITION. The ports beside the command port: the readout port (10_state.md R51) and the level outputs (R52), pure
functions of the state. -/

namespace Sys2Proof.Machine

open Sys2Proof

/-- A readout of `ring[i]`: "a physical index `i < CAP` that is valid per `20_memory.md` rule R75", that is, one
`Hist(d)` reaches for some `1 <= d <= FILL`. -/
def State.ringValid (s : State) (i : Nat) : Bool :=
  decide (i < s.cap.toNat) &&
    (List.range s.fill.toNat).any fun j => decide ((s.wptr.toNat + s.cap.toNat - (j + 1)) % s.cap.toNat = i)

/-- R51: a read outside the valid range returns no value. -/
def State.readRing (s : State) (i : Nat) : Option Byte := if s.ringValid i then some (s.ringAt i) else none
def State.readIbuf (s : State) (i : Nat) : Option Byte := if i < s.ilen.toNat then some (s.ibufAt i) else none
def State.readObuf (s : State) (i : Nat) : Option Byte := if i < s.olen.toNat then some (s.obufAt i) else none
def State.readTokmem (s : State) (i : Nat) : Option Word := if i < s.ntok.toNat then some (s.tokAt i) else none

def State.readNodemem (s : State) (i : Nat) : Option Node :=
  if s.tvalid ∧ i < s.nnode.toNat then some (s.nodeAt i) else none

/-- "`codemap[i]` when `CMVALID = 1` and `nodemem[i]` is a leaf" (R51); a valid node, so `i < NNODE`. -/
def State.readCodemap (s : State) (i : Nat) : Option Bits :=
  if s.cmvalid ∧ i < s.nnode.toNat ∧ (s.nodeAt i).isLeaf then some (s.codeAt i) else none

/-- `busy`: "always 0 between commands, and since commands are atomic a model never observes 1" (R52). -/
def State.busy (_ : State) : Bool := false

/-- `done` is `STATE = Done`, `fail` is `STATE = Failed` (R52). -/
def State.doneOut (s : State) : Bool := decide (s.state = .done)
def State.failOut (s : State) : Bool := decide (s.state = .failed)

end Sys2Proof.Machine
end

