-- ==== Sys2Proof/Machine/Issue.lean ====
section
/-! DEFINITION. Taking what the host does at the command port and the reset input (40_host_config.md R120,
70_reset_and_hazards.md R290). -/

namespace Sys2Proof.Machine

open Sys2Proof

/-- R120 for a word on the command port: an illegal word is ignored in `Failed` and raises `IllegalCommand(w)`
elsewhere; a legal one is its command. -/
def issue (w : Word) (s : State) : Host.Outcome State Fault Refusal :=
  match decode w with
  | .ok i => exec i s
  | .error _ => if s.state = .failed then .next s else .next (s.raise .illegalCommand w)

/-- One input of the host, taken off the port. -/
def accept (x : HostInput) (s : State) : Host.Outcome State Fault Refusal :=
  match x with
  | .command w => issue w s
  | .resetInput => .next s.resetRegisters

/-- With a silent host the block waits and "waiting keeps all state" (60_exceptions.md R281). -/
def serve (s : State) : Host.Outcome State Fault Refusal :=
  match s.port with
  | [] => .next s
  | x :: rest => accept x { s with port := rest }

/-- The word issued next, before whatever else the host was going to do. -/
def State.issueFirst (s : State) (w : Word) : State := { s with port := .command w :: s.port }

end Sys2Proof.Machine
end

