-- ==== Sys2Proof/Machine/Step.lean ====
section
/-! DEFINITION. One step: what the host does next at the block's inputs, taken as one atomic transition. -/

namespace Sys2Proof.Machine

open Sys2Proof

/-- "a command takes one atomic step of the model whatever work it does" (70_reset_and_hazards.md R303). -/
def step (s : State) : Host.Outcome State Fault Refusal := serve s

/-- The block fetches nothing (10_state.md R45): its next command is the one the host issues, so the word is put first
on the port (log 17). A command is one 32-bit word (30_encoding.md R90), the table's own number. -/
def State.withFetchWord (s : State) (nbits w : Nat) : State := s.issueFirst (BitVec.ofNat 32 (w % 2 ^ nbits))

end Sys2Proof.Machine
end

