-- ==== Sys2Proof/Safety.lean ====
section
/-! DEFINITION. What a claim may say of every state a run reaches: the invariants of 10_state.md R48, R31, R32 and of
the memories (20_memory.md R60, R75), and what a safe step is. -/

namespace Sys2Proof.Machine

open Sys2Proof

/-- The numeric invariants of R48, the ranges of R22 to R43, and what they rest on while a chunk is open: no pending
output bits and (collecting) no tree, and no more tokens than input bytes consumed (00_scope.md R9). -/
structure RegisterInv (s : State) : Prop where
  params_legal : s.params.legal
  cap_pos : 1 ≤ s.cap.toNat
  win_pos : 1 ≤ s.win.toNat
  minlen_ge : 2 ≤ s.minlen.toNat
  chunk_pos : 1 ≤ s.chunk.toNat
  wptr_lt : s.wptr.toNat < s.cap.toNat
  fill_le : s.fill.toNat ≤ s.cap.toNat
  not_wrapped : s.fill.toNat < s.cap.toNat → s.wptr = s.fill
  ipos_le : s.ipos.toNat ≤ s.ilen.toNat
  ilen_le : s.ilen.toNat ≤ s.params.inMax
  ibit_end : s.ipos = s.ilen → s.ibit = 0
  omark_le : s.omark.toNat ≤ s.olen.toNat
  olen_le : s.olen.toNat ≤ s.params.outMax
  acc_low : s.acc.toNat % 2 ^ (8 - s.nacc.toNat) = 0
  eidx_le : s.eidx.toNat ≤ s.ntok.toNat
  cmvalid_tvalid : s.cmvalid = true → s.tvalid = true
  encode_cmvalid : s.state = .treeReady ∨ s.state = .encoding → s.cmvalid = true
  decode_tvalid : s.state = .headerParsed ∨ s.state = .decoding → s.tvalid = true
  failed_iff : s.state = .failed ↔ s.err ≠ none
  collecting_range : s.state = .collecting →
    s.cstart.toNat ≤ s.ipos.toNat ∧ s.ipos.toNat ≤ s.cend.toNat ∧ s.cend.toNat ≤ s.ilen.toNat ∧ s.ibit = 0
  collecting_tokens : s.state = .collecting →
    s.cend.toNat ≤ s.cstart.toNat + Config.tokMax ∧ s.ntok.toNat ≤ s.ipos.toNat - s.cstart.toNat
  collecting_no_tree : s.state = .collecting → s.tvalid = false
  open_aligned : s.state = .collecting ∨ s.state = .treeReady ∨ s.state = .headerParsed ∨ s.state = .decoding →
    s.nacc = 0

/-- The memories are in canonical form and hold entries of their index ranges only (20_memory.md R60). -/
structure MemoryInv (s : State) : Prop where
  ring_wf : Memory.wf s.ring = true
  ring_within : Mem.within Config.ringMax s.ring = true
  ibuf_wf : Memory.wf s.ibuf = true
  ibuf_within : Mem.within s.params.inMax s.ibuf = true
  obuf_wf : Memory.wf s.obuf = true
  obuf_within : Mem.within s.params.outMax s.obuf = true
  tokmem_wf : Mem.wf (0 : Word) s.tokmem = true
  tokmem_within : Mem.within Config.tokMax s.tokmem = true
  nodemem_wf : Mem.wf Node.zero s.nodemem = true
  nodemem_within : Mem.within Config.nodeMax s.nodemem = true
  codemap_wf : Mem.wf ([] : Bits) s.codemap = true
  codemap_within : Mem.within Config.nodeMax s.codemap = true

/-- A child field is NIL or the index of a valid entry (R31). -/
abbrev childInRange (n : Nat) (c : BitVec 17) : Prop := c = Config.nil ∨ c.toNat < n

/-- What R31 and R97 say of one entry of a valid tree of `n` entries. -/
def nodeInRange (n : Nat) : Node → Bool
  | .leaf w _ => validSymbol w
  | .internal l r _ => decide (childInRange n l) && decide (childInRange n r)

/-- The node indices reached from `i`, once for every path to them. -/
def nodesUnder (nodes : Mem Node) : Nat → BitVec 17 → List Nat
  | 0, _ => []
  | k + 1, i =>
    if i = Config.nil then []
    else match Mem.read Node.zero nodes i.toNat with
      | .leaf _ _ => [i.toNat]
      | .internal l r _ => i.toNat :: (nodesUnder nodes k l ++ nodesUnder nodes k r)

/-- A symbol word has a code, not an empty one (R99, R188). -/
abbrev State.hasCode (s : State) (w : Word) : Prop := s.codeOf w ≠ none ∧ s.codeOf w ≠ some []

/-- The tree and token invariants: what R31 says of a valid tree, R32 of a valid code map, R28 of the token memory, R97
of the symbol words in leaves, and R188 of the codes the encoder looks up. -/
structure TreeInv (s : State) : Prop where
  root_in_range : s.tvalid = true → s.root.toNat < s.nnode.toNat
  root_internal : s.tvalid = true → (s.nodeAt s.root.toNat).isLeaf = false
  nodes_in_range : s.tvalid = true → ∀ k < s.nnode.toNat, nodeInRange s.nnode.toNat (s.nodeAt k) = true
  leaf_count : s.tvalid = true →
    s.nleaf.toNat = ((List.range s.nnode.toNat).filter fun k => (s.nodeAt k).isLeaf).length
  is_tree : s.tvalid = true → s.tree.isSome = true
  one_parent : s.tvalid = true → (nodesUnder s.nodemem (s.nnode.toNat + 1) s.root).Nodup
  tokens_valid : ∀ k < s.ntok.toNat, tokenWord (s.tokAt k) = true
  stop_has_code : s.cmvalid = true → s.hasCode stopWord
  tokens_have_codes : s.cmvalid = true → ∀ k < s.ntok.toNat, s.hasCode (s.tokAt k)
  codes_are_paths : s.cmvalid = true → ∀ t ∈ s.tree, ∀ x ∈ t.codes [], s.codeAt x.1 = x.2

/-- A history cut to the newest `cap` bytes: recording evicts the oldest (41_lookback.md R141). -/
def trim (cap : Nat) (H : List Byte) : List Byte := H.drop (H.length - cap)

/-- What a list of token words stands for, "each taken against the history as it stands when the token is reached"
(42_matcher.md R164). -/
def expandAll (cap : Nat) : List Byte → List Word → List Byte
  | _, [] => []
  | H, w :: ws =>
    match symbolOf w with
    | some x => expand H x ++ expandAll cap (trim cap (H ++ expand H x)) ws
    | none => []

/-- An encode chunk is open: `Collecting`, `TreeReady`, `Encoding`. -/
abbrev Encoding (s : State) : Prop := s.state = .collecting ∨ s.state = .treeReady ∨ s.state = .encoding

/-- What R164 says of one token word under the settings of `s`. -/
abbrev tokenLegal (s : State) (w : Word) : Prop :=
  match symbolOf w with
  | some (.literal _) => True
  | some (.copy o l) => 1 ≤ o.toNat ∧ o.toNat ≤ s.cap.toNat ∧ s.minlen.toNat ≤ l.toNat ∧ l.toNat ≤ s.win.toNat ∧
      (s.ovl = false → l.toNat ≤ o.toNat)
  | some .stop => False
  | none => False

/-- While an encode chunk is open, the bytes consumed are what the tokens stand for, taken against the history `H` at
the chunk's start (R48, R164), and every token is legal (R164). -/
structure CollectedInv (s : State) : Prop where
  tokens_legal : Encoding s → ∀ k < s.ntok.toNat, tokenLegal s (s.tokAt k)
  expansion : Encoding s → ∃ H : List Byte, H.length ≤ s.cap.toNat ∧
    expandAll s.cap.toNat H s.tokens = s.ibufSlice s.cstart.toNat (s.ipos.toNat - s.cstart.toNat) ∧
    s.history = trim s.cap.toNat (H ++ s.ibufSlice s.cstart.toNat (s.ipos.toNat - s.cstart.toNat))

/-! ## Vocabulary of claims -/

/-- No chunk is open: "`Idle` and `Done` are interchangeable for every legality check" (45_chunk_codec.md R220). -/
abbrev ChunkClosed (s : State) : Prop := s.state = .idle ∨ s.state = .done

/-- The CSR addresses the block implements (10_state.md R38). -/
abbrev implementedCsr (a : BitVec 8) : Prop := a.toNat ≤ 0x04 ∨ (0x10 ≤ a.toNat ∧ a.toNat ≤ 0x28)

/-- The pairs CSRW accepts (R39 to R43). -/
abbrev legalCsrWrite (a : BitVec 8) (v : BitVec 16) : Prop :=
  (a = 0x00#8 ∧ 1 ≤ v.toNat) ∨ (a = 0x01#8 ∧ 1 ≤ v.toNat ∧ v.toNat ≤ 255) ∨
  (a = 0x02#8 ∧ 2 ≤ v.toNat ∧ v.toNat ≤ 255) ∨ (a = 0x03#8 ∧ 1 ≤ v.toNat) ∨ (a = 0x04#8 ∧ v.toNat ≤ 3)

/-- The rows of the legality table (40_host_config.md R121), state and extra precondition together. -/
def Accepted : Instr → State → Prop
  | .nop, _ | .reset, _ => True
  | .csrr a, _ => implementedCsr a
  | .csrw a v, s => ChunkClosed s ∧ legalCsrWrite a v
  | .push _, s | .iclr, s | .oclr, s | .lbclr, s | .lbrec _, s | .wbits _ _, s | .rbit, s | .ralign, s => ChunkClosed s
  | .lbfind, s | .compress, s | .decompress, s => ChunkClosed s ∧ s.ibit = 0
  | .cbegin, s | .tload, s | .encchunk, s | .decchunk, s => ChunkClosed s ∧ s.ibit = 0 ∧ s.nacc = 0
  | .mstep, s => s.state = .collecting ∧ s.ipos.toNat < s.cend.toNat
  | .build, s => s.state = .collecting ∧ s.ipos = s.cend
  | .tstore, s => s.state = .treeReady
  | .wfin, s => ChunkClosed s ∧ (s.nacc = 0 ∨ s.cmvalid = true)
  | .estep, s => (s.state = .treeReady ∨ s.state = .encoding) ∧ s.eidx.toNat < s.ntok.toNat
  | .efin, s => (s.state = .treeReady ∨ s.state = .encoding) ∧ s.eidx = s.ntok
  | .dstep, s => s.state = .headerParsed ∨ s.state = .decoding

/-- The four composite commands (45_chunk_codec.md R229). -/
def Composite : Instr → Bool
  | .encchunk | .decchunk | .compress | .decompress => true
  | .nop | .reset | .csrw _ _ | .csrr _ | .push _ | .iclr | .oclr | .lbclr | .lbrec _ | .lbfind | .cbegin | .mstep
  | .build | .tstore | .tload | .wbits _ _ | .wfin | .rbit | .ralign | .estep | .efin | .dstep => false

/-- Which command can raise what (60_exceptions.md R282). -/
def mayRaise : Instr → List ErrorKind
  | .nop | .reset => []
  | .csrr _ | .csrw _ _ | .iclr | .oclr | .lbclr | .lbrec _ | .lbfind | .cbegin | .mstep | .build | .rbit | .ralign =>
    [.illegalCommand]
  | .push _ | .tstore | .wbits _ _ | .wfin | .estep | .efin | .encchunk | .compress => [.resourceExhausted, .illegalCommand]
  | .tload => [.malformedHeader, .illegalCommand]
  | .dstep =>
    [.decodeTreeMismatch, .prematureExhaustion, .invalidMatchReference, .resourceExhausted, .illegalCommand]
  | .decchunk | .decompress =>
    [.malformedHeader, .decodeTreeMismatch, .prematureExhaustion, .invalidMatchReference, .resourceExhausted,
      .illegalCommand]

/-- The rows of the transition table that change STATE without an error (45_chunk_codec.md R221). -/
def Transition : Instr → CodecState → CodecState → Prop
  | .reset, _, b => b = .idle
  | .cbegin, a, b => (a = .idle ∨ a = .done) ∧ b = .collecting
  | .build, a, b => a = .collecting ∧ b = .treeReady
  | .estep, a, b => (a = .treeReady ∨ a = .encoding) ∧ b = .encoding
  | .efin, a, b => (a = .treeReady ∨ a = .encoding) ∧ b = .done
  | .tload, a, b => (a = .idle ∨ a = .done) ∧ b = .headerParsed
  | .dstep, a, b => (a = .headerParsed ∨ a = .decoding) ∧ (b = .decoding ∨ b = .done)
  | .encchunk, a, b | .compress, a, b | .decchunk, a, b | .decompress, a, b => (a = .idle ∨ a = .done) ∧ b = .done
  | .nop, a, b | .csrw _ _, a, b | .csrr _, a, b | .push _, a, b | .iclr, a, b | .oclr, a, b | .lbclr, a, b
  | .lbrec _, a, b | .lbfind, a, b | .mstep, a, b | .tstore, a, b | .wbits _ _, a, b | .wfin, a, b | .rbit, a, b
  | .ralign, a, b => b = a

/-- Commands issued one after another, none of which raises, from one state to another (R229). -/
inductive Runs : List Instr → State → State → Prop where
  | done (s : State) : Runs [] s s
  | step {i : Instr} {is : List Instr} {s t u : State} :
      exec i s = .next t → t.state ≠ .failed → Runs is t u → Runs (i :: is) s u

/-- `L` bytes at offset `o` reproduce the beginning of `U` (41_lookback.md R142). -/
def State.IsMatch (s : State) (U : List Byte) (o L : Nat) : Prop :=
  1 ≤ o ∧ o ≤ s.fill.toNat ∧ L ≤ U.length ∧ (s.ovl = false → L ≤ o) ∧
    ∀ i < L, U.getD i 0 = if i < o then s.hist (o - i) else U.getD (i - o) 0

/-- "the pair that maximises `length` and, among offsets of that length, minimises `offset`", of at least MINLEN, or
`(0, 0)` where there is none (R143). -/
def State.IsLongest (s : State) (U : List Byte) (o L : Nat) : Prop :=
  (o = 0 ∧ L = 0 ∧ ∀ p K, s.IsMatch U p K → K < s.minlen.toNat) ∨
  (s.IsMatch U o L ∧ s.minlen.toNat ≤ L ∧ (∀ p K, s.IsMatch U p K → K ≤ L) ∧ ∀ p K, s.IsMatch U p K → p < o → K < L)

/-- The read cursor `n` bits further (20_memory.md R64). -/
def State.advance (s : State) (n : Nat) : State :=
  { s with ipos := BitVec.ofNat 32 ((s.bitIndex + n) / 8), ibit := BitVec.ofNat 3 ((s.bitIndex + n) % 8) }

/-- The subtree a path leads to, 0 left and 1 right. -/
def HTree.follow : HTree → Bits → Option HTree
  | t, [] => some t
  | .node l r, b :: p => if b then r.follow p else l.follow p
  | .nil, _ :: _ => none
  | .leaf _ _, _ :: _ => none

/-- "the same shape and the same symbols at the same leaves (only node numbering and weights differ)" (43_huffman.md R185). -/
def HTree.shape : HTree → HTree
  | .nil => .nil
  | .leaf _ w => .leaf 0 w
  | .node l r => .node l.shape r.shape

/-- Nodes and leaves of a tree. -/
def HTree.size : HTree → Nat
  | .nil => 0
  | .leaf _ _ => 1
  | .node l r => 1 + l.size + r.size
def HTree.leafCount : HTree → Nat
  | .nil => 0
  | .leaf _ _ => 1
  | .node l r => l.leafCount + r.leafCount

/-- Every symbol in a leaf is a valid symbol word (30_encoding.md R97). -/
def HTree.symbolsValid : HTree → Bool
  | .nil => true
  | .leaf _ w => validSymbol w
  | .node l r => l.symbolsValid && r.symbolsValid

/-- The symbol words with their paths from the root (43_huffman.md R180). -/
def HTree.paths : HTree → Bits → List (Word × Bits)
  | .nil, _ => []
  | .leaf _ w, p => [(w, p)]
  | .node l r, p => l.paths (p ++ [false]) ++ r.paths (p ++ [true])

/-- The code a tree gives a symbol word. -/
def HTree.codeFor (t : HTree) (w : Word) : Bits := ((t.paths []).lookup w).getD []

/-- Bits grouped into bytes, most significant first; a last group is filled with zeros (20_memory.md R62). -/
def packBits (c : Bits) : List Byte :=
  (List.range ((c.length + 7) / 8)).map fun k => (List.range 8).foldl (fun b j => accWith b j (c.getD (8 * k + j) false)) 0

/-- MSTEP repeated while `IPOS < CEND` (42_matcher.md R163). -/
def State.collect : Nat → State → State
  | 0, s => s
  | n + 1, s => if s.ipos.toNat < s.cend.toNat then State.collect n (mstepWith s (s.findLongest s.upcoming)) else s

/-- The state in which the chunk that starts at IPOS has been collected. -/
def State.collectChunk (s : State) : State :=
  State.collect (s.openChunk.cend.toNat - s.ipos.toNat) s.openChunk

/-- The bits of a chunk: the codes of its tokens, the stop code, the padding of stop-code bits (R101, R202). -/
def chunkBits (t : HTree) (toks : List Word) : Bits :=
  let c := toks.flatMap t.codeFor ++ t.codeFor stopWord
  c ++ padding (t.codeFor stopWord) ((8 - c.length % 8) % 8)

/-- The chunk record of the chunk that starts at IPOS: its tree, then its bit stream (30_encoding.md R101,
45_chunk_codec.md R230). -/
def State.chunkRecord (s : State) : List Byte :=
  match s.collectChunk.buildTree.tree with
  | some t => t.ser ++ packBits (chunkBits t s.collectChunk.tokens)
  | none => []

/-- The chunk records of the input from IPOS on, at most `n + 1` chunks. -/
def State.chunkRecords : Nat → State → List Byte
  | 0, s => s.chunkRecord
  | n + 1, s =>
    s.chunkRecord ++
      if s.collectChunk.ipos.toNat < s.ilen.toNat then State.chunkRecords n s.collectChunk else []

/-- The file of the input from IPOS on (30_encoding.md R102): the header, then the chunk records from a cleared ring. -/
def State.fileBytes (s : State) : List Byte :=
  fileHeader s.cap ++ State.chunkRecords (s.ilen.toNat - s.ipos.toNat) s.clearRing

/-- The output bytes. -/
def State.output (s : State) : List Byte := s.obufSlice 0 s.olen.toNat

/-- `t` is `s` with the bytes `bs` recorded: the history (41_lookback.md R141), WPTR and FILL (R140), and every ring
entry outside the recorded ones. -/
structure Recorded (s t : State) (bs : List Byte) : Prop where
  history_eq : t.history = trim s.cap.toNat (s.history ++ bs)
  wptr_eq : t.wptr.toNat = (s.wptr.toNat + bs.length) % s.cap.toNat
  fill_eq : t.fill.toNat = min (s.fill.toNat + bs.length) s.cap.toNat
  others_kept : ∀ a, (∀ j < bs.length, a ≠ (s.wptr.toNat + j) % s.cap.toNat) → t.ringAt a = s.ringAt a

/-- `t` is `s` with the bytes `bs` appended to the output, every other byte of `obuf` as it was (10_state.md R25). -/
structure Appended (s t : State) (bs : List Byte) : Prop where
  olen_eq : t.olen.toNat = s.olen.toNat + bs.length
  bytes_eq : t.obufSlice s.olen.toNat bs.length = bs
  others_kept : ∀ a, a < s.olen.toNat ∨ s.olen.toNat + bs.length ≤ a → t.obufAt a = s.obufAt a

/-- `t` is `s` with the bits `c` written: "appends `(NACC + m) div 8` bytes to `obuf` and leaves
`NACC = (NACC + m) mod 8`" (44_bitstream.md R201), every other byte of `obuf` as it was. -/
structure BitsWritten (s t : State) (c : Bits) : Prop where
  written_eq : t.written = s.written ++ c
  nacc_eq : t.nacc.toNat = (s.nacc.toNat + c.length) % 8
  olen_eq : t.olen.toNat = s.olen.toNat + (s.nacc.toNat + c.length) / 8
  low_zero : t.acc.toNat % 2 ^ (8 - t.nacc.toNat) = 0
  others_kept : ∀ a, a < s.olen.toNat ∨ t.olen.toNat ≤ a → t.obufAt a = s.obufAt a

/-- The first `k` bits of `c` repeated from its start (44_bitstream.md R202). -/
def repeated (c : Bits) (k : Nat) : Bits := (List.range k).map fun j => c.getD (j % c.length) false

/-- "`L` times `b <- Hist(o); Record(b)`" (41_lookback.md R148). -/
def State.replay (o : Nat) : Nat → State → State
  | 0, s => s
  | n + 1, s => State.replay o n (s.record (s.hist o))

/-- "`Fib(1) = Fib(2) = 1`" (43_huffman.md R179). -/
def fib : Nat → Nat
  | 0 => 0
  | 1 => 1
  | n + 2 => fib n + fib (n + 1)

/-- Node `i` comes no later than node `j` in "(weight, index), compared lexicographically" (43_huffman.md R177). -/
def State.NotLater (s : State) (i j : Nat) : Prop :=
  (s.nodeAt i).weight.toNat < (s.nodeAt j).weight.toNat ∨
    ((s.nodeAt i).weight.toNat = (s.nodeAt j).weight.toNat ∧ i ≤ j)

/-- Node `j` is a child of node `k`. -/
def State.ChildOf (s : State) (k j : Nat) : Prop :=
  ∃ l r w, s.nodeAt k = .internal l r w ∧ (l.toNat = j ∨ r.toNat = j)

/-- Node `j` is active when node `k` is made: made before it and no child of a node made before it (R177). -/
def State.ActiveFor (s : State) (k j : Nat) : Prop :=
  j < k ∧ ∀ i, s.nleaf.toNat ≤ i → i < k → ¬ s.ChildOf i j

/-- "`repeat: body until IPOS >= ILEN`" of a command, none of whose rounds raises (46_container.md R246, R247). -/
inductive RunsUntilUsed (i : Instr) : State → State → Prop where
  | last {s t : State} : exec i s = .next t → t.state ≠ .failed → t.ilen.toNat ≤ t.ipos.toNat → RunsUntilUsed i s t
  | more {s t u : State} : exec i s = .next t → t.state ≠ .failed → t.ipos.toNat < t.ilen.toNat →
      RunsUntilUsed i t u → RunsUntilUsed i s u

/-- Rounds of `repeat: body until IPOS >= ILEN` none of which raises and after each of which bytes remain: what a file
composite has run before the round that is its last (46_container.md R246, R247). -/
inductive RoundsBefore (i : Instr) : State → State → Prop where
  | here (s : State) : RoundsBefore i s s
  | more {s t u : State} : exec i s = .next t → t.state ≠ .failed → t.ipos.toNat < t.ilen.toNat →
      RoundsBefore i t u → RoundsBefore i s u

/-- What `Parse` takes in at one tag: an internal node, a leaf with its symbol word, an absent child (43_huffman.md R185). -/
inductive TreeItem where
  | internal
  | leaf (w : Word)
  | absent
  deriving DecidableEq, Repr

/-- The bytes of an item, tag first (30_encoding.md R100). -/
def TreeItem.bytes : TreeItem → List Byte
  | .internal => [0x00]
  | .leaf w => 0x01 :: wordBytes w
  | .absent => [0x02]

/-- Does the item take a node index? -/
def TreeItem.isNode : TreeItem → Bool
  | .internal | .leaf _ => true
  | .absent => false

/-- The bytes of items one after another, and how many nodes they are. -/
def itemBytes (is : List TreeItem) : List Byte := is.flatMap TreeItem.bytes
def itemNodes (is : List TreeItem) : Nat := is.countP TreeItem.isNode

/-- `n` subtrees are to come; after the items, and before each of them, at least one still is: an internal node adds its
two children, every item is one (R185, in pre-order). -/
def moreToCome : Nat → List TreeItem → Bool
  | n, [] => decide (1 ≤ n)
  | n, .internal :: is => decide (1 ≤ n) && moreToCome (n + 1) is
  | n, .leaf _ :: is => decide (1 ≤ n) && moreToCome (n - 1) is
  | n, .absent :: is => decide (1 ≤ n) && moreToCome (n - 1) is

/-- `Parse(IPOS)` has read the items without meeting a failure and needs another tag: they begin a tree whose root is
internal, their symbol words are valid, their nodes fit, and they are the bytes at IPOS (R185). -/
structure State.ItemsRead (s : State) (is : List TreeItem) : Prop where
  unfinished : moreToCome 1 is = true
  root_internal : ∀ x ∈ is.head?, x = .internal
  symbols_valid : ∀ w, .leaf w ∈ is → validSymbol w = true
  nodes_fit : itemNodes is ≤ 131071
  bytes_there : s.ipos.toNat + (itemBytes is).length ≤ s.ilen.toNat
  bytes_eq : s.ibufSlice s.ipos.toNat (itemBytes is).length = itemBytes is

/-- The byte index of the tag after the items. -/
abbrev State.tagAt (s : State) (is : List TreeItem) : Nat := s.ipos.toNat + (itemBytes is).length

/-- The symbol word of the leaf whose tag is at `p`. -/
abbrev State.leafWordAt (s : State) (p : Nat) : Word :=
  s.ibufAt (p + 1) ++ s.ibufAt (p + 2) ++ s.ibufAt (p + 3) ++ s.ibufAt (p + 4)

/-- The rows of R261 for `Parse`, one constructor a row in the table's order, each with its ERRINFO: why the tag after the
items ends the parse (60_exceptions.md R261, 43_huffman.md R185). -/
inductive State.BadTag (s : State) (is : List TreeItem) : Nat → Prop where
  | missing : s.tagAt is = s.ilen.toNat → s.BadTag is s.ilen.toNat
  | root : is = [] → s.tagAt is < s.ilen.toNat → s.ibufAt (s.tagAt is) ≠ 0x00#8 → s.BadTag is (s.tagAt is)
  | unknown : s.tagAt is < s.ilen.toNat → s.ibufAt (s.tagAt is) ∉ [0x00#8, 0x01#8, 0x02#8] → s.BadTag is (s.tagAt is)
  | truncated : is ≠ [] → s.tagAt is < s.ilen.toNat → s.ibufAt (s.tagAt is) = 0x01#8 →
      s.ilen.toNat < s.tagAt is + 5 → s.BadTag is s.ilen.toNat
  | invalid : is ≠ [] → s.tagAt is + 5 ≤ s.ilen.toNat → s.ibufAt (s.tagAt is) = 0x01#8 →
      symbolOf (s.leafWordAt (s.tagAt is)) = none → s.BadTag is (s.tagAt is)
  | tooMany : itemNodes is = 131071 → s.tagAt is < s.ilen.toNat →
      s.ibufAt (s.tagAt is) = 0x00#8 ∨ (s.ibufAt (s.tagAt is) = 0x01#8 ∧ s.tagAt is + 5 ≤ s.ilen.toNat ∧
        symbolOf (s.leafWordAt (s.tagAt is)) ≠ none) → s.BadTag is (s.tagAt is)

/-- A step that does not stop: it answers a next state. -/
def Steps (s : State) : Prop := ∃ t, step s = .next t

/-- States a run of the machine passes through, from `s`. -/
inductive Reaches (s : State) : State → Prop where
  | here : Reaches s s
  | next {t u : State} : Reaches s t → step t = .next u → Reaches s u

end Sys2Proof.Machine
end

