-- ==== Sys2Proof/Certificates/Slice0/Obligations.lean ====
section
/-! DEFINITION. The statements for the provers, from the numbered rules of spec/. Where a memory is written, the next
state is given as the old one with that memory taken from the new one, and the entries of the memory are then said one
by one: the written ones, and every other entry as before. -/

open Sys2Proof Sys2Proof.Machine

/-! ## Reset -/

/-- R49: the reset value of every register, and that no memory entry can be read. -/
def Obligations.ResetStateHasTheResetValues : Prop :=
  let s := State.reset
  s.cap = 4096#16 ∧ s.win = 255#8 ∧ s.minlen = 3#8 ∧ s.chunk = 4096#16 ∧ s.ctrl = 0b11#2 ∧
  s.state = .idle ∧ s.err = none ∧ s.errinfo = 0#32 ∧ s.estate = .idle ∧ s.flags = 0#6 ∧
  s.wptr = 0#16 ∧ s.fill = 0#16 ∧ s.ilen = 0#32 ∧ s.ipos = 0#32 ∧ s.ibit = 0#3 ∧
  s.olen = 0#32 ∧ s.omark = 0#32 ∧ s.acc = 0#8 ∧ s.nacc = 0#3 ∧
  s.ntok = 0#16 ∧ s.eidx = 0#16 ∧ s.cstart = 0#32 ∧ s.cend = 0#32 ∧
  s.nnode = 0#17 ∧ s.nleaf = 0#17 ∧ s.root = 0x1FFFF#17 ∧ s.tvalid = false ∧ s.cmvalid = false ∧
  s.moff = 0#16 ∧ s.mlen = 0#8 ∧ s.dsym = 0#32 ∧ s.rdata = 0#32 ∧
  ∀ i, s.readRing i = none ∧ s.readIbuf i = none ∧ s.readObuf i = none ∧ s.readTokmem i = none ∧
    s.readNodemem i = none ∧ s.readCodemap i = none

/-- R123, R290: in every state the RESET command gives every register its reset value, and the reset input does the same.
That the six memories are kept is the model's choice (log 5: R123 says that reset does not clear them, R49 and R291 call
their contents unspecified); the open parameters and the host's further inputs are fields of the model's own (log 1, 3). -/
def Obligations.ResetGivesResetValuesAndKeepsMemories : Prop :=
  decode 0x01000000#32 = .ok .reset ∧ ∀ s : State,
    let t : State := { s with
      cap := 4096#16, win := 255#8, minlen := 3#8, chunk := 4096#16, ctrl := 0b11#2
      state := .idle, err := none, errinfo := 0#32, estate := .idle
      fMatch := false, fBit := false, fExh := false, fStop := false
      wptr := 0#16, fill := 0#16, ilen := 0#32, ipos := 0#32, ibit := 0#3
      olen := 0#32, omark := 0#32, acc := 0#8, nacc := 0#3, ntok := 0#16, eidx := 0#16, cstart := 0#32, cend := 0#32
      nnode := 0#17, nleaf := 0#17, root := 0x1FFFF#17, tvalid := false, cmvalid := false
      moff := 0#16, mlen := 0#8, dsym := 0#32, rdata := 0#32 }
    exec .reset s = .next t ∧ ∀ rest, s.port = .resetInput :: rest → step s = .next { t with port := rest }

/-! ## Encodings -/

/-- R94 with the opcode map R93 and the formats R91: which of the 2^32 words are legal. -/
def Obligations.LegalWordsAreThoseOfTheOpcodeMap : Prop :=
  ∀ w : BitVec 32, (∃ i, decode w = .ok i) ↔
    let op := w.toNat / 2 ^ 24
    let v := w.toNat % 2 ^ 16
    let n := w.toNat / 2 ^ 16 % 2 ^ 5
    (op ∈ [0x00, 0x01, 0x05, 0x06, 0x10, 0x12, 0x20, 0x21, 0x30, 0x31, 0x32, 0x41, 0x42, 0x43, 0x50, 0x51, 0x52, 0x58,
        0x59, 0x60, 0x61] ∧ w.toNat % 2 ^ 24 = 0) ∨
    (op ∈ [0x04, 0x11] ∧ w.toNat / 2 ^ 8 % 2 ^ 16 = 0) ∨
    op = 0x02 ∨
    (op = 0x03 ∧ w.toNat % 2 ^ 16 = 0) ∨
    (op = 0x40 ∧ w.toNat / 2 ^ 21 % 2 ^ 3 = 0 ∧ 1 ≤ n ∧ n ≤ 16 ∧ v < 2 ^ n)

/-- The decoder and the encoder agree on all of the encoding: a word decodes to a term exactly when the term is well
formed and the word is its encoding. -/
def Obligations.DecodeIsTheInverseOfEncode : Prop :=
  ∀ (w : BitVec 32) (i : Instr), decode w = .ok i ↔ i.wellFormed = true ∧ encode i = w

/-- The example words of the command rules. -/
def Obligations.SampleWordsDecode : Prop :=
  decode 0x00000000#32 = .ok .nop ∧ decode 0x01000000#32 = .ok .reset ∧
  decode 0x02000010#32 = .ok (.csrw 0x00#8 16#16) ∧ decode 0x03000000#32 = .ok (.csrr 0x00#8) ∧
  decode 0x04000061#32 = .ok (.push 0x61#8) ∧ decode 0x11000069#32 = .ok (.lbrec 0x69#8) ∧
  decode 0x12000000#32 = .ok .lbfind ∧ decode 0x21000000#32 = .ok .mstep ∧ decode 0x30000000#32 = .ok .build ∧
  decode 0x40030005#32 = .ok (.wbits 3#5 0b101#16) ∧ decode 0x4010ABCD#32 = .ok (.wbits 16#5 0xABCD#16) ∧
  decode 0x52000000#32 = .ok .dstep ∧ decode 0x60000000#32 = .ok .compress ∧
  decode 0x00000001#32 = .error .nonzeroField ∧ decode 0x40000000#32 = .error .badBitCount

/-- R96, R97, R98: the symbol word of each symbol, that every other word is invalid, and the order of the words as
unsigned integers. -/
def Obligations.SymbolWordsAreTaggedAndOrdered : Prop :=
  (∀ (w : BitVec 32) (x : Symbol), symbolOf w = some x ↔
    match x with
    | .literal b => w.toNat = b.toNat
    | .copy o l => 1 ≤ o.toNat ∧ 1 ≤ l.toNat ∧ w.toNat = 0x40000000 + o.toNat * 2 ^ 8 + l.toNat
    | .stop => w.toNat = 0x80000000) ∧
  (∀ (b : BitVec 8) (o : BitVec 16) (l : BitVec 8), (literalWord b).toNat < (matchWord o l).toNat) ∧
  (∀ b : BitVec 8, (literalWord b).toNat < stopWord.toNat) ∧
  (∀ (o : BitVec 16) (l : BitVec 8), (matchWord o l).toNat < stopWord.toNat) ∧
  (∀ b c : BitVec 8, (literalWord b).toNat < (literalWord c).toNat ↔ b.toNat < c.toNat) ∧
  (∀ (o p : BitVec 16) (l k : BitVec 8), (matchWord o l).toNat < (matchWord p k).toNat ↔
    o.toNat < p.toNat ∨ (o.toNat = p.toNat ∧ l.toNat < k.toNat))

/-- R64: the unread bits, the first at the cursor's bit address `8 * IPOS + IBIT`. -/
def Obligations.UnreadBitsAreMostSignificantFirst : Prop :=
  ∀ s : State, s.ipos.toNat < s.ilen.toNat →
    s.unread.length = 8 * (s.ilen.toNat - s.ipos.toNat) - s.ibit.toNat ∧
    ∀ j < s.unread.length, s.unread.getD j false =
      (s.ibufAt ((8 * s.ipos.toNat + s.ibit.toNat + j) / 8)).getLsbD (7 - (8 * s.ipos.toNat + s.ibit.toNat + j) % 8)

/-! ## One step -/

/-- A step runs the decoded command on the state with the word taken off the port, and nothing else; a word placed first
by the host is the one the next step runs. (The port is the model's own form of "the command the host issues next",
R50: log 1, 17.) -/
def Obligations.StepRunsTheDecodedCommand : Prop :=
  (∀ (s : State) (w : BitVec 32) (rest : List HostInput) (i : Instr),
    s.port = .command w :: rest → decode w = .ok i → step s = exec i { s with port := rest }) ∧
  (∀ (s : State) (i : Instr), i.wellFormed = true → step (s.withFetchWord 32 (encode i).toNat) = exec i s)

/-- R281 and R120 (steps 1, 2): with nothing on the port the block waits and keeps all state; an illegal word is ignored
in `Failed` and raises `IllegalCommand` with the word elsewhere. That `obuf` keeps the bytes a roll-back in the decode
states withdraws is the model's choice (log 24). -/
def Obligations.StepWaitsAndRefusesIllegalWords : Prop :=
  (∀ s : State, s.port = [] → step s = .next s) ∧
  (∀ (s : State) (w : BitVec 32) (rest : List HostInput) (e : DecodeError),
    s.port = .command w :: rest → decode w = .error e →
    (s.state = .failed → step s = .next { s with port := rest }) ∧
    (s.state ≠ .failed → step s = .next { s with
      port := rest
      estate := s.state
      err := some .illegalCommand
      errinfo := w
      olen := if s.state = .headerParsed ∨ s.state = .decoding then s.omark else s.olen
      state := .failed }))

/-! ## Errors -/

/-- R121: "A command issued in a state outside its set, or with its extra precondition false, raises `IllegalCommand`
and has no other effect". That `obuf` keeps the bytes a roll-back in the decode states withdraws is the model's choice
(log 24). -/
def Obligations.CommandsOutsideTheLegalityTableRaise : Prop :=
  ∀ (i : Instr) (s : State), i.wellFormed = true → s.state ≠ .failed → ¬ Accepted i s →
    exec i s = .next { s with
      estate := s.state
      err := some .illegalCommand
      errinfo := encode i
      olen := if s.state = .headerParsed ∨ s.state = .decoding then s.omark else s.olen
      state := .failed }

/-- R229: "After the first primitive is accepted, no later primitive of the sequence can raise `IllegalCommand`", and an
accepted primitive raises none of its own. -/
def Obligations.AcceptedCommandsRaiseNoIllegalCommand : Prop :=
  ∀ (i : Instr) (s t : State), RegisterInv s → s.state ≠ .failed → i.wellFormed = true → Accepted i s →
    exec i s = .next t → t.err ≠ some .illegalCommand

/-- R282, as a bound: a command raises only what its row allows. -/
def Obligations.CommandsRaiseOnlyTheirErrors : Prop :=
  ∀ (i : Instr) (s t : State), s.err = none → exec i s = .next t → ∀ k, t.err = some k → k ∈ mayRaise i

/-- R268, R269: what error entry leaves, for every command that is no composite. That `obuf` keeps the bytes the
roll-back withdraws, and `nodemem` and `codemap` their entries when TLOAD fails, is the model's choice (log 24, 25). -/
def Obligations.ErrorEntryRecordsTheStateAndRollsBack : Prop :=
  ∀ (i : Instr) (s t : State), Composite i = false → s.state ≠ .failed → exec i s = .next t → t.state = .failed →
    let u : State := { s with
      estate := s.state
      err := t.err
      errinfo := t.errinfo
      olen := if s.state = .headerParsed ∨ s.state = .decoding then s.omark else s.olen
      state := .failed }
    t.err ≠ none ∧
    (t.err ≠ some .malformedHeader → t = u) ∧
    (t.err = some .malformedHeader → i = .tload ∧
      t = { u with nnode := 0, nleaf := 0, root := 0x1FFFF#17, tvalid := false, cmvalid := false })

/-- R270: what `Failed` still executes; every other command word, legal or not, is ignored; the readout port works. -/
def Obligations.FailedExecutesNopResetAndCsrrOnly : Prop :=
  ∀ s : State, s.state = .failed →
    exec .nop s = .next s ∧
    (∃ t, exec .reset s = .next t ∧ t.state = .idle ∧ t.err = none) ∧
    (∀ a, implementedCsr a → ∃ v, s.csrRead a = some v ∧ exec (.csrr a) s = .next { s with rdata := v }) ∧
    (∀ a, ¬ implementedCsr a → exec (.csrr a) s = .next s) ∧
    (∀ i, i ≠ .nop → i ≠ .reset → (∀ a, i ≠ .csrr a) → exec i s = .next s) ∧
    (∀ w rest e, s.port = .command w :: rest → decode w = .error e → step s = .next { s with port := rest }) ∧
    (∀ a < s.olen.toNat, s.readObuf a = some (s.obufAt a))

/-- R271: "The only exit from `Failed` is reset: the `RESET` command or the reset input", which "gives the reset state";
until then the first error stands (R270). That the six memories pass through reset unchanged is the model's choice (log 5:
R49 and R291 call their contents unspecified); `params` and `port` are fields of the model's own (log 1, 3). -/
def Obligations.OnlyResetLeavesFailed : Prop :=
  ∀ s t : State, s.state = .failed → step s = .next t →
    (t.state = .failed ∧ t.err = s.err ∧ t.errinfo = s.errinfo ∧ t.estate = s.estate) ∨
    (∃ rest, (s.port = .resetInput :: rest ∨ s.port = .command 0x01000000#32 :: rest) ∧
      t = { State.reset with
        ring := s.ring, ibuf := s.ibuf, obuf := s.obuf, tokmem := s.tokmem, nodemem := s.nodemem, codemap := s.codemap
        params := s.params, port := rest })

/-- R221: every command changes STATE only as the table says, or to `Failed`. -/
def Obligations.StateChangesFollowTheTransitionTable : Prop :=
  ∀ (i : Instr) (s t : State), s.state ≠ .failed → exec i s = .next t →
    t.state = .failed ∨ Transition i s.state t.state

/-! ## Host and configuration commands -/

/-- R122: the word 0, in every state, and the word 1, which is not NOP. That `obuf` keeps the bytes a roll-back in the
decode states withdraws is the model's choice (log 24). -/
def Obligations.NopChangesNothing : Prop :=
  decode 0x00000000#32 = .ok .nop ∧ ∀ s : State, exec .nop s = .next s ∧
    ∀ rest, s.port = .command 0x00000001#32 :: rest → s.state ≠ .failed →
      step s = .next (({ s with port := rest } : State).raise .illegalCommand 0x00000001#32)

/-- R124, R39 to R43: the five writable registers and the values they take; a write of CAP clears the ring. That `ring`
keeps its entries when CAP is written is the model's choice (log 26). -/
def Obligations.CsrwWritesTheConfiguration : Prop :=
  ∀ (s : State) (v : BitVec 16), ChunkClosed s →
    (1 ≤ v.toNat → exec (.csrw 0x00#8 v) s = .next { s with cap := v, wptr := 0, fill := 0 }) ∧
    (1 ≤ v.toNat → v.toNat ≤ 255 → exec (.csrw 0x01#8 v) s = .next { s with win := BitVec.ofNat 8 v.toNat }) ∧
    (2 ≤ v.toNat → v.toNat ≤ 255 → exec (.csrw 0x02#8 v) s = .next { s with minlen := BitVec.ofNat 8 v.toNat }) ∧
    (1 ≤ v.toNat → exec (.csrw 0x03#8 v) s = .next { s with chunk := v }) ∧
    (v.toNat ≤ 3 → exec (.csrw 0x04#8 v) s = .next { s with ctrl := BitVec.ofNat 2 v.toNat })

/-- R125, R44, and the numbers of R35, R36, R34: what CSRR reads at each address, in every state, `Failed` included. -/
def Obligations.CsrrReadsEveryRegister : Prop :=
  ∀ s : State,
    let stateNumber : CodecState → BitVec 32
      | .idle => 0 | .collecting => 1 | .treeReady => 2 | .encoding => 3 | .done => 4 | .headerParsed => 5
      | .decoding => 6 | .failed => 7
    let errNumber : Option ErrorKind → BitVec 32
      | none => 0 | some .malformedHeader => 1 | some .decodeTreeMismatch => 2 | some .prematureExhaustion => 3
      | some .invalidMatchReference => 4 | some .resourceExhausted => 5 | some .illegalCommand => 6
    let bit : Bool → Nat → Nat := fun b k => if b then 2 ^ k else 0
    let reads : BitVec 8 → BitVec 32 → Prop := fun a v => exec (.csrr a) s = .next { s with rdata := v }
    reads 0x00#8 (s.cap.setWidth 32) ∧ reads 0x01#8 (s.win.setWidth 32) ∧ reads 0x02#8 (s.minlen.setWidth 32) ∧
    reads 0x03#8 (s.chunk.setWidth 32) ∧ reads 0x04#8 (s.ctrl.setWidth 32) ∧
    reads 0x10#8 (stateNumber s.state) ∧ reads 0x11#8 (errNumber s.err) ∧ reads 0x12#8 s.errinfo ∧
    reads 0x13#8 (stateNumber s.estate) ∧
    reads 0x14#8 (BitVec.ofNat 32 (bit s.fMatch 0 + bit s.fBit 1 + bit s.fExh 2 + bit s.fStop 3 + bit s.tvalid 4 +
      bit s.cmvalid 5)) ∧
    reads 0x15#8 (s.fill.setWidth 32) ∧ reads 0x16#8 (s.wptr.setWidth 32) ∧ reads 0x17#8 s.ipos ∧
    reads 0x18#8 (s.ibit.setWidth 32) ∧ reads 0x19#8 s.ilen ∧ reads 0x1A#8 s.olen ∧
    reads 0x1B#8 (BitVec.ofNat 32 (s.nacc.toNat * 2 ^ 8 + s.acc.toNat)) ∧
    reads 0x1C#8 (s.ntok.setWidth 32) ∧ reads 0x1D#8 (s.eidx.setWidth 32) ∧ reads 0x1E#8 s.cstart ∧
    reads 0x1F#8 s.cend ∧ reads 0x20#8 (s.nnode.setWidth 32) ∧ reads 0x21#8 (s.nleaf.setWidth 32) ∧
    reads 0x22#8 (s.root.setWidth 32) ∧ reads 0x23#8 (s.moff.setWidth 32) ∧ reads 0x24#8 (s.mlen.setWidth 32) ∧
    reads 0x25#8 s.dsym ∧ reads 0x26#8 s.omark ∧ reads 0x27#8 s.rdata ∧ reads 0x28#8 0x4C5A4801#32

/-- R126: PUSH stores one byte behind the last, or raises when the buffer is full. -/
def Obligations.PushAppendsOneInputByte : Prop :=
  ∀ (s : State) (b : BitVec 8), ChunkClosed s →
    (s.ilen.toNat < s.params.inMax → ∃ t, exec (.push b) s = .next t ∧
      t = { s with ibuf := t.ibuf, ilen := s.ilen + 1 } ∧ t.ibufAt s.ilen.toNat = b ∧
      ∀ a, a ≠ s.ilen.toNat → t.ibufAt a = s.ibufAt a) ∧
    (s.params.inMax ≤ s.ilen.toNat → exec (.push b) s = .next { s with
      estate := s.state, err := some .resourceExhausted, errinfo := 1, state := .failed })

/-- R127, R128, R145. -/
def Obligations.ClearsResetTheirCountersOnly : Prop :=
  ∀ s : State, ChunkClosed s →
    exec .iclr s = .next { s with ilen := 0, ipos := 0, ibit := 0 } ∧
    exec .oclr s = .next { s with olen := 0, omark := 0, acc := 0, nacc := 0 } ∧
    exec .lbclr s = .next { s with wptr := 0, fill := 0 }

/-! ## Lookback buffer -/

/-- R140, R141, R146. -/
def Obligations.LbrecRecordsOneByte : Prop :=
  ∀ (s : State) (b : BitVec 8), RegisterInv s → ChunkClosed s → ∃ t, exec (.lbrec b) s = .next t ∧
    t = { s with ring := t.ring, wptr := t.wptr, fill := t.fill } ∧ t.ringAt s.wptr.toNat = b ∧ Recorded s t [b]

/-- R143, R147: LBFIND sets the result registers to the longest match, the smallest offset among the longest. -/
def Obligations.LbfindFindsTheLongestMatch : Prop :=
  ∀ s : State, RegisterInv s → ChunkClosed s → s.ibit = 0 → ∃ o L,
    s.IsLongest (s.ibufSlice s.ipos.toNat (min s.win.toNat (s.ilen.toNat - s.ipos.toNat))) o L ∧
    exec .lbfind s = .next { s with
      moff := BitVec.ofNat 16 o, mlen := BitVec.ofNat 8 L, fMatch := decide (L ≠ 0) }

/-- R148: (a) without overlap a match is no longer than its offset; (b) replaying a match appends what was searched for;
(c), (d) the search depends on the history, the bytes, MINLEN and OVL only. -/
def Obligations.SearchResultReplaysAndIsDeterministic : Prop :=
  (∀ (s : State) (U : List (BitVec 8)), s.ovl = false → (s.findLongest U).2 ≤ (s.findLongest U).1) ∧
  (∀ (s : State) (U : List (BitVec 8)), RegisterInv s → (s.findLongest U).2 ≠ 0 →
    (State.replay (s.findLongest U).1 (s.findLongest U).2 s).history =
      trim s.cap.toNat (s.history ++ U.take (s.findLongest U).2)) ∧
  (∀ (s t : State) (U : List (BitVec 8)), s.history = t.history → s.minlen = t.minlen → s.ovl = t.ovl →
    s.findLongest U = t.findLongest U) ∧
  (∀ (s : State) (U : List (BitVec 8)) (win : BitVec 8) (chunk : BitVec 16),
    ({ s with win := win, chunk := chunk } : State).findLongest U = s.findLongest U)

/-! ## Matcher -/

/-- R161. That `nodemem` and `codemap` keep their entries is the model's choice (log 25). -/
def Obligations.CbeginOpensAChunk : Prop :=
  ∀ s : State, ChunkClosed s → s.ibit = 0 → s.nacc = 0 → ∃ e : BitVec 32, exec .cbegin s = .next { s with
      ntok := 0, eidx := 0, cstart := s.ipos, cend := e, tvalid := false, cmvalid := false, state := .collecting } ∧
    e.toNat = min s.ilen.toNat (s.ipos.toNat + s.chunk.toNat)

/-- R162: one token, for a match and for a literal. -/
def Obligations.MstepEmitsOneToken : Prop :=
  ∀ s : State, RegisterInv s → s.state = .collecting → s.ipos.toNat < s.cend.toNat → ∃ t o L,
    s.IsLongest (s.ibufSlice s.ipos.toNat (min s.win.toNat (s.cend.toNat - s.ipos.toNat))) o L ∧
    exec .mstep s = .next t ∧
    let n := if L ≠ 0 then L else 1
    t = { s with
      moff := BitVec.ofNat 16 o, mlen := BitVec.ofNat 8 L, fMatch := decide (L ≠ 0)
      tokmem := t.tokmem, ntok := s.ntok + 1, ring := t.ring, wptr := t.wptr, fill := t.fill, ipos := t.ipos } ∧
    t.ipos.toNat = s.ipos.toNat + n ∧
    (t.tokAt s.ntok.toNat).toNat =
      (if L ≠ 0 then 0x40000000 + o * 2 ^ 8 + L else (s.ibufAt s.ipos.toNat).toNat) ∧
    (∀ k, k ≠ s.ntok.toNat → t.tokAt k = s.tokAt k) ∧
    Recorded s t (s.ibufSlice s.ipos.toNat n)

/-! ## Huffman tree -/

/-- R182, R178 (a), R183: BUILD completes, what it writes and what it leaves. (Which leaves there are is
`BuildLeavesAreTheCountedAlphabet`.) -/
def Obligations.BuildCompletesWithATree : Prop :=
  ∀ s : State, s.state = .collecting → s.ipos = s.cend → ∃ t T, exec .build s = .next t ∧
    let n := t.nleaf.toNat
    t = { s with
      nodemem := t.nodemem, nnode := t.nnode, nleaf := t.nleaf, root := t.root, codemap := t.codemap
      eidx := 0, tvalid := true, cmvalid := true, state := .treeReady } ∧
    1 ≤ n ∧ n ≤ s.ntok.toNat + 1 ∧
    t.nnode.toNat = (if n = 1 then 2 else 2 * n - 1) ∧
    t.root.toNat = t.nnode.toNat - 1 ∧
    (∀ k, t.nnode.toNat ≤ k → t.nodeAt k = s.nodeAt k) ∧
    t.tree = some T ∧ T.ser.length = (if n = 1 then 7 else 6 * n - 1)

/-- R175, R176: the leaves are the alphabet in increasing order of the symbol word, each with its count, `Stop` last with
weight 1. -/
def Obligations.BuildLeavesAreTheCountedAlphabet : Prop :=
  ∀ s t : State, s.state = .collecting → s.ipos = s.cend → (∀ k < s.ntok.toNat, tokenWord (s.tokAt k) = true) →
    exec .build s = .next t →
    (∀ k < t.nleaf.toNat, ∃ w, t.nodeAt k = .leaf w (BitVec.ofNat 32 (if w = stopWord then 1 else s.tokens.count w)) ∧
      (w = stopWord ∨ w ∈ s.tokens)) ∧
    (∀ w, w = stopWord ∨ w ∈ s.tokens → ∃ k x, k < t.nleaf.toNat ∧ t.nodeAt k = .leaf w x) ∧
    (∀ j k v w x y, j < k → k < t.nleaf.toNat → t.nodeAt j = .leaf v x → t.nodeAt k = .leaf w y → v.toNat < w.toNat) ∧
    (∃ x, t.nodeAt (t.nleaf.toNat - 1) = .leaf stopWord x)

/-- R177, R178 (b), (c): each internal node combines the two least active nodes by (weight, index), the least on the left,
and holds the sum of their weights; with `Stop` alone the root has it on the left and nothing on the right. -/
def Obligations.BuildCombinesTheTwoLightestNodes : Prop :=
  ∀ s t : State, s.state = .collecting → s.ipos = s.cend → exec .build s = .next t →
    (t.nleaf = 1 → t.nodeAt 1 = .internal 0#17 0x1FFFF#17 (t.nodeAt 0).weight) ∧
    (2 ≤ t.nleaf.toNat → ∀ k, t.nleaf.toNat ≤ k → k < t.nnode.toNat → ∃ a b w,
      t.nodeAt k = .internal a b w ∧ w.toNat = (t.nodeAt a.toNat).weight.toNat + (t.nodeAt b.toNat).weight.toNat ∧
      t.ActiveFor k a.toNat ∧ t.ActiveFor k b.toNat ∧ a ≠ b ∧
      (∀ j, t.ActiveFor k j → t.NotLater a.toNat j) ∧
      (∀ j, t.ActiveFor k j → j ≠ a.toNat → t.NotLater b.toNat j))

/-- R180, R188, R178 (d), R99: each leaf is reached from the root exactly once, its code is its path, no code is empty, no
code begins another, and each symbol's code is its leaf's. -/
def Obligations.BuildCodesAreThePathsAndPrefixFree : Prop :=
  ∀ s t : State, s.state = .collecting → s.ipos = s.cend → exec .build s = .next t → ∃ T, t.tree = some T ∧
    ((T.codes []).map Prod.fst).Perm (List.range t.nleaf.toNat) ∧
    (∀ k < t.nleaf.toNat, ∃ w x, t.nodeAt k = .leaf w x ∧ T.follow (t.codeAt k) = some (.leaf k w) ∧
      t.codeAt k ≠ [] ∧ t.codeOf w = some (t.codeAt k)) ∧
    (∀ j k, j < t.nleaf.toNat → k < t.nleaf.toNat → j ≠ k → ¬ t.codeAt j <+: t.codeAt k) ∧
    (∀ k, t.nleaf.toNat ≤ k → t.codeAt k = s.codeAt k)

/-- R187 (b): the tree and the codes are a function of the multiset of the token words. -/
def Obligations.BuildDoesNotDependOnTokenOrder : Prop :=
  ∀ s s' t t' : State, s.state = .collecting → s.ipos = s.cend → s'.state = .collecting → s'.ipos = s'.cend →
    s.tokens.Perm s'.tokens → exec .build s = .next t → exec .build s' = .next t' →
    t.nnode = t'.nnode ∧ t.nleaf = t'.nleaf ∧ t.root = t'.root ∧ (∀ k < t.nnode.toNat, t.nodeAt k = t'.nodeAt k) ∧
      ∀ k < t.nleaf.toNat, t.codeAt k = t'.codeAt k

/-- R179, for a chunk that has a token; without one the one code is `0` (R178: the degenerate tree, log 22). -/
def Obligations.CodeLengthsAreBounded : Prop :=
  ∀ s t : State, s.state = .collecting → s.ipos = s.cend → exec .build s = .next t → ∀ k < t.nleaf.toNat,
    (1 ≤ s.ntok.toNat → fib ((t.codeAt k).length + 2) ≤ s.ntok.toNat + 1) ∧ (t.codeAt k).length ≤ 22

/-- R184, R100, R210: TSTORE appends the tree's bytes where they fit and raises where they do not. -/
def Obligations.TstoreAppendsTheTreeBytes : Prop :=
  ∀ (s : State) (T : HTree), RegisterInv s → s.state = .treeReady → s.tree = some T →
    (s.olen.toNat + T.ser.length ≤ s.params.outMax → ∃ t, exec .tstore s = .next t ∧
      t = { s with obuf := t.obuf, olen := t.olen } ∧ Appended s t T.ser) ∧
    (s.params.outMax < s.olen.toNat + T.ser.length → exec .tstore s = .next { s with
      estate := s.state, err := some .resourceExhausted, errinfo := 2, state := .failed })

/-- R185, R186: on the bytes of any tree with an internal root, valid symbols and no more than NODE_MAX nodes, TLOAD reads
that tree back, with weight 0 in every node (R30). -/
def Obligations.TloadReadsTheTreeThatWasSerialised : Prop :=
  ∀ (s : State) (l r : HTree), RegisterInv s → ChunkClosed s → s.ibit = 0 → s.nacc = 0 →
    let T : HTree := .node l r
    T.symbolsValid = true → T.size ≤ 131071 → s.ipos.toNat + T.ser.length ≤ s.ilen.toNat →
    s.ibufSlice s.ipos.toNat T.ser.length = T.ser →
    ∃ t T', exec .tload s = .next t ∧ t.tree = some T' ∧ T'.shape = T.shape ∧
      t = { s with
        nodemem := t.nodemem, nnode := BitVec.ofNat 17 T.size, nleaf := BitVec.ofNat 17 T.leafCount, root := 0
        tvalid := true, cmvalid := false, ipos := t.ipos, omark := s.olen, fExh := false, fStop := false
        state := .headerParsed } ∧
      t.ipos.toNat = s.ipos.toNat + T.ser.length ∧
      (∀ k < t.nnode.toNat, (t.nodeAt k).weight = 0) ∧
      (∀ k, t.nnode.toNat ≤ k → t.nodeAt k = s.nodeAt k)

/-- R185, R186, the other way round: TLOAD succeeds on nothing else. -/
def Obligations.TloadAcceptsOnlySerialisedTrees : Prop :=
  ∀ s t : State, RegisterInv s → ChunkClosed s → s.ibit = 0 → s.nacc = 0 → exec .tload s = .next t →
    t.state = .headerParsed → ∃ T, t.tree = some T ∧ T.symbolsValid = true ∧
      s.ipos.toNat + T.ser.length = t.ipos.toNat ∧ t.ipos.toNat ≤ s.ilen.toNat ∧
      s.ibufSlice s.ipos.toNat T.ser.length = T.ser

/-- R186, R185, R261: a parse that fails clears the tree and raises, with the information word of R261. The first two
clauses are the empty input and the root that is no internal node; the third is every row of R261 for `Parse`, whatever
was read before the tag that fails; the last says that TLOAD fails for no other reason. That `nodemem` and `codemap`
keep their entries is the model's choice (log 25). -/
def Obligations.TloadOnBadTreeClearsTheTreeAndRaises : Prop :=
  ∀ s : State, RegisterInv s → ChunkClosed s → s.ibit = 0 → s.nacc = 0 →
    (s.ipos = s.ilen → ∃ t, exec .tload s = .next t ∧ t.state = .failed ∧ t.errinfo = s.ilen) ∧
    (s.ipos ≠ s.ilen → s.ibufAt s.ipos.toNat ≠ 0x00#8 →
      ∃ t, exec .tload s = .next t ∧ t.state = .failed ∧ t.errinfo = s.ipos) ∧
    (∀ is info, s.ItemsRead is → s.BadTag is info → exec .tload s = .next { s with
      nnode := 0, nleaf := 0, root := 0x1FFFF#17, tvalid := false, cmvalid := false
      estate := s.state, err := some .malformedHeader, errinfo := BitVec.ofNat 32 info, state := .failed }) ∧
    ∀ t, exec .tload s = .next t → t.state = .failed →
      (∃ is, s.ItemsRead is ∧ s.BadTag is t.errinfo.toNat) ∧
      s.ipos.toNat ≤ t.errinfo.toNat ∧ t.errinfo.toNat ≤ s.ilen.toNat ∧
      t = { s with
        nnode := 0, nleaf := 0, root := 0x1FFFF#17, tvalid := false, cmvalid := false
        estate := s.state, err := some .malformedHeader, errinfo := t.errinfo, state := .failed }

/-! ## Bit stream -/

/-- R205, R201, R210: WBITS writes `v[n-1], ..., v[0]`. -/
def Obligations.WbitsWritesItsBits : Prop :=
  ∀ (s : State) (n : BitVec 5) (v : BitVec 16), RegisterInv s → ChunkClosed s →
    1 ≤ n.toNat → n.toNat ≤ 16 → v.toNat < 2 ^ n.toNat →
    (s.olen.toNat + (s.nacc.toNat + n.toNat) / 8 ≤ s.params.outMax → ∃ t, exec (.wbits n v) s = .next t ∧
      t = { s with obuf := t.obuf, olen := t.olen, acc := t.acc, nacc := t.nacc } ∧
      BitsWritten s t ((List.range n.toNat).map fun j => v.getLsbD (n.toNat - 1 - j))) ∧
    (s.params.outMax < s.olen.toNat + (s.nacc.toNat + n.toNat) / 8 → exec (.wbits n v) s = .next { s with
      estate := s.state, err := some .resourceExhausted, errinfo := 2, state := .failed })

/-- R206, R202, R209: WFIN pads the pending bits with the stop code, repeated from its start, to a whole byte. -/
def Obligations.WfinPadsWithTheStopCode : Prop :=
  ∀ s : State, RegisterInv s → ChunkClosed s →
    (s.nacc = 0 → exec .wfin s = .next s) ∧
    (∀ c, s.nacc ≠ 0 → s.cmvalid = true → s.codeOf 0x80000000#32 = some c →
      (s.olen.toNat + 1 ≤ s.params.outMax → ∃ t, exec .wfin s = .next t ∧
        t = { s with obuf := t.obuf, olen := s.olen + 1, acc := 0, nacc := 0 } ∧
        BitsWritten s t (repeated c (8 - s.nacc.toNat))) ∧
      (s.params.outMax < s.olen.toNat + 1 → exec .wfin s = .next { s with
        estate := s.state, err := some .resourceExhausted, errinfo := 2, state := .failed }))

/-- R207, R208, R203, R204: RBIT reads the bit under the cursor, or reports exhaustion; RALIGN moves to the next byte. -/
def Obligations.RbitAndRalignMoveTheReadCursor : Prop :=
  ∀ s : State, ChunkClosed s →
    (s.ipos.toNat < s.ilen.toNat → exec .rbit s = .next { s with
      fBit := (s.ibufAt s.ipos.toNat).getLsbD (7 - s.ibit.toNat), fExh := false
      ibit := if s.ibit = 7 then 0 else s.ibit + 1, ipos := if s.ibit = 7 then s.ipos + 1 else s.ipos }) ∧
    (s.ilen.toNat ≤ s.ipos.toNat → exec .rbit s = .next { s with fBit := false, fExh := true }) ∧
    (s.ibit ≠ 0 → exec .ralign s = .next { s with ibit := 0, ipos := s.ipos + 1 }) ∧
    (s.ibit = 0 → exec .ralign s = .next s)

/-! ## Chunk codec -/

/-- R222. -/
def Obligations.EstepWritesOneTokenCode : Prop :=
  ∀ (s : State) (c : List Bool), RegisterInv s → s.state = .treeReady ∨ s.state = .encoding →
    s.eidx.toNat < s.ntok.toNat → s.codeOf (s.tokAt s.eidx.toNat) = some c →
    (s.olen.toNat + (s.nacc.toNat + c.length) / 8 ≤ s.params.outMax → ∃ t, exec .estep s = .next t ∧
      t = { s with
        obuf := t.obuf, olen := t.olen, acc := t.acc, nacc := t.nacc, eidx := s.eidx + 1, state := .encoding } ∧
      BitsWritten s t c) ∧
    (s.params.outMax < s.olen.toNat + (s.nacc.toNat + c.length) / 8 → exec .estep s = .next { s with
      estate := s.state, err := some .resourceExhausted, errinfo := 2, state := .failed })

/-- R223, R202: the whole stop code, then as many bits of it as fill the byte. -/
def Obligations.EfinWritesTheStopCodeAndPads : Prop :=
  ∀ (s : State) (c : List Bool), RegisterInv s → s.state = .treeReady ∨ s.state = .encoding → s.eidx = s.ntok →
    s.codeOf 0x80000000#32 = some c →
    (s.olen.toNat + (s.nacc.toNat + c.length + 7) / 8 ≤ s.params.outMax → ∃ t, exec .efin s = .next t ∧
      t = { s with obuf := t.obuf, olen := t.olen, acc := 0, nacc := 0, state := .done } ∧
      BitsWritten s t (c ++ repeated c ((8 - (s.nacc.toNat + c.length) % 8) % 8))) ∧
    (s.params.outMax < s.olen.toNat + (s.nacc.toNat + c.length + 7) / 8 → exec .efin s = .next { s with
      estate := s.state, err := some .resourceExhausted, errinfo := 2, state := .failed })

/-- R225, R224, R181: DSTEP on bits that begin with the path of a leaf: `Stop` ends the chunk at the next byte boundary, a
literal or a match is replayed into the ring and the output. -/
def Obligations.DstepDecodesAndAppliesOneSymbol : Prop :=
  ∀ (s : State) (T : HTree) (p : List Bool) (k : Nat) (w : BitVec 32), RegisterInv s →
    s.state = .headerParsed ∨ s.state = .decoding → s.tree = some T → p ≠ [] → T.follow p = some (.leaf k w) →
    p <+: s.unread →
    (w = 0x80000000#32 → ∃ t, exec .dstep s = .next t ∧
      t = { s with dsym := w, fStop := true, fExh := false, state := .done, ibit := 0, ipos := t.ipos } ∧
      t.ipos.toNat = (8 * s.ipos.toNat + s.ibit.toNat + p.length + 7) / 8) ∧
    (∀ x, symbolOf w = some x → w ≠ 0x80000000#32 →
      (∀ o l, x = .copy o l → o.toNat ≤ s.fill.toNat) →
      s.olen.toNat + (expand s.history x).length ≤ s.params.outMax → ∃ t, exec .dstep s = .next t ∧
        t = { s.advance p.length with
          dsym := w, fStop := false, fExh := false, state := .decoding
          ring := t.ring, wptr := t.wptr, fill := t.fill, obuf := t.obuf, olen := t.olen } ∧
        Recorded s t (expand s.history x) ∧ Appended s t (expand s.history x))

/-- R225, R226, R262 to R264: DSTEP on bits that lead to an absent child, that end before a leaf, or that give a token
which cannot be applied. That `obuf` keeps the bytes a roll-back in the decode states withdraws is the model's choice
(log 24). -/
def Obligations.DstepEndsOrRaisesWhereNoTokenApplies : Prop :=
  ∀ (s : State) (T : HTree), RegisterInv s → s.state = .headerParsed ∨ s.state = .decoding → s.tree = some T →
    let failedWith : ErrorKind → BitVec 32 → State := fun e info => { s with
      estate := s.state, err := some e, errinfo := info, olen := s.omark, state := .failed }
    let at_ : BitVec 32 := BitVec.ofNat 32 (8 * s.ipos.toNat + s.ibit.toNat)
    (∀ p, p ≠ [] → T.follow p = some .nil → p <+: s.unread →
      exec .dstep s = .next (failedWith .decodeTreeMismatch at_)) ∧
    (∀ l r, T.follow s.unread = some (.node l r) →
      (s.last = true → exec .dstep s = .next { s with
        fExh := true, fStop := false, ipos := s.ilen, ibit := 0, state := .done }) ∧
      (s.last = false → exec .dstep s = .next (failedWith .prematureExhaustion at_))) ∧
    (∀ p k w x, p ≠ [] → T.follow p = some (.leaf k w) → p <+: s.unread → symbolOf w = some x →
      (∀ o l, x = .copy o l → s.fill.toNat < o.toNat →
        exec .dstep s = .next (failedWith .invalidMatchReference w)) ∧
      ((∀ o l, x = .copy o l → o.toNat ≤ s.fill.toNat) → x ≠ .stop →
        s.params.outMax < s.olen.toNat + (expand s.history x).length →
        exec .dstep s = .next (failedWith .resourceExhausted 2)))

/-- R229, R227, R228, R246, R247: a composite is the effect of its primitives issued one after another. That `ring`
keeps its entries at the start of a file is the model's choice (log 26). -/
def Obligations.CompositesAreTheirPrimitivesInSequence : Prop :=
  ∀ s t : State, RegisterInv s →
    (∀ m k, Runs (.cbegin :: (List.replicate m .mstep ++ [.build, .tstore] ++ List.replicate k .estep ++ [.efin])) s t →
      exec .encchunk s = .next t) ∧
    (∀ k, Runs (.tload :: List.replicate k .dstep) s t → t.state = .done → exec .decchunk s = .next t) ∧
    (ChunkClosed s → s.ibit = 0 → 6 ≤ s.params.outMax → ∀ u,
      u = { s with olen := u.olen, omark := 0, acc := 0, nacc := 0, wptr := 0, fill := 0, obuf := u.obuf } →
      Memory.wf s.obuf = true → Memory.wf u.obuf = true → u.olen = 6 →
      u.obufSlice 0 6 = [0x4C, 0x5A, 0x48, 0x01, s.cap.extractLsb' 8 8, s.cap.extractLsb' 0 8] →
      (∀ a, 6 ≤ a → u.obufAt a = s.obufAt a) →
      RunsUntilUsed .encchunk u t → exec .compress s = .next t) ∧
    (ChunkClosed s → s.ibit = 0 → ∀ cap : BitVec 16, cap ≠ 0 → s.ipos.toNat + 6 ≤ s.ilen.toNat →
      s.ibufSlice s.ipos.toNat 6 = [0x4C, 0x5A, 0x48, 0x01, cap.extractLsb' 8 8, cap.extractLsb' 0 8] →
      RunsUntilUsed .decchunk
        { s with olen := 0, omark := 0, acc := 0, nacc := 0, cap := cap, wptr := 0, fill := 0, ipos := s.ipos + 6 } t →
      exec .decompress s = .next t)

/-- R229: "If a primitive in the sequence raises, the composite stops there: the state is what that primitive's raise
left". The chunk composites stop at their first failing primitive, the file composites at their first failing chunk,
with the output of the chunks before it kept: COMPRESS leaves a partial file, DECOMPRESS has OLEN where it was when the
failing chunk began, which is OMARK once that chunk's tree is loaded (R246, R247, R269). COMPRESS without room for the
file header changes nothing but the error registers (R246). That `ring` keeps its entries at the start of a file, and
what the failing primitive leaves in entries no rule can read, are the model's choice (log 24, 25, 26). -/
def Obligations.CompositesStopAtTheFirstError : Prop :=
  ∀ s : State, RegisterInv s →
    (∀ u t, t.state = .failed →
      (∀ m, Runs (.cbegin :: (List.replicate m .mstep ++ [.build])) s u → exec .tstore u = .next t →
        exec .encchunk s = .next t) ∧
      (∀ m k, Runs (.cbegin :: (List.replicate m .mstep ++ [.build, .tstore] ++ List.replicate k .estep)) s u →
        (u.eidx.toNat < u.ntok.toNat → exec .estep u = .next t → exec .encchunk s = .next t) ∧
        (u.eidx = u.ntok → exec .efin u = .next t → exec .encchunk s = .next t)) ∧
      (Accepted .tload s → exec .tload s = .next t → exec .decchunk s = .next t) ∧
      (∀ k, Runs (.tload :: List.replicate k .dstep) s u → u.state ≠ .done → exec .dstep u = .next t →
        exec .decchunk s = .next t)) ∧
    (ChunkClosed s → s.ibit = 0 → 6 ≤ s.params.outMax → ∀ h u t,
      h = { s with olen := h.olen, omark := 0, acc := 0, nacc := 0, wptr := 0, fill := 0, obuf := h.obuf } →
      Memory.wf s.obuf = true → Memory.wf h.obuf = true → h.olen = 6 →
      h.obufSlice 0 6 = [0x4C, 0x5A, 0x48, 0x01, s.cap.extractLsb' 8 8, s.cap.extractLsb' 0 8] →
      (∀ a, 6 ≤ a → h.obufAt a = s.obufAt a) →
      RoundsBefore .encchunk h u → exec .encchunk u = .next t → t.state = .failed →
      exec .compress s = .next t ∧ h.olen.toNat ≤ u.olen.toNat ∧ u.olen.toNat ≤ t.olen.toNat ∧
        ∀ a < u.olen.toNat, t.obufAt a = u.obufAt a) ∧
    (ChunkClosed s → s.ibit = 0 → s.params.outMax < 6 → exec .compress s = .next { s with
      estate := s.state, err := some .resourceExhausted, errinfo := 2, state := .failed }) ∧
    (ChunkClosed s → s.ibit = 0 → ∀ (cap : BitVec 16) u t, cap ≠ 0 → s.ipos.toNat + 6 ≤ s.ilen.toNat →
      s.ibufSlice s.ipos.toNat 6 = [0x4C, 0x5A, 0x48, 0x01, cap.extractLsb' 8 8, cap.extractLsb' 0 8] →
      RoundsBefore .decchunk
        { s with olen := 0, omark := 0, acc := 0, nacc := 0, cap := cap, wptr := 0, fill := 0, ipos := s.ipos + 6 } u →
      exec .decchunk u = .next t → t.state = .failed →
      exec .decompress s = .next t ∧ t.olen = u.olen ∧ (∀ a < u.olen.toNat, t.obufAt a = u.obufAt a) ∧
        (t.estate = .headerParsed ∨ t.estate = .decoding → t.omark = u.olen))

/-- R230, R101, R227: ENCCHUNK appends the chunk record, consumes the chunk and keeps it in the ring; where the record
does not fit it raises. -/
def Obligations.EncchunkAppendsTheChunkRecord : Prop :=
  ∀ s : State, RegisterInv s → ChunkClosed s → s.ibit = 0 → s.nacc = 0 →
    let n := min s.chunk.toNat (s.ilen.toNat - s.ipos.toNat)
    (s.olen.toNat + s.chunkRecord.length ≤ s.params.outMax → ∃ t, exec .encchunk s = .next t ∧
      t = { s with
        ring := t.ring, wptr := t.wptr, fill := t.fill, ipos := t.ipos, obuf := t.obuf, olen := t.olen, acc := 0
        tokmem := t.tokmem, ntok := t.ntok, cstart := s.ipos, cend := t.ipos, eidx := t.ntok
        nodemem := t.nodemem, nnode := t.nnode, nleaf := t.nleaf, root := t.root, tvalid := true
        codemap := t.codemap, cmvalid := true, moff := t.moff, mlen := t.mlen, fMatch := t.fMatch, state := .done } ∧
      Appended s t s.chunkRecord ∧ t.ipos.toNat = s.ipos.toNat + n ∧ Recorded s t (s.ibufSlice s.ipos.toNat n) ∧
      expandAll s.cap.toNat s.history t.tokens = s.ibufSlice s.ipos.toNat n) ∧
    (s.params.outMax < s.olen.toNat + s.chunkRecord.length → ∃ t, exec .encchunk s = .next t ∧ t.state = .failed ∧
      t.err = some .resourceExhausted ∧ t.errinfo = 2)

/-- R231: DECCHUNK on a chunk record an encoder with the same history and capacity made gives back the chunk's bytes. -/
def Obligations.DecchunkDecodesWhatEncchunkEncodes : Prop :=
  ∀ e s : State, RegisterInv e → RegisterInv s → ChunkClosed s → s.ibit = 0 → s.nacc = 0 →
    s.cap = e.cap → s.history = e.history →
    s.ipos.toNat + e.chunkRecord.length ≤ s.ilen.toNat →
    s.ibufSlice s.ipos.toNat e.chunkRecord.length = e.chunkRecord →
    let bytes := e.ibufSlice e.ipos.toNat (min e.chunk.toNat (e.ilen.toNat - e.ipos.toNat))
    s.olen.toNat + bytes.length ≤ s.params.outMax → ∃ t, exec .decchunk s = .next t ∧
      t = { s with
        ring := t.ring, wptr := t.wptr, fill := t.fill, ipos := t.ipos, obuf := t.obuf, olen := t.olen, omark := s.olen
        nodemem := t.nodemem, nnode := t.nnode, nleaf := t.nleaf, root := 0, tvalid := true, cmvalid := false
        dsym := 0x80000000#32, fStop := true, fExh := false, state := .done } ∧
      Appended s t bytes ∧ t.ipos.toNat = s.ipos.toNat + e.chunkRecord.length ∧ Recorded s t bytes ∧
      t.history = e.collectChunk.history

/-! ## Container -/

/-- R246, R102: COMPRESS writes the file of the input from IPOS on, or raises where it does not fit. -/
def Obligations.CompressWritesTheFile : Prop :=
  ∀ s : State, RegisterInv s → ChunkClosed s → s.ibit = 0 →
    (s.fileBytes.length ≤ s.params.outMax → ∃ t, exec .compress s = .next t ∧
      t = { s with
        ring := t.ring, wptr := t.wptr, fill := t.fill, ipos := s.ilen, obuf := t.obuf, olen := t.olen, omark := 0
        acc := 0, nacc := 0, tokmem := t.tokmem, ntok := t.ntok, cstart := t.cstart, cend := s.ilen, eidx := t.ntok
        nodemem := t.nodemem, nnode := t.nnode, nleaf := t.nleaf, root := t.root, tvalid := true
        codemap := t.codemap, cmvalid := true, moff := t.moff, mlen := t.mlen, fMatch := t.fMatch, state := .done } ∧
      t.output = s.fileBytes ∧
      t.history = trim s.cap.toNat (s.ibufSlice s.ipos.toNat (s.ilen.toNat - s.ipos.toNat)) ∧
      ∀ a, t.olen.toNat ≤ a → t.obufAt a = s.obufAt a) ∧
    (s.params.outMax < s.fileBytes.length → ∃ t, exec .compress s = .next t ∧ t.state = .failed ∧
      t.err = some .resourceExhausted ∧ t.errinfo = 2)

/-- R248: DECOMPRESS of a file COMPRESS makes gives the compressed bytes back, whatever the decoder's configuration. -/
def Obligations.DecompressInvertsCompress : Prop :=
  ∀ e s : State, RegisterInv e → RegisterInv s → ChunkClosed s → s.ibit = 0 →
    s.ibufSlice s.ipos.toNat (s.ilen.toNat - s.ipos.toNat) = e.fileBytes →
    let bytes := e.ibufSlice e.ipos.toNat (e.ilen.toNat - e.ipos.toNat)
    bytes.length ≤ s.params.outMax → ∃ t, exec .decompress s = .next t ∧
      t = { s with
        ring := t.ring, wptr := t.wptr, fill := t.fill, ipos := s.ilen, obuf := t.obuf, olen := t.olen
        omark := t.omark, acc := 0, nacc := 0, cap := e.cap
        nodemem := t.nodemem, nnode := t.nnode, nleaf := t.nleaf, root := 0, tvalid := true, cmvalid := false
        dsym := 0x80000000#32, fStop := true, fExh := false, state := .done } ∧
      t.output = bytes ∧ t.history = trim e.cap.toNat bytes ∧ ∀ a, t.olen.toNat ≤ a → t.obufAt a = s.obufAt a

/-- R249: with the capacity field changed the result is the same bytes or an error, "never silently wrong". -/
def Obligations.AlteredCapacityIsNeverSilentlyWrong : Prop :=
  ∀ (e s t : State) (cap : BitVec 16), RegisterInv e → RegisterInv s → ChunkClosed s → s.ibit = 0 →
    s.ibufSlice s.ipos.toNat (s.ilen.toNat - s.ipos.toNat) = fileHeader cap ++ e.fileBytes.drop 6 →
    let bytes := e.ibufSlice e.ipos.toNat (e.ilen.toNat - e.ipos.toNat)
    bytes.length ≤ s.params.outMax → exec .decompress s = .next t →
      (cap = 0 → t.state = .failed ∧ t.err = some .malformedHeader) ∧
      (e.cap.toNat ≤ cap.toNat → t.state = .done ∧ t.output = bytes) ∧
      (cap ≠ 0 → (t.state = .done ∧ t.output = bytes) ∨ (t.state = .failed ∧ t.err = some .invalidMatchReference))

/-- R247, R261: the file header's checks, in their order, each with its information word; nothing else changes. -/
def Obligations.DecompressChecksTheFileHeader : Prop :=
  ∀ s : State, RegisterInv s → ChunkClosed s → s.ibit = 0 →
    let p := s.ipos.toNat
    let failsWith : BitVec 32 → Prop := fun info => exec .decompress s = .next { s with
      estate := s.state, err := some .malformedHeader, errinfo := info, state := .failed }
    (s.ilen.toNat < p + 6 → failsWith s.ilen) ∧
    (p + 6 ≤ s.ilen.toNat →
      (s.ibufAt p ≠ 0x4C#8 → failsWith s.ipos) ∧
      (s.ibufAt p = 0x4C#8 → s.ibufAt (p + 1) ≠ 0x5A#8 → failsWith (s.ipos + 1)) ∧
      (s.ibufAt p = 0x4C#8 → s.ibufAt (p + 1) = 0x5A#8 → s.ibufAt (p + 2) ≠ 0x48#8 → failsWith (s.ipos + 2)) ∧
      (s.ibufAt p = 0x4C#8 → s.ibufAt (p + 1) = 0x5A#8 → s.ibufAt (p + 2) = 0x48#8 → s.ibufAt (p + 3) ≠ 0x01#8 →
        failsWith (s.ipos + 3)) ∧
      (s.ibufAt p = 0x4C#8 → s.ibufAt (p + 1) = 0x5A#8 → s.ibufAt (p + 2) = 0x48#8 → s.ibufAt (p + 3) = 0x01#8 →
        s.ibufAt (p + 4) = 0#8 → s.ibufAt (p + 5) = 0#8 → failsWith (s.ipos + 4)))

/-- R250: the 14 bytes of the empty input, and what DECOMPRESS makes of them. -/
def Obligations.EmptyInputGivesFourteenBytes : Prop :=
  let file : BitVec 16 → List (BitVec 8) := fun c => [0x4C, 0x5A, 0x48, 0x01, c.extractLsb' 8 8, c.extractLsb' 0 8,
    0x00, 0x01, 0x80, 0x00, 0x00, 0x00, 0x02, 0x00]
  ∀ s : State, RegisterInv s → ChunkClosed s → s.ibit = 0 →
    (s.ipos = s.ilen → 14 ≤ s.params.outMax →
      ∃ t, exec .compress s = .next t ∧ t.state = .done ∧ t.output = file s.cap) ∧
    (∀ c : BitVec 16, c ≠ 0 → s.ibufSlice s.ipos.toNat (s.ilen.toNat - s.ipos.toNat) = file c →
      ∃ t, exec .decompress s = .next t ∧ t.olen = 0 ∧ t.state = .done ∧ t.fStop = true)

/-! ## The whole machine -/

/-- R22 to R37, R39 to R43: who writes what, for every field of State. Nothing else writes it, raising included; a
composite writes what its primitives write. The rollback of R269 is OLEN's one writer beside its commands. (The clauses
about `params` and `port` are about fields of the model's own: log 1, 3. RESET writes every register.) That a roll-back
leaves `obuf`, and CBEGIN and a failed TLOAD leave `nodemem` and `codemap`, as they are is the model's choice too (log
24, 25). -/
def Obligations.EachRegisterHasItsWriters : Prop :=
  ∀ (i : Instr) (s t : State), RegisterInv s → exec i s = .next t → i ≠ .reset →
    let decoding := s.state = .headerParsed ∨ s.state = .decoding
    t.params = s.params ∧ t.port = s.port ∧
    -- lookback buffer (R22)
    ((∀ a v, i ≠ .csrw a v) → (∀ b, i ≠ .lbrec b) →
      i ∉ [.lbclr, .mstep, .dstep, .encchunk, .decchunk, .compress, .decompress] →
      t.ring = s.ring ∧ t.wptr = s.wptr ∧ t.fill = s.fill) ∧
    -- input side (R23, R24)
    ((∀ b, i ≠ .push b) → t.ibuf = s.ibuf) ∧
    ((∀ b, i ≠ .push b) → i ≠ .iclr → t.ilen = s.ilen) ∧
    (i ∉ [.iclr, .mstep, .tload, .rbit, .ralign, .dstep, .encchunk, .decchunk, .compress, .decompress] →
      t.ipos = s.ipos) ∧
    (i ∉ [.iclr, .rbit, .ralign, .dstep, .decchunk, .decompress] → t.ibit = s.ibit) ∧
    -- output side (R25 to R27)
    ((∀ n v, i ≠ .wbits n v) →
      i ∉ [.tstore, .wfin, .estep, .efin, .dstep, .encchunk, .decchunk, .compress, .decompress] →
      t.obuf = s.obuf ∧ (i ≠ .oclr → t.olen = if t.state = .failed ∧ decoding then s.omark else s.olen)) ∧
    (i ∉ [.compress, .decompress] → ∀ a < s.olen.toNat, t.obufAt a = s.obufAt a) ∧
    (t.olen.toNat < s.olen.toNat → i ∈ [.oclr, .compress, .decompress] ∨ (t.state = .failed ∧ decoding)) ∧
    ((∀ n v, i ≠ .wbits n v) → i ∉ [.oclr, .wfin, .estep, .efin, .encchunk, .compress, .decompress] →
      t.acc = s.acc ∧ t.nacc = s.nacc) ∧
    (i ∉ [.oclr, .tload, .decchunk, .compress, .decompress] → t.omark = s.omark) ∧
    -- token memory (R28, R29)
    (i ∉ [.mstep, .encchunk, .compress] → t.tokmem = s.tokmem) ∧
    (i ∉ [.cbegin, .mstep, .encchunk, .compress] → t.ntok = s.ntok) ∧
    (i ∉ [.cbegin, .encchunk, .compress] → t.cstart = s.cstart ∧ t.cend = s.cend) ∧
    (i ∉ [.cbegin, .build, .estep, .encchunk, .compress] → t.eidx = s.eidx) ∧
    -- tree and code map (R30 to R32, R34)
    (i ∉ [.build, .tload, .encchunk, .decchunk, .compress, .decompress] →
      t.nodemem = s.nodemem ∧ t.nnode = s.nnode ∧ t.nleaf = s.nleaf ∧ t.root = s.root) ∧
    (i ∉ [.cbegin, .build, .tload, .encchunk, .decchunk, .compress, .decompress] →
      t.tvalid = s.tvalid ∧ t.cmvalid = s.cmvalid) ∧
    (s.tvalid = false → t.tvalid = true → i ∈ [.build, .tload, .encchunk, .decchunk, .compress, .decompress]) ∧
    (s.cmvalid = false → t.cmvalid = true → i ∈ [.build, .encchunk, .compress]) ∧
    (i ∉ [.build, .encchunk, .compress] → t.codemap = s.codemap) ∧
    -- result registers and flags (R33, R34)
    (i ∉ [.lbfind, .mstep, .encchunk, .compress] → t.moff = s.moff ∧ t.mlen = s.mlen ∧ t.fMatch = s.fMatch) ∧
    (i ∉ [.dstep, .decchunk, .decompress] → t.dsym = s.dsym) ∧
    (i ≠ .rbit → t.fBit = s.fBit) ∧
    (i ∉ [.rbit, .tload, .dstep, .decchunk, .decompress] → t.fExh = s.fExh) ∧
    (i ∉ [.tload, .dstep, .decchunk, .decompress] → t.fStop = s.fStop) ∧
    -- sequencing and error state (R35 to R37)
    (i ∉ [.cbegin, .build, .tload, .estep, .efin, .dstep, .encchunk, .decchunk, .compress, .decompress] →
      t.state = s.state ∨ t.state = .failed) ∧
    (s.state = .failed ∨ t.state ≠ .failed → t.err = s.err ∧ t.errinfo = s.errinfo ∧ t.estate = s.estate) ∧
    ((∀ a, i ≠ .csrr a) → t.rdata = s.rdata) ∧
    -- configuration (R38 to R43)
    ((∀ a v, i ≠ .csrw a v) → t.win = s.win ∧ t.minlen = s.minlen ∧ t.chunk = s.chunk ∧ t.ctrl = s.ctrl) ∧
    ((∀ a v, i ≠ .csrw a v) → i ≠ .decompress → t.cap = s.cap)

/-- R51, R52: the readout port answers exactly the valid entries, and the level outputs follow STATE. That a readout of
`codemap[i]` asks for `i < NNODE` too is not in R51's words: it is the model's choice (log 23). -/
def Obligations.ReadoutAnswersExactlyTheValidEntries : Prop :=
  ∀ s : State, RegisterInv s →
    (∀ i b, s.readRing i = some b ↔
      b = s.ringAt i ∧ ∃ d, 1 ≤ d ∧ d ≤ s.fill.toNat ∧ i = (s.wptr.toNat + s.cap.toNat - d) % s.cap.toNat) ∧
    (∀ i b, s.readIbuf i = some b ↔ i < s.ilen.toNat ∧ b = s.ibufAt i) ∧
    (∀ i b, s.readObuf i = some b ↔ i < s.olen.toNat ∧ b = s.obufAt i) ∧
    (∀ i w, s.readTokmem i = some w ↔ i < s.ntok.toNat ∧ w = s.tokAt i) ∧
    (∀ i x, s.readNodemem i = some x ↔ s.tvalid = true ∧ i < s.nnode.toNat ∧ x = s.nodeAt i) ∧
    (∀ i c, s.readCodemap i = some c ↔
      s.cmvalid = true ∧ i < s.nnode.toNat ∧ (s.nodeAt i).isLeaf = true ∧ c = s.codeAt i) ∧
    s.busy = false ∧ (s.doneOut = true ↔ s.state = .done) ∧ (s.failOut = true ↔ s.state = .failed)

/-- The four invariants hold after reset. -/
def Obligations.InvariantsHoldAfterReset : Prop :=
  RegisterInv State.reset ∧ MemoryInv State.reset ∧ TreeInv State.reset ∧ CollectedInv State.reset

/-- R48: the numeric invariants, kept by every step. -/
def Obligations.StepKeepsTheRegisterInvariant : Prop :=
  ∀ s t : State, RegisterInv s → step s = .next t → RegisterInv t

/-- R60, R75: every memory stays in canonical form and inside its index range. -/
def Obligations.StepKeepsTheMemoryInvariant : Prop :=
  ∀ s t : State, RegisterInv s → MemoryInv s → step s = .next t → MemoryInv t

/-- R31, R32, R28, R188: a valid tree stays a tree, a valid code map its paths, tokens valid words. -/
def Obligations.StepKeepsTheTreeInvariant : Prop :=
  ∀ s t : State, RegisterInv s → TreeInv s → step s = .next t → TreeInv t

/-- R48, R164: the tokens of an open chunk stand for the bytes consumed. -/
def Obligations.StepKeepsTheCollectedInvariant : Prop :=
  ∀ s t : State, RegisterInv s → CollectedInv s → step s = .next t → CollectedInv t

/-- R270, R293, R304: "after reset every command has defined behaviour": under the invariants every step answers a next
state, whatever the host does; so does every step of every run from reset, for every legal value of the parameters. -/
def Obligations.NoStepStops : Prop :=
  (∀ s : State, RegisterInv s → TreeInv s → Steps s) ∧
  (∀ (p : Config.Params) (inputs : List HostInput) (t : State), p.legal →
    Reaches { State.reset with params := p, port := inputs } t → Steps t)
end

