-- ==== Sys2Proof/Laws/State.lean ====
section
/-! SUPPORT. One lemma per field per named update of the state, so that no later proof unfolds a record update. -/

namespace Sys2Proof.Machine.State

open Sys2Proof

variable (s : State)

/-! `clearRing` -/

@[simp] theorem clearRing_ring : s.clearRing.ring = s.ring := rfl
@[simp] theorem clearRing_wptr : s.clearRing.wptr = 0 := rfl
@[simp] theorem clearRing_fill : s.clearRing.fill = 0 := rfl
@[simp] theorem clearRing_ibuf : s.clearRing.ibuf = s.ibuf := rfl
@[simp] theorem clearRing_ilen : s.clearRing.ilen = s.ilen := rfl
@[simp] theorem clearRing_ipos : s.clearRing.ipos = s.ipos := rfl
@[simp] theorem clearRing_ibit : s.clearRing.ibit = s.ibit := rfl
@[simp] theorem clearRing_obuf : s.clearRing.obuf = s.obuf := rfl
@[simp] theorem clearRing_olen : s.clearRing.olen = s.olen := rfl
@[simp] theorem clearRing_acc : s.clearRing.acc = s.acc := rfl
@[simp] theorem clearRing_nacc : s.clearRing.nacc = s.nacc := rfl
@[simp] theorem clearRing_omark : s.clearRing.omark = s.omark := rfl
@[simp] theorem clearRing_tokmem : s.clearRing.tokmem = s.tokmem := rfl
@[simp] theorem clearRing_ntok : s.clearRing.ntok = s.ntok := rfl
@[simp] theorem clearRing_cstart : s.clearRing.cstart = s.cstart := rfl
@[simp] theorem clearRing_cend : s.clearRing.cend = s.cend := rfl
@[simp] theorem clearRing_eidx : s.clearRing.eidx = s.eidx := rfl
@[simp] theorem clearRing_nodemem : s.clearRing.nodemem = s.nodemem := rfl
@[simp] theorem clearRing_nnode : s.clearRing.nnode = s.nnode := rfl
@[simp] theorem clearRing_nleaf : s.clearRing.nleaf = s.nleaf := rfl
@[simp] theorem clearRing_root : s.clearRing.root = s.root := rfl
@[simp] theorem clearRing_tvalid : s.clearRing.tvalid = s.tvalid := rfl
@[simp] theorem clearRing_codemap : s.clearRing.codemap = s.codemap := rfl
@[simp] theorem clearRing_cmvalid : s.clearRing.cmvalid = s.cmvalid := rfl
@[simp] theorem clearRing_moff : s.clearRing.moff = s.moff := rfl
@[simp] theorem clearRing_mlen : s.clearRing.mlen = s.mlen := rfl
@[simp] theorem clearRing_dsym : s.clearRing.dsym = s.dsym := rfl
@[simp] theorem clearRing_fMatch : s.clearRing.fMatch = s.fMatch := rfl
@[simp] theorem clearRing_fBit : s.clearRing.fBit = s.fBit := rfl
@[simp] theorem clearRing_fExh : s.clearRing.fExh = s.fExh := rfl
@[simp] theorem clearRing_fStop : s.clearRing.fStop = s.fStop := rfl
@[simp] theorem clearRing_state : s.clearRing.state = s.state := rfl
@[simp] theorem clearRing_err : s.clearRing.err = s.err := rfl
@[simp] theorem clearRing_errinfo : s.clearRing.errinfo = s.errinfo := rfl
@[simp] theorem clearRing_estate : s.clearRing.estate = s.estate := rfl
@[simp] theorem clearRing_rdata : s.clearRing.rdata = s.rdata := rfl
@[simp] theorem clearRing_cap : s.clearRing.cap = s.cap := rfl
@[simp] theorem clearRing_win : s.clearRing.win = s.win := rfl
@[simp] theorem clearRing_minlen : s.clearRing.minlen = s.minlen := rfl
@[simp] theorem clearRing_chunk : s.clearRing.chunk = s.chunk := rfl
@[simp] theorem clearRing_ctrl : s.clearRing.ctrl = s.ctrl := rfl
@[simp] theorem clearRing_params : s.clearRing.params = s.params := rfl
@[simp] theorem clearRing_port : s.clearRing.port = s.port := rfl

/-! `record` -/

@[simp] theorem record_ring (b : Byte) : (s.record b).ring = Mem.write (0 : Byte) s.ring s.wptr.toNat b := rfl
@[simp] theorem record_wptr (b : Byte) : (s.record b).wptr = BitVec.ofNat 16 ((s.wptr.toNat + 1) % s.cap.toNat) := rfl
@[simp] theorem record_fill (b : Byte) : (s.record b).fill = BitVec.ofNat 16 (min (s.fill.toNat + 1) s.cap.toNat) := rfl
@[simp] theorem record_ibuf (b : Byte) : (s.record b).ibuf = s.ibuf := rfl
@[simp] theorem record_ilen (b : Byte) : (s.record b).ilen = s.ilen := rfl
@[simp] theorem record_ipos (b : Byte) : (s.record b).ipos = s.ipos := rfl
@[simp] theorem record_ibit (b : Byte) : (s.record b).ibit = s.ibit := rfl
@[simp] theorem record_obuf (b : Byte) : (s.record b).obuf = s.obuf := rfl
@[simp] theorem record_olen (b : Byte) : (s.record b).olen = s.olen := rfl
@[simp] theorem record_acc (b : Byte) : (s.record b).acc = s.acc := rfl
@[simp] theorem record_nacc (b : Byte) : (s.record b).nacc = s.nacc := rfl
@[simp] theorem record_omark (b : Byte) : (s.record b).omark = s.omark := rfl
@[simp] theorem record_tokmem (b : Byte) : (s.record b).tokmem = s.tokmem := rfl
@[simp] theorem record_ntok (b : Byte) : (s.record b).ntok = s.ntok := rfl
@[simp] theorem record_cstart (b : Byte) : (s.record b).cstart = s.cstart := rfl
@[simp] theorem record_cend (b : Byte) : (s.record b).cend = s.cend := rfl
@[simp] theorem record_eidx (b : Byte) : (s.record b).eidx = s.eidx := rfl
@[simp] theorem record_nodemem (b : Byte) : (s.record b).nodemem = s.nodemem := rfl
@[simp] theorem record_nnode (b : Byte) : (s.record b).nnode = s.nnode := rfl
@[simp] theorem record_nleaf (b : Byte) : (s.record b).nleaf = s.nleaf := rfl
@[simp] theorem record_root (b : Byte) : (s.record b).root = s.root := rfl
@[simp] theorem record_tvalid (b : Byte) : (s.record b).tvalid = s.tvalid := rfl
@[simp] theorem record_codemap (b : Byte) : (s.record b).codemap = s.codemap := rfl
@[simp] theorem record_cmvalid (b : Byte) : (s.record b).cmvalid = s.cmvalid := rfl
@[simp] theorem record_moff (b : Byte) : (s.record b).moff = s.moff := rfl
@[simp] theorem record_mlen (b : Byte) : (s.record b).mlen = s.mlen := rfl
@[simp] theorem record_dsym (b : Byte) : (s.record b).dsym = s.dsym := rfl
@[simp] theorem record_fMatch (b : Byte) : (s.record b).fMatch = s.fMatch := rfl
@[simp] theorem record_fBit (b : Byte) : (s.record b).fBit = s.fBit := rfl
@[simp] theorem record_fExh (b : Byte) : (s.record b).fExh = s.fExh := rfl
@[simp] theorem record_fStop (b : Byte) : (s.record b).fStop = s.fStop := rfl
@[simp] theorem record_state (b : Byte) : (s.record b).state = s.state := rfl
@[simp] theorem record_err (b : Byte) : (s.record b).err = s.err := rfl
@[simp] theorem record_errinfo (b : Byte) : (s.record b).errinfo = s.errinfo := rfl
@[simp] theorem record_estate (b : Byte) : (s.record b).estate = s.estate := rfl
@[simp] theorem record_rdata (b : Byte) : (s.record b).rdata = s.rdata := rfl
@[simp] theorem record_cap (b : Byte) : (s.record b).cap = s.cap := rfl
@[simp] theorem record_win (b : Byte) : (s.record b).win = s.win := rfl
@[simp] theorem record_minlen (b : Byte) : (s.record b).minlen = s.minlen := rfl
@[simp] theorem record_chunk (b : Byte) : (s.record b).chunk = s.chunk := rfl
@[simp] theorem record_ctrl (b : Byte) : (s.record b).ctrl = s.ctrl := rfl
@[simp] theorem record_params (b : Byte) : (s.record b).params = s.params := rfl
@[simp] theorem record_port (b : Byte) : (s.record b).port = s.port := rfl

/-! `appendByte` -/

@[simp] theorem appendByte_ring (b : Byte) : (s.appendByte b).ring = s.ring := rfl
@[simp] theorem appendByte_wptr (b : Byte) : (s.appendByte b).wptr = s.wptr := rfl
@[simp] theorem appendByte_fill (b : Byte) : (s.appendByte b).fill = s.fill := rfl
@[simp] theorem appendByte_ibuf (b : Byte) : (s.appendByte b).ibuf = s.ibuf := rfl
@[simp] theorem appendByte_ilen (b : Byte) : (s.appendByte b).ilen = s.ilen := rfl
@[simp] theorem appendByte_ipos (b : Byte) : (s.appendByte b).ipos = s.ipos := rfl
@[simp] theorem appendByte_ibit (b : Byte) : (s.appendByte b).ibit = s.ibit := rfl
@[simp] theorem appendByte_obuf (b : Byte) : (s.appendByte b).obuf = Mem.write (0 : Byte) s.obuf s.olen.toNat b := rfl
@[simp] theorem appendByte_olen (b : Byte) : (s.appendByte b).olen = BitVec.ofNat 32 (s.olen.toNat + 1) := rfl
@[simp] theorem appendByte_acc (b : Byte) : (s.appendByte b).acc = s.acc := rfl
@[simp] theorem appendByte_nacc (b : Byte) : (s.appendByte b).nacc = s.nacc := rfl
@[simp] theorem appendByte_omark (b : Byte) : (s.appendByte b).omark = s.omark := rfl
@[simp] theorem appendByte_tokmem (b : Byte) : (s.appendByte b).tokmem = s.tokmem := rfl
@[simp] theorem appendByte_ntok (b : Byte) : (s.appendByte b).ntok = s.ntok := rfl
@[simp] theorem appendByte_cstart (b : Byte) : (s.appendByte b).cstart = s.cstart := rfl
@[simp] theorem appendByte_cend (b : Byte) : (s.appendByte b).cend = s.cend := rfl
@[simp] theorem appendByte_eidx (b : Byte) : (s.appendByte b).eidx = s.eidx := rfl
@[simp] theorem appendByte_nodemem (b : Byte) : (s.appendByte b).nodemem = s.nodemem := rfl
@[simp] theorem appendByte_nnode (b : Byte) : (s.appendByte b).nnode = s.nnode := rfl
@[simp] theorem appendByte_nleaf (b : Byte) : (s.appendByte b).nleaf = s.nleaf := rfl
@[simp] theorem appendByte_root (b : Byte) : (s.appendByte b).root = s.root := rfl
@[simp] theorem appendByte_tvalid (b : Byte) : (s.appendByte b).tvalid = s.tvalid := rfl
@[simp] theorem appendByte_codemap (b : Byte) : (s.appendByte b).codemap = s.codemap := rfl
@[simp] theorem appendByte_cmvalid (b : Byte) : (s.appendByte b).cmvalid = s.cmvalid := rfl
@[simp] theorem appendByte_moff (b : Byte) : (s.appendByte b).moff = s.moff := rfl
@[simp] theorem appendByte_mlen (b : Byte) : (s.appendByte b).mlen = s.mlen := rfl
@[simp] theorem appendByte_dsym (b : Byte) : (s.appendByte b).dsym = s.dsym := rfl
@[simp] theorem appendByte_fMatch (b : Byte) : (s.appendByte b).fMatch = s.fMatch := rfl
@[simp] theorem appendByte_fBit (b : Byte) : (s.appendByte b).fBit = s.fBit := rfl
@[simp] theorem appendByte_fExh (b : Byte) : (s.appendByte b).fExh = s.fExh := rfl
@[simp] theorem appendByte_fStop (b : Byte) : (s.appendByte b).fStop = s.fStop := rfl
@[simp] theorem appendByte_state (b : Byte) : (s.appendByte b).state = s.state := rfl
@[simp] theorem appendByte_err (b : Byte) : (s.appendByte b).err = s.err := rfl
@[simp] theorem appendByte_errinfo (b : Byte) : (s.appendByte b).errinfo = s.errinfo := rfl
@[simp] theorem appendByte_estate (b : Byte) : (s.appendByte b).estate = s.estate := rfl
@[simp] theorem appendByte_rdata (b : Byte) : (s.appendByte b).rdata = s.rdata := rfl
@[simp] theorem appendByte_cap (b : Byte) : (s.appendByte b).cap = s.cap := rfl
@[simp] theorem appendByte_win (b : Byte) : (s.appendByte b).win = s.win := rfl
@[simp] theorem appendByte_minlen (b : Byte) : (s.appendByte b).minlen = s.minlen := rfl
@[simp] theorem appendByte_chunk (b : Byte) : (s.appendByte b).chunk = s.chunk := rfl
@[simp] theorem appendByte_ctrl (b : Byte) : (s.appendByte b).ctrl = s.ctrl := rfl
@[simp] theorem appendByte_params (b : Byte) : (s.appendByte b).params = s.params := rfl
@[simp] theorem appendByte_port (b : Byte) : (s.appendByte b).port = s.port := rfl

/-! `clearOut` -/

@[simp] theorem clearOut_ring : s.clearOut.ring = s.ring := rfl
@[simp] theorem clearOut_wptr : s.clearOut.wptr = s.wptr := rfl
@[simp] theorem clearOut_fill : s.clearOut.fill = s.fill := rfl
@[simp] theorem clearOut_ibuf : s.clearOut.ibuf = s.ibuf := rfl
@[simp] theorem clearOut_ilen : s.clearOut.ilen = s.ilen := rfl
@[simp] theorem clearOut_ipos : s.clearOut.ipos = s.ipos := rfl
@[simp] theorem clearOut_ibit : s.clearOut.ibit = s.ibit := rfl
@[simp] theorem clearOut_obuf : s.clearOut.obuf = s.obuf := rfl
@[simp] theorem clearOut_olen : s.clearOut.olen = 0 := rfl
@[simp] theorem clearOut_acc : s.clearOut.acc = 0 := rfl
@[simp] theorem clearOut_nacc : s.clearOut.nacc = 0 := rfl
@[simp] theorem clearOut_omark : s.clearOut.omark = 0 := rfl
@[simp] theorem clearOut_tokmem : s.clearOut.tokmem = s.tokmem := rfl
@[simp] theorem clearOut_ntok : s.clearOut.ntok = s.ntok := rfl
@[simp] theorem clearOut_cstart : s.clearOut.cstart = s.cstart := rfl
@[simp] theorem clearOut_cend : s.clearOut.cend = s.cend := rfl
@[simp] theorem clearOut_eidx : s.clearOut.eidx = s.eidx := rfl
@[simp] theorem clearOut_nodemem : s.clearOut.nodemem = s.nodemem := rfl
@[simp] theorem clearOut_nnode : s.clearOut.nnode = s.nnode := rfl
@[simp] theorem clearOut_nleaf : s.clearOut.nleaf = s.nleaf := rfl
@[simp] theorem clearOut_root : s.clearOut.root = s.root := rfl
@[simp] theorem clearOut_tvalid : s.clearOut.tvalid = s.tvalid := rfl
@[simp] theorem clearOut_codemap : s.clearOut.codemap = s.codemap := rfl
@[simp] theorem clearOut_cmvalid : s.clearOut.cmvalid = s.cmvalid := rfl
@[simp] theorem clearOut_moff : s.clearOut.moff = s.moff := rfl
@[simp] theorem clearOut_mlen : s.clearOut.mlen = s.mlen := rfl
@[simp] theorem clearOut_dsym : s.clearOut.dsym = s.dsym := rfl
@[simp] theorem clearOut_fMatch : s.clearOut.fMatch = s.fMatch := rfl
@[simp] theorem clearOut_fBit : s.clearOut.fBit = s.fBit := rfl
@[simp] theorem clearOut_fExh : s.clearOut.fExh = s.fExh := rfl
@[simp] theorem clearOut_fStop : s.clearOut.fStop = s.fStop := rfl
@[simp] theorem clearOut_state : s.clearOut.state = s.state := rfl
@[simp] theorem clearOut_err : s.clearOut.err = s.err := rfl
@[simp] theorem clearOut_errinfo : s.clearOut.errinfo = s.errinfo := rfl
@[simp] theorem clearOut_estate : s.clearOut.estate = s.estate := rfl
@[simp] theorem clearOut_rdata : s.clearOut.rdata = s.rdata := rfl
@[simp] theorem clearOut_cap : s.clearOut.cap = s.cap := rfl
@[simp] theorem clearOut_win : s.clearOut.win = s.win := rfl
@[simp] theorem clearOut_minlen : s.clearOut.minlen = s.minlen := rfl
@[simp] theorem clearOut_chunk : s.clearOut.chunk = s.chunk := rfl
@[simp] theorem clearOut_ctrl : s.clearOut.ctrl = s.ctrl := rfl
@[simp] theorem clearOut_params : s.clearOut.params = s.params := rfl
@[simp] theorem clearOut_port : s.clearOut.port = s.port := rfl

/-! `raise` -/

@[simp] theorem raise_ring (k : ErrorKind) (info : Word) : (s.raise k info).ring = s.ring := rfl
@[simp] theorem raise_wptr (k : ErrorKind) (info : Word) : (s.raise k info).wptr = s.wptr := rfl
@[simp] theorem raise_fill (k : ErrorKind) (info : Word) : (s.raise k info).fill = s.fill := rfl
@[simp] theorem raise_ibuf (k : ErrorKind) (info : Word) : (s.raise k info).ibuf = s.ibuf := rfl
@[simp] theorem raise_ilen (k : ErrorKind) (info : Word) : (s.raise k info).ilen = s.ilen := rfl
@[simp] theorem raise_ipos (k : ErrorKind) (info : Word) : (s.raise k info).ipos = s.ipos := rfl
@[simp] theorem raise_ibit (k : ErrorKind) (info : Word) : (s.raise k info).ibit = s.ibit := rfl
@[simp] theorem raise_obuf (k : ErrorKind) (info : Word) : (s.raise k info).obuf = s.obuf := rfl
@[simp] theorem raise_olen (k : ErrorKind) (info : Word) : (s.raise k info).olen = if s.state = .headerParsed ∨ s.state = .decoding then s.omark else s.olen := rfl
@[simp] theorem raise_acc (k : ErrorKind) (info : Word) : (s.raise k info).acc = s.acc := rfl
@[simp] theorem raise_nacc (k : ErrorKind) (info : Word) : (s.raise k info).nacc = s.nacc := rfl
@[simp] theorem raise_omark (k : ErrorKind) (info : Word) : (s.raise k info).omark = s.omark := rfl
@[simp] theorem raise_tokmem (k : ErrorKind) (info : Word) : (s.raise k info).tokmem = s.tokmem := rfl
@[simp] theorem raise_ntok (k : ErrorKind) (info : Word) : (s.raise k info).ntok = s.ntok := rfl
@[simp] theorem raise_cstart (k : ErrorKind) (info : Word) : (s.raise k info).cstart = s.cstart := rfl
@[simp] theorem raise_cend (k : ErrorKind) (info : Word) : (s.raise k info).cend = s.cend := rfl
@[simp] theorem raise_eidx (k : ErrorKind) (info : Word) : (s.raise k info).eidx = s.eidx := rfl
@[simp] theorem raise_nodemem (k : ErrorKind) (info : Word) : (s.raise k info).nodemem = s.nodemem := rfl
@[simp] theorem raise_nnode (k : ErrorKind) (info : Word) : (s.raise k info).nnode = s.nnode := rfl
@[simp] theorem raise_nleaf (k : ErrorKind) (info : Word) : (s.raise k info).nleaf = s.nleaf := rfl
@[simp] theorem raise_root (k : ErrorKind) (info : Word) : (s.raise k info).root = s.root := rfl
@[simp] theorem raise_tvalid (k : ErrorKind) (info : Word) : (s.raise k info).tvalid = s.tvalid := rfl
@[simp] theorem raise_codemap (k : ErrorKind) (info : Word) : (s.raise k info).codemap = s.codemap := rfl
@[simp] theorem raise_cmvalid (k : ErrorKind) (info : Word) : (s.raise k info).cmvalid = s.cmvalid := rfl
@[simp] theorem raise_moff (k : ErrorKind) (info : Word) : (s.raise k info).moff = s.moff := rfl
@[simp] theorem raise_mlen (k : ErrorKind) (info : Word) : (s.raise k info).mlen = s.mlen := rfl
@[simp] theorem raise_dsym (k : ErrorKind) (info : Word) : (s.raise k info).dsym = s.dsym := rfl
@[simp] theorem raise_fMatch (k : ErrorKind) (info : Word) : (s.raise k info).fMatch = s.fMatch := rfl
@[simp] theorem raise_fBit (k : ErrorKind) (info : Word) : (s.raise k info).fBit = s.fBit := rfl
@[simp] theorem raise_fExh (k : ErrorKind) (info : Word) : (s.raise k info).fExh = s.fExh := rfl
@[simp] theorem raise_fStop (k : ErrorKind) (info : Word) : (s.raise k info).fStop = s.fStop := rfl
@[simp] theorem raise_state (k : ErrorKind) (info : Word) : (s.raise k info).state = .failed := rfl
@[simp] theorem raise_err (k : ErrorKind) (info : Word) : (s.raise k info).err = some k := rfl
@[simp] theorem raise_errinfo (k : ErrorKind) (info : Word) : (s.raise k info).errinfo = info := rfl
@[simp] theorem raise_estate (k : ErrorKind) (info : Word) : (s.raise k info).estate = s.state := rfl
@[simp] theorem raise_rdata (k : ErrorKind) (info : Word) : (s.raise k info).rdata = s.rdata := rfl
@[simp] theorem raise_cap (k : ErrorKind) (info : Word) : (s.raise k info).cap = s.cap := rfl
@[simp] theorem raise_win (k : ErrorKind) (info : Word) : (s.raise k info).win = s.win := rfl
@[simp] theorem raise_minlen (k : ErrorKind) (info : Word) : (s.raise k info).minlen = s.minlen := rfl
@[simp] theorem raise_chunk (k : ErrorKind) (info : Word) : (s.raise k info).chunk = s.chunk := rfl
@[simp] theorem raise_ctrl (k : ErrorKind) (info : Word) : (s.raise k info).ctrl = s.ctrl := rfl
@[simp] theorem raise_params (k : ErrorKind) (info : Word) : (s.raise k info).params = s.params := rfl
@[simp] theorem raise_port (k : ErrorKind) (info : Word) : (s.raise k info).port = s.port := rfl

/-! `setSearch` -/

@[simp] theorem setSearch_ring (r : Nat × Nat) : (s.setSearch r).ring = s.ring := rfl
@[simp] theorem setSearch_wptr (r : Nat × Nat) : (s.setSearch r).wptr = s.wptr := rfl
@[simp] theorem setSearch_fill (r : Nat × Nat) : (s.setSearch r).fill = s.fill := rfl
@[simp] theorem setSearch_ibuf (r : Nat × Nat) : (s.setSearch r).ibuf = s.ibuf := rfl
@[simp] theorem setSearch_ilen (r : Nat × Nat) : (s.setSearch r).ilen = s.ilen := rfl
@[simp] theorem setSearch_ipos (r : Nat × Nat) : (s.setSearch r).ipos = s.ipos := rfl
@[simp] theorem setSearch_ibit (r : Nat × Nat) : (s.setSearch r).ibit = s.ibit := rfl
@[simp] theorem setSearch_obuf (r : Nat × Nat) : (s.setSearch r).obuf = s.obuf := rfl
@[simp] theorem setSearch_olen (r : Nat × Nat) : (s.setSearch r).olen = s.olen := rfl
@[simp] theorem setSearch_acc (r : Nat × Nat) : (s.setSearch r).acc = s.acc := rfl
@[simp] theorem setSearch_nacc (r : Nat × Nat) : (s.setSearch r).nacc = s.nacc := rfl
@[simp] theorem setSearch_omark (r : Nat × Nat) : (s.setSearch r).omark = s.omark := rfl
@[simp] theorem setSearch_tokmem (r : Nat × Nat) : (s.setSearch r).tokmem = s.tokmem := rfl
@[simp] theorem setSearch_ntok (r : Nat × Nat) : (s.setSearch r).ntok = s.ntok := rfl
@[simp] theorem setSearch_cstart (r : Nat × Nat) : (s.setSearch r).cstart = s.cstart := rfl
@[simp] theorem setSearch_cend (r : Nat × Nat) : (s.setSearch r).cend = s.cend := rfl
@[simp] theorem setSearch_eidx (r : Nat × Nat) : (s.setSearch r).eidx = s.eidx := rfl
@[simp] theorem setSearch_nodemem (r : Nat × Nat) : (s.setSearch r).nodemem = s.nodemem := rfl
@[simp] theorem setSearch_nnode (r : Nat × Nat) : (s.setSearch r).nnode = s.nnode := rfl
@[simp] theorem setSearch_nleaf (r : Nat × Nat) : (s.setSearch r).nleaf = s.nleaf := rfl
@[simp] theorem setSearch_root (r : Nat × Nat) : (s.setSearch r).root = s.root := rfl
@[simp] theorem setSearch_tvalid (r : Nat × Nat) : (s.setSearch r).tvalid = s.tvalid := rfl
@[simp] theorem setSearch_codemap (r : Nat × Nat) : (s.setSearch r).codemap = s.codemap := rfl
@[simp] theorem setSearch_cmvalid (r : Nat × Nat) : (s.setSearch r).cmvalid = s.cmvalid := rfl
@[simp] theorem setSearch_moff (r : Nat × Nat) : (s.setSearch r).moff = BitVec.ofNat 16 r.1 := rfl
@[simp] theorem setSearch_mlen (r : Nat × Nat) : (s.setSearch r).mlen = BitVec.ofNat 8 r.2 := rfl
@[simp] theorem setSearch_dsym (r : Nat × Nat) : (s.setSearch r).dsym = s.dsym := rfl
@[simp] theorem setSearch_fMatch (r : Nat × Nat) : (s.setSearch r).fMatch = decide (r.2 ≠ 0) := rfl
@[simp] theorem setSearch_fBit (r : Nat × Nat) : (s.setSearch r).fBit = s.fBit := rfl
@[simp] theorem setSearch_fExh (r : Nat × Nat) : (s.setSearch r).fExh = s.fExh := rfl
@[simp] theorem setSearch_fStop (r : Nat × Nat) : (s.setSearch r).fStop = s.fStop := rfl
@[simp] theorem setSearch_state (r : Nat × Nat) : (s.setSearch r).state = s.state := rfl
@[simp] theorem setSearch_err (r : Nat × Nat) : (s.setSearch r).err = s.err := rfl
@[simp] theorem setSearch_errinfo (r : Nat × Nat) : (s.setSearch r).errinfo = s.errinfo := rfl
@[simp] theorem setSearch_estate (r : Nat × Nat) : (s.setSearch r).estate = s.estate := rfl
@[simp] theorem setSearch_rdata (r : Nat × Nat) : (s.setSearch r).rdata = s.rdata := rfl
@[simp] theorem setSearch_cap (r : Nat × Nat) : (s.setSearch r).cap = s.cap := rfl
@[simp] theorem setSearch_win (r : Nat × Nat) : (s.setSearch r).win = s.win := rfl
@[simp] theorem setSearch_minlen (r : Nat × Nat) : (s.setSearch r).minlen = s.minlen := rfl
@[simp] theorem setSearch_chunk (r : Nat × Nat) : (s.setSearch r).chunk = s.chunk := rfl
@[simp] theorem setSearch_ctrl (r : Nat × Nat) : (s.setSearch r).ctrl = s.ctrl := rfl
@[simp] theorem setSearch_params (r : Nat × Nat) : (s.setSearch r).params = s.params := rfl
@[simp] theorem setSearch_port (r : Nat × Nat) : (s.setSearch r).port = s.port := rfl

/-! `pushToken` -/

@[simp] theorem pushToken_ring (w : Word) : (s.pushToken w).ring = s.ring := rfl
@[simp] theorem pushToken_wptr (w : Word) : (s.pushToken w).wptr = s.wptr := rfl
@[simp] theorem pushToken_fill (w : Word) : (s.pushToken w).fill = s.fill := rfl
@[simp] theorem pushToken_ibuf (w : Word) : (s.pushToken w).ibuf = s.ibuf := rfl
@[simp] theorem pushToken_ilen (w : Word) : (s.pushToken w).ilen = s.ilen := rfl
@[simp] theorem pushToken_ipos (w : Word) : (s.pushToken w).ipos = s.ipos := rfl
@[simp] theorem pushToken_ibit (w : Word) : (s.pushToken w).ibit = s.ibit := rfl
@[simp] theorem pushToken_obuf (w : Word) : (s.pushToken w).obuf = s.obuf := rfl
@[simp] theorem pushToken_olen (w : Word) : (s.pushToken w).olen = s.olen := rfl
@[simp] theorem pushToken_acc (w : Word) : (s.pushToken w).acc = s.acc := rfl
@[simp] theorem pushToken_nacc (w : Word) : (s.pushToken w).nacc = s.nacc := rfl
@[simp] theorem pushToken_omark (w : Word) : (s.pushToken w).omark = s.omark := rfl
@[simp] theorem pushToken_tokmem (w : Word) : (s.pushToken w).tokmem = Mem.write (0 : Word) s.tokmem s.ntok.toNat w := rfl
@[simp] theorem pushToken_ntok (w : Word) : (s.pushToken w).ntok = BitVec.ofNat 16 (s.ntok.toNat + 1) := rfl
@[simp] theorem pushToken_cstart (w : Word) : (s.pushToken w).cstart = s.cstart := rfl
@[simp] theorem pushToken_cend (w : Word) : (s.pushToken w).cend = s.cend := rfl
@[simp] theorem pushToken_eidx (w : Word) : (s.pushToken w).eidx = s.eidx := rfl
@[simp] theorem pushToken_nodemem (w : Word) : (s.pushToken w).nodemem = s.nodemem := rfl
@[simp] theorem pushToken_nnode (w : Word) : (s.pushToken w).nnode = s.nnode := rfl
@[simp] theorem pushToken_nleaf (w : Word) : (s.pushToken w).nleaf = s.nleaf := rfl
@[simp] theorem pushToken_root (w : Word) : (s.pushToken w).root = s.root := rfl
@[simp] theorem pushToken_tvalid (w : Word) : (s.pushToken w).tvalid = s.tvalid := rfl
@[simp] theorem pushToken_codemap (w : Word) : (s.pushToken w).codemap = s.codemap := rfl
@[simp] theorem pushToken_cmvalid (w : Word) : (s.pushToken w).cmvalid = s.cmvalid := rfl
@[simp] theorem pushToken_moff (w : Word) : (s.pushToken w).moff = s.moff := rfl
@[simp] theorem pushToken_mlen (w : Word) : (s.pushToken w).mlen = s.mlen := rfl
@[simp] theorem pushToken_dsym (w : Word) : (s.pushToken w).dsym = s.dsym := rfl
@[simp] theorem pushToken_fMatch (w : Word) : (s.pushToken w).fMatch = s.fMatch := rfl
@[simp] theorem pushToken_fBit (w : Word) : (s.pushToken w).fBit = s.fBit := rfl
@[simp] theorem pushToken_fExh (w : Word) : (s.pushToken w).fExh = s.fExh := rfl
@[simp] theorem pushToken_fStop (w : Word) : (s.pushToken w).fStop = s.fStop := rfl
@[simp] theorem pushToken_state (w : Word) : (s.pushToken w).state = s.state := rfl
@[simp] theorem pushToken_err (w : Word) : (s.pushToken w).err = s.err := rfl
@[simp] theorem pushToken_errinfo (w : Word) : (s.pushToken w).errinfo = s.errinfo := rfl
@[simp] theorem pushToken_estate (w : Word) : (s.pushToken w).estate = s.estate := rfl
@[simp] theorem pushToken_rdata (w : Word) : (s.pushToken w).rdata = s.rdata := rfl
@[simp] theorem pushToken_cap (w : Word) : (s.pushToken w).cap = s.cap := rfl
@[simp] theorem pushToken_win (w : Word) : (s.pushToken w).win = s.win := rfl
@[simp] theorem pushToken_minlen (w : Word) : (s.pushToken w).minlen = s.minlen := rfl
@[simp] theorem pushToken_chunk (w : Word) : (s.pushToken w).chunk = s.chunk := rfl
@[simp] theorem pushToken_ctrl (w : Word) : (s.pushToken w).ctrl = s.ctrl := rfl
@[simp] theorem pushToken_params (w : Word) : (s.pushToken w).params = s.params := rfl
@[simp] theorem pushToken_port (w : Word) : (s.pushToken w).port = s.port := rfl

/-! `putBit` -/

@[simp] theorem putBit_ring (b : Bool) : (s.putBit b).ring = s.ring := by unfold putBit; split <;> rfl
@[simp] theorem putBit_wptr (b : Bool) : (s.putBit b).wptr = s.wptr := by unfold putBit; split <;> rfl
@[simp] theorem putBit_fill (b : Bool) : (s.putBit b).fill = s.fill := by unfold putBit; split <;> rfl
@[simp] theorem putBit_ibuf (b : Bool) : (s.putBit b).ibuf = s.ibuf := by unfold putBit; split <;> rfl
@[simp] theorem putBit_ilen (b : Bool) : (s.putBit b).ilen = s.ilen := by unfold putBit; split <;> rfl
@[simp] theorem putBit_ipos (b : Bool) : (s.putBit b).ipos = s.ipos := by unfold putBit; split <;> rfl
@[simp] theorem putBit_ibit (b : Bool) : (s.putBit b).ibit = s.ibit := by unfold putBit; split <;> rfl
@[simp] theorem putBit_omark (b : Bool) : (s.putBit b).omark = s.omark := by unfold putBit; split <;> rfl
@[simp] theorem putBit_tokmem (b : Bool) : (s.putBit b).tokmem = s.tokmem := by unfold putBit; split <;> rfl
@[simp] theorem putBit_ntok (b : Bool) : (s.putBit b).ntok = s.ntok := by unfold putBit; split <;> rfl
@[simp] theorem putBit_cstart (b : Bool) : (s.putBit b).cstart = s.cstart := by unfold putBit; split <;> rfl
@[simp] theorem putBit_cend (b : Bool) : (s.putBit b).cend = s.cend := by unfold putBit; split <;> rfl
@[simp] theorem putBit_eidx (b : Bool) : (s.putBit b).eidx = s.eidx := by unfold putBit; split <;> rfl
@[simp] theorem putBit_nodemem (b : Bool) : (s.putBit b).nodemem = s.nodemem := by unfold putBit; split <;> rfl
@[simp] theorem putBit_nnode (b : Bool) : (s.putBit b).nnode = s.nnode := by unfold putBit; split <;> rfl
@[simp] theorem putBit_nleaf (b : Bool) : (s.putBit b).nleaf = s.nleaf := by unfold putBit; split <;> rfl
@[simp] theorem putBit_root (b : Bool) : (s.putBit b).root = s.root := by unfold putBit; split <;> rfl
@[simp] theorem putBit_tvalid (b : Bool) : (s.putBit b).tvalid = s.tvalid := by unfold putBit; split <;> rfl
@[simp] theorem putBit_codemap (b : Bool) : (s.putBit b).codemap = s.codemap := by unfold putBit; split <;> rfl
@[simp] theorem putBit_cmvalid (b : Bool) : (s.putBit b).cmvalid = s.cmvalid := by unfold putBit; split <;> rfl
@[simp] theorem putBit_moff (b : Bool) : (s.putBit b).moff = s.moff := by unfold putBit; split <;> rfl
@[simp] theorem putBit_mlen (b : Bool) : (s.putBit b).mlen = s.mlen := by unfold putBit; split <;> rfl
@[simp] theorem putBit_dsym (b : Bool) : (s.putBit b).dsym = s.dsym := by unfold putBit; split <;> rfl
@[simp] theorem putBit_fMatch (b : Bool) : (s.putBit b).fMatch = s.fMatch := by unfold putBit; split <;> rfl
@[simp] theorem putBit_fBit (b : Bool) : (s.putBit b).fBit = s.fBit := by unfold putBit; split <;> rfl
@[simp] theorem putBit_fExh (b : Bool) : (s.putBit b).fExh = s.fExh := by unfold putBit; split <;> rfl
@[simp] theorem putBit_fStop (b : Bool) : (s.putBit b).fStop = s.fStop := by unfold putBit; split <;> rfl
@[simp] theorem putBit_state (b : Bool) : (s.putBit b).state = s.state := by unfold putBit; split <;> rfl
@[simp] theorem putBit_err (b : Bool) : (s.putBit b).err = s.err := by unfold putBit; split <;> rfl
@[simp] theorem putBit_errinfo (b : Bool) : (s.putBit b).errinfo = s.errinfo := by unfold putBit; split <;> rfl
@[simp] theorem putBit_estate (b : Bool) : (s.putBit b).estate = s.estate := by unfold putBit; split <;> rfl
@[simp] theorem putBit_rdata (b : Bool) : (s.putBit b).rdata = s.rdata := by unfold putBit; split <;> rfl
@[simp] theorem putBit_cap (b : Bool) : (s.putBit b).cap = s.cap := by unfold putBit; split <;> rfl
@[simp] theorem putBit_win (b : Bool) : (s.putBit b).win = s.win := by unfold putBit; split <;> rfl
@[simp] theorem putBit_minlen (b : Bool) : (s.putBit b).minlen = s.minlen := by unfold putBit; split <;> rfl
@[simp] theorem putBit_chunk (b : Bool) : (s.putBit b).chunk = s.chunk := by unfold putBit; split <;> rfl
@[simp] theorem putBit_ctrl (b : Bool) : (s.putBit b).ctrl = s.ctrl := by unfold putBit; split <;> rfl
@[simp] theorem putBit_params (b : Bool) : (s.putBit b).params = s.params := by unfold putBit; split <;> rfl
@[simp] theorem putBit_port (b : Bool) : (s.putBit b).port = s.port := by unfold putBit; split <;> rfl

/-! `skipBit` -/

@[simp] theorem skipBit_ring : s.skipBit.ring = s.ring := by unfold skipBit; split <;> rfl
@[simp] theorem skipBit_wptr : s.skipBit.wptr = s.wptr := by unfold skipBit; split <;> rfl
@[simp] theorem skipBit_fill : s.skipBit.fill = s.fill := by unfold skipBit; split <;> rfl
@[simp] theorem skipBit_ibuf : s.skipBit.ibuf = s.ibuf := by unfold skipBit; split <;> rfl
@[simp] theorem skipBit_ilen : s.skipBit.ilen = s.ilen := by unfold skipBit; split <;> rfl
@[simp] theorem skipBit_obuf : s.skipBit.obuf = s.obuf := by unfold skipBit; split <;> rfl
@[simp] theorem skipBit_olen : s.skipBit.olen = s.olen := by unfold skipBit; split <;> rfl
@[simp] theorem skipBit_acc : s.skipBit.acc = s.acc := by unfold skipBit; split <;> rfl
@[simp] theorem skipBit_nacc : s.skipBit.nacc = s.nacc := by unfold skipBit; split <;> rfl
@[simp] theorem skipBit_omark : s.skipBit.omark = s.omark := by unfold skipBit; split <;> rfl
@[simp] theorem skipBit_tokmem : s.skipBit.tokmem = s.tokmem := by unfold skipBit; split <;> rfl
@[simp] theorem skipBit_ntok : s.skipBit.ntok = s.ntok := by unfold skipBit; split <;> rfl
@[simp] theorem skipBit_cstart : s.skipBit.cstart = s.cstart := by unfold skipBit; split <;> rfl
@[simp] theorem skipBit_cend : s.skipBit.cend = s.cend := by unfold skipBit; split <;> rfl
@[simp] theorem skipBit_eidx : s.skipBit.eidx = s.eidx := by unfold skipBit; split <;> rfl
@[simp] theorem skipBit_nodemem : s.skipBit.nodemem = s.nodemem := by unfold skipBit; split <;> rfl
@[simp] theorem skipBit_nnode : s.skipBit.nnode = s.nnode := by unfold skipBit; split <;> rfl
@[simp] theorem skipBit_nleaf : s.skipBit.nleaf = s.nleaf := by unfold skipBit; split <;> rfl
@[simp] theorem skipBit_root : s.skipBit.root = s.root := by unfold skipBit; split <;> rfl
@[simp] theorem skipBit_tvalid : s.skipBit.tvalid = s.tvalid := by unfold skipBit; split <;> rfl
@[simp] theorem skipBit_codemap : s.skipBit.codemap = s.codemap := by unfold skipBit; split <;> rfl
@[simp] theorem skipBit_cmvalid : s.skipBit.cmvalid = s.cmvalid := by unfold skipBit; split <;> rfl
@[simp] theorem skipBit_moff : s.skipBit.moff = s.moff := by unfold skipBit; split <;> rfl
@[simp] theorem skipBit_mlen : s.skipBit.mlen = s.mlen := by unfold skipBit; split <;> rfl
@[simp] theorem skipBit_dsym : s.skipBit.dsym = s.dsym := by unfold skipBit; split <;> rfl
@[simp] theorem skipBit_fMatch : s.skipBit.fMatch = s.fMatch := by unfold skipBit; split <;> rfl
@[simp] theorem skipBit_fBit : s.skipBit.fBit = s.fBit := by unfold skipBit; split <;> rfl
@[simp] theorem skipBit_fExh : s.skipBit.fExh = s.fExh := by unfold skipBit; split <;> rfl
@[simp] theorem skipBit_fStop : s.skipBit.fStop = s.fStop := by unfold skipBit; split <;> rfl
@[simp] theorem skipBit_state : s.skipBit.state = s.state := by unfold skipBit; split <;> rfl
@[simp] theorem skipBit_err : s.skipBit.err = s.err := by unfold skipBit; split <;> rfl
@[simp] theorem skipBit_errinfo : s.skipBit.errinfo = s.errinfo := by unfold skipBit; split <;> rfl
@[simp] theorem skipBit_estate : s.skipBit.estate = s.estate := by unfold skipBit; split <;> rfl
@[simp] theorem skipBit_rdata : s.skipBit.rdata = s.rdata := by unfold skipBit; split <;> rfl
@[simp] theorem skipBit_cap : s.skipBit.cap = s.cap := by unfold skipBit; split <;> rfl
@[simp] theorem skipBit_win : s.skipBit.win = s.win := by unfold skipBit; split <;> rfl
@[simp] theorem skipBit_minlen : s.skipBit.minlen = s.minlen := by unfold skipBit; split <;> rfl
@[simp] theorem skipBit_chunk : s.skipBit.chunk = s.chunk := by unfold skipBit; split <;> rfl
@[simp] theorem skipBit_ctrl : s.skipBit.ctrl = s.ctrl := by unfold skipBit; split <;> rfl
@[simp] theorem skipBit_params : s.skipBit.params = s.params := by unfold skipBit; split <;> rfl
@[simp] theorem skipBit_port : s.skipBit.port = s.port := by unfold skipBit; split <;> rfl

/-! `align` -/

@[simp] theorem align_ring : s.align.ring = s.ring := by unfold align; split <;> rfl
@[simp] theorem align_wptr : s.align.wptr = s.wptr := by unfold align; split <;> rfl
@[simp] theorem align_fill : s.align.fill = s.fill := by unfold align; split <;> rfl
@[simp] theorem align_ibuf : s.align.ibuf = s.ibuf := by unfold align; split <;> rfl
@[simp] theorem align_ilen : s.align.ilen = s.ilen := by unfold align; split <;> rfl
@[simp] theorem align_ibit : s.align.ibit = 0 := by unfold align; split <;> simp_all
@[simp] theorem align_obuf : s.align.obuf = s.obuf := by unfold align; split <;> rfl
@[simp] theorem align_olen : s.align.olen = s.olen := by unfold align; split <;> rfl
@[simp] theorem align_acc : s.align.acc = s.acc := by unfold align; split <;> rfl
@[simp] theorem align_nacc : s.align.nacc = s.nacc := by unfold align; split <;> rfl
@[simp] theorem align_omark : s.align.omark = s.omark := by unfold align; split <;> rfl
@[simp] theorem align_tokmem : s.align.tokmem = s.tokmem := by unfold align; split <;> rfl
@[simp] theorem align_ntok : s.align.ntok = s.ntok := by unfold align; split <;> rfl
@[simp] theorem align_cstart : s.align.cstart = s.cstart := by unfold align; split <;> rfl
@[simp] theorem align_cend : s.align.cend = s.cend := by unfold align; split <;> rfl
@[simp] theorem align_eidx : s.align.eidx = s.eidx := by unfold align; split <;> rfl
@[simp] theorem align_nodemem : s.align.nodemem = s.nodemem := by unfold align; split <;> rfl
@[simp] theorem align_nnode : s.align.nnode = s.nnode := by unfold align; split <;> rfl
@[simp] theorem align_nleaf : s.align.nleaf = s.nleaf := by unfold align; split <;> rfl
@[simp] theorem align_root : s.align.root = s.root := by unfold align; split <;> rfl
@[simp] theorem align_tvalid : s.align.tvalid = s.tvalid := by unfold align; split <;> rfl
@[simp] theorem align_codemap : s.align.codemap = s.codemap := by unfold align; split <;> rfl
@[simp] theorem align_cmvalid : s.align.cmvalid = s.cmvalid := by unfold align; split <;> rfl
@[simp] theorem align_moff : s.align.moff = s.moff := by unfold align; split <;> rfl
@[simp] theorem align_mlen : s.align.mlen = s.mlen := by unfold align; split <;> rfl
@[simp] theorem align_dsym : s.align.dsym = s.dsym := by unfold align; split <;> rfl
@[simp] theorem align_fMatch : s.align.fMatch = s.fMatch := by unfold align; split <;> rfl
@[simp] theorem align_fBit : s.align.fBit = s.fBit := by unfold align; split <;> rfl
@[simp] theorem align_fExh : s.align.fExh = s.fExh := by unfold align; split <;> rfl
@[simp] theorem align_fStop : s.align.fStop = s.fStop := by unfold align; split <;> rfl
@[simp] theorem align_state : s.align.state = s.state := by unfold align; split <;> rfl
@[simp] theorem align_err : s.align.err = s.err := by unfold align; split <;> rfl
@[simp] theorem align_errinfo : s.align.errinfo = s.errinfo := by unfold align; split <;> rfl
@[simp] theorem align_estate : s.align.estate = s.estate := by unfold align; split <;> rfl
@[simp] theorem align_rdata : s.align.rdata = s.rdata := by unfold align; split <;> rfl
@[simp] theorem align_cap : s.align.cap = s.cap := by unfold align; split <;> rfl
@[simp] theorem align_win : s.align.win = s.win := by unfold align; split <;> rfl
@[simp] theorem align_minlen : s.align.minlen = s.minlen := by unfold align; split <;> rfl
@[simp] theorem align_chunk : s.align.chunk = s.chunk := by unfold align; split <;> rfl
@[simp] theorem align_ctrl : s.align.ctrl = s.ctrl := by unfold align; split <;> rfl
@[simp] theorem align_params : s.align.params = s.params := by unfold align; split <;> rfl
@[simp] theorem align_port : s.align.port = s.port := by unfold align; split <;> rfl

/-! `emit` -/

@[simp] theorem emit_ring (b : Byte) : (s.emit b).ring = (s.record b).ring := rfl
@[simp] theorem emit_wptr (b : Byte) : (s.emit b).wptr = (s.record b).wptr := rfl
@[simp] theorem emit_fill (b : Byte) : (s.emit b).fill = (s.record b).fill := rfl
@[simp] theorem emit_ibuf (b : Byte) : (s.emit b).ibuf = s.ibuf := rfl
@[simp] theorem emit_ilen (b : Byte) : (s.emit b).ilen = s.ilen := rfl
@[simp] theorem emit_ipos (b : Byte) : (s.emit b).ipos = s.ipos := rfl
@[simp] theorem emit_ibit (b : Byte) : (s.emit b).ibit = s.ibit := rfl
@[simp] theorem emit_obuf (b : Byte) : (s.emit b).obuf = Mem.write (0 : Byte) s.obuf s.olen.toNat b := rfl
@[simp] theorem emit_olen (b : Byte) : (s.emit b).olen = BitVec.ofNat 32 (s.olen.toNat + 1) := rfl
@[simp] theorem emit_acc (b : Byte) : (s.emit b).acc = s.acc := rfl
@[simp] theorem emit_nacc (b : Byte) : (s.emit b).nacc = s.nacc := rfl
@[simp] theorem emit_omark (b : Byte) : (s.emit b).omark = s.omark := rfl
@[simp] theorem emit_tokmem (b : Byte) : (s.emit b).tokmem = s.tokmem := rfl
@[simp] theorem emit_ntok (b : Byte) : (s.emit b).ntok = s.ntok := rfl
@[simp] theorem emit_cstart (b : Byte) : (s.emit b).cstart = s.cstart := rfl
@[simp] theorem emit_cend (b : Byte) : (s.emit b).cend = s.cend := rfl
@[simp] theorem emit_eidx (b : Byte) : (s.emit b).eidx = s.eidx := rfl
@[simp] theorem emit_nodemem (b : Byte) : (s.emit b).nodemem = s.nodemem := rfl
@[simp] theorem emit_nnode (b : Byte) : (s.emit b).nnode = s.nnode := rfl
@[simp] theorem emit_nleaf (b : Byte) : (s.emit b).nleaf = s.nleaf := rfl
@[simp] theorem emit_root (b : Byte) : (s.emit b).root = s.root := rfl
@[simp] theorem emit_tvalid (b : Byte) : (s.emit b).tvalid = s.tvalid := rfl
@[simp] theorem emit_codemap (b : Byte) : (s.emit b).codemap = s.codemap := rfl
@[simp] theorem emit_cmvalid (b : Byte) : (s.emit b).cmvalid = s.cmvalid := rfl
@[simp] theorem emit_moff (b : Byte) : (s.emit b).moff = s.moff := rfl
@[simp] theorem emit_mlen (b : Byte) : (s.emit b).mlen = s.mlen := rfl
@[simp] theorem emit_dsym (b : Byte) : (s.emit b).dsym = s.dsym := rfl
@[simp] theorem emit_fMatch (b : Byte) : (s.emit b).fMatch = s.fMatch := rfl
@[simp] theorem emit_fBit (b : Byte) : (s.emit b).fBit = s.fBit := rfl
@[simp] theorem emit_fExh (b : Byte) : (s.emit b).fExh = s.fExh := rfl
@[simp] theorem emit_fStop (b : Byte) : (s.emit b).fStop = s.fStop := rfl
@[simp] theorem emit_state (b : Byte) : (s.emit b).state = s.state := rfl
@[simp] theorem emit_err (b : Byte) : (s.emit b).err = s.err := rfl
@[simp] theorem emit_errinfo (b : Byte) : (s.emit b).errinfo = s.errinfo := rfl
@[simp] theorem emit_estate (b : Byte) : (s.emit b).estate = s.estate := rfl
@[simp] theorem emit_rdata (b : Byte) : (s.emit b).rdata = s.rdata := rfl
@[simp] theorem emit_cap (b : Byte) : (s.emit b).cap = s.cap := rfl
@[simp] theorem emit_win (b : Byte) : (s.emit b).win = s.win := rfl
@[simp] theorem emit_minlen (b : Byte) : (s.emit b).minlen = s.minlen := rfl
@[simp] theorem emit_chunk (b : Byte) : (s.emit b).chunk = s.chunk := rfl
@[simp] theorem emit_ctrl (b : Byte) : (s.emit b).ctrl = s.ctrl := rfl
@[simp] theorem emit_params (b : Byte) : (s.emit b).params = s.params := rfl
@[simp] theorem emit_port (b : Byte) : (s.emit b).port = s.port := rfl

/-! `decoded` -/

@[simp] theorem decoded_ring (w : Word) : (s.decoded w).ring = s.ring := rfl
@[simp] theorem decoded_wptr (w : Word) : (s.decoded w).wptr = s.wptr := rfl
@[simp] theorem decoded_fill (w : Word) : (s.decoded w).fill = s.fill := rfl
@[simp] theorem decoded_ibuf (w : Word) : (s.decoded w).ibuf = s.ibuf := rfl
@[simp] theorem decoded_ilen (w : Word) : (s.decoded w).ilen = s.ilen := rfl
@[simp] theorem decoded_ipos (w : Word) : (s.decoded w).ipos = s.ipos := rfl
@[simp] theorem decoded_ibit (w : Word) : (s.decoded w).ibit = s.ibit := rfl
@[simp] theorem decoded_obuf (w : Word) : (s.decoded w).obuf = s.obuf := rfl
@[simp] theorem decoded_olen (w : Word) : (s.decoded w).olen = s.olen := rfl
@[simp] theorem decoded_acc (w : Word) : (s.decoded w).acc = s.acc := rfl
@[simp] theorem decoded_nacc (w : Word) : (s.decoded w).nacc = s.nacc := rfl
@[simp] theorem decoded_omark (w : Word) : (s.decoded w).omark = s.omark := rfl
@[simp] theorem decoded_tokmem (w : Word) : (s.decoded w).tokmem = s.tokmem := rfl
@[simp] theorem decoded_ntok (w : Word) : (s.decoded w).ntok = s.ntok := rfl
@[simp] theorem decoded_cstart (w : Word) : (s.decoded w).cstart = s.cstart := rfl
@[simp] theorem decoded_cend (w : Word) : (s.decoded w).cend = s.cend := rfl
@[simp] theorem decoded_eidx (w : Word) : (s.decoded w).eidx = s.eidx := rfl
@[simp] theorem decoded_nodemem (w : Word) : (s.decoded w).nodemem = s.nodemem := rfl
@[simp] theorem decoded_nnode (w : Word) : (s.decoded w).nnode = s.nnode := rfl
@[simp] theorem decoded_nleaf (w : Word) : (s.decoded w).nleaf = s.nleaf := rfl
@[simp] theorem decoded_root (w : Word) : (s.decoded w).root = s.root := rfl
@[simp] theorem decoded_tvalid (w : Word) : (s.decoded w).tvalid = s.tvalid := rfl
@[simp] theorem decoded_codemap (w : Word) : (s.decoded w).codemap = s.codemap := rfl
@[simp] theorem decoded_cmvalid (w : Word) : (s.decoded w).cmvalid = s.cmvalid := rfl
@[simp] theorem decoded_moff (w : Word) : (s.decoded w).moff = s.moff := rfl
@[simp] theorem decoded_mlen (w : Word) : (s.decoded w).mlen = s.mlen := rfl
@[simp] theorem decoded_dsym (w : Word) : (s.decoded w).dsym = w := rfl
@[simp] theorem decoded_fMatch (w : Word) : (s.decoded w).fMatch = s.fMatch := rfl
@[simp] theorem decoded_fBit (w : Word) : (s.decoded w).fBit = s.fBit := rfl
@[simp] theorem decoded_fExh (w : Word) : (s.decoded w).fExh = false := rfl
@[simp] theorem decoded_fStop (w : Word) : (s.decoded w).fStop = false := rfl
@[simp] theorem decoded_state (w : Word) : (s.decoded w).state = .decoding := rfl
@[simp] theorem decoded_err (w : Word) : (s.decoded w).err = s.err := rfl
@[simp] theorem decoded_errinfo (w : Word) : (s.decoded w).errinfo = s.errinfo := rfl
@[simp] theorem decoded_estate (w : Word) : (s.decoded w).estate = s.estate := rfl
@[simp] theorem decoded_rdata (w : Word) : (s.decoded w).rdata = s.rdata := rfl
@[simp] theorem decoded_cap (w : Word) : (s.decoded w).cap = s.cap := rfl
@[simp] theorem decoded_win (w : Word) : (s.decoded w).win = s.win := rfl
@[simp] theorem decoded_minlen (w : Word) : (s.decoded w).minlen = s.minlen := rfl
@[simp] theorem decoded_chunk (w : Word) : (s.decoded w).chunk = s.chunk := rfl
@[simp] theorem decoded_ctrl (w : Word) : (s.decoded w).ctrl = s.ctrl := rfl
@[simp] theorem decoded_params (w : Word) : (s.decoded w).params = s.params := rfl
@[simp] theorem decoded_port (w : Word) : (s.decoded w).port = s.port := rfl

/-! `dropTree` -/

@[simp] theorem dropTree_ring : s.dropTree.ring = s.ring := rfl
@[simp] theorem dropTree_wptr : s.dropTree.wptr = s.wptr := rfl
@[simp] theorem dropTree_fill : s.dropTree.fill = s.fill := rfl
@[simp] theorem dropTree_ibuf : s.dropTree.ibuf = s.ibuf := rfl
@[simp] theorem dropTree_ilen : s.dropTree.ilen = s.ilen := rfl
@[simp] theorem dropTree_ipos : s.dropTree.ipos = s.ipos := rfl
@[simp] theorem dropTree_ibit : s.dropTree.ibit = s.ibit := rfl
@[simp] theorem dropTree_obuf : s.dropTree.obuf = s.obuf := rfl
@[simp] theorem dropTree_olen : s.dropTree.olen = s.olen := rfl
@[simp] theorem dropTree_acc : s.dropTree.acc = s.acc := rfl
@[simp] theorem dropTree_nacc : s.dropTree.nacc = s.nacc := rfl
@[simp] theorem dropTree_omark : s.dropTree.omark = s.omark := rfl
@[simp] theorem dropTree_tokmem : s.dropTree.tokmem = s.tokmem := rfl
@[simp] theorem dropTree_ntok : s.dropTree.ntok = s.ntok := rfl
@[simp] theorem dropTree_cstart : s.dropTree.cstart = s.cstart := rfl
@[simp] theorem dropTree_cend : s.dropTree.cend = s.cend := rfl
@[simp] theorem dropTree_eidx : s.dropTree.eidx = s.eidx := rfl
@[simp] theorem dropTree_nodemem : s.dropTree.nodemem = s.nodemem := rfl
@[simp] theorem dropTree_nnode : s.dropTree.nnode = 0 := rfl
@[simp] theorem dropTree_nleaf : s.dropTree.nleaf = 0 := rfl
@[simp] theorem dropTree_root : s.dropTree.root = Config.nil := rfl
@[simp] theorem dropTree_tvalid : s.dropTree.tvalid = false := rfl
@[simp] theorem dropTree_codemap : s.dropTree.codemap = s.codemap := rfl
@[simp] theorem dropTree_cmvalid : s.dropTree.cmvalid = false := rfl
@[simp] theorem dropTree_moff : s.dropTree.moff = s.moff := rfl
@[simp] theorem dropTree_mlen : s.dropTree.mlen = s.mlen := rfl
@[simp] theorem dropTree_dsym : s.dropTree.dsym = s.dsym := rfl
@[simp] theorem dropTree_fMatch : s.dropTree.fMatch = s.fMatch := rfl
@[simp] theorem dropTree_fBit : s.dropTree.fBit = s.fBit := rfl
@[simp] theorem dropTree_fExh : s.dropTree.fExh = s.fExh := rfl
@[simp] theorem dropTree_fStop : s.dropTree.fStop = s.fStop := rfl
@[simp] theorem dropTree_state : s.dropTree.state = s.state := rfl
@[simp] theorem dropTree_err : s.dropTree.err = s.err := rfl
@[simp] theorem dropTree_errinfo : s.dropTree.errinfo = s.errinfo := rfl
@[simp] theorem dropTree_estate : s.dropTree.estate = s.estate := rfl
@[simp] theorem dropTree_rdata : s.dropTree.rdata = s.rdata := rfl
@[simp] theorem dropTree_cap : s.dropTree.cap = s.cap := rfl
@[simp] theorem dropTree_win : s.dropTree.win = s.win := rfl
@[simp] theorem dropTree_minlen : s.dropTree.minlen = s.minlen := rfl
@[simp] theorem dropTree_chunk : s.dropTree.chunk = s.chunk := rfl
@[simp] theorem dropTree_ctrl : s.dropTree.ctrl = s.ctrl := rfl
@[simp] theorem dropTree_params : s.dropTree.params = s.params := rfl
@[simp] theorem dropTree_port : s.dropTree.port = s.port := rfl

/-! `loadTree` -/

@[simp] theorem loadTree_ring (t : Parsed) : (s.loadTree t).ring = s.ring := rfl
@[simp] theorem loadTree_wptr (t : Parsed) : (s.loadTree t).wptr = s.wptr := rfl
@[simp] theorem loadTree_fill (t : Parsed) : (s.loadTree t).fill = s.fill := rfl
@[simp] theorem loadTree_ibuf (t : Parsed) : (s.loadTree t).ibuf = s.ibuf := rfl
@[simp] theorem loadTree_ilen (t : Parsed) : (s.loadTree t).ilen = s.ilen := rfl
@[simp] theorem loadTree_ipos (t : Parsed) : (s.loadTree t).ipos = BitVec.ofNat 32 t.pos := rfl
@[simp] theorem loadTree_ibit (t : Parsed) : (s.loadTree t).ibit = s.ibit := rfl
@[simp] theorem loadTree_obuf (t : Parsed) : (s.loadTree t).obuf = s.obuf := rfl
@[simp] theorem loadTree_olen (t : Parsed) : (s.loadTree t).olen = s.olen := rfl
@[simp] theorem loadTree_acc (t : Parsed) : (s.loadTree t).acc = s.acc := rfl
@[simp] theorem loadTree_nacc (t : Parsed) : (s.loadTree t).nacc = s.nacc := rfl
@[simp] theorem loadTree_omark (t : Parsed) : (s.loadTree t).omark = s.olen := rfl
@[simp] theorem loadTree_tokmem (t : Parsed) : (s.loadTree t).tokmem = s.tokmem := rfl
@[simp] theorem loadTree_ntok (t : Parsed) : (s.loadTree t).ntok = s.ntok := rfl
@[simp] theorem loadTree_cstart (t : Parsed) : (s.loadTree t).cstart = s.cstart := rfl
@[simp] theorem loadTree_cend (t : Parsed) : (s.loadTree t).cend = s.cend := rfl
@[simp] theorem loadTree_eidx (t : Parsed) : (s.loadTree t).eidx = s.eidx := rfl
@[simp] theorem loadTree_nodemem (t : Parsed) : (s.loadTree t).nodemem = Mem.writeSeq Node.zero s.nodemem 0 t.nodes := rfl
@[simp] theorem loadTree_nnode (t : Parsed) : (s.loadTree t).nnode = BitVec.ofNat 17 t.nodes.length := rfl
@[simp] theorem loadTree_nleaf (t : Parsed) : (s.loadTree t).nleaf = BitVec.ofNat 17 (t.nodes.countP Node.isLeaf) := rfl
@[simp] theorem loadTree_root (t : Parsed) : (s.loadTree t).root = 0 := rfl
@[simp] theorem loadTree_tvalid (t : Parsed) : (s.loadTree t).tvalid = true := rfl
@[simp] theorem loadTree_codemap (t : Parsed) : (s.loadTree t).codemap = s.codemap := rfl
@[simp] theorem loadTree_cmvalid (t : Parsed) : (s.loadTree t).cmvalid = false := rfl
@[simp] theorem loadTree_moff (t : Parsed) : (s.loadTree t).moff = s.moff := rfl
@[simp] theorem loadTree_mlen (t : Parsed) : (s.loadTree t).mlen = s.mlen := rfl
@[simp] theorem loadTree_dsym (t : Parsed) : (s.loadTree t).dsym = s.dsym := rfl
@[simp] theorem loadTree_fMatch (t : Parsed) : (s.loadTree t).fMatch = s.fMatch := rfl
@[simp] theorem loadTree_fBit (t : Parsed) : (s.loadTree t).fBit = s.fBit := rfl
@[simp] theorem loadTree_fExh (t : Parsed) : (s.loadTree t).fExh = false := rfl
@[simp] theorem loadTree_fStop (t : Parsed) : (s.loadTree t).fStop = false := rfl
@[simp] theorem loadTree_state (t : Parsed) : (s.loadTree t).state = .headerParsed := rfl
@[simp] theorem loadTree_err (t : Parsed) : (s.loadTree t).err = s.err := rfl
@[simp] theorem loadTree_errinfo (t : Parsed) : (s.loadTree t).errinfo = s.errinfo := rfl
@[simp] theorem loadTree_estate (t : Parsed) : (s.loadTree t).estate = s.estate := rfl
@[simp] theorem loadTree_rdata (t : Parsed) : (s.loadTree t).rdata = s.rdata := rfl
@[simp] theorem loadTree_cap (t : Parsed) : (s.loadTree t).cap = s.cap := rfl
@[simp] theorem loadTree_win (t : Parsed) : (s.loadTree t).win = s.win := rfl
@[simp] theorem loadTree_minlen (t : Parsed) : (s.loadTree t).minlen = s.minlen := rfl
@[simp] theorem loadTree_chunk (t : Parsed) : (s.loadTree t).chunk = s.chunk := rfl
@[simp] theorem loadTree_ctrl (t : Parsed) : (s.loadTree t).ctrl = s.ctrl := rfl
@[simp] theorem loadTree_params (t : Parsed) : (s.loadTree t).params = s.params := rfl
@[simp] theorem loadTree_port (t : Parsed) : (s.loadTree t).port = s.port := rfl

/-! `buildTree` -/

@[simp] theorem buildTree_ring : s.buildTree.ring = s.ring := rfl
@[simp] theorem buildTree_wptr : s.buildTree.wptr = s.wptr := rfl
@[simp] theorem buildTree_fill : s.buildTree.fill = s.fill := rfl
@[simp] theorem buildTree_ibuf : s.buildTree.ibuf = s.ibuf := rfl
@[simp] theorem buildTree_ilen : s.buildTree.ilen = s.ilen := rfl
@[simp] theorem buildTree_ipos : s.buildTree.ipos = s.ipos := rfl
@[simp] theorem buildTree_ibit : s.buildTree.ibit = s.ibit := rfl
@[simp] theorem buildTree_obuf : s.buildTree.obuf = s.obuf := rfl
@[simp] theorem buildTree_olen : s.buildTree.olen = s.olen := rfl
@[simp] theorem buildTree_acc : s.buildTree.acc = s.acc := rfl
@[simp] theorem buildTree_nacc : s.buildTree.nacc = s.nacc := rfl
@[simp] theorem buildTree_omark : s.buildTree.omark = s.omark := rfl
@[simp] theorem buildTree_tokmem : s.buildTree.tokmem = s.tokmem := rfl
@[simp] theorem buildTree_ntok : s.buildTree.ntok = s.ntok := rfl
@[simp] theorem buildTree_cstart : s.buildTree.cstart = s.cstart := rfl
@[simp] theorem buildTree_cend : s.buildTree.cend = s.cend := rfl
@[simp] theorem buildTree_eidx : s.buildTree.eidx = s.eidx := rfl
@[simp] theorem buildTree_nodemem : s.buildTree.nodemem = Mem.writeSeq Node.zero s.nodemem 0 (buildNodes s.tokens) := rfl
@[simp] theorem buildTree_nleaf : s.buildTree.nleaf = BitVec.ofNat 17 (leafNodes s.tokens).length := rfl
@[simp] theorem buildTree_tvalid : s.buildTree.tvalid = s.tvalid := rfl
@[simp] theorem buildTree_codemap : s.buildTree.codemap = s.codemap := rfl
@[simp] theorem buildTree_cmvalid : s.buildTree.cmvalid = s.cmvalid := rfl
@[simp] theorem buildTree_moff : s.buildTree.moff = s.moff := rfl
@[simp] theorem buildTree_mlen : s.buildTree.mlen = s.mlen := rfl
@[simp] theorem buildTree_dsym : s.buildTree.dsym = s.dsym := rfl
@[simp] theorem buildTree_fMatch : s.buildTree.fMatch = s.fMatch := rfl
@[simp] theorem buildTree_fBit : s.buildTree.fBit = s.fBit := rfl
@[simp] theorem buildTree_fExh : s.buildTree.fExh = s.fExh := rfl
@[simp] theorem buildTree_fStop : s.buildTree.fStop = s.fStop := rfl
@[simp] theorem buildTree_state : s.buildTree.state = s.state := rfl
@[simp] theorem buildTree_err : s.buildTree.err = s.err := rfl
@[simp] theorem buildTree_errinfo : s.buildTree.errinfo = s.errinfo := rfl
@[simp] theorem buildTree_estate : s.buildTree.estate = s.estate := rfl
@[simp] theorem buildTree_rdata : s.buildTree.rdata = s.rdata := rfl
@[simp] theorem buildTree_cap : s.buildTree.cap = s.cap := rfl
@[simp] theorem buildTree_win : s.buildTree.win = s.win := rfl
@[simp] theorem buildTree_minlen : s.buildTree.minlen = s.minlen := rfl
@[simp] theorem buildTree_chunk : s.buildTree.chunk = s.chunk := rfl
@[simp] theorem buildTree_ctrl : s.buildTree.ctrl = s.ctrl := rfl
@[simp] theorem buildTree_params : s.buildTree.params = s.params := rfl
@[simp] theorem buildTree_port : s.buildTree.port = s.port := rfl

/-! `openFile` -/

@[simp] theorem openFile_ring (cap : BitVec 16) : (s.openFile cap).ring = s.ring := rfl
@[simp] theorem openFile_wptr (cap : BitVec 16) : (s.openFile cap).wptr = 0 := rfl
@[simp] theorem openFile_fill (cap : BitVec 16) : (s.openFile cap).fill = 0 := rfl
@[simp] theorem openFile_ibuf (cap : BitVec 16) : (s.openFile cap).ibuf = s.ibuf := rfl
@[simp] theorem openFile_ilen (cap : BitVec 16) : (s.openFile cap).ilen = s.ilen := rfl
@[simp] theorem openFile_ipos (cap : BitVec 16) : (s.openFile cap).ipos = BitVec.ofNat 32 (s.ipos.toNat + 6) := rfl
@[simp] theorem openFile_ibit (cap : BitVec 16) : (s.openFile cap).ibit = s.ibit := rfl
@[simp] theorem openFile_obuf (cap : BitVec 16) : (s.openFile cap).obuf = s.obuf := rfl
@[simp] theorem openFile_olen (cap : BitVec 16) : (s.openFile cap).olen = 0 := rfl
@[simp] theorem openFile_acc (cap : BitVec 16) : (s.openFile cap).acc = 0 := rfl
@[simp] theorem openFile_nacc (cap : BitVec 16) : (s.openFile cap).nacc = 0 := rfl
@[simp] theorem openFile_omark (cap : BitVec 16) : (s.openFile cap).omark = 0 := rfl
@[simp] theorem openFile_tokmem (cap : BitVec 16) : (s.openFile cap).tokmem = s.tokmem := rfl
@[simp] theorem openFile_ntok (cap : BitVec 16) : (s.openFile cap).ntok = s.ntok := rfl
@[simp] theorem openFile_cstart (cap : BitVec 16) : (s.openFile cap).cstart = s.cstart := rfl
@[simp] theorem openFile_cend (cap : BitVec 16) : (s.openFile cap).cend = s.cend := rfl
@[simp] theorem openFile_eidx (cap : BitVec 16) : (s.openFile cap).eidx = s.eidx := rfl
@[simp] theorem openFile_nodemem (cap : BitVec 16) : (s.openFile cap).nodemem = s.nodemem := rfl
@[simp] theorem openFile_nnode (cap : BitVec 16) : (s.openFile cap).nnode = s.nnode := rfl
@[simp] theorem openFile_nleaf (cap : BitVec 16) : (s.openFile cap).nleaf = s.nleaf := rfl
@[simp] theorem openFile_root (cap : BitVec 16) : (s.openFile cap).root = s.root := rfl
@[simp] theorem openFile_tvalid (cap : BitVec 16) : (s.openFile cap).tvalid = s.tvalid := rfl
@[simp] theorem openFile_codemap (cap : BitVec 16) : (s.openFile cap).codemap = s.codemap := rfl
@[simp] theorem openFile_cmvalid (cap : BitVec 16) : (s.openFile cap).cmvalid = s.cmvalid := rfl
@[simp] theorem openFile_moff (cap : BitVec 16) : (s.openFile cap).moff = s.moff := rfl
@[simp] theorem openFile_mlen (cap : BitVec 16) : (s.openFile cap).mlen = s.mlen := rfl
@[simp] theorem openFile_dsym (cap : BitVec 16) : (s.openFile cap).dsym = s.dsym := rfl
@[simp] theorem openFile_fMatch (cap : BitVec 16) : (s.openFile cap).fMatch = s.fMatch := rfl
@[simp] theorem openFile_fBit (cap : BitVec 16) : (s.openFile cap).fBit = s.fBit := rfl
@[simp] theorem openFile_fExh (cap : BitVec 16) : (s.openFile cap).fExh = s.fExh := rfl
@[simp] theorem openFile_fStop (cap : BitVec 16) : (s.openFile cap).fStop = s.fStop := rfl
@[simp] theorem openFile_state (cap : BitVec 16) : (s.openFile cap).state = s.state := rfl
@[simp] theorem openFile_err (cap : BitVec 16) : (s.openFile cap).err = s.err := rfl
@[simp] theorem openFile_errinfo (cap : BitVec 16) : (s.openFile cap).errinfo = s.errinfo := rfl
@[simp] theorem openFile_estate (cap : BitVec 16) : (s.openFile cap).estate = s.estate := rfl
@[simp] theorem openFile_rdata (cap : BitVec 16) : (s.openFile cap).rdata = s.rdata := rfl
@[simp] theorem openFile_cap (cap : BitVec 16) : (s.openFile cap).cap = cap := rfl
@[simp] theorem openFile_win (cap : BitVec 16) : (s.openFile cap).win = s.win := rfl
@[simp] theorem openFile_minlen (cap : BitVec 16) : (s.openFile cap).minlen = s.minlen := rfl
@[simp] theorem openFile_chunk (cap : BitVec 16) : (s.openFile cap).chunk = s.chunk := rfl
@[simp] theorem openFile_ctrl (cap : BitVec 16) : (s.openFile cap).ctrl = s.ctrl := rfl
@[simp] theorem openFile_params (cap : BitVec 16) : (s.openFile cap).params = s.params := rfl
@[simp] theorem openFile_port (cap : BitVec 16) : (s.openFile cap).port = s.port := rfl

/-! `openChunk` -/

@[simp] theorem openChunk_ring : s.openChunk.ring = s.ring := rfl
@[simp] theorem openChunk_wptr : s.openChunk.wptr = s.wptr := rfl
@[simp] theorem openChunk_fill : s.openChunk.fill = s.fill := rfl
@[simp] theorem openChunk_ibuf : s.openChunk.ibuf = s.ibuf := rfl
@[simp] theorem openChunk_ilen : s.openChunk.ilen = s.ilen := rfl
@[simp] theorem openChunk_ipos : s.openChunk.ipos = s.ipos := rfl
@[simp] theorem openChunk_ibit : s.openChunk.ibit = s.ibit := rfl
@[simp] theorem openChunk_obuf : s.openChunk.obuf = s.obuf := rfl
@[simp] theorem openChunk_olen : s.openChunk.olen = s.olen := rfl
@[simp] theorem openChunk_acc : s.openChunk.acc = s.acc := rfl
@[simp] theorem openChunk_nacc : s.openChunk.nacc = s.nacc := rfl
@[simp] theorem openChunk_omark : s.openChunk.omark = s.omark := rfl
@[simp] theorem openChunk_tokmem : s.openChunk.tokmem = s.tokmem := rfl
@[simp] theorem openChunk_ntok : s.openChunk.ntok = 0 := rfl
@[simp] theorem openChunk_cstart : s.openChunk.cstart = s.ipos := rfl
@[simp] theorem openChunk_cend : s.openChunk.cend = BitVec.ofNat 32 (min s.ilen.toNat (s.ipos.toNat + s.chunk.toNat)) := rfl
@[simp] theorem openChunk_eidx : s.openChunk.eidx = 0 := rfl
@[simp] theorem openChunk_nodemem : s.openChunk.nodemem = s.nodemem := rfl
@[simp] theorem openChunk_nnode : s.openChunk.nnode = s.nnode := rfl
@[simp] theorem openChunk_nleaf : s.openChunk.nleaf = s.nleaf := rfl
@[simp] theorem openChunk_root : s.openChunk.root = s.root := rfl
@[simp] theorem openChunk_tvalid : s.openChunk.tvalid = false := rfl
@[simp] theorem openChunk_codemap : s.openChunk.codemap = s.codemap := rfl
@[simp] theorem openChunk_cmvalid : s.openChunk.cmvalid = false := rfl
@[simp] theorem openChunk_moff : s.openChunk.moff = s.moff := rfl
@[simp] theorem openChunk_mlen : s.openChunk.mlen = s.mlen := rfl
@[simp] theorem openChunk_dsym : s.openChunk.dsym = s.dsym := rfl
@[simp] theorem openChunk_fMatch : s.openChunk.fMatch = s.fMatch := rfl
@[simp] theorem openChunk_fBit : s.openChunk.fBit = s.fBit := rfl
@[simp] theorem openChunk_fExh : s.openChunk.fExh = s.fExh := rfl
@[simp] theorem openChunk_fStop : s.openChunk.fStop = s.fStop := rfl
@[simp] theorem openChunk_state : s.openChunk.state = .collecting := rfl
@[simp] theorem openChunk_err : s.openChunk.err = s.err := rfl
@[simp] theorem openChunk_errinfo : s.openChunk.errinfo = s.errinfo := rfl
@[simp] theorem openChunk_estate : s.openChunk.estate = s.estate := rfl
@[simp] theorem openChunk_rdata : s.openChunk.rdata = s.rdata := rfl
@[simp] theorem openChunk_cap : s.openChunk.cap = s.cap := rfl
@[simp] theorem openChunk_win : s.openChunk.win = s.win := rfl
@[simp] theorem openChunk_minlen : s.openChunk.minlen = s.minlen := rfl
@[simp] theorem openChunk_chunk : s.openChunk.chunk = s.chunk := rfl
@[simp] theorem openChunk_ctrl : s.openChunk.ctrl = s.ctrl := rfl
@[simp] theorem openChunk_params : s.openChunk.params = s.params := rfl
@[simp] theorem openChunk_port : s.openChunk.port = s.port := rfl

/-! `codeTree` -/

@[simp] theorem codeTree_ring (t : HTree) : (s.codeTree t).ring = s.ring := rfl
@[simp] theorem codeTree_wptr (t : HTree) : (s.codeTree t).wptr = s.wptr := rfl
@[simp] theorem codeTree_fill (t : HTree) : (s.codeTree t).fill = s.fill := rfl
@[simp] theorem codeTree_ibuf (t : HTree) : (s.codeTree t).ibuf = s.ibuf := rfl
@[simp] theorem codeTree_ilen (t : HTree) : (s.codeTree t).ilen = s.ilen := rfl
@[simp] theorem codeTree_ipos (t : HTree) : (s.codeTree t).ipos = s.ipos := rfl
@[simp] theorem codeTree_ibit (t : HTree) : (s.codeTree t).ibit = s.ibit := rfl
@[simp] theorem codeTree_obuf (t : HTree) : (s.codeTree t).obuf = s.obuf := rfl
@[simp] theorem codeTree_olen (t : HTree) : (s.codeTree t).olen = s.olen := rfl
@[simp] theorem codeTree_acc (t : HTree) : (s.codeTree t).acc = s.acc := rfl
@[simp] theorem codeTree_nacc (t : HTree) : (s.codeTree t).nacc = s.nacc := rfl
@[simp] theorem codeTree_omark (t : HTree) : (s.codeTree t).omark = s.omark := rfl
@[simp] theorem codeTree_tokmem (t : HTree) : (s.codeTree t).tokmem = s.tokmem := rfl
@[simp] theorem codeTree_ntok (t : HTree) : (s.codeTree t).ntok = s.ntok := rfl
@[simp] theorem codeTree_cstart (t : HTree) : (s.codeTree t).cstart = s.cstart := rfl
@[simp] theorem codeTree_cend (t : HTree) : (s.codeTree t).cend = s.cend := rfl
@[simp] theorem codeTree_eidx (t : HTree) : (s.codeTree t).eidx = 0 := rfl
@[simp] theorem codeTree_nodemem (t : HTree) : (s.codeTree t).nodemem = s.nodemem := rfl
@[simp] theorem codeTree_nnode (t : HTree) : (s.codeTree t).nnode = s.nnode := rfl
@[simp] theorem codeTree_nleaf (t : HTree) : (s.codeTree t).nleaf = s.nleaf := rfl
@[simp] theorem codeTree_root (t : HTree) : (s.codeTree t).root = s.root := rfl
@[simp] theorem codeTree_tvalid (t : HTree) : (s.codeTree t).tvalid = true := rfl
@[simp] theorem codeTree_codemap (t : HTree) : (s.codeTree t).codemap = writeCodes s.codemap (t.codes []) := rfl
@[simp] theorem codeTree_cmvalid (t : HTree) : (s.codeTree t).cmvalid = true := rfl
@[simp] theorem codeTree_moff (t : HTree) : (s.codeTree t).moff = s.moff := rfl
@[simp] theorem codeTree_mlen (t : HTree) : (s.codeTree t).mlen = s.mlen := rfl
@[simp] theorem codeTree_dsym (t : HTree) : (s.codeTree t).dsym = s.dsym := rfl
@[simp] theorem codeTree_fMatch (t : HTree) : (s.codeTree t).fMatch = s.fMatch := rfl
@[simp] theorem codeTree_fBit (t : HTree) : (s.codeTree t).fBit = s.fBit := rfl
@[simp] theorem codeTree_fExh (t : HTree) : (s.codeTree t).fExh = s.fExh := rfl
@[simp] theorem codeTree_fStop (t : HTree) : (s.codeTree t).fStop = s.fStop := rfl
@[simp] theorem codeTree_state (t : HTree) : (s.codeTree t).state = .treeReady := rfl
@[simp] theorem codeTree_err (t : HTree) : (s.codeTree t).err = s.err := rfl
@[simp] theorem codeTree_errinfo (t : HTree) : (s.codeTree t).errinfo = s.errinfo := rfl
@[simp] theorem codeTree_estate (t : HTree) : (s.codeTree t).estate = s.estate := rfl
@[simp] theorem codeTree_rdata (t : HTree) : (s.codeTree t).rdata = s.rdata := rfl
@[simp] theorem codeTree_cap (t : HTree) : (s.codeTree t).cap = s.cap := rfl
@[simp] theorem codeTree_win (t : HTree) : (s.codeTree t).win = s.win := rfl
@[simp] theorem codeTree_minlen (t : HTree) : (s.codeTree t).minlen = s.minlen := rfl
@[simp] theorem codeTree_chunk (t : HTree) : (s.codeTree t).chunk = s.chunk := rfl
@[simp] theorem codeTree_ctrl (t : HTree) : (s.codeTree t).ctrl = s.ctrl := rfl
@[simp] theorem codeTree_params (t : HTree) : (s.codeTree t).params = s.params := rfl
@[simp] theorem codeTree_port (t : HTree) : (s.codeTree t).port = s.port := rfl

/-! `stopChunk` -/

@[simp] theorem stopChunk_ring : s.stopChunk.ring = s.ring := by simp [stopChunk]
@[simp] theorem stopChunk_wptr : s.stopChunk.wptr = s.wptr := by simp [stopChunk]
@[simp] theorem stopChunk_fill : s.stopChunk.fill = s.fill := by simp [stopChunk]
@[simp] theorem stopChunk_ibuf : s.stopChunk.ibuf = s.ibuf := by simp [stopChunk]
@[simp] theorem stopChunk_ilen : s.stopChunk.ilen = s.ilen := by simp [stopChunk]
@[simp] theorem stopChunk_ipos : s.stopChunk.ipos = s.align.ipos := rfl
@[simp] theorem stopChunk_ibit : s.stopChunk.ibit = s.align.ibit := rfl
@[simp] theorem stopChunk_obuf : s.stopChunk.obuf = s.obuf := by simp [stopChunk]
@[simp] theorem stopChunk_olen : s.stopChunk.olen = s.olen := by simp [stopChunk]
@[simp] theorem stopChunk_acc : s.stopChunk.acc = s.acc := by simp [stopChunk]
@[simp] theorem stopChunk_nacc : s.stopChunk.nacc = s.nacc := by simp [stopChunk]
@[simp] theorem stopChunk_omark : s.stopChunk.omark = s.omark := by simp [stopChunk]
@[simp] theorem stopChunk_tokmem : s.stopChunk.tokmem = s.tokmem := by simp [stopChunk]
@[simp] theorem stopChunk_ntok : s.stopChunk.ntok = s.ntok := by simp [stopChunk]
@[simp] theorem stopChunk_cstart : s.stopChunk.cstart = s.cstart := by simp [stopChunk]
@[simp] theorem stopChunk_cend : s.stopChunk.cend = s.cend := by simp [stopChunk]
@[simp] theorem stopChunk_eidx : s.stopChunk.eidx = s.eidx := by simp [stopChunk]
@[simp] theorem stopChunk_nodemem : s.stopChunk.nodemem = s.nodemem := by simp [stopChunk]
@[simp] theorem stopChunk_nnode : s.stopChunk.nnode = s.nnode := by simp [stopChunk]
@[simp] theorem stopChunk_nleaf : s.stopChunk.nleaf = s.nleaf := by simp [stopChunk]
@[simp] theorem stopChunk_root : s.stopChunk.root = s.root := by simp [stopChunk]
@[simp] theorem stopChunk_tvalid : s.stopChunk.tvalid = s.tvalid := by simp [stopChunk]
@[simp] theorem stopChunk_codemap : s.stopChunk.codemap = s.codemap := by simp [stopChunk]
@[simp] theorem stopChunk_cmvalid : s.stopChunk.cmvalid = s.cmvalid := by simp [stopChunk]
@[simp] theorem stopChunk_moff : s.stopChunk.moff = s.moff := by simp [stopChunk]
@[simp] theorem stopChunk_mlen : s.stopChunk.mlen = s.mlen := by simp [stopChunk]
@[simp] theorem stopChunk_dsym : s.stopChunk.dsym = stopWord := rfl
@[simp] theorem stopChunk_fMatch : s.stopChunk.fMatch = s.fMatch := by simp [stopChunk]
@[simp] theorem stopChunk_fBit : s.stopChunk.fBit = s.fBit := by simp [stopChunk]
@[simp] theorem stopChunk_fExh : s.stopChunk.fExh = false := rfl
@[simp] theorem stopChunk_fStop : s.stopChunk.fStop = true := rfl
@[simp] theorem stopChunk_state : s.stopChunk.state = .done := rfl
@[simp] theorem stopChunk_err : s.stopChunk.err = s.err := by simp [stopChunk]
@[simp] theorem stopChunk_errinfo : s.stopChunk.errinfo = s.errinfo := by simp [stopChunk]
@[simp] theorem stopChunk_estate : s.stopChunk.estate = s.estate := by simp [stopChunk]
@[simp] theorem stopChunk_rdata : s.stopChunk.rdata = s.rdata := by simp [stopChunk]
@[simp] theorem stopChunk_cap : s.stopChunk.cap = s.cap := by simp [stopChunk]
@[simp] theorem stopChunk_win : s.stopChunk.win = s.win := by simp [stopChunk]
@[simp] theorem stopChunk_minlen : s.stopChunk.minlen = s.minlen := by simp [stopChunk]
@[simp] theorem stopChunk_chunk : s.stopChunk.chunk = s.chunk := by simp [stopChunk]
@[simp] theorem stopChunk_ctrl : s.stopChunk.ctrl = s.ctrl := by simp [stopChunk]
@[simp] theorem stopChunk_params : s.stopChunk.params = s.params := by simp [stopChunk]
@[simp] theorem stopChunk_port : s.stopChunk.port = s.port := by simp [stopChunk]

/-! `endChunk` -/

@[simp] theorem endChunk_ring : s.endChunk.ring = s.ring := rfl
@[simp] theorem endChunk_wptr : s.endChunk.wptr = s.wptr := rfl
@[simp] theorem endChunk_fill : s.endChunk.fill = s.fill := rfl
@[simp] theorem endChunk_ibuf : s.endChunk.ibuf = s.ibuf := rfl
@[simp] theorem endChunk_ilen : s.endChunk.ilen = s.ilen := rfl
@[simp] theorem endChunk_ipos : s.endChunk.ipos = s.ilen := rfl
@[simp] theorem endChunk_ibit : s.endChunk.ibit = 0 := rfl
@[simp] theorem endChunk_obuf : s.endChunk.obuf = s.obuf := rfl
@[simp] theorem endChunk_olen : s.endChunk.olen = s.olen := rfl
@[simp] theorem endChunk_acc : s.endChunk.acc = s.acc := rfl
@[simp] theorem endChunk_nacc : s.endChunk.nacc = s.nacc := rfl
@[simp] theorem endChunk_omark : s.endChunk.omark = s.omark := rfl
@[simp] theorem endChunk_tokmem : s.endChunk.tokmem = s.tokmem := rfl
@[simp] theorem endChunk_ntok : s.endChunk.ntok = s.ntok := rfl
@[simp] theorem endChunk_cstart : s.endChunk.cstart = s.cstart := rfl
@[simp] theorem endChunk_cend : s.endChunk.cend = s.cend := rfl
@[simp] theorem endChunk_eidx : s.endChunk.eidx = s.eidx := rfl
@[simp] theorem endChunk_nodemem : s.endChunk.nodemem = s.nodemem := rfl
@[simp] theorem endChunk_nnode : s.endChunk.nnode = s.nnode := rfl
@[simp] theorem endChunk_nleaf : s.endChunk.nleaf = s.nleaf := rfl
@[simp] theorem endChunk_root : s.endChunk.root = s.root := rfl
@[simp] theorem endChunk_tvalid : s.endChunk.tvalid = s.tvalid := rfl
@[simp] theorem endChunk_codemap : s.endChunk.codemap = s.codemap := rfl
@[simp] theorem endChunk_cmvalid : s.endChunk.cmvalid = s.cmvalid := rfl
@[simp] theorem endChunk_moff : s.endChunk.moff = s.moff := rfl
@[simp] theorem endChunk_mlen : s.endChunk.mlen = s.mlen := rfl
@[simp] theorem endChunk_dsym : s.endChunk.dsym = s.dsym := rfl
@[simp] theorem endChunk_fMatch : s.endChunk.fMatch = s.fMatch := rfl
@[simp] theorem endChunk_fBit : s.endChunk.fBit = s.fBit := rfl
@[simp] theorem endChunk_fExh : s.endChunk.fExh = true := rfl
@[simp] theorem endChunk_fStop : s.endChunk.fStop = false := rfl
@[simp] theorem endChunk_state : s.endChunk.state = .done := rfl
@[simp] theorem endChunk_err : s.endChunk.err = s.err := rfl
@[simp] theorem endChunk_errinfo : s.endChunk.errinfo = s.errinfo := rfl
@[simp] theorem endChunk_estate : s.endChunk.estate = s.estate := rfl
@[simp] theorem endChunk_rdata : s.endChunk.rdata = s.rdata := rfl
@[simp] theorem endChunk_cap : s.endChunk.cap = s.cap := rfl
@[simp] theorem endChunk_win : s.endChunk.win = s.win := rfl
@[simp] theorem endChunk_minlen : s.endChunk.minlen = s.minlen := rfl
@[simp] theorem endChunk_chunk : s.endChunk.chunk = s.chunk := rfl
@[simp] theorem endChunk_ctrl : s.endChunk.ctrl = s.ctrl := rfl
@[simp] theorem endChunk_params : s.endChunk.params = s.params := rfl
@[simp] theorem endChunk_port : s.endChunk.port = s.port := rfl

/-! `issueFirst` -/

@[simp] theorem issueFirst_ring (w : Word) : (s.issueFirst w).ring = s.ring := rfl
@[simp] theorem issueFirst_wptr (w : Word) : (s.issueFirst w).wptr = s.wptr := rfl
@[simp] theorem issueFirst_fill (w : Word) : (s.issueFirst w).fill = s.fill := rfl
@[simp] theorem issueFirst_ibuf (w : Word) : (s.issueFirst w).ibuf = s.ibuf := rfl
@[simp] theorem issueFirst_ilen (w : Word) : (s.issueFirst w).ilen = s.ilen := rfl
@[simp] theorem issueFirst_ipos (w : Word) : (s.issueFirst w).ipos = s.ipos := rfl
@[simp] theorem issueFirst_ibit (w : Word) : (s.issueFirst w).ibit = s.ibit := rfl
@[simp] theorem issueFirst_obuf (w : Word) : (s.issueFirst w).obuf = s.obuf := rfl
@[simp] theorem issueFirst_olen (w : Word) : (s.issueFirst w).olen = s.olen := rfl
@[simp] theorem issueFirst_acc (w : Word) : (s.issueFirst w).acc = s.acc := rfl
@[simp] theorem issueFirst_nacc (w : Word) : (s.issueFirst w).nacc = s.nacc := rfl
@[simp] theorem issueFirst_omark (w : Word) : (s.issueFirst w).omark = s.omark := rfl
@[simp] theorem issueFirst_tokmem (w : Word) : (s.issueFirst w).tokmem = s.tokmem := rfl
@[simp] theorem issueFirst_ntok (w : Word) : (s.issueFirst w).ntok = s.ntok := rfl
@[simp] theorem issueFirst_cstart (w : Word) : (s.issueFirst w).cstart = s.cstart := rfl
@[simp] theorem issueFirst_cend (w : Word) : (s.issueFirst w).cend = s.cend := rfl
@[simp] theorem issueFirst_eidx (w : Word) : (s.issueFirst w).eidx = s.eidx := rfl
@[simp] theorem issueFirst_nodemem (w : Word) : (s.issueFirst w).nodemem = s.nodemem := rfl
@[simp] theorem issueFirst_nnode (w : Word) : (s.issueFirst w).nnode = s.nnode := rfl
@[simp] theorem issueFirst_nleaf (w : Word) : (s.issueFirst w).nleaf = s.nleaf := rfl
@[simp] theorem issueFirst_root (w : Word) : (s.issueFirst w).root = s.root := rfl
@[simp] theorem issueFirst_tvalid (w : Word) : (s.issueFirst w).tvalid = s.tvalid := rfl
@[simp] theorem issueFirst_codemap (w : Word) : (s.issueFirst w).codemap = s.codemap := rfl
@[simp] theorem issueFirst_cmvalid (w : Word) : (s.issueFirst w).cmvalid = s.cmvalid := rfl
@[simp] theorem issueFirst_moff (w : Word) : (s.issueFirst w).moff = s.moff := rfl
@[simp] theorem issueFirst_mlen (w : Word) : (s.issueFirst w).mlen = s.mlen := rfl
@[simp] theorem issueFirst_dsym (w : Word) : (s.issueFirst w).dsym = s.dsym := rfl
@[simp] theorem issueFirst_fMatch (w : Word) : (s.issueFirst w).fMatch = s.fMatch := rfl
@[simp] theorem issueFirst_fBit (w : Word) : (s.issueFirst w).fBit = s.fBit := rfl
@[simp] theorem issueFirst_fExh (w : Word) : (s.issueFirst w).fExh = s.fExh := rfl
@[simp] theorem issueFirst_fStop (w : Word) : (s.issueFirst w).fStop = s.fStop := rfl
@[simp] theorem issueFirst_state (w : Word) : (s.issueFirst w).state = s.state := rfl
@[simp] theorem issueFirst_err (w : Word) : (s.issueFirst w).err = s.err := rfl
@[simp] theorem issueFirst_errinfo (w : Word) : (s.issueFirst w).errinfo = s.errinfo := rfl
@[simp] theorem issueFirst_estate (w : Word) : (s.issueFirst w).estate = s.estate := rfl
@[simp] theorem issueFirst_rdata (w : Word) : (s.issueFirst w).rdata = s.rdata := rfl
@[simp] theorem issueFirst_cap (w : Word) : (s.issueFirst w).cap = s.cap := rfl
@[simp] theorem issueFirst_win (w : Word) : (s.issueFirst w).win = s.win := rfl
@[simp] theorem issueFirst_minlen (w : Word) : (s.issueFirst w).minlen = s.minlen := rfl
@[simp] theorem issueFirst_chunk (w : Word) : (s.issueFirst w).chunk = s.chunk := rfl
@[simp] theorem issueFirst_ctrl (w : Word) : (s.issueFirst w).ctrl = s.ctrl := rfl
@[simp] theorem issueFirst_params (w : Word) : (s.issueFirst w).params = s.params := rfl
@[simp] theorem issueFirst_port (w : Word) : (s.issueFirst w).port = .command w :: s.port := rfl

/-! `resetRegisters`: memories, parameters and port stay, every register is that of `State.reset` -/

@[simp] theorem resetRegisters_ring : s.resetRegisters.ring = s.ring := rfl
@[simp] theorem resetRegisters_wptr : s.resetRegisters.wptr = State.reset.wptr := rfl
@[simp] theorem resetRegisters_fill : s.resetRegisters.fill = State.reset.fill := rfl
@[simp] theorem resetRegisters_ibuf : s.resetRegisters.ibuf = s.ibuf := rfl
@[simp] theorem resetRegisters_ilen : s.resetRegisters.ilen = State.reset.ilen := rfl
@[simp] theorem resetRegisters_ipos : s.resetRegisters.ipos = State.reset.ipos := rfl
@[simp] theorem resetRegisters_ibit : s.resetRegisters.ibit = State.reset.ibit := rfl
@[simp] theorem resetRegisters_obuf : s.resetRegisters.obuf = s.obuf := rfl
@[simp] theorem resetRegisters_olen : s.resetRegisters.olen = State.reset.olen := rfl
@[simp] theorem resetRegisters_acc : s.resetRegisters.acc = State.reset.acc := rfl
@[simp] theorem resetRegisters_nacc : s.resetRegisters.nacc = State.reset.nacc := rfl
@[simp] theorem resetRegisters_omark : s.resetRegisters.omark = State.reset.omark := rfl
@[simp] theorem resetRegisters_tokmem : s.resetRegisters.tokmem = s.tokmem := rfl
@[simp] theorem resetRegisters_ntok : s.resetRegisters.ntok = State.reset.ntok := rfl
@[simp] theorem resetRegisters_cstart : s.resetRegisters.cstart = State.reset.cstart := rfl
@[simp] theorem resetRegisters_cend : s.resetRegisters.cend = State.reset.cend := rfl
@[simp] theorem resetRegisters_eidx : s.resetRegisters.eidx = State.reset.eidx := rfl
@[simp] theorem resetRegisters_nodemem : s.resetRegisters.nodemem = s.nodemem := rfl
@[simp] theorem resetRegisters_nnode : s.resetRegisters.nnode = State.reset.nnode := rfl
@[simp] theorem resetRegisters_nleaf : s.resetRegisters.nleaf = State.reset.nleaf := rfl
@[simp] theorem resetRegisters_root : s.resetRegisters.root = State.reset.root := rfl
@[simp] theorem resetRegisters_tvalid : s.resetRegisters.tvalid = State.reset.tvalid := rfl
@[simp] theorem resetRegisters_codemap : s.resetRegisters.codemap = s.codemap := rfl
@[simp] theorem resetRegisters_cmvalid : s.resetRegisters.cmvalid = State.reset.cmvalid := rfl
@[simp] theorem resetRegisters_moff : s.resetRegisters.moff = State.reset.moff := rfl
@[simp] theorem resetRegisters_mlen : s.resetRegisters.mlen = State.reset.mlen := rfl
@[simp] theorem resetRegisters_dsym : s.resetRegisters.dsym = State.reset.dsym := rfl
@[simp] theorem resetRegisters_fMatch : s.resetRegisters.fMatch = State.reset.fMatch := rfl
@[simp] theorem resetRegisters_fBit : s.resetRegisters.fBit = State.reset.fBit := rfl
@[simp] theorem resetRegisters_fExh : s.resetRegisters.fExh = State.reset.fExh := rfl
@[simp] theorem resetRegisters_fStop : s.resetRegisters.fStop = State.reset.fStop := rfl
@[simp] theorem resetRegisters_state : s.resetRegisters.state = State.reset.state := rfl
@[simp] theorem resetRegisters_err : s.resetRegisters.err = State.reset.err := rfl
@[simp] theorem resetRegisters_errinfo : s.resetRegisters.errinfo = State.reset.errinfo := rfl
@[simp] theorem resetRegisters_estate : s.resetRegisters.estate = State.reset.estate := rfl
@[simp] theorem resetRegisters_rdata : s.resetRegisters.rdata = State.reset.rdata := rfl
@[simp] theorem resetRegisters_cap : s.resetRegisters.cap = State.reset.cap := rfl
@[simp] theorem resetRegisters_win : s.resetRegisters.win = State.reset.win := rfl
@[simp] theorem resetRegisters_minlen : s.resetRegisters.minlen = State.reset.minlen := rfl
@[simp] theorem resetRegisters_chunk : s.resetRegisters.chunk = State.reset.chunk := rfl
@[simp] theorem resetRegisters_ctrl : s.resetRegisters.ctrl = State.reset.ctrl := rfl
@[simp] theorem resetRegisters_params : s.resetRegisters.params = s.params := rfl
@[simp] theorem resetRegisters_port : s.resetRegisters.port = s.port := rfl

end Sys2Proof.Machine.State
end

