-- ==== Sys2Proof/Laws/Frames.lean ====
section
/-! SUPPORT. The frames of the recursive updates: what `recordAll`, `appendBytes`, `putBits`, `finish`, `copyMatch` and
`consume` leave unchanged, as one equation each and as one lemma per field. -/

namespace Sys2Proof.Machine.State

open Sys2Proof

theorem recordAll_frame (s : State) (bs : List Byte) :
    s.recordAll bs = { s with
      ring := (s.recordAll bs).ring, wptr := (s.recordAll bs).wptr, fill := (s.recordAll bs).fill } := by
  induction bs generalizing s with
  | nil => rfl
  | cons b bs ih => rw [recordAll, ih]; rfl

theorem appendBytes_frame (s : State) (bs : List Byte) :
    s.appendBytes bs = { s with obuf := (s.appendBytes bs).obuf, olen := (s.appendBytes bs).olen } := by
  induction bs generalizing s with
  | nil => rfl
  | cons b bs ih => rw [appendBytes, ih]; rfl

theorem putBits_frame (s : State) (c : Bits) :
    s.putBits c = { s with
      obuf := (s.putBits c).obuf, olen := (s.putBits c).olen, acc := (s.putBits c).acc, nacc := (s.putBits c).nacc } := by
  induction c generalizing s with
  | nil => rfl
  | cons b c ih =>
    rw [putBits, ih]
    simp

theorem finish_frame (s : State) (c : Bits) :
    s.finish c = { s with
      obuf := (s.finish c).obuf, olen := (s.finish c).olen, acc := (s.finish c).acc, nacc := (s.finish c).nacc } := by
  unfold finish
  split
  · exact putBits_frame s _
  · rfl

theorem copyMatch_frame (o n : Nat) (s : State) :
    s.copyMatch o n = { s with
      ring := (s.copyMatch o n).ring, wptr := (s.copyMatch o n).wptr, fill := (s.copyMatch o n).fill,
      obuf := (s.copyMatch o n).obuf, olen := (s.copyMatch o n).olen } := by
  induction n generalizing s with
  | zero => rfl
  | succ n ih => rw [copyMatch, ih]; rfl

theorem consume_frame (s : State) (n : Nat) :
    s.consume n = { s with
      ring := (s.consume n).ring, wptr := (s.consume n).wptr, fill := (s.consume n).fill,
      ipos := BitVec.ofNat 32 (s.ipos.toNat + n) } := by
  unfold consume
  rw [recordAll_frame]

variable (s : State)

/-! `recordAll` -/

@[simp] theorem recordAll_ibuf (bs : List Byte) : (s.recordAll bs).ibuf = s.ibuf := (congrArg State.ibuf (recordAll_frame s bs)).trans rfl
@[simp] theorem recordAll_ilen (bs : List Byte) : (s.recordAll bs).ilen = s.ilen := (congrArg State.ilen (recordAll_frame s bs)).trans rfl
@[simp] theorem recordAll_ipos (bs : List Byte) : (s.recordAll bs).ipos = s.ipos := (congrArg State.ipos (recordAll_frame s bs)).trans rfl
@[simp] theorem recordAll_ibit (bs : List Byte) : (s.recordAll bs).ibit = s.ibit := (congrArg State.ibit (recordAll_frame s bs)).trans rfl
@[simp] theorem recordAll_obuf (bs : List Byte) : (s.recordAll bs).obuf = s.obuf := (congrArg State.obuf (recordAll_frame s bs)).trans rfl
@[simp] theorem recordAll_olen (bs : List Byte) : (s.recordAll bs).olen = s.olen := (congrArg State.olen (recordAll_frame s bs)).trans rfl
@[simp] theorem recordAll_acc (bs : List Byte) : (s.recordAll bs).acc = s.acc := (congrArg State.acc (recordAll_frame s bs)).trans rfl
@[simp] theorem recordAll_nacc (bs : List Byte) : (s.recordAll bs).nacc = s.nacc := (congrArg State.nacc (recordAll_frame s bs)).trans rfl
@[simp] theorem recordAll_omark (bs : List Byte) : (s.recordAll bs).omark = s.omark := (congrArg State.omark (recordAll_frame s bs)).trans rfl
@[simp] theorem recordAll_tokmem (bs : List Byte) : (s.recordAll bs).tokmem = s.tokmem := (congrArg State.tokmem (recordAll_frame s bs)).trans rfl
@[simp] theorem recordAll_ntok (bs : List Byte) : (s.recordAll bs).ntok = s.ntok := (congrArg State.ntok (recordAll_frame s bs)).trans rfl
@[simp] theorem recordAll_cstart (bs : List Byte) : (s.recordAll bs).cstart = s.cstart := (congrArg State.cstart (recordAll_frame s bs)).trans rfl
@[simp] theorem recordAll_cend (bs : List Byte) : (s.recordAll bs).cend = s.cend := (congrArg State.cend (recordAll_frame s bs)).trans rfl
@[simp] theorem recordAll_eidx (bs : List Byte) : (s.recordAll bs).eidx = s.eidx := (congrArg State.eidx (recordAll_frame s bs)).trans rfl
@[simp] theorem recordAll_nodemem (bs : List Byte) : (s.recordAll bs).nodemem = s.nodemem := (congrArg State.nodemem (recordAll_frame s bs)).trans rfl
@[simp] theorem recordAll_nnode (bs : List Byte) : (s.recordAll bs).nnode = s.nnode := (congrArg State.nnode (recordAll_frame s bs)).trans rfl
@[simp] theorem recordAll_nleaf (bs : List Byte) : (s.recordAll bs).nleaf = s.nleaf := (congrArg State.nleaf (recordAll_frame s bs)).trans rfl
@[simp] theorem recordAll_root (bs : List Byte) : (s.recordAll bs).root = s.root := (congrArg State.root (recordAll_frame s bs)).trans rfl
@[simp] theorem recordAll_tvalid (bs : List Byte) : (s.recordAll bs).tvalid = s.tvalid := (congrArg State.tvalid (recordAll_frame s bs)).trans rfl
@[simp] theorem recordAll_codemap (bs : List Byte) : (s.recordAll bs).codemap = s.codemap := (congrArg State.codemap (recordAll_frame s bs)).trans rfl
@[simp] theorem recordAll_cmvalid (bs : List Byte) : (s.recordAll bs).cmvalid = s.cmvalid := (congrArg State.cmvalid (recordAll_frame s bs)).trans rfl
@[simp] theorem recordAll_moff (bs : List Byte) : (s.recordAll bs).moff = s.moff := (congrArg State.moff (recordAll_frame s bs)).trans rfl
@[simp] theorem recordAll_mlen (bs : List Byte) : (s.recordAll bs).mlen = s.mlen := (congrArg State.mlen (recordAll_frame s bs)).trans rfl
@[simp] theorem recordAll_dsym (bs : List Byte) : (s.recordAll bs).dsym = s.dsym := (congrArg State.dsym (recordAll_frame s bs)).trans rfl
@[simp] theorem recordAll_fMatch (bs : List Byte) : (s.recordAll bs).fMatch = s.fMatch := (congrArg State.fMatch (recordAll_frame s bs)).trans rfl
@[simp] theorem recordAll_fBit (bs : List Byte) : (s.recordAll bs).fBit = s.fBit := (congrArg State.fBit (recordAll_frame s bs)).trans rfl
@[simp] theorem recordAll_fExh (bs : List Byte) : (s.recordAll bs).fExh = s.fExh := (congrArg State.fExh (recordAll_frame s bs)).trans rfl
@[simp] theorem recordAll_fStop (bs : List Byte) : (s.recordAll bs).fStop = s.fStop := (congrArg State.fStop (recordAll_frame s bs)).trans rfl
@[simp] theorem recordAll_state (bs : List Byte) : (s.recordAll bs).state = s.state := (congrArg State.state (recordAll_frame s bs)).trans rfl
@[simp] theorem recordAll_err (bs : List Byte) : (s.recordAll bs).err = s.err := (congrArg State.err (recordAll_frame s bs)).trans rfl
@[simp] theorem recordAll_errinfo (bs : List Byte) : (s.recordAll bs).errinfo = s.errinfo := (congrArg State.errinfo (recordAll_frame s bs)).trans rfl
@[simp] theorem recordAll_estate (bs : List Byte) : (s.recordAll bs).estate = s.estate := (congrArg State.estate (recordAll_frame s bs)).trans rfl
@[simp] theorem recordAll_rdata (bs : List Byte) : (s.recordAll bs).rdata = s.rdata := (congrArg State.rdata (recordAll_frame s bs)).trans rfl
@[simp] theorem recordAll_cap (bs : List Byte) : (s.recordAll bs).cap = s.cap := (congrArg State.cap (recordAll_frame s bs)).trans rfl
@[simp] theorem recordAll_win (bs : List Byte) : (s.recordAll bs).win = s.win := (congrArg State.win (recordAll_frame s bs)).trans rfl
@[simp] theorem recordAll_minlen (bs : List Byte) : (s.recordAll bs).minlen = s.minlen := (congrArg State.minlen (recordAll_frame s bs)).trans rfl
@[simp] theorem recordAll_chunk (bs : List Byte) : (s.recordAll bs).chunk = s.chunk := (congrArg State.chunk (recordAll_frame s bs)).trans rfl
@[simp] theorem recordAll_ctrl (bs : List Byte) : (s.recordAll bs).ctrl = s.ctrl := (congrArg State.ctrl (recordAll_frame s bs)).trans rfl
@[simp] theorem recordAll_params (bs : List Byte) : (s.recordAll bs).params = s.params := (congrArg State.params (recordAll_frame s bs)).trans rfl
@[simp] theorem recordAll_port (bs : List Byte) : (s.recordAll bs).port = s.port := (congrArg State.port (recordAll_frame s bs)).trans rfl

/-! `appendBytes` -/

@[simp] theorem appendBytes_ring (bs : List Byte) : (s.appendBytes bs).ring = s.ring := (congrArg State.ring (appendBytes_frame s bs)).trans rfl
@[simp] theorem appendBytes_wptr (bs : List Byte) : (s.appendBytes bs).wptr = s.wptr := (congrArg State.wptr (appendBytes_frame s bs)).trans rfl
@[simp] theorem appendBytes_fill (bs : List Byte) : (s.appendBytes bs).fill = s.fill := (congrArg State.fill (appendBytes_frame s bs)).trans rfl
@[simp] theorem appendBytes_ibuf (bs : List Byte) : (s.appendBytes bs).ibuf = s.ibuf := (congrArg State.ibuf (appendBytes_frame s bs)).trans rfl
@[simp] theorem appendBytes_ilen (bs : List Byte) : (s.appendBytes bs).ilen = s.ilen := (congrArg State.ilen (appendBytes_frame s bs)).trans rfl
@[simp] theorem appendBytes_ipos (bs : List Byte) : (s.appendBytes bs).ipos = s.ipos := (congrArg State.ipos (appendBytes_frame s bs)).trans rfl
@[simp] theorem appendBytes_ibit (bs : List Byte) : (s.appendBytes bs).ibit = s.ibit := (congrArg State.ibit (appendBytes_frame s bs)).trans rfl
@[simp] theorem appendBytes_acc (bs : List Byte) : (s.appendBytes bs).acc = s.acc := (congrArg State.acc (appendBytes_frame s bs)).trans rfl
@[simp] theorem appendBytes_nacc (bs : List Byte) : (s.appendBytes bs).nacc = s.nacc := (congrArg State.nacc (appendBytes_frame s bs)).trans rfl
@[simp] theorem appendBytes_omark (bs : List Byte) : (s.appendBytes bs).omark = s.omark := (congrArg State.omark (appendBytes_frame s bs)).trans rfl
@[simp] theorem appendBytes_tokmem (bs : List Byte) : (s.appendBytes bs).tokmem = s.tokmem := (congrArg State.tokmem (appendBytes_frame s bs)).trans rfl
@[simp] theorem appendBytes_ntok (bs : List Byte) : (s.appendBytes bs).ntok = s.ntok := (congrArg State.ntok (appendBytes_frame s bs)).trans rfl
@[simp] theorem appendBytes_cstart (bs : List Byte) : (s.appendBytes bs).cstart = s.cstart := (congrArg State.cstart (appendBytes_frame s bs)).trans rfl
@[simp] theorem appendBytes_cend (bs : List Byte) : (s.appendBytes bs).cend = s.cend := (congrArg State.cend (appendBytes_frame s bs)).trans rfl
@[simp] theorem appendBytes_eidx (bs : List Byte) : (s.appendBytes bs).eidx = s.eidx := (congrArg State.eidx (appendBytes_frame s bs)).trans rfl
@[simp] theorem appendBytes_nodemem (bs : List Byte) : (s.appendBytes bs).nodemem = s.nodemem := (congrArg State.nodemem (appendBytes_frame s bs)).trans rfl
@[simp] theorem appendBytes_nnode (bs : List Byte) : (s.appendBytes bs).nnode = s.nnode := (congrArg State.nnode (appendBytes_frame s bs)).trans rfl
@[simp] theorem appendBytes_nleaf (bs : List Byte) : (s.appendBytes bs).nleaf = s.nleaf := (congrArg State.nleaf (appendBytes_frame s bs)).trans rfl
@[simp] theorem appendBytes_root (bs : List Byte) : (s.appendBytes bs).root = s.root := (congrArg State.root (appendBytes_frame s bs)).trans rfl
@[simp] theorem appendBytes_tvalid (bs : List Byte) : (s.appendBytes bs).tvalid = s.tvalid := (congrArg State.tvalid (appendBytes_frame s bs)).trans rfl
@[simp] theorem appendBytes_codemap (bs : List Byte) : (s.appendBytes bs).codemap = s.codemap := (congrArg State.codemap (appendBytes_frame s bs)).trans rfl
@[simp] theorem appendBytes_cmvalid (bs : List Byte) : (s.appendBytes bs).cmvalid = s.cmvalid := (congrArg State.cmvalid (appendBytes_frame s bs)).trans rfl
@[simp] theorem appendBytes_moff (bs : List Byte) : (s.appendBytes bs).moff = s.moff := (congrArg State.moff (appendBytes_frame s bs)).trans rfl
@[simp] theorem appendBytes_mlen (bs : List Byte) : (s.appendBytes bs).mlen = s.mlen := (congrArg State.mlen (appendBytes_frame s bs)).trans rfl
@[simp] theorem appendBytes_dsym (bs : List Byte) : (s.appendBytes bs).dsym = s.dsym := (congrArg State.dsym (appendBytes_frame s bs)).trans rfl
@[simp] theorem appendBytes_fMatch (bs : List Byte) : (s.appendBytes bs).fMatch = s.fMatch := (congrArg State.fMatch (appendBytes_frame s bs)).trans rfl
@[simp] theorem appendBytes_fBit (bs : List Byte) : (s.appendBytes bs).fBit = s.fBit := (congrArg State.fBit (appendBytes_frame s bs)).trans rfl
@[simp] theorem appendBytes_fExh (bs : List Byte) : (s.appendBytes bs).fExh = s.fExh := (congrArg State.fExh (appendBytes_frame s bs)).trans rfl
@[simp] theorem appendBytes_fStop (bs : List Byte) : (s.appendBytes bs).fStop = s.fStop := (congrArg State.fStop (appendBytes_frame s bs)).trans rfl
@[simp] theorem appendBytes_state (bs : List Byte) : (s.appendBytes bs).state = s.state := (congrArg State.state (appendBytes_frame s bs)).trans rfl
@[simp] theorem appendBytes_err (bs : List Byte) : (s.appendBytes bs).err = s.err := (congrArg State.err (appendBytes_frame s bs)).trans rfl
@[simp] theorem appendBytes_errinfo (bs : List Byte) : (s.appendBytes bs).errinfo = s.errinfo := (congrArg State.errinfo (appendBytes_frame s bs)).trans rfl
@[simp] theorem appendBytes_estate (bs : List Byte) : (s.appendBytes bs).estate = s.estate := (congrArg State.estate (appendBytes_frame s bs)).trans rfl
@[simp] theorem appendBytes_rdata (bs : List Byte) : (s.appendBytes bs).rdata = s.rdata := (congrArg State.rdata (appendBytes_frame s bs)).trans rfl
@[simp] theorem appendBytes_cap (bs : List Byte) : (s.appendBytes bs).cap = s.cap := (congrArg State.cap (appendBytes_frame s bs)).trans rfl
@[simp] theorem appendBytes_win (bs : List Byte) : (s.appendBytes bs).win = s.win := (congrArg State.win (appendBytes_frame s bs)).trans rfl
@[simp] theorem appendBytes_minlen (bs : List Byte) : (s.appendBytes bs).minlen = s.minlen := (congrArg State.minlen (appendBytes_frame s bs)).trans rfl
@[simp] theorem appendBytes_chunk (bs : List Byte) : (s.appendBytes bs).chunk = s.chunk := (congrArg State.chunk (appendBytes_frame s bs)).trans rfl
@[simp] theorem appendBytes_ctrl (bs : List Byte) : (s.appendBytes bs).ctrl = s.ctrl := (congrArg State.ctrl (appendBytes_frame s bs)).trans rfl
@[simp] theorem appendBytes_params (bs : List Byte) : (s.appendBytes bs).params = s.params := (congrArg State.params (appendBytes_frame s bs)).trans rfl
@[simp] theorem appendBytes_port (bs : List Byte) : (s.appendBytes bs).port = s.port := (congrArg State.port (appendBytes_frame s bs)).trans rfl

/-! `putBits` -/

@[simp] theorem putBits_ring (c : Bits) : (s.putBits c).ring = s.ring := (congrArg State.ring (putBits_frame s c)).trans rfl
@[simp] theorem putBits_wptr (c : Bits) : (s.putBits c).wptr = s.wptr := (congrArg State.wptr (putBits_frame s c)).trans rfl
@[simp] theorem putBits_fill (c : Bits) : (s.putBits c).fill = s.fill := (congrArg State.fill (putBits_frame s c)).trans rfl
@[simp] theorem putBits_ibuf (c : Bits) : (s.putBits c).ibuf = s.ibuf := (congrArg State.ibuf (putBits_frame s c)).trans rfl
@[simp] theorem putBits_ilen (c : Bits) : (s.putBits c).ilen = s.ilen := (congrArg State.ilen (putBits_frame s c)).trans rfl
@[simp] theorem putBits_ipos (c : Bits) : (s.putBits c).ipos = s.ipos := (congrArg State.ipos (putBits_frame s c)).trans rfl
@[simp] theorem putBits_ibit (c : Bits) : (s.putBits c).ibit = s.ibit := (congrArg State.ibit (putBits_frame s c)).trans rfl
@[simp] theorem putBits_omark (c : Bits) : (s.putBits c).omark = s.omark := (congrArg State.omark (putBits_frame s c)).trans rfl
@[simp] theorem putBits_tokmem (c : Bits) : (s.putBits c).tokmem = s.tokmem := (congrArg State.tokmem (putBits_frame s c)).trans rfl
@[simp] theorem putBits_ntok (c : Bits) : (s.putBits c).ntok = s.ntok := (congrArg State.ntok (putBits_frame s c)).trans rfl
@[simp] theorem putBits_cstart (c : Bits) : (s.putBits c).cstart = s.cstart := (congrArg State.cstart (putBits_frame s c)).trans rfl
@[simp] theorem putBits_cend (c : Bits) : (s.putBits c).cend = s.cend := (congrArg State.cend (putBits_frame s c)).trans rfl
@[simp] theorem putBits_eidx (c : Bits) : (s.putBits c).eidx = s.eidx := (congrArg State.eidx (putBits_frame s c)).trans rfl
@[simp] theorem putBits_nodemem (c : Bits) : (s.putBits c).nodemem = s.nodemem := (congrArg State.nodemem (putBits_frame s c)).trans rfl
@[simp] theorem putBits_nnode (c : Bits) : (s.putBits c).nnode = s.nnode := (congrArg State.nnode (putBits_frame s c)).trans rfl
@[simp] theorem putBits_nleaf (c : Bits) : (s.putBits c).nleaf = s.nleaf := (congrArg State.nleaf (putBits_frame s c)).trans rfl
@[simp] theorem putBits_root (c : Bits) : (s.putBits c).root = s.root := (congrArg State.root (putBits_frame s c)).trans rfl
@[simp] theorem putBits_tvalid (c : Bits) : (s.putBits c).tvalid = s.tvalid := (congrArg State.tvalid (putBits_frame s c)).trans rfl
@[simp] theorem putBits_codemap (c : Bits) : (s.putBits c).codemap = s.codemap := (congrArg State.codemap (putBits_frame s c)).trans rfl
@[simp] theorem putBits_cmvalid (c : Bits) : (s.putBits c).cmvalid = s.cmvalid := (congrArg State.cmvalid (putBits_frame s c)).trans rfl
@[simp] theorem putBits_moff (c : Bits) : (s.putBits c).moff = s.moff := (congrArg State.moff (putBits_frame s c)).trans rfl
@[simp] theorem putBits_mlen (c : Bits) : (s.putBits c).mlen = s.mlen := (congrArg State.mlen (putBits_frame s c)).trans rfl
@[simp] theorem putBits_dsym (c : Bits) : (s.putBits c).dsym = s.dsym := (congrArg State.dsym (putBits_frame s c)).trans rfl
@[simp] theorem putBits_fMatch (c : Bits) : (s.putBits c).fMatch = s.fMatch := (congrArg State.fMatch (putBits_frame s c)).trans rfl
@[simp] theorem putBits_fBit (c : Bits) : (s.putBits c).fBit = s.fBit := (congrArg State.fBit (putBits_frame s c)).trans rfl
@[simp] theorem putBits_fExh (c : Bits) : (s.putBits c).fExh = s.fExh := (congrArg State.fExh (putBits_frame s c)).trans rfl
@[simp] theorem putBits_fStop (c : Bits) : (s.putBits c).fStop = s.fStop := (congrArg State.fStop (putBits_frame s c)).trans rfl
@[simp] theorem putBits_state (c : Bits) : (s.putBits c).state = s.state := (congrArg State.state (putBits_frame s c)).trans rfl
@[simp] theorem putBits_err (c : Bits) : (s.putBits c).err = s.err := (congrArg State.err (putBits_frame s c)).trans rfl
@[simp] theorem putBits_errinfo (c : Bits) : (s.putBits c).errinfo = s.errinfo := (congrArg State.errinfo (putBits_frame s c)).trans rfl
@[simp] theorem putBits_estate (c : Bits) : (s.putBits c).estate = s.estate := (congrArg State.estate (putBits_frame s c)).trans rfl
@[simp] theorem putBits_rdata (c : Bits) : (s.putBits c).rdata = s.rdata := (congrArg State.rdata (putBits_frame s c)).trans rfl
@[simp] theorem putBits_cap (c : Bits) : (s.putBits c).cap = s.cap := (congrArg State.cap (putBits_frame s c)).trans rfl
@[simp] theorem putBits_win (c : Bits) : (s.putBits c).win = s.win := (congrArg State.win (putBits_frame s c)).trans rfl
@[simp] theorem putBits_minlen (c : Bits) : (s.putBits c).minlen = s.minlen := (congrArg State.minlen (putBits_frame s c)).trans rfl
@[simp] theorem putBits_chunk (c : Bits) : (s.putBits c).chunk = s.chunk := (congrArg State.chunk (putBits_frame s c)).trans rfl
@[simp] theorem putBits_ctrl (c : Bits) : (s.putBits c).ctrl = s.ctrl := (congrArg State.ctrl (putBits_frame s c)).trans rfl
@[simp] theorem putBits_params (c : Bits) : (s.putBits c).params = s.params := (congrArg State.params (putBits_frame s c)).trans rfl
@[simp] theorem putBits_port (c : Bits) : (s.putBits c).port = s.port := (congrArg State.port (putBits_frame s c)).trans rfl

/-! `finish` -/

@[simp] theorem finish_ring (c : Bits) : (s.finish c).ring = s.ring := (congrArg State.ring (finish_frame s c)).trans rfl
@[simp] theorem finish_wptr (c : Bits) : (s.finish c).wptr = s.wptr := (congrArg State.wptr (finish_frame s c)).trans rfl
@[simp] theorem finish_fill (c : Bits) : (s.finish c).fill = s.fill := (congrArg State.fill (finish_frame s c)).trans rfl
@[simp] theorem finish_ibuf (c : Bits) : (s.finish c).ibuf = s.ibuf := (congrArg State.ibuf (finish_frame s c)).trans rfl
@[simp] theorem finish_ilen (c : Bits) : (s.finish c).ilen = s.ilen := (congrArg State.ilen (finish_frame s c)).trans rfl
@[simp] theorem finish_ipos (c : Bits) : (s.finish c).ipos = s.ipos := (congrArg State.ipos (finish_frame s c)).trans rfl
@[simp] theorem finish_ibit (c : Bits) : (s.finish c).ibit = s.ibit := (congrArg State.ibit (finish_frame s c)).trans rfl
@[simp] theorem finish_omark (c : Bits) : (s.finish c).omark = s.omark := (congrArg State.omark (finish_frame s c)).trans rfl
@[simp] theorem finish_tokmem (c : Bits) : (s.finish c).tokmem = s.tokmem := (congrArg State.tokmem (finish_frame s c)).trans rfl
@[simp] theorem finish_ntok (c : Bits) : (s.finish c).ntok = s.ntok := (congrArg State.ntok (finish_frame s c)).trans rfl
@[simp] theorem finish_cstart (c : Bits) : (s.finish c).cstart = s.cstart := (congrArg State.cstart (finish_frame s c)).trans rfl
@[simp] theorem finish_cend (c : Bits) : (s.finish c).cend = s.cend := (congrArg State.cend (finish_frame s c)).trans rfl
@[simp] theorem finish_eidx (c : Bits) : (s.finish c).eidx = s.eidx := (congrArg State.eidx (finish_frame s c)).trans rfl
@[simp] theorem finish_nodemem (c : Bits) : (s.finish c).nodemem = s.nodemem := (congrArg State.nodemem (finish_frame s c)).trans rfl
@[simp] theorem finish_nnode (c : Bits) : (s.finish c).nnode = s.nnode := (congrArg State.nnode (finish_frame s c)).trans rfl
@[simp] theorem finish_nleaf (c : Bits) : (s.finish c).nleaf = s.nleaf := (congrArg State.nleaf (finish_frame s c)).trans rfl
@[simp] theorem finish_root (c : Bits) : (s.finish c).root = s.root := (congrArg State.root (finish_frame s c)).trans rfl
@[simp] theorem finish_tvalid (c : Bits) : (s.finish c).tvalid = s.tvalid := (congrArg State.tvalid (finish_frame s c)).trans rfl
@[simp] theorem finish_codemap (c : Bits) : (s.finish c).codemap = s.codemap := (congrArg State.codemap (finish_frame s c)).trans rfl
@[simp] theorem finish_cmvalid (c : Bits) : (s.finish c).cmvalid = s.cmvalid := (congrArg State.cmvalid (finish_frame s c)).trans rfl
@[simp] theorem finish_moff (c : Bits) : (s.finish c).moff = s.moff := (congrArg State.moff (finish_frame s c)).trans rfl
@[simp] theorem finish_mlen (c : Bits) : (s.finish c).mlen = s.mlen := (congrArg State.mlen (finish_frame s c)).trans rfl
@[simp] theorem finish_dsym (c : Bits) : (s.finish c).dsym = s.dsym := (congrArg State.dsym (finish_frame s c)).trans rfl
@[simp] theorem finish_fMatch (c : Bits) : (s.finish c).fMatch = s.fMatch := (congrArg State.fMatch (finish_frame s c)).trans rfl
@[simp] theorem finish_fBit (c : Bits) : (s.finish c).fBit = s.fBit := (congrArg State.fBit (finish_frame s c)).trans rfl
@[simp] theorem finish_fExh (c : Bits) : (s.finish c).fExh = s.fExh := (congrArg State.fExh (finish_frame s c)).trans rfl
@[simp] theorem finish_fStop (c : Bits) : (s.finish c).fStop = s.fStop := (congrArg State.fStop (finish_frame s c)).trans rfl
@[simp] theorem finish_state (c : Bits) : (s.finish c).state = s.state := (congrArg State.state (finish_frame s c)).trans rfl
@[simp] theorem finish_err (c : Bits) : (s.finish c).err = s.err := (congrArg State.err (finish_frame s c)).trans rfl
@[simp] theorem finish_errinfo (c : Bits) : (s.finish c).errinfo = s.errinfo := (congrArg State.errinfo (finish_frame s c)).trans rfl
@[simp] theorem finish_estate (c : Bits) : (s.finish c).estate = s.estate := (congrArg State.estate (finish_frame s c)).trans rfl
@[simp] theorem finish_rdata (c : Bits) : (s.finish c).rdata = s.rdata := (congrArg State.rdata (finish_frame s c)).trans rfl
@[simp] theorem finish_cap (c : Bits) : (s.finish c).cap = s.cap := (congrArg State.cap (finish_frame s c)).trans rfl
@[simp] theorem finish_win (c : Bits) : (s.finish c).win = s.win := (congrArg State.win (finish_frame s c)).trans rfl
@[simp] theorem finish_minlen (c : Bits) : (s.finish c).minlen = s.minlen := (congrArg State.minlen (finish_frame s c)).trans rfl
@[simp] theorem finish_chunk (c : Bits) : (s.finish c).chunk = s.chunk := (congrArg State.chunk (finish_frame s c)).trans rfl
@[simp] theorem finish_ctrl (c : Bits) : (s.finish c).ctrl = s.ctrl := (congrArg State.ctrl (finish_frame s c)).trans rfl
@[simp] theorem finish_params (c : Bits) : (s.finish c).params = s.params := (congrArg State.params (finish_frame s c)).trans rfl
@[simp] theorem finish_port (c : Bits) : (s.finish c).port = s.port := (congrArg State.port (finish_frame s c)).trans rfl

/-! `copyMatch` -/

@[simp] theorem copyMatch_ibuf (o n : Nat) : (s.copyMatch o n).ibuf = s.ibuf := (congrArg State.ibuf (copyMatch_frame o n s)).trans rfl
@[simp] theorem copyMatch_ilen (o n : Nat) : (s.copyMatch o n).ilen = s.ilen := (congrArg State.ilen (copyMatch_frame o n s)).trans rfl
@[simp] theorem copyMatch_ipos (o n : Nat) : (s.copyMatch o n).ipos = s.ipos := (congrArg State.ipos (copyMatch_frame o n s)).trans rfl
@[simp] theorem copyMatch_ibit (o n : Nat) : (s.copyMatch o n).ibit = s.ibit := (congrArg State.ibit (copyMatch_frame o n s)).trans rfl
@[simp] theorem copyMatch_acc (o n : Nat) : (s.copyMatch o n).acc = s.acc := (congrArg State.acc (copyMatch_frame o n s)).trans rfl
@[simp] theorem copyMatch_nacc (o n : Nat) : (s.copyMatch o n).nacc = s.nacc := (congrArg State.nacc (copyMatch_frame o n s)).trans rfl
@[simp] theorem copyMatch_omark (o n : Nat) : (s.copyMatch o n).omark = s.omark := (congrArg State.omark (copyMatch_frame o n s)).trans rfl
@[simp] theorem copyMatch_tokmem (o n : Nat) : (s.copyMatch o n).tokmem = s.tokmem := (congrArg State.tokmem (copyMatch_frame o n s)).trans rfl
@[simp] theorem copyMatch_ntok (o n : Nat) : (s.copyMatch o n).ntok = s.ntok := (congrArg State.ntok (copyMatch_frame o n s)).trans rfl
@[simp] theorem copyMatch_cstart (o n : Nat) : (s.copyMatch o n).cstart = s.cstart := (congrArg State.cstart (copyMatch_frame o n s)).trans rfl
@[simp] theorem copyMatch_cend (o n : Nat) : (s.copyMatch o n).cend = s.cend := (congrArg State.cend (copyMatch_frame o n s)).trans rfl
@[simp] theorem copyMatch_eidx (o n : Nat) : (s.copyMatch o n).eidx = s.eidx := (congrArg State.eidx (copyMatch_frame o n s)).trans rfl
@[simp] theorem copyMatch_nodemem (o n : Nat) : (s.copyMatch o n).nodemem = s.nodemem := (congrArg State.nodemem (copyMatch_frame o n s)).trans rfl
@[simp] theorem copyMatch_nnode (o n : Nat) : (s.copyMatch o n).nnode = s.nnode := (congrArg State.nnode (copyMatch_frame o n s)).trans rfl
@[simp] theorem copyMatch_nleaf (o n : Nat) : (s.copyMatch o n).nleaf = s.nleaf := (congrArg State.nleaf (copyMatch_frame o n s)).trans rfl
@[simp] theorem copyMatch_root (o n : Nat) : (s.copyMatch o n).root = s.root := (congrArg State.root (copyMatch_frame o n s)).trans rfl
@[simp] theorem copyMatch_tvalid (o n : Nat) : (s.copyMatch o n).tvalid = s.tvalid := (congrArg State.tvalid (copyMatch_frame o n s)).trans rfl
@[simp] theorem copyMatch_codemap (o n : Nat) : (s.copyMatch o n).codemap = s.codemap := (congrArg State.codemap (copyMatch_frame o n s)).trans rfl
@[simp] theorem copyMatch_cmvalid (o n : Nat) : (s.copyMatch o n).cmvalid = s.cmvalid := (congrArg State.cmvalid (copyMatch_frame o n s)).trans rfl
@[simp] theorem copyMatch_moff (o n : Nat) : (s.copyMatch o n).moff = s.moff := (congrArg State.moff (copyMatch_frame o n s)).trans rfl
@[simp] theorem copyMatch_mlen (o n : Nat) : (s.copyMatch o n).mlen = s.mlen := (congrArg State.mlen (copyMatch_frame o n s)).trans rfl
@[simp] theorem copyMatch_dsym (o n : Nat) : (s.copyMatch o n).dsym = s.dsym := (congrArg State.dsym (copyMatch_frame o n s)).trans rfl
@[simp] theorem copyMatch_fMatch (o n : Nat) : (s.copyMatch o n).fMatch = s.fMatch := (congrArg State.fMatch (copyMatch_frame o n s)).trans rfl
@[simp] theorem copyMatch_fBit (o n : Nat) : (s.copyMatch o n).fBit = s.fBit := (congrArg State.fBit (copyMatch_frame o n s)).trans rfl
@[simp] theorem copyMatch_fExh (o n : Nat) : (s.copyMatch o n).fExh = s.fExh := (congrArg State.fExh (copyMatch_frame o n s)).trans rfl
@[simp] theorem copyMatch_fStop (o n : Nat) : (s.copyMatch o n).fStop = s.fStop := (congrArg State.fStop (copyMatch_frame o n s)).trans rfl
@[simp] theorem copyMatch_state (o n : Nat) : (s.copyMatch o n).state = s.state := (congrArg State.state (copyMatch_frame o n s)).trans rfl
@[simp] theorem copyMatch_err (o n : Nat) : (s.copyMatch o n).err = s.err := (congrArg State.err (copyMatch_frame o n s)).trans rfl
@[simp] theorem copyMatch_errinfo (o n : Nat) : (s.copyMatch o n).errinfo = s.errinfo := (congrArg State.errinfo (copyMatch_frame o n s)).trans rfl
@[simp] theorem copyMatch_estate (o n : Nat) : (s.copyMatch o n).estate = s.estate := (congrArg State.estate (copyMatch_frame o n s)).trans rfl
@[simp] theorem copyMatch_rdata (o n : Nat) : (s.copyMatch o n).rdata = s.rdata := (congrArg State.rdata (copyMatch_frame o n s)).trans rfl
@[simp] theorem copyMatch_cap (o n : Nat) : (s.copyMatch o n).cap = s.cap := (congrArg State.cap (copyMatch_frame o n s)).trans rfl
@[simp] theorem copyMatch_win (o n : Nat) : (s.copyMatch o n).win = s.win := (congrArg State.win (copyMatch_frame o n s)).trans rfl
@[simp] theorem copyMatch_minlen (o n : Nat) : (s.copyMatch o n).minlen = s.minlen := (congrArg State.minlen (copyMatch_frame o n s)).trans rfl
@[simp] theorem copyMatch_chunk (o n : Nat) : (s.copyMatch o n).chunk = s.chunk := (congrArg State.chunk (copyMatch_frame o n s)).trans rfl
@[simp] theorem copyMatch_ctrl (o n : Nat) : (s.copyMatch o n).ctrl = s.ctrl := (congrArg State.ctrl (copyMatch_frame o n s)).trans rfl
@[simp] theorem copyMatch_params (o n : Nat) : (s.copyMatch o n).params = s.params := (congrArg State.params (copyMatch_frame o n s)).trans rfl
@[simp] theorem copyMatch_port (o n : Nat) : (s.copyMatch o n).port = s.port := (congrArg State.port (copyMatch_frame o n s)).trans rfl

/-! `consume` -/

@[simp] theorem consume_ibuf (n : Nat) : (s.consume n).ibuf = s.ibuf := (congrArg State.ibuf (consume_frame s n)).trans rfl
@[simp] theorem consume_ilen (n : Nat) : (s.consume n).ilen = s.ilen := (congrArg State.ilen (consume_frame s n)).trans rfl
@[simp] theorem consume_ibit (n : Nat) : (s.consume n).ibit = s.ibit := (congrArg State.ibit (consume_frame s n)).trans rfl
@[simp] theorem consume_obuf (n : Nat) : (s.consume n).obuf = s.obuf := (congrArg State.obuf (consume_frame s n)).trans rfl
@[simp] theorem consume_olen (n : Nat) : (s.consume n).olen = s.olen := (congrArg State.olen (consume_frame s n)).trans rfl
@[simp] theorem consume_acc (n : Nat) : (s.consume n).acc = s.acc := (congrArg State.acc (consume_frame s n)).trans rfl
@[simp] theorem consume_nacc (n : Nat) : (s.consume n).nacc = s.nacc := (congrArg State.nacc (consume_frame s n)).trans rfl
@[simp] theorem consume_omark (n : Nat) : (s.consume n).omark = s.omark := (congrArg State.omark (consume_frame s n)).trans rfl
@[simp] theorem consume_tokmem (n : Nat) : (s.consume n).tokmem = s.tokmem := (congrArg State.tokmem (consume_frame s n)).trans rfl
@[simp] theorem consume_ntok (n : Nat) : (s.consume n).ntok = s.ntok := (congrArg State.ntok (consume_frame s n)).trans rfl
@[simp] theorem consume_cstart (n : Nat) : (s.consume n).cstart = s.cstart := (congrArg State.cstart (consume_frame s n)).trans rfl
@[simp] theorem consume_cend (n : Nat) : (s.consume n).cend = s.cend := (congrArg State.cend (consume_frame s n)).trans rfl
@[simp] theorem consume_eidx (n : Nat) : (s.consume n).eidx = s.eidx := (congrArg State.eidx (consume_frame s n)).trans rfl
@[simp] theorem consume_nodemem (n : Nat) : (s.consume n).nodemem = s.nodemem := (congrArg State.nodemem (consume_frame s n)).trans rfl
@[simp] theorem consume_nnode (n : Nat) : (s.consume n).nnode = s.nnode := (congrArg State.nnode (consume_frame s n)).trans rfl
@[simp] theorem consume_nleaf (n : Nat) : (s.consume n).nleaf = s.nleaf := (congrArg State.nleaf (consume_frame s n)).trans rfl
@[simp] theorem consume_root (n : Nat) : (s.consume n).root = s.root := (congrArg State.root (consume_frame s n)).trans rfl
@[simp] theorem consume_tvalid (n : Nat) : (s.consume n).tvalid = s.tvalid := (congrArg State.tvalid (consume_frame s n)).trans rfl
@[simp] theorem consume_codemap (n : Nat) : (s.consume n).codemap = s.codemap := (congrArg State.codemap (consume_frame s n)).trans rfl
@[simp] theorem consume_cmvalid (n : Nat) : (s.consume n).cmvalid = s.cmvalid := (congrArg State.cmvalid (consume_frame s n)).trans rfl
@[simp] theorem consume_moff (n : Nat) : (s.consume n).moff = s.moff := (congrArg State.moff (consume_frame s n)).trans rfl
@[simp] theorem consume_mlen (n : Nat) : (s.consume n).mlen = s.mlen := (congrArg State.mlen (consume_frame s n)).trans rfl
@[simp] theorem consume_dsym (n : Nat) : (s.consume n).dsym = s.dsym := (congrArg State.dsym (consume_frame s n)).trans rfl
@[simp] theorem consume_fMatch (n : Nat) : (s.consume n).fMatch = s.fMatch := (congrArg State.fMatch (consume_frame s n)).trans rfl
@[simp] theorem consume_fBit (n : Nat) : (s.consume n).fBit = s.fBit := (congrArg State.fBit (consume_frame s n)).trans rfl
@[simp] theorem consume_fExh (n : Nat) : (s.consume n).fExh = s.fExh := (congrArg State.fExh (consume_frame s n)).trans rfl
@[simp] theorem consume_fStop (n : Nat) : (s.consume n).fStop = s.fStop := (congrArg State.fStop (consume_frame s n)).trans rfl
@[simp] theorem consume_state (n : Nat) : (s.consume n).state = s.state := (congrArg State.state (consume_frame s n)).trans rfl
@[simp] theorem consume_err (n : Nat) : (s.consume n).err = s.err := (congrArg State.err (consume_frame s n)).trans rfl
@[simp] theorem consume_errinfo (n : Nat) : (s.consume n).errinfo = s.errinfo := (congrArg State.errinfo (consume_frame s n)).trans rfl
@[simp] theorem consume_estate (n : Nat) : (s.consume n).estate = s.estate := (congrArg State.estate (consume_frame s n)).trans rfl
@[simp] theorem consume_rdata (n : Nat) : (s.consume n).rdata = s.rdata := (congrArg State.rdata (consume_frame s n)).trans rfl
@[simp] theorem consume_cap (n : Nat) : (s.consume n).cap = s.cap := (congrArg State.cap (consume_frame s n)).trans rfl
@[simp] theorem consume_win (n : Nat) : (s.consume n).win = s.win := (congrArg State.win (consume_frame s n)).trans rfl
@[simp] theorem consume_minlen (n : Nat) : (s.consume n).minlen = s.minlen := (congrArg State.minlen (consume_frame s n)).trans rfl
@[simp] theorem consume_chunk (n : Nat) : (s.consume n).chunk = s.chunk := (congrArg State.chunk (consume_frame s n)).trans rfl
@[simp] theorem consume_ctrl (n : Nat) : (s.consume n).ctrl = s.ctrl := (congrArg State.ctrl (consume_frame s n)).trans rfl
@[simp] theorem consume_params (n : Nat) : (s.consume n).params = s.params := (congrArg State.params (consume_frame s n)).trans rfl
@[simp] theorem consume_port (n : Nat) : (s.consume n).port = s.port := (congrArg State.port (consume_frame s n)).trans rfl

@[simp] theorem consume_ipos (n : Nat) : (s.consume n).ipos = BitVec.ofNat 32 (s.ipos.toNat + n) := rfl

end Sys2Proof.Machine.State
end

