-- ==== Sys2Proof/Laws/Memory.lean ====
section
/-! SUPPORT. The laws of a memory: read after write, and that every operation keeps the canonical form and the range. -/

namespace Sys2Proof.Machine.Mem

open Sys2Proof

variable {α : Type} {d : α}

@[simp] theorem read_nil (a : Nat) : read d ([] : Mem α) a = d := rfl

theorem read_cons (c : Nat × α) (m : Mem α) (a : Nat) :
    read d (c :: m) a = if c.1 = a then c.2 else read d m a := rfl

theorem read_eq_default_of_absent {m : Mem α} {a : Nat} (h : ∀ c ∈ m, c.1 ≠ a) : read d m a = d := by
  induction m with
  | nil => rfl
  | cons c m ih =>
    rw [read_cons, if_neg (h c (by simp))]
    exact ih fun e he => h e (by simp [he])

theorem read_insertAt_same (m : Mem α) (a : Nat) (v : α) (h : ∀ c ∈ m, c.1 ≠ a) :
    read d (insertAt a v m) a = v := by
  induction m with
  | nil => simp [insertAt, read_cons]
  | cons c m ih =>
    by_cases hc : a < c.1
    · simp [insertAt, hc, read_cons]
    · simp [insertAt, hc, read_cons, h c (by simp), ih fun e he => h e (by simp [he])]

theorem read_insertAt_ne (m : Mem α) {a b : Nat} (v : α) (h : b ≠ a) :
    read d (insertAt a v m) b = read d m b := by
  induction m with
  | nil => simp [insertAt, read_cons, h.symm]
  | cons c m ih =>
    by_cases hc : a < c.1
    · simp [insertAt, hc, read_cons, h.symm]
    · simp [insertAt, hc, read_cons, ih]

theorem read_filter_ne (m : Mem α) {a b : Nat} (h : b ≠ a) :
    read d (m.filter fun c => decide (c.1 ≠ a)) b = read d m b := by
  induction m with
  | nil => rfl
  | cons c m ih =>
    by_cases hc : c.1 = a
    · simp only [ne_eq, hc, not_true_eq_false, decide_false, Bool.false_eq_true, not_false_eq_true,
        List.filter_cons_of_neg, read_cons, if_neg h.symm]
      exact ih
    · simp [hc, read_cons] at ih ⊢
      rw [ih]

theorem absent_filter (m : Mem α) (a : Nat) : ∀ c ∈ m.filter (fun c => decide (c.1 ≠ a)), c.1 ≠ a := by
  intro c hc
  simpa using (List.mem_filter.mp hc).2

variable [DecidableEq α]

@[simp] theorem read_write_same (m : Mem α) (a : Nat) (v : α) : read d (write d m a v) a = v := by
  unfold write
  by_cases hv : v = d
  · simp only [hv, if_true]
    exact read_eq_default_of_absent (absent_filter m a)
  · simp only [hv, if_false]
    exact read_insertAt_same _ _ _ (absent_filter m a)

theorem read_write_ne (m : Mem α) {a b : Nat} (v : α) (h : b ≠ a) : read d (write d m a v) b = read d m b := by
  unfold write
  by_cases hv : v = d
  · simp only [hv, if_true]
    exact read_filter_ne m h
  · simp only [hv, if_false]
    rw [read_insertAt_ne _ _ h, read_filter_ne m h]

theorem read_write (m : Mem α) (a b : Nat) (v : α) :
    read d (write d m a v) b = if b = a then v else read d m b := by
  by_cases h : b = a
  · simp [h]
  · simp [h, read_write_ne m v h]

/-! ### The canonical form -/

omit [DecidableEq α] in
theorem rising_cons {c : Nat × α} {m : Mem α} :
    rising (c :: m) = true ↔ (∀ e ∈ m, c.1 < e.1) ∧ rising m = true := by
  induction m generalizing c with
  | nil => simp [rising]
  | cons e m ih =>
    simp only [rising, Bool.and_eq_true, decide_eq_true_eq, List.mem_cons, forall_eq_or_imp]
    constructor
    · rintro ⟨h, hr⟩
      exact ⟨⟨h, fun x hx => lt_trans h ((ih.mp hr).1 x hx)⟩, hr⟩
    · rintro ⟨⟨h, -⟩, hr⟩
      exact ⟨h, hr⟩

omit [DecidableEq α] in
theorem rising_filter {m : Mem α} (p : Nat × α → Bool) (h : rising m = true) : rising (m.filter p) = true := by
  induction m with
  | nil => rfl
  | cons c m ih =>
    obtain ⟨hc, hm⟩ := rising_cons.mp h
    by_cases hp : p c = true
    · rw [List.filter_cons_of_pos hp]
      exact rising_cons.mpr ⟨fun e he => hc e (List.mem_of_mem_filter he), ih hm⟩
    · rw [List.filter_cons_of_neg hp]
      exact ih hm

omit [DecidableEq α] in
theorem mem_insertAt {m : Mem α} {a : Nat} {v : α} {c : Nat × α} :
    c ∈ insertAt a v m ↔ c = (a, v) ∨ c ∈ m := by
  induction m with
  | nil => simp [insertAt]
  | cons e m ih =>
    by_cases he : a < e.1
    · simp [insertAt, he]
    · simp only [insertAt, he, if_false, List.mem_cons, ih]
      tauto

omit [DecidableEq α] in
theorem rising_insertAt {m : Mem α} {a : Nat} (v : α) (h : rising m = true) (hne : ∀ c ∈ m, c.1 ≠ a) :
    rising (insertAt a v m) = true := by
  induction m with
  | nil => rfl
  | cons c m ih =>
    obtain ⟨hc, hm⟩ := rising_cons.mp h
    by_cases hlt : a < c.1
    · simp only [insertAt, hlt, if_true]
      exact rising_cons.mpr ⟨by
        intro e he
        rcases List.mem_cons.mp he with rfl | he
        · exact hlt
        · exact lt_trans hlt (hc e he), h⟩
    · simp only [insertAt, hlt, if_false]
      refine rising_cons.mpr ⟨fun e he => ?_, ih hm fun e he => hne e (by simp [he])⟩
      rcases mem_insertAt.mp he with rfl | he
      · exact lt_of_le_of_ne (not_lt.mp hlt) (hne c (by simp))
      · exact hc e he

theorem wf_iff {m : Mem α} : wf d m = true ↔ rising m = true ∧ ∀ c ∈ m, c.2 ≠ d := by
  simp [wf]

theorem wf_write {m : Mem α} (a : Nat) (v : α) (h : wf d m = true) : wf d (write d m a v) = true := by
  obtain ⟨hr, hd⟩ := wf_iff.mp h
  have hf := rising_filter (fun c => decide (c.1 ≠ a)) hr
  have hfd : ∀ c ∈ m.filter (fun c => decide (c.1 ≠ a)), c.2 ≠ d := fun c hc => hd c (List.mem_of_mem_filter hc)
  unfold write
  by_cases hv : v = d
  · simp only [hv, if_true]
    exact wf_iff.mpr ⟨hf, hfd⟩
  · simp only [hv, if_false]
    refine wf_iff.mpr ⟨rising_insertAt v hf (absent_filter m a), fun c hc => ?_⟩
    rcases mem_insertAt.mp hc with rfl | hc
    · exact hv
    · exact hfd c hc

omit [DecidableEq α] in
theorem within_iff {n : Nat} {m : Mem α} : within n m = true ↔ ∀ c ∈ m, c.1 < n := by
  simp [within]

theorem within_write {n : Nat} {m : Mem α} {a : Nat} (v : α) (h : within n m = true) (ha : a < n) :
    within n (write d m a v) = true := by
  have h' := within_iff.mp h
  refine within_iff.mpr fun c hc => ?_
  unfold write at hc
  by_cases hv : v = d
  · simp only [hv, if_true] at hc
    exact h' c (List.mem_of_mem_filter hc)
  · simp only [hv, if_false] at hc
    rcases mem_insertAt.mp hc with rfl | hc
    · exact ha
    · exact h' c (List.mem_of_mem_filter hc)

/-- Equal memories are equal data: two canonical memories that read alike everywhere are one list. -/
theorem ext_of_wf {m m' : Mem α} (h : wf d m = true) (h' : wf d m' = true) (hr : ∀ a, read d m a = read d m' a) :
    m = m' := by
  induction m generalizing m' with
  | nil =>
    cases m' with
    | nil => rfl
    | cons c m' =>
      have := hr c.1
      simp only [read_nil, read_cons, if_true] at this
      exact absurd this.symm ((wf_iff.mp h').2 c (by simp))
  | cons c m ih =>
    obtain ⟨hrise, hdef⟩ := wf_iff.mp h
    obtain ⟨hlt, hrise'⟩ := rising_cons.mp hrise
    cases m' with
    | nil =>
      have := hr c.1
      simp only [read_nil, read_cons, if_true] at this
      exact absurd this (hdef c (by simp))
    | cons e m' =>
      obtain ⟨hriseE, hdefE⟩ := wf_iff.mp h'
      obtain ⟨hltE, hriseE'⟩ := rising_cons.mp hriseE
      have absentC : ∀ {a}, a ≤ c.1 → read d m a = d := fun {a} ha =>
        read_eq_default_of_absent fun x hx => by have := hlt x hx; omega
      have absentE : ∀ {a}, a ≤ e.1 → read d m' a = d := fun {a} ha =>
        read_eq_default_of_absent fun x hx => by have := hltE x hx; omega
      have key : c.1 = e.1 := by
        rcases lt_trichotomy c.1 e.1 with hl | he | hl
        · have := hr c.1
          simp only [read_cons, if_true, if_neg hl.ne', absentE hl.le] at this
          exact absurd this (hdef c (by simp))
        · exact he
        · have := hr e.1
          simp only [read_cons, if_true, if_neg hl.ne', absentC hl.le] at this
          exact absurd this.symm (hdefE e (by simp))
      have val : c.2 = e.2 := by
        have := hr c.1
        simpa only [read_cons, if_true, key] using this
      have hce : c = e := Prod.ext key val
      subst hce
      refine congrArg (c :: ·) (ih (wf_iff.mpr ⟨hrise', fun x hx => hdef x (by simp [hx])⟩)
        (wf_iff.mpr ⟨hriseE', fun x hx => hdefE x (by simp [hx])⟩) fun a => ?_)
      by_cases ha : c.1 = a
      · rw [absentC (le_of_eq ha.symm), absentE (le_of_eq ha.symm)]
      · simpa only [read_cons, if_neg ha] using hr a

/-! ### Sequences of entries -/

theorem wf_writeSeq {m : Mem α} (a : Nat) (vs : List α) (h : wf d m = true) : wf d (writeSeq d m a vs) = true := by
  induction vs generalizing m a with
  | nil => exact h
  | cons v vs ih => exact ih _ (wf_write _ _ h)

theorem within_writeSeq {n : Nat} {m : Mem α} {a : Nat} (vs : List α) (h : within n m = true)
    (ha : a + vs.length ≤ n) : within n (writeSeq d m a vs) = true := by
  induction vs generalizing m a with
  | nil => exact h
  | cons v vs ih =>
    simp only [List.length_cons] at ha
    exact ih (within_write _ h (by omega)) (by omega)

theorem read_writeSeq (m : Mem α) (a b : Nat) (vs : List α) :
    read d (writeSeq d m a vs) b = if a ≤ b ∧ b < a + vs.length then vs.getD (b - a) d else read d m b := by
  induction vs generalizing m a with
  | nil => simp [writeSeq]
  | cons v vs ih =>
    rw [writeSeq, ih, read_write]
    simp only [List.length_cons]
    by_cases hb : b = a
    · subst hb
      simp
    · by_cases h : a + 1 ≤ b ∧ b < a + 1 + vs.length
      · rw [if_pos h, if_pos (by omega), show b - a = (b - (a + 1)) + 1 by omega]
        simp
      · rw [if_neg h, if_neg hb, if_neg (by omega)]

omit [DecidableEq α] in
@[simp] theorem length_readSeq (m : Mem α) (a n : Nat) : (readSeq d m a n).length = n := by simp [readSeq]

omit [DecidableEq α] in
theorem getD_readSeq (m : Mem α) (a n i : Nat) (e : α) (h : i < n) : (readSeq d m a n).getD i e = read d m (a + i) := by
  simp [readSeq, List.getD_eq_getElem?_getD, h]

omit [DecidableEq α] in
theorem readSeq_succ (m : Mem α) (a n : Nat) :
    readSeq d m a (n + 1) = readSeq d m a n ++ [read d m (a + n)] := by
  simp [readSeq, List.range_succ]

omit [DecidableEq α] in
theorem readSeq_cons (m : Mem α) (a n : Nat) :
    readSeq d m a (n + 1) = read d m a :: readSeq d m (a + 1) n := by
  simp only [readSeq, List.range_succ_eq_map, List.map_cons, Nat.add_zero, List.map_map]
  congr 1
  exact List.map_congr_left fun i _ => by
    simp only [Function.comp_apply]
    congr 1
    omega

omit [DecidableEq α] in
theorem readSeq_congr {m m' : Mem α} {a n : Nat} (h : ∀ b, a ≤ b → b < a + n → read d m b = read d m' b) :
    readSeq d m a n = readSeq d m' a n :=
  List.map_congr_left fun i hi => h _ (by omega) (by have := List.mem_range.mp hi; omega)

theorem readSeq_writeSeq (m : Mem α) (a : Nat) (vs : List α) :
    readSeq d (writeSeq d m a vs) a vs.length = vs := by
  refine List.ext_getElem (by simp) fun i hi hi' => ?_
  simp only [readSeq, List.getElem_map, List.getElem_range, read_writeSeq]
  rw [if_pos (by omega)]
  simp [hi']

end Sys2Proof.Machine.Mem
end

