-- ==== Sys2Proof/Laws/BitStream.lean ====
section
/-! SUPPORT. The bit stream: how many bytes and which bits `PutBits` and `Finish` write, and what `GetBit` and `Align`
read (44_bitstream.md R200 to R210). -/

namespace Sys2Proof.Machine

open Sys2Proof

/-- "the bits of `ACC` below bit `8 - NACC` are 0" (R200). -/
abbrev AccLow (acc : BitVec 8) (n : Nat) : Prop := acc.toNat % 2 ^ (8 - n) = 0

theorem accWith_low : ∀ n : Fin 7, ∀ acc : BitVec 8, ∀ b : Bool, AccLow acc n → AccLow (accWith acc n b) (n + 1) := by
  decide +kernel

theorem take_bitsOfByte_accWith : ∀ n : Fin 8, ∀ acc : BitVec 8, ∀ b : Bool, AccLow acc n →
    (bitsOfByte (accWith acc n b)).take (n + 1) = (bitsOfByte acc).take n ++ [b] := by
  decide +kernel

@[simp] theorem length_bitsOfByte (b : Byte) : (bitsOfByte b).length = 8 := by simp [bitsOfByte]

namespace State

variable {s : State}

theorem nacc_lt (s : State) : s.nacc.toNat < 8 := s.nacc.isLt

theorem putBit_counts (s : State) (b : Bool) (h : s.olen.toNat + (s.nacc.toNat + 1) / 8 < 2 ^ 32) :
    (s.putBit b).nacc.toNat = (s.nacc.toNat + 1) % 8 ∧
      (s.putBit b).olen.toNat = s.olen.toNat + (s.nacc.toNat + 1) / 8 := by
  have := s.nacc_lt
  unfold putBit
  split
  · rename_i he
    rw [he] at h
    simp [he]
    omega
  · rename_i hne
    simp
    omega

/-- `PutBits` "appends `(NACC + m) div 8` bytes to `obuf` and leaves `NACC = (NACC + m) mod 8`" (R201). -/
theorem putBits_counts (s : State) (c : Bits) (h : s.olen.toNat + (s.nacc.toNat + c.length) / 8 < 2 ^ 32) :
    (s.putBits c).nacc.toNat = (s.nacc.toNat + c.length) % 8 ∧
      (s.putBits c).olen.toNat = s.olen.toNat + (s.nacc.toNat + c.length) / 8 := by
  induction c generalizing s with
  | nil => have := s.nacc_lt; simp [putBits]; omega
  | cons b c ih =>
    simp only [List.length_cons] at h ⊢
    have hb := putBit_counts s b (by omega)
    obtain ⟨h1, h2⟩ := ih (s.putBit b) (by rw [hb.1, hb.2]; omega)
    rw [putBits, h1, h2, hb.1, hb.2]
    omega

theorem putBit_accLow (h : AccLow s.acc s.nacc.toNat) (b : Bool) :
    AccLow (s.putBit b).acc (s.putBit b).nacc.toNat := by
  have hn := s.nacc_lt
  unfold putBit
  split
  · simp [AccLow]
  · rename_i hne
    have := accWith_low ⟨s.nacc.toNat, by omega⟩ s.acc b h
    simp only [BitVec.toNat_ofNat]
    rwa [Nat.mod_eq_of_lt (by omega)]

theorem putBits_accLow (h : AccLow s.acc s.nacc.toNat) (c : Bits) :
    AccLow (s.putBits c).acc (s.putBits c).nacc.toNat := by
  induction c generalizing s with
  | nil => exact h
  | cons b c ih => exact ih (putBit_accLow h b)

theorem putBit_obuf_wf (h : Memory.wf s.obuf = true) (b : Bool) : Memory.wf (s.putBit b).obuf = true := by
  unfold putBit
  split
  · exact Mem.wf_write _ _ h
  · exact h

theorem putBits_obuf_wf (h : Memory.wf s.obuf = true) (c : Bits) : Memory.wf (s.putBits c).obuf = true := by
  induction c generalizing s with
  | nil => exact h
  | cons b c ih => exact ih (putBit_obuf_wf h b)

theorem putBits_obuf_within {n : Nat} (h : Mem.within n s.obuf = true) (c : Bits) (hn : n < 2 ^ 32)
    (hroom : s.olen.toNat + (s.nacc.toNat + c.length) / 8 ≤ n) : Mem.within n (s.putBits c).obuf = true := by
  induction c generalizing s with
  | nil => exact h
  | cons b c ih =>
    simp only [List.length_cons] at hroom
    have hb := putBit_counts s b (by omega)
    refine ih ?_ (by rw [hb.1, hb.2]; omega)
    have := s.nacc_lt
    unfold putBit
    split
    · exact Mem.within_write _ h (by omega)
    · exact h

/-- The bytes written before keep their place: output "grows only at its end" (10_state.md R25). -/
theorem putBits_obuf_read (c : Bits) (h : s.olen.toNat + (s.nacc.toNat + c.length) / 8 < 2 ^ 32) {a : Nat}
    (ha : a < s.olen.toNat) : (s.putBits c).obufAt a = s.obufAt a := by
  induction c generalizing s with
  | nil => rfl
  | cons b c ih =>
    simp only [List.length_cons] at h
    have hb := putBit_counts s b (by omega)
    rw [putBits, ih (by rw [hb.1, hb.2]; omega) (by rw [hb.2]; omega)]
    unfold putBit
    split
    · exact Mem.read_write_ne _ _ (by omega)
    · rfl

theorem putBit_written (h : AccLow s.acc s.nacc.toNat) (b : Bool)
    (hroom : s.olen.toNat + (s.nacc.toNat + 1) / 8 < 2 ^ 32) :
    (s.putBit b).written = s.written ++ [b] := by
  have hn := s.nacc_lt
  have hbits := take_bitsOfByte_accWith ⟨s.nacc.toNat, hn⟩ s.acc b h
  simp only at hbits
  unfold putBit
  split
  · rename_i he
    rw [he, List.take_of_length_le (by simp)] at hbits
    have hkeep : Mem.readSeq (0 : Byte) (Mem.write (0 : Byte) s.obuf s.olen.toNat (accWith s.acc s.nacc.toNat b)) 0
        s.olen.toNat = Mem.readSeq (0 : Byte) s.obuf 0 s.olen.toNat :=
      Mem.readSeq_congr fun a _ ha => Mem.read_write_ne _ _ (by omega)
    simp only [written, obufSlice, appendByte_obuf, appendByte_olen, BitVec.toNat_ofNat, List.append_assoc]
    rw [Nat.mod_eq_of_lt (by omega), Mem.readSeq_succ, List.flatMap_append, hkeep]
    simp [hbits]
  · rename_i hne
    simp only [written, obufSlice, BitVec.toNat_ofNat, List.append_assoc]
    rw [Nat.mod_eq_of_lt (by omega), hbits]

/-- `PutBits` appends exactly its bits, in order (R200, R201). -/
theorem putBits_written (h : AccLow s.acc s.nacc.toNat) (c : Bits)
    (hroom : s.olen.toNat + (s.nacc.toNat + c.length) / 8 < 2 ^ 32) :
    (s.putBits c).written = s.written ++ c := by
  induction c generalizing s with
  | nil => simp [putBits]
  | cons b c ih =>
    simp only [List.length_cons] at hroom
    have hb := putBit_counts s b (by omega)
    rw [putBits, ih (putBit_accLow h b) (by rw [hb.1, hb.2]; omega), putBit_written h b (by omega)]
    simp

@[simp] theorem length_padding (c : Bits) (k : Nat) : (padding c k).length = k := by simp [padding]

theorem finish_counts (s : State) (c : Bits) (h : s.olen.toNat + (s.nacc.toNat + 7) / 8 < 2 ^ 32) :
    (s.finish c).nacc = 0 ∧ (s.finish c).olen.toNat = s.olen.toNat + if s.nacc = 0 then 0 else 1 := by
  have hn := s.nacc_lt
  unfold finish
  split
  · rename_i hpos
    have hne : s.nacc ≠ 0 := by rintro h0; simp [h0] at hpos
    have := putBits_counts s (padding c (8 - s.nacc.toNat)) (by simp; omega)
    simp only [length_padding] at this
    rw [show s.nacc.toNat + (8 - s.nacc.toNat) = 8 by omega] at this
    refine ⟨BitVec.eq_of_toNat_eq (by simpa using this.1), ?_⟩
    rw [this.2, if_neg hne]
  · rename_i hz
    have h0 : s.nacc = 0 := BitVec.eq_of_toNat_eq (by simp; omega)
    simp [h0]

theorem finish_accLow (h : AccLow s.acc s.nacc.toNat) (c : Bits) : AccLow (s.finish c).acc (s.finish c).nacc.toNat := by
  unfold finish
  split
  · exact putBits_accLow h _
  · exact h

theorem finish_obuf_wf (h : Memory.wf s.obuf = true) (c : Bits) : Memory.wf (s.finish c).obuf = true := by
  unfold finish
  split
  · exact putBits_obuf_wf h _
  · exact h

theorem finish_obuf_within {n : Nat} (h : Mem.within n s.obuf = true) (c : Bits) (hn : n < 2 ^ 32)
    (hroom : s.olen.toNat + (s.nacc.toNat + 7) / 8 ≤ n) : Mem.within n (s.finish c).obuf = true := by
  have := s.nacc_lt
  unfold finish
  split
  · refine putBits_obuf_within h _ hn ?_
    rw [length_padding]
    omega
  · exact h

/-! ### The appended bytes -/

theorem appendBytes_olen (s : State) (bs : List Byte) (h : s.olen.toNat + bs.length < 2 ^ 32) :
    (s.appendBytes bs).olen.toNat = s.olen.toNat + bs.length := by
  induction bs generalizing s with
  | nil => rfl
  | cons b bs ih =>
    simp only [List.length_cons] at h
    have hb : (s.appendByte b).olen.toNat = s.olen.toNat + 1 := by
      simp only [appendByte_olen, BitVec.toNat_ofNat]
      exact Nat.mod_eq_of_lt (by omega)
    rw [appendBytes, ih _ (by rw [hb]; omega), hb, List.length_cons]
    omega

theorem appendBytes_obuf (s : State) (bs : List Byte) (h : s.olen.toNat + bs.length < 2 ^ 32) :
    (s.appendBytes bs).obuf = Mem.writeSeq (0 : Byte) s.obuf s.olen.toNat bs := by
  induction bs generalizing s with
  | nil => rfl
  | cons b bs ih =>
    simp only [List.length_cons] at h
    have hb : (s.appendByte b).olen.toNat = s.olen.toNat + 1 := by
      simp only [appendByte_olen, BitVec.toNat_ofNat]
      exact Nat.mod_eq_of_lt (by omega)
    rw [appendBytes, ih _ (by rw [hb]; omega), hb]
    rfl

/-! ### Reading -/

/-- Reading a bit drops it from the unread bits: the head is `nextBit` (R203). -/
theorem unread_eq_cons (h : s.avail = true) :
    s.unread = s.nextBit :: s.skipBit.unread := by
  have hlt : s.ipos.toNat < s.ilen.toNat := by simpa [avail] using h
  have hb := s.ibit.isLt
  obtain ⟨m, hm⟩ : ∃ m, s.ilen.toNat - s.ipos.toNat = m + 1 := ⟨s.ilen.toNat - s.ipos.toNat - 1, by omega⟩
  have hhead : (bitsOfByte (s.ibufAt s.ipos.toNat)).drop s.ibit.toNat =
      s.nextBit :: (bitsOfByte (s.ibufAt s.ipos.toNat)).drop (s.ibit.toNat + 1) := by
    rw [List.drop_eq_getElem_cons (by simpa using hb)]
    simp [bitsOfByte, nextBit]
  have hsplit : s.unread = (bitsOfByte (s.ibufAt s.ipos.toNat)).drop s.ibit.toNat ++
      (s.ibufSlice (s.ipos.toNat + 1) m).flatMap bitsOfByte := by
    unfold unread ibufSlice
    rw [hm, Mem.readSeq_cons, List.flatMap_cons, List.drop_append_of_le_length (by simp; omega)]
    rfl
  rw [hsplit, hhead, List.cons_append]
  congr 1
  unfold skipBit unread
  split
  · rename_i he
    simp only [BitVec.toNat_ofNat, he]
    rw [Nat.mod_eq_of_lt (by omega), List.drop_eq_nil_of_le (by simp), List.nil_append,
      show s.ilen.toNat - (s.ipos.toNat + 1) = m by omega]
    rfl
  · rename_i hne
    simp only [BitVec.toNat_ofNat]
    rw [Nat.mod_eq_of_lt (show s.ibit.toNat + 1 < 2 ^ 3 by omega), hm]
    unfold ibufSlice
    rw [Mem.readSeq_cons, List.flatMap_cons, List.drop_append_of_le_length (by simp; omega)]
    rfl

end State

end Sys2Proof.Machine
end

