-- ==== Sys2Proof/Laws/Huffman.lean ====
section
/-! SUPPORT. Trees: the alphabet, the choice of the two least active nodes, the tree `Build` makes, trees read from node
memory, codes written and looked up. -/

namespace Sys2Proof.Machine

open Sys2Proof

/-! ## The alphabet (43_huffman.md R175, R176) -/

theorem mem_insertSymbol (x w : Word) (l : List Word) : x ∈ insertSymbol w l ↔ x = w ∨ x ∈ l := by
  induction l with
  | nil => simp [insertSymbol]
  | cons y ys ih =>
    unfold insertSymbol
    split
    · simp
    · split
      · next h => simp [h]
      · simp only [List.mem_cons, ih]
        tauto

theorem sorted_insertSymbol (w : Word) (l : List Word) (h : l.Pairwise fun a b => a.toNat < b.toNat) :
    (insertSymbol w l).Pairwise fun a b => a.toNat < b.toNat := by
  induction l with
  | nil => simp [insertSymbol]
  | cons y ys ih =>
    obtain ⟨h1, h2⟩ := List.pairwise_cons.mp h
    unfold insertSymbol
    split
    · next hlt =>
      refine List.pairwise_cons.mpr ⟨fun z hz => ?_, h⟩
      rcases List.mem_cons.mp hz with rfl | hz
      · exact hlt
      · exact hlt.trans (h1 z hz)
    · split
      · exact h
      · next hge hne =>
        refine List.pairwise_cons.mpr ⟨fun z hz => ?_, ih h2⟩
        rcases (mem_insertSymbol z w ys).mp hz with rfl | hz
        · have : z.toNat ≠ y.toNat := fun h => hne (BitVec.eq_of_toNat_eq h)
          omega
        · exact h1 z hz

theorem length_insertSymbol (w : Word) (l : List Word) : (insertSymbol w l).length ≤ l.length + 1 := by
  induction l with
  | nil => simp [insertSymbol]
  | cons y ys ih =>
    unfold insertSymbol
    split
    · simp
    · split <;> simp; omega

theorem mem_alphabet (x : Word) (toks : List Word) : x ∈ alphabet toks ↔ x = stopWord ∨ x ∈ toks := by
  unfold alphabet
  induction toks with
  | nil => simp
  | cons y ys ih => simp only [List.foldr_cons, mem_insertSymbol, ih, List.mem_cons]; tauto

theorem sorted_alphabet (toks : List Word) : (alphabet toks).Pairwise fun a b => a.toNat < b.toNat := by
  unfold alphabet
  induction toks with
  | nil => simp
  | cons y ys ih => exact sorted_insertSymbol _ _ ih

theorem nodup_alphabet (toks : List Word) : (alphabet toks).Nodup :=
  (sorted_alphabet toks).imp fun h e => by subst e; omega

theorem length_alphabet (toks : List Word) : 1 ≤ (alphabet toks).length ∧ (alphabet toks).length ≤ toks.length + 1 := by
  refine ⟨List.length_pos_iff_exists_mem.mpr ⟨stopWord, (mem_alphabet _ _).mpr (.inl rfl)⟩, ?_⟩
  unfold alphabet
  induction toks with
  | nil => simp
  | cons y ys ih =>
    have := length_insertSymbol y (ys.foldr insertSymbol [stopWord])
    simp only [List.foldr_cons, List.length_cons]
    omega

/-- "the tree a function of the frequency table alone" (R176): the alphabet depends on the multiset of the tokens. -/
theorem alphabet_perm {a b : List Word} (h : a.Perm b) : alphabet a = alphabet b := by
  refine List.Perm.eq_of_pairwise (le := fun a b : Word => a.toNat < b.toNat) (fun a b _ _ h1 h2 => by omega)
    (sorted_alphabet a) (sorted_alphabet b) ?_
  refine (List.perm_ext_iff_of_nodup (nodup_alphabet a) (nodup_alphabet b)).mpr fun x => ?_
  simp [mem_alphabet, h.mem_iff]

@[simp] theorem length_leafNodes (toks : List Word) : (leafNodes toks).length = (alphabet toks).length := by
  simp [leafNodes]

theorem leafNodes_perm {a b : List Word} (h : a.Perm b) : leafNodes a = leafNodes b := by
  simp [leafNodes, alphabet_perm h, freq, h.count_eq]

theorem buildNodes_perm {a b : List Word} (h : a.Perm b) : buildNodes a = buildNodes b := by
  simp [buildNodes, leafNodes_perm h]

/-! ## The two least active nodes (R177) -/

theorem less_irrefl (a : Active) : Active.less a a = false := by simp [Active.less]

theorem less_trans {a b c : Active} (h1 : Active.less a b = true) (h2 : Active.less b c = true) :
    Active.less a c = true := by
  simp only [Active.less, Bool.or_eq_true, Bool.and_eq_true, decide_eq_true_eq] at *
  omega

theorem less_total {a b : Active} (h1 : Active.less a b = false) (h2 : Active.less b a = false) : a = b := by
  simp only [Active.less, Bool.or_eq_false_iff, Bool.and_eq_false_iff, decide_eq_false_iff_not] at *
  exact Prod.ext (by omega) (by omega)

/-- `least` is one of the nodes and no other comes before it. -/
theorem least_spec (a : Active) (l : List Active) :
    Active.least a l ∈ a :: l ∧ ∀ x ∈ a :: l, Active.less x (Active.least a l) = false := by
  induction l generalizing a with
  | nil => simp [Active.least, less_irrefl]
  | cons b bs ih =>
    unfold Active.least
    obtain ⟨h1, h2⟩ := ih (if Active.less b a then b else a)
    by_cases hb : Active.less b a = true
    · rw [if_pos hb] at h1 h2 ⊢
      refine ⟨List.mem_cons_of_mem _ h1, fun x hx => ?_⟩
      rcases List.mem_cons.mp hx with rfl | hx
      · by_contra hc
        have := less_trans hb (by simpa using hc)
        rw [h2 b (List.mem_cons_self ..)] at this
        cases this
      · exact h2 x hx
    · rw [if_neg hb] at h1 h2 ⊢
      refine ⟨?_, fun x hx => ?_⟩
      · rcases List.mem_cons.mp h1 with h | h
        · rw [h]; exact List.mem_cons_self ..
        · exact List.mem_cons_of_mem _ (List.mem_cons_of_mem _ h)
      · rcases List.mem_cons.mp hx with rfl | hx
        · exact h2 _ (List.mem_cons_self ..)
        · rcases List.mem_cons.mp hx with rfl | hx
          · by_contra hc
            have hc : Active.less x (Active.least a bs) = true := by simpa using hc
            have ha := h2 a (List.mem_cons_self ..)
            have : Active.less x a = true := by
              simp only [Active.less, Bool.or_eq_true, Bool.and_eq_true, decide_eq_true_eq, Bool.or_eq_false_iff,
                Bool.and_eq_false_iff, decide_eq_false_iff_not] at *
              omega
            exact hb this
          · exact h2 x (List.mem_cons_of_mem _ hx)

/-- Everything `takeLeast` can do. -/
theorem takeLeast_some {l r : List Active} {m : Active} (h : takeLeast l = some (m, r)) :
    m ∈ l ∧ r = l.erase m ∧ r.length + 1 = l.length ∧ ∀ x ∈ l, Active.less x m = false := by
  cases l with
  | nil => simp [takeLeast] at h
  | cons a as =>
    simp only [takeLeast, Option.some.injEq, Prod.mk.injEq] at h
    obtain ⟨rfl, rfl⟩ := h
    obtain ⟨h1, h2⟩ := least_spec a as
    refine ⟨h1, rfl, ?_, h2⟩
    rw [List.length_erase_of_mem h1]
    simp

theorem takeLeast_isSome {l : List Active} (h : l ≠ []) : ∃ m r, takeLeast l = some (m, r) := by
  cases l with
  | nil => exact absurd rfl h
  | cons a as => exact ⟨_, _, rfl⟩

/-- With two nodes or more a round of `Build` takes two, makes one, and goes on. -/
theorem combineAll_succ (k : Nat) (A : List Active) (next : Nat) (hA : 2 ≤ A.length) :
    ∃ a b, a ∈ A ∧ b ∈ A.erase a ∧ (∀ x ∈ A, Active.less x a = false) ∧
      (∀ x ∈ A.erase a, Active.less x b = false) ∧
      ((a.1 + b.1, next) :: (A.erase a).erase b).length + 1 = A.length ∧
      combineAll (k + 1) A next = combined a b :: combineAll k ((a.1 + b.1, next) :: (A.erase a).erase b) (next + 1) := by
  obtain ⟨a, r, ha⟩ := takeLeast_isSome (l := A) (by rintro rfl; simp at hA)
  obtain ⟨ha1, rfl, ha3, ha4⟩ := takeLeast_some ha
  obtain ⟨b, r', hb⟩ := takeLeast_isSome (l := A.erase a) (by intro h; rw [h] at ha3; simp at ha3; omega)
  obtain ⟨hb1, rfl, hb3, hb4⟩ := takeLeast_some hb
  refine ⟨a, b, ha1, hb1, ha4, hb4, by simp only [List.length_cons]; omega, ?_⟩
  rw [combineAll, ha]
  simp only [hb]

theorem length_combineAll (k : Nat) (A : List Active) (next : Nat) (hA : A.length = k + 1) :
    (combineAll k A next).length = k := by
  induction k generalizing A next with
  | zero => rfl
  | succ k ih =>
    obtain ⟨a, b, -, -, -, -, hl, h⟩ := combineAll_succ k A next (by omega)
    rw [h, List.length_cons, ih _ _ (by omega)]

theorem length_activeLeaves (l : List Node) : (activeLeaves l).length = l.length := by simp [activeLeaves]

/-- R178 (a): the number of nodes. -/
theorem length_buildNodes (toks : List Word) :
    (buildNodes toks).length = if (alphabet toks).length = 1 then 2 else 2 * (alphabet toks).length - 1 := by
  have h1 := (length_alphabet toks).1
  unfold buildNodes
  simp only [length_leafNodes]
  split
  · simp [*]
  · rw [List.length_append, length_leafNodes, length_combineAll _ _ _ (by rw [length_activeLeaves, length_leafNodes]; omega)]
    omega

/-! ## Weights (R175, R177) -/

theorem sum_ite_eq_le (x : Word) (l : List Word) (h : l.Nodup) : (l.map fun w => if x = w then 1 else 0).sum ≤ 1 := by
  induction l with
  | nil => simp
  | cons y ys ih =>
    obtain ⟨h1, h2⟩ := List.nodup_cons.mp h
    have := ih h2
    simp only [List.map_cons, List.sum_cons]
    by_cases hxy : x = y
    · subst hxy
      have h0 : (ys.map fun w => if x = w then 1 else 0).sum = 0 := by
        rw [List.sum_eq_zero_iff]
        simp only [List.mem_map]
        rintro _ ⟨w, hw, rfl⟩
        rw [if_neg]
        rintro rfl
        exact h1 hw
      simp [h0]
    · simpa [hxy] using this

theorem sum_count_le (toks l : List Word) (h : l.Nodup) : (l.map toks.count).sum ≤ toks.length := by
  induction toks with
  | nil => simp
  | cons x xs ih =>
    have h1 := sum_ite_eq_le x l h
    have h2 : (l.map (x :: xs).count).sum = (l.map xs.count).sum + (l.map fun w => if x = w then 1 else 0).sum := by
      rw [← List.sum_map_add]
      refine congrArg List.sum (List.map_congr_left fun w _ => ?_)
      simp [List.count_cons, beq_iff_eq]
    simp only [List.length_cons]
    omega

/-- "The total weight is `NTOK + 1`" (R175), as a bound. -/
theorem sum_freq_le (toks : List Word) : ((alphabet toks).map (freq toks)).sum ≤ toks.length + 1 := by
  have h1 := sum_count_le toks (alphabet toks) (nodup_alphabet toks)
  have h2 := sum_ite_eq_le stopWord (alphabet toks) (nodup_alphabet toks)
  have h3 : ((alphabet toks).map (freq toks)).sum ≤
      ((alphabet toks).map fun w => toks.count w + if stopWord = w then 1 else 0).sum := by
    refine List.sum_le_sum fun w _ => ?_
    unfold freq
    by_cases hw : w = stopWord
    · simp [hw]
    · simp [hw, Ne.symm hw]
  rw [List.sum_map_add] at h3
  omega

/-! ## Trees in node memory (10_state.md R31) -/

/-- Under index `i` of the node memory `f` stands the tree `t`. -/
def TreeOf (f : Nat → Node) : BitVec 17 → HTree → Prop
  | i, .nil => i = Config.nil
  | i, .leaf k w => i ≠ Config.nil ∧ i.toNat = k ∧ ∃ x, f k = .leaf w x
  | i, .node l r => i ≠ Config.nil ∧ ∃ a b x, f i.toNat = .internal a b x ∧ TreeOf f a l ∧ TreeOf f b r

/-- The indices of the nodes of the tree `t` under index `i`, in pre-order. -/
def nodesOf (f : Nat → Node) : BitVec 17 → HTree → List Nat
  | _, .nil => []
  | _, .leaf k _ => [k]
  | i, .node l r => i.toNat :: (nodesOf f ((f i.toNat).child false) l ++ nodesOf f ((f i.toNat).child true) r)

/-- How deep a tree is, an absent child counted. -/
def HTree.height : HTree → Nat
  | .nil => 1
  | .leaf _ _ => 1
  | .node l r => 1 + max l.height r.height

/-- How many absent children a tree has. -/
def HTree.nils : HTree → Nat
  | .nil => 1
  | .leaf _ _ => 0
  | .node l r => l.nils + r.nils

/-- The indices of the leaves, from left to right. -/
def HTree.leaves : HTree → List Nat
  | .nil => []
  | .leaf k _ => [k]
  | .node l r => l.leaves ++ r.leaves

theorem HTree.height_le_size (t : HTree) : t.height ≤ t.size + 1 := by
  induction t with
  | nil => simp [HTree.height, HTree.size]
  | leaf => simp [HTree.height, HTree.size]
  | node l r ihl ihr => simp only [HTree.height, HTree.size]; omega

theorem HTree.length_leaves (t : HTree) : t.leaves.length = t.leafCount := by
  induction t with
  | nil => rfl
  | leaf => rfl
  | node l r ihl ihr => simp [HTree.leaves, HTree.leafCount, ihl, ihr]

/-- R183, for any tree: one byte for each node and absent child, four more for each leaf. -/
theorem HTree.serLen_eq (t : HTree) : t.serLen = t.size + 4 * t.leafCount + t.nils := by
  induction t with
  | nil => rfl
  | leaf => rfl
  | node l r ihl ihr => simp only [HTree.serLen, HTree.size, HTree.leafCount, HTree.nils]; omega

theorem TreeOf.congr {f g : Nat → Node} {t : HTree} {i : BitVec 17} (h : TreeOf f i t) (hfg : ∀ k, f k = g k) :
    TreeOf g i t := (funext hfg : f = g) ▸ h

theorem TreeOf.unique {f : Nat → Node} {t u : HTree} {i : BitVec 17} (ht : TreeOf f i t) (hu : TreeOf f i u) :
    t = u := by
  induction t generalizing i u with
  | nil => cases u with
    | nil => rfl
    | leaf => exact absurd ht hu.1
    | node => exact absurd ht hu.1
  | leaf k w => obtain ⟨h1, rfl, x, hx⟩ := ht; cases u with
    | nil => exact absurd hu h1
    | leaf => obtain ⟨-, rfl, y, hy⟩ := hu; rw [hx] at hy; cases hy; rfl
    | node => obtain ⟨-, a, b, y, hy, -⟩ := hu; rw [hx] at hy; cases hy
  | node l r ihl ihr => obtain ⟨h1, a, b, x, hx, hl, hr⟩ := ht; cases u with
    | nil => exact absurd hu h1
    | leaf => obtain ⟨-, rfl, y, hy⟩ := hu; rw [hx] at hy; cases hy
    | node => obtain ⟨-, c, d, y, hy, hl', hr'⟩ := hu; rw [hx] at hy; cases hy; rw [ihl hl hl', ihr hr hr']

/-- Everything `treeAt` can answer. -/
theorem treeAt_eq_some (nodes : Mem Node) (k : Nat) (i : BitVec 17) (t : HTree) :
    treeAt nodes k i = some t ↔ TreeOf (Mem.read Node.zero nodes) i t ∧ t.height ≤ k := by
  induction k generalizing i t with
  | zero => cases t <;> simp [treeAt, HTree.height]
  | succ k ih =>
    unfold treeAt
    by_cases hi : i = Config.nil
    · rw [if_pos hi]
      cases t <;> simp [TreeOf, hi, HTree.height]
    · rw [if_neg hi]
      cases hn : Mem.read Node.zero nodes i.toNat with
      | leaf w x =>
        cases t with
        | nil => simp [TreeOf, hi]
        | leaf j v =>
          simp only [Option.some.injEq, HTree.leaf.injEq, TreeOf, HTree.height]
          constructor
          · rintro ⟨rfl, rfl⟩; exact ⟨⟨hi, rfl, x, hn⟩, by omega⟩
          · rintro ⟨⟨-, rfl, y, hy⟩, -⟩; rw [hn] at hy; cases hy; exact ⟨rfl, rfl⟩
        | node l r => simp [TreeOf, hn]
      | internal a b x =>
        have hgo : (match treeAt nodes k a, treeAt nodes k b with
            | some L, some R => some (HTree.node L R)
            | _, _ => none) = some t ↔ ∃ l r, t = .node l r ∧ treeAt nodes k a = some l ∧ treeAt nodes k b = some r := by
          cases treeAt nodes k a <;> cases treeAt nodes k b <;> simp [eq_comm]
        refine hgo.trans ?_
        constructor
        · rintro ⟨l, r, rfl, hl, hr⟩
          obtain ⟨hl1, hl2⟩ := (ih _ _).mp hl
          obtain ⟨hr1, hr2⟩ := (ih _ _).mp hr
          exact ⟨⟨hi, a, b, x, hn, hl1, hr1⟩, by simp only [HTree.height]; omega⟩
        · rintro ⟨ht, hh⟩
          cases t with
          | nil => exact absurd ht hi
          | leaf j v => obtain ⟨-, rfl, y, hy⟩ := ht; rw [hn] at hy; cases hy
          | node l r =>
            obtain ⟨-, c, d, y, hy, hl, hr⟩ := ht
            rw [hn] at hy
            cases hy
            simp only [HTree.height] at hh
            exact ⟨l, r, rfl, (ih _ _).mpr ⟨hl, by omega⟩, (ih _ _).mpr ⟨hr, by omega⟩⟩

theorem nodesUnder_eq {nodes : Mem Node} {k : Nat} {i : BitVec 17} {t : HTree}
    (h : TreeOf (Mem.read Node.zero nodes) i t) (hk : t.height ≤ k) :
    nodesUnder nodes k i = nodesOf (Mem.read Node.zero nodes) i t := by
  induction k generalizing i t with
  | zero => cases t <;> simp [HTree.height] at hk
  | succ k ih =>
    unfold nodesUnder
    cases t with
    | nil => rw [if_pos (show i = Config.nil from h)]; rfl
    | leaf j w => obtain ⟨h1, rfl, x, hx⟩ := h; rw [if_neg h1, hx]; rfl
    | node l r =>
      obtain ⟨h1, a, b, x, hx, hl, hr⟩ := h
      simp only [HTree.height] at hk
      rw [if_neg h1, hx]
      simp only [nodesOf, hx, Node.child]
      rw [ih hl (by omega), ih hr (by omega)]
      rfl

theorem length_nodesOf (f : Nat → Node) (i : BitVec 17) (t : HTree) : (nodesOf f i t).length = t.size := by
  induction t generalizing i with
  | nil => rfl
  | leaf => rfl
  | node l r ihl ihr => simp only [nodesOf, List.length_cons, List.length_append, ihl, ihr, HTree.size]; omega

theorem State.tree_eq_some (s : State) (t : HTree) :
    s.tree = some t ↔ TreeOf s.nodeAt s.root t ∧ t.height ≤ s.nnode.toNat + 1 := treeAt_eq_some ..

theorem State.tree_of_size {s : State} {t : HTree} (h : TreeOf s.nodeAt s.root t) (hs : t.size ≤ s.nnode.toNat) :
    s.tree = some t := (s.tree_eq_some t).mpr ⟨h, by have := t.height_le_size; omega⟩

/-! ## The tree `Build` makes (R177, R178) -/

/-- The active nodes of the construction, each with the tree under it. -/
structure Forest (f : Nat → Node) (next : Nat) (P : List (Active × HTree)) : Prop where
  trees : ∀ x ∈ P, TreeOf f (BitVec.ofNat 17 x.1.2) x.2
  below : ∀ x ∈ P, x.1.2 < next
  weights : ∀ x ∈ P, (f x.1.2).weight.toNat = x.1.1
  full : ∀ x ∈ P, x.2.nils = 0

theorem extract_fst {α β : Type} [BEq α] [LawfulBEq α] (P : List (α × β)) (a : α) (h : a ∈ P.map Prod.fst) :
    ∃ t Q, P.Perm ((a, t) :: Q) ∧ Q.map Prod.fst = (P.map Prod.fst).erase a := by
  induction P with
  | nil => simp at h
  | cons x xs ih =>
    by_cases hx : x.1 = a
    · exact ⟨x.2, xs, by subst hx; exact List.Perm.refl _, by simp [hx]⟩
    · have h' : a ∈ xs.map Prod.fst := by
        rcases List.mem_cons.mp (List.map_cons ▸ h) with h | h
        · exact absurd h.symm hx
        · exact h
      obtain ⟨t, Q, h1, h2⟩ := ih h'
      refine ⟨t, x :: Q, (h1.cons x).trans (List.Perm.swap ..), ?_⟩
      rw [List.map_cons, List.map_cons, h2, List.erase_cons_tail (by simpa using hx)]

theorem perm_move (n : Nat) (X Y Z W : List Nat) : (n :: (X ++ (Y ++ (Z ++ W)))).Perm (X ++ (Y ++ (Z ++ n :: W))) := by
  simpa using (List.perm_middle (a := n) (l₁ := X ++ (Y ++ Z)) (l₂ := W)).symm

theorem combineAll_forest (f : Nat → Node) (k : Nat) : ∀ (next : Nat) (P : List (Active × HTree)),
    P.length = k + 1 → Forest f next P → next + k ≤ Config.nodeMax → (P.map fun x => x.1.1).sum < 2 ^ 32 →
    (∀ j < k, f (next + j) = (combineAll k (P.map Prod.fst) next).getD j Node.zero) →
    ∃ x : Active × HTree, (k = 0 → P = [x]) ∧ (0 < k → x.1.2 = next + k - 1) ∧
      TreeOf f (BitVec.ofNat 17 x.1.2) x.2 ∧ x.2.nils = 0 ∧
      x.2.leaves.Perm (P.flatMap fun y => y.2.leaves) ∧ x.2.size = (P.map fun y => y.2.size).sum + k ∧
      (f x.1.2).weight.toNat = (P.map fun y => y.1.1).sum ∧
      (nodesOf f (BitVec.ofNat 17 x.1.2) x.2).Perm
        (P.flatMap (fun y => nodesOf f (BitVec.ofNat 17 y.1.2) y.2) ++ List.range' next k) := by
  induction k with
  | zero =>
    intro next P hP hF _ _ _
    obtain ⟨x, rfl⟩ := List.length_eq_one_iff.mp hP
    exact ⟨x, fun _ => rfl, fun h => absurd h (by omega), hF.trees x (by simp), hF.full x (by simp), by simp, by simp,
      by simpa using hF.weights x (by simp), by simp⟩
  | succ k ih =>
    intro next P hP hF hnext hsum hf
    obtain ⟨a, b, ha, hb, -, -, -, hc⟩ := combineAll_succ k (P.map Prod.fst) next (by simp only [List.length_map]; omega)
    obtain ⟨ta, Q, hQ, hQa⟩ := extract_fst P a ha
    obtain ⟨tb, R, hR, hRb⟩ := extract_fst Q b (hQa ▸ hb)
    have hperm : P.Perm ((a, ta) :: (b, tb) :: R) := hQ.trans (hR.cons _)
    have hmem : ∀ x ∈ (a, ta) :: (b, tb) :: R, x ∈ P := fun x hx => hperm.mem_iff.mpr hx
    have hsum' : (P.map fun x => x.1.1).sum = a.1 + (b.1 + (R.map fun x => x.1.1).sum) := by
      rw [(hperm.map _).sum_eq]; simp
    rw [hc] at hf
    have hf0 : f next = combined a b := by simpa using hf 0 (by omega)
    unfold Config.nodeMax at hnext
    have hn : (BitVec.ofNat 17 next).toNat = next := by simp only [BitVec.toNat_ofNat]; omega
    have hni : BitVec.ofNat 17 next ≠ Config.nil := by
      intro h
      have := congrArg BitVec.toNat h
      rw [hn] at this
      simp only [Config.nil, BitVec.toNat_ofNat] at this
      omega
    have hFa := hF.trees _ (hmem (a, ta) (by simp))
    have hFb := hF.trees _ (hmem (b, tb) (by simp))
    have hna : ta.nils = 0 := hF.full _ (hmem (a, ta) (by simp))
    have hnb : tb.nils = 0 := hF.full _ (hmem (b, tb) (by simp))
    have hlen : P.length = R.length + 2 := by rw [hperm.length_eq]; rfl
    have hF' : Forest f (next + 1) (((a.1 + b.1, next), .node ta tb) :: R) := by
      constructor <;> intro x hx <;> rcases List.mem_cons.mp hx with rfl | hx
      · exact ⟨hni, _, _, _, by rw [hn]; exact hf0, hFa, hFb⟩
      · exact hF.trees x (hmem x (by simp [hx]))
      · exact Nat.lt_succ_self _
      · exact Nat.lt_succ_of_lt (hF.below x (hmem x (by simp [hx])))
      · rw [hf0]
        simp only [combined, Node.weight, BitVec.toNat_ofNat]
        omega
      · exact hF.weights x (hmem x (by simp [hx]))
      · show ta.nils + tb.nils = 0
        omega
      · exact hF.full x (hmem x (by simp [hx]))
    obtain ⟨x, h0, h1, h2, h3, h4, h5, h6, h7⟩ := ih (next + 1) (((a.1 + b.1, next), .node ta tb) :: R)
      (by simp only [List.length_cons]; omega) hF' (by unfold Config.nodeMax; omega)
      (by simp only [List.map_cons, List.sum_cons]; omega)
      (fun j hj => by
        have := hf (j + 1) (by omega)
        rw [List.getD_cons_succ] at this
        rw [show next + 1 + j = next + (j + 1) by omega, this, List.map_cons, hRb, hQa])
    refine ⟨x, fun h => absurd h (by omega), fun _ => ?_, h2, h3, ?_, ?_, ?_, ?_⟩
    · by_cases hk : k = 0
      · have := h0 hk
        simp only [List.cons.injEq] at this
        rw [← this.1, hk]
        rfl
      · rw [h1 (by omega)]; omega
    · refine h4.trans ?_
      refine List.Perm.trans ?_ (hperm.symm.flatMap_right _)
      simp [HTree.leaves]
    · rw [h5, (hperm.map _).sum_eq]
      simp only [List.map_cons, List.sum_cons, HTree.size]
      omega
    · rw [h6, hsum']
      simp only [List.map_cons, List.sum_cons]
      omega
    · refine h7.trans ?_
      refine List.Perm.trans ?_ ((hperm.symm.flatMap_right _).append_right _)
      simp only [List.flatMap_cons, nodesOf, hn, hf0, combined, Node.child, List.range'_succ, Bool.false_eq_true, if_false,
        if_true, List.cons_append, List.append_assoc]
      exact perm_move ..

/-- The number of symbols of a chunk's alphabet, and with it every count of the tree, fits its register (R176, R178). -/
theorem length_alphabet_tokens (s : State) :
    1 ≤ (alphabet s.tokens).length ∧ (alphabet s.tokens).length ≤ s.ntok.toNat + 1 := by
  have h := length_alphabet s.tokens
  simpa [State.tokens] using h

theorem buildTree_nnode_toNat (s : State) : s.buildTree.nnode.toNat = (buildNodes s.tokens).length := by
  have h1 := length_alphabet_tokens s
  have h2 := s.ntok.isLt
  rw [length_buildNodes]
  simp only [State.buildTree, length_leafNodes, BitVec.toNat_ofNat]
  split <;> omega

theorem buildTree_nleaf_toNat (s : State) : s.buildTree.nleaf.toNat = (alphabet s.tokens).length := by
  have h1 := length_alphabet_tokens s
  have h2 := s.ntok.isLt
  simp only [State.buildTree, length_leafNodes, BitVec.toNat_ofNat]
  omega

theorem buildTree_root_toNat (s : State) : s.buildTree.root.toNat = s.buildTree.nnode.toNat - 1 := by
  have h1 := length_alphabet_tokens s
  have h2 := s.ntok.isLt
  rw [buildTree_nnode_toNat, length_buildNodes]
  simp only [State.buildTree, length_leafNodes, BitVec.toNat_ofNat]
  split <;> omega

theorem length_buildNodes_le (s : State) :
    2 ≤ (buildNodes s.tokens).length ∧ (buildNodes s.tokens).length ≤ Config.nodeMax := by
  have h1 := length_alphabet_tokens s
  have h2 := s.ntok.isLt
  rw [length_buildNodes]
  unfold Config.nodeMax
  split <;> omega

/-- What BUILD leaves in every entry of `nodemem`. -/
theorem buildTree_nodeAt (s : State) (k : Nat) : s.buildTree.nodeAt k =
    if k < (buildNodes s.tokens).length then (buildNodes s.tokens).getD k Node.zero else s.nodeAt k := by
  show Mem.read Node.zero (Mem.writeSeq Node.zero s.nodemem 0 (buildNodes s.tokens)) k = _
  rw [Mem.read_writeSeq]
  simp [State.nodeAt]

/-- The leaves stand first (R178 (b)). -/
theorem buildNodes_leaf (toks : List Word) (k : Nat) (hk : k < (alphabet toks).length) :
    (buildNodes toks).getD k Node.zero =
      .leaf ((alphabet toks).getD k 0) (BitVec.ofNat 32 (freq toks ((alphabet toks).getD k 0))) := by
  have h : ∀ l, (leafNodes toks ++ l).getD k Node.zero =
      .leaf ((alphabet toks).getD k 0) (BitVec.ofNat 32 (freq toks ((alphabet toks).getD k 0))) := fun l => by
    rw [List.getD_eq_getElem?_getD, List.getElem?_append_left (by simpa using hk)]
    simp [leafNodes, hk]
  unfold buildNodes
  simp only
  split <;> exact h _

theorem freq_lt (s : State) (w : Word) (hw : w ∈ alphabet s.tokens) : freq s.tokens w < 2 ^ 32 := by
  have h1 := List.single_le_sum (l := (alphabet s.tokens).map (freq s.tokens)) (by simp) _ (List.mem_map_of_mem hw)
  have h2 := sum_freq_le s.tokens
  have h3 := s.ntok.isLt
  simp only [State.tokens, Mem.length_readSeq] at h2
  simp only [State.tokens] at h1 ⊢
  omega

/-- The trees of single leaves the construction starts from. -/
def leafForest (toks : List Word) : List (Active × HTree) :=
  (List.range (alphabet toks).length).map fun k =>
    ((((leafNodes toks).getD k Node.zero).weight.toNat, k), .leaf k ((alphabet toks).getD k 0))

theorem leafForest_fst (toks : List Word) : (leafForest toks).map Prod.fst = activeLeaves (leafNodes toks) := by
  refine List.ext_getElem (by simp [leafForest, activeLeaves]) fun k h1 h2 => ?_
  have hk : k < (alphabet toks).length := by simpa [leafForest] using h1
  simp [leafForest, activeLeaves, hk]

/-- BUILD makes a tree (R177, R178): it is the one the registers hold, its leaves are the entries below NLEAF, each once,
its nodes all entries below NNODE in number, and only the one-leaf tree has an absent child. -/
theorem buildTree_tree (s : State) : ∃ l r, s.buildTree.tree = some (.node l r) ∧
    TreeOf s.buildTree.nodeAt s.buildTree.root (.node l r) ∧
    (HTree.node l r).leaves.Perm (List.range s.buildTree.nleaf.toNat) ∧
    (nodesOf s.buildTree.nodeAt s.buildTree.root (.node l r)).Perm (List.range s.buildTree.nnode.toNat) ∧
    (HTree.node l r).size = s.buildTree.nnode.toNat ∧
    (HTree.node l r).nils = if s.buildTree.nleaf.toNat = 1 then 1 else 0 := by
  have hn := length_alphabet_tokens s
  have h2 := s.ntok.isLt
  have hN := length_buildNodes s.tokens
  have hroot := buildTree_root_toNat s
  have hnn := buildTree_nnode_toNat s
  have hle := length_buildNodes_le s
  have hrn : s.buildTree.root ≠ Config.nil := by
    intro h
    have := congrArg BitVec.toNat h
    simp only [Config.nil, BitVec.toNat_ofNat] at this
    unfold Config.nodeMax at hle
    omega
  have hleaf : ∀ k < (alphabet s.tokens).length, s.buildTree.nodeAt k =
      .leaf ((alphabet s.tokens).getD k 0) (BitVec.ofNat 32 (freq s.tokens ((alphabet s.tokens).getD k 0))) := by
    intro k hk
    rw [buildTree_nodeAt, if_pos (by rw [hN]; split <;> omega), buildNodes_leaf _ _ hk]
  rw [buildTree_nleaf_toNat, hnn]
  by_cases h1 : (alphabet s.tokens).length = 1
  · rw [if_pos h1] at hN
    have hr : s.buildTree.nodeAt s.buildTree.root.toNat = .internal 0 Config.nil
        (((leafNodes s.tokens).getD 0 Node.zero).weight) := by
      rw [hroot, hnn, hN, buildTree_nodeAt, if_pos (by omega)]
      unfold buildNodes
      simp only [length_leafNodes, h1, if_true]
      rw [List.getD_eq_getElem?_getD, List.getElem?_append_right (by simp [h1])]
      simp [h1]
    have hT : TreeOf s.buildTree.nodeAt s.buildTree.root (.node (.leaf 0 ((alphabet s.tokens).getD 0 0)) .nil) :=
      ⟨hrn, _, _, _, hr, ⟨by decide, rfl, _, hleaf 0 (by omega)⟩, rfl⟩
    exact ⟨_, _, State.tree_of_size hT (by rw [hnn, hN]; simp [HTree.size]), hT, by rw [h1]; exact List.Perm.refl _,
      by rw [hN]; simp only [nodesOf, hroot, hnn, hN]; exact List.Perm.swap ..,
      by rw [hN]; simp [HTree.size], by rw [if_pos h1]; simp [HTree.nils]⟩
  · rw [if_neg h1] at hN
    obtain ⟨x, -, hx1, hT, hnil, hlv, hsz, -, hnd⟩ := combineAll_forest s.buildTree.nodeAt ((alphabet s.tokens).length - 1)
      (alphabet s.tokens).length (leafForest s.tokens) (by simp [leafForest]; omega)
      { trees := by
          intro x hx
          obtain ⟨k, hk, rfl⟩ := List.mem_map.mp hx
          have hk := List.mem_range.mp hk
          have hkn : (BitVec.ofNat 17 k).toNat = k := by simp only [BitVec.toNat_ofNat]; omega
          refine ⟨fun h => ?_, hkn, _, hleaf k hk⟩
          have := congrArg BitVec.toNat h
          rw [hkn] at this
          simp only [Config.nil, BitVec.toNat_ofNat] at this
          omega
        below := by
          intro x hx
          obtain ⟨k, hk, rfl⟩ := List.mem_map.mp hx
          exact List.mem_range.mp hk
        weights := by
          intro x hx
          obtain ⟨k, hk, rfl⟩ := List.mem_map.mp hx
          have hk := List.mem_range.mp hk
          simp only [hleaf k hk]
          simp [leafNodes, hk]
        full := by
          intro x hx
          obtain ⟨k, hk, rfl⟩ := List.mem_map.mp hx
          rfl }
      (by unfold Config.nodeMax; omega)
      (by
        have hs := sum_freq_le s.tokens
        simp only [State.tokens, Mem.length_readSeq] at hs
        have he : (leafForest s.tokens).map (fun x => x.1.1) = (alphabet s.tokens).map (freq s.tokens) := by
          refine List.ext_getElem (by simp [leafForest]) fun k h1 h2 => ?_
          have hk : k < (alphabet s.tokens).length := by simpa [leafForest] using h1
          have := freq_lt s _ (List.getElem_mem hk)
          simp only [leafForest, List.getElem_map, List.getElem_range, leafNodes]
          simp only [List.getD_eq_getElem?_getD, List.getElem?_map, List.getElem?_eq_getElem hk, Option.map_some,
            Option.getD_some, Node.weight, BitVec.toNat_ofNat]
          omega
        rw [he]
        simp only [State.tokens]
        omega)
      (fun j hj => by
        rw [buildTree_nodeAt, if_pos (by omega), leafForest_fst]
        unfold buildNodes
        simp only [length_leafNodes, if_neg h1]
        rw [List.getD_eq_getElem?_getD, List.getElem?_append_right (by simp), List.getD_eq_getElem?_getD]
        simp)
    have hx2 : x.1.2 = s.buildTree.root.toNat := by rw [hx1 (by omega), hroot, hnn, hN]; omega
    rw [hx2, BitVec.ofNat_toNat, BitVec.setWidth_eq] at hT hnd
    have hsz' : x.2.size = 2 * (alphabet s.tokens).length - 1 := by
      rw [hsz]
      have : (leafForest s.tokens).map (fun y => y.2.size) = List.replicate (alphabet s.tokens).length 1 := by
        refine List.ext_getElem (by simp [leafForest]) fun k _ _ => ?_
        simp [leafForest, HTree.size]
      rw [this, List.sum_replicate]
      simp
      omega
    obtain ⟨l, r, hlr⟩ : ∃ l r, x.2 = .node l r := by
      cases hx : x.2 with
      | nil => rw [hx] at hnil; simp [HTree.nils] at hnil
      | leaf => rw [hx] at hsz'; simp only [HTree.size] at hsz'; omega
      | node l r => exact ⟨l, r, rfl⟩
    rw [hlr] at hT hsz' hlv hnil hnd
    refine ⟨l, r, State.tree_of_size hT (by omega), hT, ?_, ?_, by omega, by rw [if_neg h1]; exact hnil⟩
    · refine hlv.trans (List.Perm.of_eq ?_)
      simp only [leafForest, List.flatMap_map, HTree.leaves]
      simp
    · refine hnd.trans (List.Perm.of_eq ?_)
      rw [hN]
      simp only [leafForest, List.flatMap_map, nodesOf]
      rw [show (2 * (alphabet s.tokens).length - 1) = (alphabet s.tokens).length + ((alphabet s.tokens).length - 1) by omega,
        List.range_eq_range' (n := _ + _), ← List.range'_append_1, ← List.range_eq_range']
      simp

end Sys2Proof.Machine
end

