-- ==== Sys2Proof/Laws/Ops.lean ====
section
/-! SUPPORT. What the dispatch of a command can do, said once: `Res`, `runChecked`, `command`, `repeatWhile`, `step`. -/

namespace Sys2Proof.Machine

open Sys2Proof

/-- `P` holds of the state a piece of pseudocode ends in, the one error entry acts on included. -/
def Res.All (P : State → Prop) : Res → Prop
  | .ok s => P s
  | .raised _ _ s => P s
  | .stuck _ => True

/-- The piece of pseudocode does not meet what the spec leaves undefined. -/
def Res.Defined : Res → Prop
  | .ok _ => True
  | .raised _ _ _ => True
  | .stuck _ => False

namespace Res

theorem andThen_all {P : State → Prop} {r : Res} {f : State → Res} (hr : r.All P)
    (hf : ∀ s, P s → (f s).All P) : (r.andThen f).All P := by
  cases r with
  | ok s => exact hf s hr
  | raised k i s => exact hr
  | stuck e => trivial

theorem inComposite_all {P : State → Prop} {r : Res} (w : Word) (hr : r.All P) : (r.inComposite w).All P := by
  cases r with
  | ok s => exact hr
  | raised k i s => cases k <;> exact hr
  | stuck e => trivial

theorem andThen_defined {P : State → Prop} {r : Res} {f : State → Res} (hr : r.All P) (hd : r.Defined)
    (hf : ∀ s, P s → (f s).Defined) : (r.andThen f).Defined := by
  cases r with
  | ok s => exact hf s hr
  | raised k i s => trivial
  | stuck e => exact hd.elim

theorem inComposite_defined {r : Res} (w : Word) (hr : r.Defined) : (r.inComposite w).Defined := by
  cases r with
  | ok s => trivial
  | raised k i s => cases k <;> trivial
  | stuck e => exact hr

theorem andThen_eq_ok {r : Res} {f : State → Res} {t : State} :
    r.andThen f = .ok t ↔ ∃ s, r = .ok s ∧ f s = .ok t := by
  cases r <;> simp [andThen]

theorem inComposite_eq_ok {r : Res} {w : Word} {t : State} : r.inComposite w = .ok t ↔ r = .ok t := by
  cases r with
  | raised k i s => cases k <;> simp [inComposite]
  | ok s => simp [inComposite]
  | stuck e => simp [inComposite]

/-- What an outcome that is a next state can be: the completed state, or error entry. -/
theorem outcome_next {r : Res} {t : State} (h : r.outcome = .next t) :
    r = .ok t ∨ ∃ k i s, r = .raised k i s ∧ t = s.raise k i := by
  cases r with
  | ok s => simp only [outcome, Host.Outcome.next.injEq] at h; exact .inl (h ▸ rfl)
  | raised k i s => simp only [outcome, Host.Outcome.next.injEq] at h; exact .inr ⟨k, i, s, rfl, h.symm⟩
  | stuck e => simp [outcome] at h

theorem outcome_all {P : State → Prop} (hP : ∀ s k i, P s → P (s.raise k i)) {r : Res} {t : State} (hr : r.All P)
    (h : r.outcome = .next t) : P t := by
  rcases outcome_next h with rfl | ⟨k, i, s, rfl, rfl⟩
  · exact hr
  · exact hP s k i hr

theorem outcome_of_defined {r : Res} (hr : r.Defined) : ∃ t, r.outcome = .next t := by
  cases r with
  | ok s => exact ⟨s, rfl⟩
  | raised k i s => exact ⟨_, rfl⟩
  | stuck e => exact hr.elim

end Res

theorem needOut_all {P : State → Prop} {s : State} {k : Nat} {f : State → Res} (hs : P s)
    (hf : s.hasRoom k = true → (f s).All P) : (s.needOut k f).All P := by
  unfold State.needOut
  split
  · exact hf ‹_›
  · exact hs

theorem needOut_defined {s : State} {k : Nat} {f : State → Res} (hf : s.hasRoom k = true → (f s).Defined) :
    (s.needOut k f).Defined := by
  unfold State.needOut
  split
  · exact hf ‹_›
  · trivial

/-- R120 steps 2 to 5: either all three checks pass and the pseudocode runs, or `IllegalCommand` with the word. -/
theorem runChecked_cases (i : Instr) (body : State → Res) (s : State) :
    (i.wellFormed = true ∧ legalIn i s.state = true ∧ precondition i s = true ∧ runChecked i body s = body s) ∨
    ((i.wellFormed = false ∨ legalIn i s.state = false ∨ precondition i s = false) ∧
      runChecked i body s = .raised .illegalCommand (encode i) s) := by
  unfold runChecked
  cases i.wellFormed <;> cases legalIn i s.state <;> cases precondition i s <;> simp

theorem runChecked_eq_ok {i : Instr} {body : State → Res} {s t : State} (h : runChecked i body s = .ok t) :
    legalIn i s.state = true ∧ precondition i s = true ∧ body s = .ok t := by
  rcases runChecked_cases i body s with ⟨-, hl, hp, he⟩ | ⟨-, he⟩
  · exact ⟨hl, hp, he ▸ h⟩
  · simp [he] at h

theorem runChecked_legal {i : Instr} {body : State → Res} {s : State} (hw : i.wellFormed = true)
    (hl : legalIn i s.state = true) (hp : precondition i s = true) : runChecked i body s = body s := by
  simp [runChecked, hw, hl, hp]

theorem runChecked_all {P : State → Prop} {i : Instr} {body : State → Res} {s : State} (hs : P s)
    (hb : legalIn i s.state = true → precondition i s = true → (body s).All P) : (runChecked i body s).All P := by
  rcases runChecked_cases i body s with ⟨-, hl, hp, he⟩ | ⟨-, he⟩
  · exact he ▸ hb hl hp
  · exact he ▸ hs

theorem runChecked_defined {i : Instr} {body : State → Res} {s : State}
    (hb : legalIn i s.state = true → precondition i s = true → (body s).Defined) : (runChecked i body s).Defined := by
  rcases runChecked_cases i body s with ⟨-, hl, hp, he⟩ | ⟨-, he⟩
  · exact he ▸ hb hl hp
  · rw [he]; trivial

theorem repeatWhile_all {P : State → Prop} {cond : State → Bool} {body : State → Res}
    (hb : ∀ s, P s → cond s = true → (body s).All P) (n : Nat) {s : State} (hs : P s) :
    (repeatWhile cond body n s).All P := by
  induction n generalizing s with
  | zero => unfold repeatWhile; split <;> trivial
  | succ n ih =>
    unfold repeatWhile
    split
    · exact Res.andThen_all (hb s hs ‹_›) fun t ht => ih ht
    · exact hs

/-- A loop whose body lowers a measure while the condition holds stays within its bound. -/
theorem repeatWhile_defined {P : State → Prop} {cond : State → Bool} {body : State → Res} (measure : State → Nat)
    (hb : ∀ s, P s → cond s = true → (body s).All P ∧ (body s).Defined)
    (hm : ∀ s t, P s → cond s = true → body s = .ok t → cond t = true → measure t < measure s)
    (n : Nat) {s : State} (hs : P s) (hn : cond s = true → measure s < n) :
    (repeatWhile cond body n s).Defined := by
  induction n generalizing s with
  | zero =>
    unfold repeatWhile
    split
    · exact absurd (hn ‹_›) (Nat.not_lt_zero _)
    · trivial
  | succ n ih =>
    unfold repeatWhile
    split
    · rename_i hc
      obtain ⟨hall, hdef⟩ := hb s hs hc
      cases hr : body s with
      | ok t =>
        rw [hr] at hall
        refine ih hall fun ht => ?_
        have := hm s t hs hc hr ht
        have := hn hc
        omega
      | raised k i t => trivial
      | stuck e => rw [hr] at hdef; exact hdef.elim
    · trivial

/-- A loop that completes ends where its condition fails. -/
theorem repeatWhile_ends {cond : State → Bool} {body : State → Res} {n : Nat} {s t : State}
    (h : repeatWhile cond body n s = .ok t) : cond t = false := by
  induction n generalizing s with
  | zero =>
    unfold repeatWhile at h
    split at h
    · simp at h
    · simp only [Res.ok.injEq] at h
      simpa [← h] using ‹¬cond s = true›
  | succ n ih =>
    unfold repeatWhile at h
    split at h
    · obtain ⟨u, -, hu⟩ := Res.andThen_eq_ok.mp h
      exact ih hu
    · simp only [Res.ok.injEq] at h
      simpa [← h] using ‹¬cond s = true›

/-- What a command that answers a next state did: ignored in `Failed`, ran in `Failed`, or was checked and ran. -/
theorem command_cases (i : Instr) (body : State → Res) (s : State) :
    (s.state = .failed ∧ runsInFailed i = false ∧ command i body s = .next s) ∨
    (s.state = .failed ∧ runsInFailed i = true ∧ command i body s = (body s).outcome) ∨
    (s.state ≠ .failed ∧ command i body s = (runChecked i body s).outcome) := by
  unfold command
  by_cases hf : s.state = .failed <;> cases hr : runsInFailed i <;> simp [hf]

/-- In a state where the command is legal, it is its pseudocode (R120 step 5). -/
theorem command_legal {i : Instr} {body : State → Res} {s : State} (hw : i.wellFormed = true)
    (hf : s.state ≠ .failed) (hl : legalIn i s.state = true) (hp : precondition i s = true) :
    command i body s = (body s).outcome := by
  simp [command, hf, runChecked_legal hw hl hp]

theorem command_all {P : State → Prop} (hP : ∀ s k i, P s → P (s.raise k i)) {i : Instr} {body : State → Res}
    {s t : State} (hs : P s)
    (hb : (legalIn i s.state = true ∧ precondition i s = true) ∨ (s.state = .failed ∧ runsInFailed i = true) →
      (body s).All P)
    (h : command i body s = .next t) : P t := by
  rcases command_cases i body s with ⟨-, -, he⟩ | ⟨hf, hr, he⟩ | ⟨-, he⟩ <;> rw [he] at h
  · simp only [Host.Outcome.next.injEq] at h
    exact h ▸ hs
  · exact Res.outcome_all hP (hb (.inr ⟨hf, hr⟩)) h
  · exact Res.outcome_all hP (runChecked_all hs fun hl hp => hb (.inl ⟨hl, hp⟩)) h

theorem command_defined {i : Instr} {body : State → Res} {s : State}
    (hb : (legalIn i s.state = true ∧ precondition i s = true) ∨ (s.state = .failed ∧ runsInFailed i = true) →
      (body s).Defined) : ∃ t, command i body s = .next t := by
  rcases command_cases i body s with ⟨-, -, he⟩ | ⟨hf, hr, he⟩ | ⟨-, he⟩ <;> rw [he]
  · exact ⟨s, rfl⟩
  · exact Res.outcome_of_defined (hb (.inr ⟨hf, hr⟩))
  · exact Res.outcome_of_defined (runChecked_defined fun hl hp => hb (.inl ⟨hl, hp⟩))

/-- Outside `Failed`, a command whose check fails raises `IllegalCommand` with its word (R120 steps 2 to 4). -/
theorem command_illegal {i : Instr} {body : State → Res} {s : State} (hf : s.state ≠ .failed)
    (h : i.wellFormed = false ∨ legalIn i s.state = false ∨ precondition i s = false) :
    command i body s = .next (s.raise .illegalCommand (encode i)) := by
  rcases runChecked_cases i body s with ⟨hw, hl, hp, -⟩ | ⟨-, he⟩
  · simp [hw, hl, hp] at h
  · simp [command, hf, he, Res.outcome]

/-- What one step does, by what stands first on the port. -/
theorem step_cases (s : State) :
    (s.port = [] ∧ step s = .next s) ∨
    (∃ rest, s.port = .resetInput :: rest ∧ step s = .next ({ s with port := rest } : State).resetRegisters) ∨
    (∃ w rest i, s.port = .command w :: rest ∧ decode w = .ok i ∧ step s = exec i { s with port := rest }) ∨
    (∃ w rest e, s.port = .command w :: rest ∧ decode w = .error e ∧ s.state = .failed ∧
      step s = .next { s with port := rest }) ∨
    (∃ w rest e, s.port = .command w :: rest ∧ decode w = .error e ∧ s.state ≠ .failed ∧
      step s = .next (({ s with port := rest } : State).raise .illegalCommand w)) := by
  unfold step serve
  cases hp : s.port with
  | nil => exact .inl ⟨rfl, rfl⟩
  | cons x rest =>
    refine .inr ?_
    cases x with
    | resetInput => exact .inl ⟨rest, rfl, rfl⟩
    | command w =>
      refine .inr ?_
      cases hd : decode w with
      | ok i => exact .inl ⟨w, rest, i, rfl, hd, by simp [accept, issue, hd]⟩
      | error e =>
        refine .inr ?_
        by_cases hf : s.state = .failed
        · exact .inl ⟨w, rest, e, rfl, hd, hf, by simp [accept, issue, hd, hf]⟩
        · exact .inr ⟨w, rest, e, rfl, hd, hf, by simp [accept, issue, hd, hf]⟩

end Sys2Proof.Machine
end

