-- ==== Sys2Proof/Laws/PerInstr.lean ====
section
/-! SUPPORT. What is said per instruction: the command word of each command as its own rule writes it (**Encoding** in
40_host_config.md R122 to 46_container.md R247). -/

namespace Sys2Proof.Laws.CommandWord

open Sys2Proof

/-- Concatenation as arithmetic: "`a` in the high bits" (00_scope.md R10). -/
theorem toNat_append_arith {m n : Nat} (x : BitVec m) (y : BitVec n) : (x ++ y).toNat = x.toNat * 2 ^ n + y.toNat := by
  rw [BitVec.toNat_append, ← Nat.shiftLeft_add_eq_or_of_lt y.isLt, Nat.shiftLeft_eq]

/-- The number each command's rule gives as its word. -/
def Statement : Instr → Prop
  | .nop => (encode .nop).toNat = 0x00000000
  | .reset => (encode .reset).toNat = 0x01000000
  | .csrw a v => (encode (.csrw a v)).toNat = 0x02000000 + a.toNat * 2 ^ 16 + v.toNat
  | .csrr a => (encode (.csrr a)).toNat = 0x03000000 + a.toNat * 2 ^ 16
  | .push b => (encode (.push b)).toNat = 0x04000000 + b.toNat
  | .iclr => (encode .iclr).toNat = 0x05000000
  | .oclr => (encode .oclr).toNat = 0x06000000
  | .lbclr => (encode .lbclr).toNat = 0x10000000
  | .lbrec b => (encode (.lbrec b)).toNat = 0x11000000 + b.toNat
  | .lbfind => (encode .lbfind).toNat = 0x12000000
  | .cbegin => (encode .cbegin).toNat = 0x20000000
  | .mstep => (encode .mstep).toNat = 0x21000000
  | .build => (encode .build).toNat = 0x30000000
  | .tstore => (encode .tstore).toNat = 0x31000000
  | .tload => (encode .tload).toNat = 0x32000000
  | .wbits n v => (encode (.wbits n v)).toNat = 0x40000000 + n.toNat * 2 ^ 16 + v.toNat
  | .wfin => (encode .wfin).toNat = 0x41000000
  | .rbit => (encode .rbit).toNat = 0x42000000
  | .ralign => (encode .ralign).toNat = 0x43000000
  | .estep => (encode .estep).toNat = 0x50000000
  | .efin => (encode .efin).toNat = 0x51000000
  | .dstep => (encode .dstep).toNat = 0x52000000
  | .encchunk => (encode .encchunk).toNat = 0x58000000
  | .decchunk => (encode .decchunk).toNat = 0x59000000
  | .compress => (encode .compress).toNat = 0x60000000
  | .decompress => (encode .decompress).toNat = 0x61000000

theorem nop : Statement .nop := rfl

theorem reset : Statement .reset := rfl

theorem csrw (a : BitVec 8) (v : BitVec 16) : Statement (.csrw a v) := by
  simp only [Statement, encode, formatC, toNat_append_arith, BitVec.toNat_ofNat]
  omega

theorem csrr (a : BitVec 8) : Statement (.csrr a) := by
  simp only [Statement, encode, formatA, toNat_append_arith, BitVec.toNat_ofNat]
  omega

theorem push (b : Byte) : Statement (.push b) := by
  simp only [Statement, encode, formatB, toNat_append_arith, BitVec.toNat_ofNat]
  omega

theorem iclr : Statement .iclr := rfl

theorem oclr : Statement .oclr := rfl

theorem lbclr : Statement .lbclr := rfl

theorem lbrec (b : Byte) : Statement (.lbrec b) := by
  simp only [Statement, encode, formatB, toNat_append_arith, BitVec.toNat_ofNat]
  omega

theorem lbfind : Statement .lbfind := rfl

theorem cbegin : Statement .cbegin := rfl

theorem mstep : Statement .mstep := rfl

theorem build : Statement .build := rfl

theorem tstore : Statement .tstore := rfl

theorem tload : Statement .tload := rfl

theorem wbits (n : BitVec 5) (v : BitVec 16) : Statement (.wbits n v) := by
  simp only [Statement, encode, formatW, toNat_append_arith, BitVec.toNat_ofNat]
  omega

theorem wfin : Statement .wfin := rfl

theorem rbit : Statement .rbit := rfl

theorem ralign : Statement .ralign := rfl

theorem estep : Statement .estep := rfl

theorem efin : Statement .efin := rfl

theorem dstep : Statement .dstep := rfl

theorem encchunk : Statement .encchunk := rfl

theorem decchunk : Statement .decchunk := rfl

theorem compress : Statement .compress := rfl

theorem decompress : Statement .decompress := rfl

end Sys2Proof.Laws.CommandWord
end

