-- ==== Sys2Proof/Laws/Ring.lean ====
section
/-! SUPPORT. The ring: what `Record` does to `Hist` (41_lookback.md R140, R141), and the match copy (R148). -/

namespace Sys2Proof.Machine

open Sys2Proof

/-- The ranges of R22. -/
structure RingOk (s : State) : Prop where
  wptr_lt : s.wptr.toNat < s.cap.toNat
  fill_le : s.fill.toNat ≤ s.cap.toNat

namespace State

variable {s : State}

theorem record_wptr_toNat (h : RingOk s) (b : Byte) :
    (s.record b).wptr.toNat = (s.wptr.toNat + 1) % s.cap.toNat := by
  have := h.wptr_lt
  have hc := s.cap.isLt
  have : (s.wptr.toNat + 1) % s.cap.toNat < s.cap.toNat := Nat.mod_lt _ (by omega)
  simp only [record_wptr, BitVec.toNat_ofNat]
  exact Nat.mod_eq_of_lt (by omega)

theorem record_fill_toNat (b : Byte) :
    (s.record b).fill.toNat = min (s.fill.toNat + 1) s.cap.toNat := by
  have hc := s.cap.isLt
  simp only [record_fill, BitVec.toNat_ofNat]
  exact Nat.mod_eq_of_lt (by omega)

theorem record_ringOk (h : RingOk s) (b : Byte) : RingOk (s.record b) := by
  refine ⟨?_, ?_⟩
  · rw [record_wptr_toNat h, record_cap]
    exact Nat.mod_lt _ (by have := h.wptr_lt; omega)
  · rw [record_fill_toNat, record_cap]
    omega

theorem recordAll_ringOk (h : RingOk s) (bs : List Byte) : RingOk (s.recordAll bs) := by
  induction bs generalizing s with
  | nil => exact h
  | cons b bs ih => exact ih (record_ringOk h b)

theorem recordAll_append (s : State) (bs cs : List Byte) : s.recordAll (bs ++ cs) = (s.recordAll bs).recordAll cs := by
  induction bs generalizing s with
  | nil => rfl
  | cons b bs ih => exact ih (s.record b)

/-- "`Hist(1)` is the most recent byte" (20_memory.md R61). -/
theorem hist_record_one (h : RingOk s) (b : Byte) : (s.record b).hist 1 = b := by
  have hw := h.wptr_lt
  have key : ((s.record b).wptr.toNat + (s.record b).cap.toNat - 1) % (s.record b).cap.toNat = s.wptr.toNat := by
    rw [record_wptr_toNat h, record_cap]
    by_cases hlast : s.wptr.toNat + 1 = s.cap.toNat
    · rw [hlast, Nat.mod_self, Nat.mod_eq_of_lt (by omega)]
      omega
    · rw [Nat.mod_eq_of_lt (show s.wptr.toNat + 1 < s.cap.toNat by omega),
        show s.wptr.toNat + 1 + s.cap.toNat - 1 = s.wptr.toNat + s.cap.toNat by omega,
        Nat.add_mod_right, Nat.mod_eq_of_lt hw]
  unfold hist
  rw [key]
  simp [ringAt]

/-- Every earlier byte is one record further back (R61, R140). -/
theorem hist_record_succ (h : RingOk s) (b : Byte) {d : Nat} (hd : 1 ≤ d) (hcap : d < s.cap.toNat) :
    (s.record b).hist (d + 1) = s.hist d := by
  have hw := h.wptr_lt
  have key : ((s.record b).wptr.toNat + (s.record b).cap.toNat - (d + 1)) % (s.record b).cap.toNat =
      (s.wptr.toNat + s.cap.toNat - d) % s.cap.toNat := by
    rw [record_wptr_toNat h, record_cap]
    by_cases hlast : s.wptr.toNat + 1 = s.cap.toNat
    · rw [hlast, Nat.mod_self, show 0 + s.cap.toNat - (d + 1) = s.wptr.toNat - d by omega,
        show s.wptr.toNat + s.cap.toNat - d = (s.wptr.toNat - d) + s.cap.toNat by omega, Nat.add_mod_right]
    · rw [Nat.mod_eq_of_lt (show s.wptr.toNat + 1 < s.cap.toNat by omega)]
      congr 1
      omega
  have hne : (s.wptr.toNat + s.cap.toNat - d) % s.cap.toNat ≠ s.wptr.toNat := by
    by_cases hle : d ≤ s.wptr.toNat
    · rw [show s.wptr.toNat + s.cap.toNat - d = (s.wptr.toNat - d) + s.cap.toNat by omega, Nat.add_mod_right,
        Nat.mod_eq_of_lt (by omega)]
      omega
    · rw [Nat.mod_eq_of_lt (by omega)]
      omega
  unfold hist
  rw [key]
  simp [ringAt, Mem.read_write_ne _ _ hne]

/-- `Hist` after recording a list: the list's own bytes, then the earlier ones. -/
theorem hist_recordAll (h : RingOk s) (bs : List Byte) {d : Nat} (hd : 1 ≤ d) (hcap : d ≤ s.cap.toNat) :
    (s.recordAll bs).hist d = if d ≤ bs.length then bs.getD (bs.length - d) 0 else s.hist (d - bs.length) := by
  induction bs generalizing s with
  | nil => simp [recordAll, show ¬ d ≤ 0 by omega]
  | cons b bs ih =>
    rw [recordAll, ih (record_ringOk h b) (by simpa using hcap)]
    simp only [List.length_cons]
    by_cases h1 : d ≤ bs.length
    · rw [if_pos h1, if_pos (by omega), show bs.length + 1 - d = (bs.length - d) + 1 by omega, List.getD_cons_succ]
    · rw [if_neg h1]
      by_cases h2 : d ≤ bs.length + 1
      · rw [if_pos h2, show d - bs.length = 1 by omega, hist_record_one h,
          show bs.length + 1 - d = 0 by omega, List.getD_cons_zero]
      · rw [if_neg h2, show d - bs.length = (d - (bs.length + 1)) + 1 by omega,
          hist_record_succ h b (by omega) (by omega)]

theorem recordAll_fill_toNat (s : State) (bs : List Byte) (h : s.fill.toNat ≤ s.cap.toNat) :
    (s.recordAll bs).fill.toNat = min (s.fill.toNat + bs.length) s.cap.toNat := by
  induction bs generalizing s with
  | nil => simp [recordAll, h]
  | cons b bs ih =>
    rw [recordAll, ih _ (by rw [record_fill_toNat, record_cap]; omega), record_fill_toNat, record_cap, List.length_cons]
    omega

theorem recordAll_ring_wf (bs : List Byte) (h : Memory.wf s.ring = true) : Memory.wf (s.recordAll bs).ring = true := by
  induction bs generalizing s with
  | nil => exact h
  | cons b bs ih => exact ih (Mem.wf_write _ _ h)

theorem recordAll_ring_within (bs : List Byte) (hr : RingOk s) (h : Mem.within Config.ringMax s.ring = true) :
    Mem.within Config.ringMax (s.recordAll bs).ring = true := by
  induction bs generalizing s with
  | nil => exact h
  | cons b bs ih =>
    refine ih (record_ringOk hr b) (Mem.within_write _ h ?_)
    have := hr.wptr_lt
    have := s.cap.isLt
    simp only [Config.ringMax]
    omega

@[simp] theorem length_history (s : State) : s.history.length = s.fill.toNat := by simp [history]

/-- `Hist(d) = History[|History| - d]` (R141). -/
theorem getD_history (s : State) {d : Nat} (hd : 1 ≤ d) (hf : d ≤ s.fill.toNat) :
    s.history.getD (s.history.length - d) 0 = s.hist d := by
  have hlt : s.fill.toNat - d < s.fill.toNat := by omega
  simp [history, List.getD_eq_getElem?_getD, hlt, show s.fill.toNat - (s.fill.toNat - d) = d by omega]

/-- Two lists of one length that agree when counted from the end are equal. -/
theorem eq_of_getD_from_end {xs ys : List Byte} (hl : xs.length = ys.length)
    (h : ∀ d, 1 ≤ d → d ≤ xs.length → xs.getD (xs.length - d) 0 = ys.getD (ys.length - d) 0) : xs = ys := by
  refine List.ext_getElem hl fun i hi hi' => ?_
  have := h (xs.length - i) (by omega) (by omega)
  rw [← hl, show xs.length - (xs.length - i) = i by omega] at this
  simpa [List.getD_eq_getElem?_getD, hi, hi'] using this

/-- "`History <- History ++ [b]`, and if that is longer than `CAP`, drop element 0" (R141), for a list of bytes. -/
theorem history_recordAll (h : RingOk s) (bs : List Byte) :
    (s.recordAll bs).history = (s.history ++ bs).drop (s.fill.toNat + bs.length - s.cap.toNat) := by
  have hfill := recordAll_fill_toNat s bs h.fill_le
  have hfl := h.fill_le
  refine eq_of_getD_from_end (by simp [hfill]; omega) fun d hd hdl => ?_
  rw [length_history, hfill] at hdl
  rw [getD_history _ hd (by rw [hfill]; exact hdl), hist_recordAll h bs hd (by omega)]
  simp only [List.getD_eq_getElem?_getD, List.getElem?_drop, List.length_drop, List.length_append, length_history]
  rw [show s.fill.toNat + bs.length - s.cap.toNat +
      (s.fill.toNat + bs.length - (s.fill.toNat + bs.length - s.cap.toNat) - d) = s.fill.toNat + bs.length - d by omega]
  by_cases hb : d ≤ bs.length
  · rw [if_pos hb, List.getElem?_append_right (by simp; omega), length_history,
      show s.fill.toNat + bs.length - d - s.fill.toNat = bs.length - d by omega]
  · rw [if_neg hb, List.getElem?_append_left (by simp; omega)]
    have := getD_history s (d := d - bs.length) (by omega) (by omega)
    rw [← this, List.getD_eq_getElem?_getD, length_history,
      show s.fill.toNat + bs.length - d = s.fill.toNat - (d - bs.length) by omega]

/-- One byte: `History <- History ++ [b]`, the oldest byte dropped when the ring is full (R141). -/
theorem history_record (h : RingOk s) (b : Byte) :
    (s.record b).history = (s.history ++ [b]).drop (s.fill.toNat + 1 - s.cap.toNat) :=
  history_recordAll h [b]

/-! ### The match copy -/

theorem emit_ringOk (h : RingOk s) (b : Byte) : RingOk (s.emit b) := ⟨(record_ringOk h b).1, (record_ringOk h b).2⟩

/-- The bytes the match copy produces, in order. -/
def copied (o : Nat) : Nat → State → List Byte
  | 0, _ => []
  | n + 1, s => s.hist o :: copied o n (s.record (s.hist o))

@[simp] theorem length_copied (o n : Nat) (s : State) : (copied o n s).length = n := by
  induction n generalizing s with
  | zero => rfl
  | succ n ih => simp [copied, ih]

theorem appendByte_record_comm (s : State) (b c : Byte) : (s.appendByte b).record c = (s.record c).appendByte b := rfl

theorem recordAll_appendByte (s : State) (b : Byte) (bs : List Byte) :
    (s.appendByte b).recordAll bs = (s.recordAll bs).appendByte b := by
  induction bs generalizing s with
  | nil => rfl
  | cons c bs ih => rw [recordAll, appendByte_record_comm, ih]; rfl

theorem copied_appendByte (o n : Nat) (s : State) (b : Byte) : copied o n (s.appendByte b) = copied o n s := by
  induction n generalizing s with
  | zero => rfl
  | succ n ih =>
    simp only [copied]
    rw [appendByte_record_comm, ih]
    rfl

/-- The match copy records the bytes it produces and appends them to the output (45_chunk_codec.md R224). -/
theorem copyMatch_eq (o n : Nat) (s : State) :
    s.copyMatch o n = (s.recordAll (copied o n s)).appendBytes (copied o n s) := by
  induction n generalizing s with
  | zero => rfl
  | succ n ih =>
    rw [copyMatch, ih, copied, emit, copied_appendByte, recordAll_appendByte]
    rfl

/-- If the source bytes of a match are `U[0 .. L)`, the copy produces `U[0 .. L)` (41_lookback.md R148(b)). -/
theorem copied_eq_take (h : RingOk s) {o : Nat} (ho : 1 ≤ o) (hf : o ≤ s.fill.toNat) (U : List Byte) (L : Nat)
    (hL : L ≤ U.length) (hsrc : ∀ i < L, s.src o U i = U.getD i 0) : copied o L s = U.take L := by
  have step : ∀ k i, i + k = L → copied o k (s.recordAll (U.take i)) = (U.drop i).take k := by
    intro k
    induction k with
    | zero => intro i _; simp [copied]
    | succ k ih =>
      intro i hi
      have hcap := h.fill_le
      have hlen : (U.take i).length = i := by simp; omega
      have hb : (s.recordAll (U.take i)).hist o = U.getD i 0 := by
        rw [← hsrc i (by omega), hist_recordAll h _ ho (by omega), hlen]
        unfold src
        by_cases hio : i < o
        · rw [if_neg (by omega), if_pos hio]
        · rw [if_pos (by omega), if_neg hio]
          simp only [List.getD_eq_getElem?_getD]
          rw [List.getElem?_take_of_lt (by omega)]
      have hlt : i < U.length := by omega
      have hget : U.getD i 0 = U[i] := by simp [List.getD_eq_getElem?_getD, hlt]
      rw [copied, hb, show (s.recordAll (U.take i)).record (U.getD i 0) = s.recordAll (U.take (i + 1)) by
        rw [List.take_succ_eq_append_getElem hlt, recordAll_append, hget]; rfl, ih (i + 1) (by omega), hget,
        List.drop_eq_getElem_cons hlt, List.take_succ_cons]
  simpa [recordAll] using step L 0 (by omega)

end State

end Sys2Proof.Machine
end

