-- ==== Sys2Proof/Laws/Search.lean ====
section
/-! SUPPORT. The longest-match search: what `MatchLen` and `FindLongest` return (41_lookback.md R142, R143). -/

namespace Sys2Proof.Machine

open Sys2Proof

theorem runLength_ge (same : Nat → Bool) (k i : Nat) : i ≤ runLength same k i := by
  induction k generalizing i with
  | zero => exact le_refl i
  | succ k ih =>
    unfold runLength
    split
    · exact le_trans (Nat.le_succ i) (ih _)
    · exact le_refl i

theorem runLength_le (same : Nat → Bool) (k i : Nat) : runLength same k i ≤ i + k := by
  induction k generalizing i with
  | zero => exact le_refl i
  | succ k ih =>
    unfold runLength
    split
    · exact le_trans (ih _) (by omega)
    · omega

theorem same_of_lt_runLength (same : Nat → Bool) (k i : Nat) {j : Nat} (hi : i ≤ j) (hj : j < runLength same k i) :
    same j = true := by
  induction k generalizing i with
  | zero => unfold runLength at hj; omega
  | succ k ih =>
    unfold runLength at hj
    split at hj
    · rename_i hs
      rcases Nat.eq_or_lt_of_le hi with rfl | hlt
      · exact hs
      · exact ih _ hlt hj
    · omega

theorem not_same_runLength (same : Nat → Bool) (k i : Nat) (h : runLength same k i < i + k) :
    same (runLength same k i) = false := by
  induction k generalizing i with
  | zero => unfold runLength at h; omega
  | succ k ih =>
    unfold runLength at h ⊢
    split at h
    · rename_i hs
      rw [if_pos hs]
      exact ih _ (by omega)
    · rename_i hs
      simp [hs]

namespace State

variable (s : State)

theorem matchLen_le_lmax (o : Nat) (U : List Byte) : s.matchLen o U ≤ s.lmax o U.length := by
  simpa [matchLen] using runLength_le (fun i => decide (s.src o U i = U.getD i 0)) (s.lmax o U.length) 0

theorem lmax_le (o n : Nat) : s.lmax o n ≤ n := by unfold lmax; split <;> omega

theorem matchLen_le (o : Nat) (U : List Byte) : s.matchLen o U ≤ U.length :=
  le_trans (s.matchLen_le_lmax o U) (s.lmax_le o U.length)

/-- Within the match length, the source bytes are the upcoming bytes (R142). -/
theorem src_of_lt_matchLen {o : Nat} {U : List Byte} {i : Nat} (h : i < s.matchLen o U) :
    s.src o U i = U.getD i 0 := by
  simpa using same_of_lt_runLength _ _ _ (Nat.zero_le i) h

/-- The match length is the largest: it is the limit, or the next byte differs (R142). -/
theorem src_at_matchLen {o : Nat} {U : List Byte} (h : s.matchLen o U < s.lmax o U.length) :
    s.src o U (s.matchLen o U) ≠ U.getD (s.matchLen o U) 0 := by
  simpa [matchLen] using not_same_runLength (fun i => decide (s.src o U i = U.getD i 0)) (s.lmax o U.length) 0
    (by simpa [matchLen] using h)

/-- With `OVL = 0` no match is longer than its offset (R148(a)). -/
theorem matchLen_le_offset (hovl : s.ovl = false) (o : Nat) (U : List Byte) : s.matchLen o U ≤ o :=
  le_trans (s.matchLen_le_lmax o U) (by simp [lmax, hovl])

/-- The loop's invariant: the longest so far at the smallest offset, or nothing longer than 0 (R143). -/
theorem bestMatch_spec (U : List Byte) (k : Nat) :
    (∀ o, 1 ≤ o → o ≤ k → s.matchLen o U ≤ (s.bestMatch U k).2) ∧
    ((s.bestMatch U k) = (0, 0) ∨
      (1 ≤ (s.bestMatch U k).1 ∧ (s.bestMatch U k).1 ≤ k ∧ (s.bestMatch U k).2 = s.matchLen (s.bestMatch U k).1 U ∧
        0 < (s.bestMatch U k).2 ∧
        ∀ o, 1 ≤ o → o < (s.bestMatch U k).1 → s.matchLen o U < (s.bestMatch U k).2)) := by
  induction k with
  | zero => exact ⟨fun o h1 h2 => by omega, .inl rfl⟩
  | succ k ih =>
    obtain ⟨hmax, hbest⟩ := ih
    simp only [bestMatch, longer]
    split
    · rename_i hlt
      refine ⟨fun o h1 h2 => ?_, .inr ⟨by omega, le_refl _, rfl, by omega, fun o h1 h2 => ?_⟩⟩
      · rcases Nat.eq_or_lt_of_le h2 with rfl | h3
        · exact le_refl _
        · exact le_trans (hmax o h1 (by omega)) hlt.le
      · exact lt_of_le_of_lt (hmax o h1 (by omega)) hlt
    · rename_i hle
      refine ⟨fun o h1 h2 => ?_, hbest.imp_right fun ⟨h1, h2, h3⟩ => ⟨h1, by omega, h3⟩⟩
      rcases Nat.eq_or_lt_of_le h2 with rfl | h3
      · exact not_lt.mp hle
      · exact hmax o h1 (by omega)

/-- `FindLongest(U)`: the longest match, at its smallest offset, or `(0, 0)` when none reaches MINLEN (R143). -/
theorem findLongest_spec (U : List Byte) (hmin : 1 ≤ s.minlen.toNat) :
    (s.findLongest U = (0, 0) ∧ ∀ o, 1 ≤ o → o ≤ s.fill.toNat → s.matchLen o U < s.minlen.toNat) ∨
    (1 ≤ (s.findLongest U).1 ∧ (s.findLongest U).1 ≤ s.fill.toNat ∧
      (s.findLongest U).2 = s.matchLen (s.findLongest U).1 U ∧ s.minlen.toNat ≤ (s.findLongest U).2 ∧
      (∀ o, 1 ≤ o → o ≤ s.fill.toNat → s.matchLen o U ≤ (s.findLongest U).2) ∧
      ∀ o, 1 ≤ o → o < (s.findLongest U).1 → s.matchLen o U < (s.findLongest U).2) := by
  obtain ⟨hmax, hbest⟩ := s.bestMatch_spec U s.fill.toNat
  unfold findLongest acceptMatch
  split
  · rename_i hle
    rcases hbest with h0 | ⟨h1, h2, h3, -, h5⟩
    · rw [h0] at hle
      simp only at hle
      omega
    · exact .inr ⟨h1, h2, h3, hle, hmax, h5⟩
  · rename_i hlt
    exact .inl ⟨rfl, fun o h1 h2 => lt_of_le_of_lt (hmax o h1 h2) (not_le.mp hlt)⟩

/-- A search result is bounded by the ring and the window (R143). -/
theorem findLongest_bounds (U : List Byte) :
    (s.findLongest U).1 ≤ s.fill.toNat ∧ (s.findLongest U).2 ≤ U.length ∧
      ((s.findLongest U).2 ≠ 0 → 1 ≤ (s.findLongest U).1 ∧ (s.findLongest U).2 = s.matchLen (s.findLongest U).1 U) := by
  obtain ⟨-, hbest⟩ := s.bestMatch_spec U s.fill.toNat
  unfold findLongest acceptMatch
  split
  · rcases hbest with h0 | ⟨h1, h2, h3, -, -⟩
    · rw [h0]; simp
    · exact ⟨h2, h3 ▸ s.matchLen_le _ U, fun _ => ⟨h1, h3⟩⟩
  · simp

/-- Replaying a found match appends exactly the upcoming bytes it covers (R148(b)). -/
theorem copied_findLongest {s : State} (h : RingOk s) (U : List Byte) (hne : (s.findLongest U).2 ≠ 0) :
    copied (s.findLongest U).1 (s.findLongest U).2 s = U.take (s.findLongest U).2 := by
  obtain ⟨hf, hl, hr⟩ := s.findLongest_bounds U
  obtain ⟨h1, heq⟩ := hr hne
  exact copied_eq_take h h1 hf U _ hl fun i hi => s.src_of_lt_matchLen (heq ▸ hi)

end State

end Sys2Proof.Machine
end

