-- ==== Sys2Proof/Laws/Registers.lean ====
section
/-! SUPPORT. Each command's pseudocode keeps the register invariant of 10_state.md R48. -/

namespace Sys2Proof.Machine

open Sys2Proof

namespace RegisterInv

variable {s : State}

theorem ringOk (h : RegisterInv s) : RingOk s := ⟨h.wptr_lt, h.fill_le⟩

theorem ilen_lt (h : RegisterInv s) : s.ilen.toNat < 2 ^ 29 := by
  have h1 := h.ilen_le
  have h2 := h.params_legal.2.1
  simp only [Config.inMaxLimit] at h2
  omega

theorem outMax_lt (h : RegisterInv s) : s.params.outMax < 2 ^ 32 := by
  have h2 := h.params_legal.2.2.2
  simp only [Config.outMaxLimit] at h2
  omega

theorem err_eq_none (h : RegisterInv s) (hf : s.state ≠ .failed) : s.err = none := by
  simpa [hf] using h.failed_iff

/-- Error entry keeps it (60_exceptions.md R268). -/
theorem raise (h : RegisterInv s) (k : ErrorKind) (info : Word) : RegisterInv (s.raise k info) := by
  have h1 := h.omark_le
  have h2 := h.olen_le
  exact { h with
    omark_le := by simp only [State.raise_omark, State.raise_olen]; split <;> omega
    olen_le := by simp only [State.raise_olen, State.raise_params]; split <;> omega
    encode_cmvalid := by simp
    decode_tvalid := by simp
    failed_iff := by simp
    collecting_range := by simp
    collecting_tokens := by simp
    collecting_no_tree := by simp
    open_aligned := by simp }

/-- Reset establishes it from any legal parameters (10_state.md R49). -/
theorem resetRegisters (h : s.params.legal) : RegisterInv s.resetRegisters := by
  constructor <;> first | exact h | simp [State.reset]

theorem reset : RegisterInv State.reset := by
  constructor <;> simp [State.reset, Config.Params.legal, Config.inMaxLimit, Config.outMaxLimit]

/-- Clearing the ring keeps it (R145). -/
theorem clearRing (h : RegisterInv s) : RegisterInv s.clearRing :=
  { h with
    wptr_lt := by have := h.cap_pos; simp; omega
    fill_le := by simp
    not_wrapped := by simp }

/-- Recording bytes keeps it (R140). -/
theorem record (h : RegisterInv s) (b : Byte) : RegisterInv (s.record b) :=
  { h with
    wptr_lt := (State.record_ringOk h.ringOk b).wptr_lt
    fill_le := (State.record_ringOk h.ringOk b).fill_le
    not_wrapped := by
      intro hlt
      rw [State.record_fill_toNat, State.record_cap] at hlt
      have hw := h.not_wrapped (by omega)
      have hc := s.cap.isLt
      apply BitVec.eq_of_toNat_eq
      rw [State.record_wptr_toNat h.ringOk, State.record_fill_toNat, hw, Nat.mod_eq_of_lt (by omega)]
      omega }

theorem recordAll (h : RegisterInv s) (bs : List Byte) : RegisterInv (s.recordAll bs) := by
  induction bs generalizing s with
  | nil => exact h
  | cons b bs ih => exact ih (h.record b)

theorem clearOut (h : RegisterInv s) : RegisterInv s.clearOut :=
  { h with
    omark_le := by simp
    olen_le := by simp
    acc_low := by simp
    open_aligned := by simp }

/-- Appending whole bytes keeps it where they fit (44_bitstream.md R210). -/
theorem appendBytes (h : RegisterInv s) (bs : List Byte) (hroom : s.olen.toNat + bs.length ≤ s.params.outMax) :
    RegisterInv (s.appendBytes bs) := by
  have ho := State.appendBytes_olen s bs (by have := h.outMax_lt; omega)
  have h1 := h.omark_le
  rw [State.appendBytes_frame] at ho ⊢
  exact { h with
    omark_le := by simp only at ho ⊢; omega
    olen_le := by simp only at ho ⊢; omega }

/-- Writing bits keeps it where they fit, in a state that allows pending bits. -/
theorem putBits (h : RegisterInv s) (c : Bits)
    (hroom : s.olen.toNat + (s.nacc.toNat + c.length) / 8 ≤ s.params.outMax)
    (hopen : s.state ≠ .collecting ∧ s.state ≠ .treeReady ∧ s.state ≠ .headerParsed ∧ s.state ≠ .decoding) :
    RegisterInv (s.putBits c) := by
  have ho := (State.putBits_counts s c (by have := h.outMax_lt; omega)).2
  have ha := State.putBits_accLow h.acc_low c
  have h1 := h.omark_le
  rw [State.putBits_frame] at ho ha ⊢
  exact { h with
    omark_le := by simp only at ho ⊢; omega
    olen_le := by simp only at ho ⊢; omega
    acc_low := ha
    open_aligned := by simp [hopen] }

end RegisterInv

theorem noChunk_cases {st : CodecState} (h : st.noChunk = true) : st = .idle ∨ st = .done := by
  cases st <;> simp_all [CodecState.noChunk]

theorem csrWritable_cases {a : BitVec 8} {v : BitVec 16} (h : csrWritable a v = true) : legalCsrWrite a v := by
  unfold csrWritable at h
  have hc : a.toNat = 0 ∨ a.toNat = 1 ∨ a.toNat = 2 ∨ a.toNat = 3 ∨ a.toNat = 4 := by
    by_contra hn
    push Not at hn
    split at h <;> simp_all
  rcases hc with hc | hc | hc | hc | hc <;> rw [hc] at h <;> simp only [decide_eq_true_eq, Bool.and_eq_true] at h
  · exact .inl ⟨BitVec.eq_of_toNat_eq hc, h⟩
  · exact .inr (.inl ⟨BitVec.eq_of_toNat_eq hc, h⟩)
  · exact .inr (.inr (.inl ⟨BitVec.eq_of_toNat_eq hc, h⟩))
  · exact .inr (.inr (.inr (.inl ⟨BitVec.eq_of_toNat_eq hc, h⟩)))
  · exact .inr (.inr (.inr (.inr ⟨BitVec.eq_of_toNat_eq hc, h⟩)))

theorem csrwBody_registers {s : State} (a : BitVec 8) (v : BitVec 16) (h : RegisterInv s)
    (hp : precondition (.csrw a v) s = true) : (csrwBody a v s).All RegisterInv := by
  have hv := v.isLt
  rcases csrWritable_cases hp with ⟨rfl, h1⟩ | ⟨rfl, h1, h2⟩ | ⟨rfl, h1, h2⟩ | ⟨rfl, h1⟩ | ⟨rfl, h1⟩
  · exact { h with
      cap_pos := h1
      wptr_lt := by simp; omega
      fill_le := by simp
      not_wrapped := by simp }
  · exact { h with win_pos := by simp; omega }
  · exact { h with minlen_ge := by simp; omega }
  · exact { h with chunk_pos := h1 }
  · exact { h with }

theorem csrrBody_registers {s : State} (a : BitVec 8) (h : RegisterInv s) : (csrrBody a s).All RegisterInv := by
  unfold csrrBody
  split
  · exact { h with }
  · exact h

theorem pushBody_registers {s : State} (b : Byte) (h : RegisterInv s) (hl : legalIn (.push b) s.state = true) :
    (pushBody b s).All RegisterInv := by
  unfold pushBody
  split
  · rename_i hlt
    have hi := h.ilen_lt
    have hpos := h.ipos_le
    have hn : (BitVec.ofNat 32 (s.ilen.toNat + 1)).toNat = s.ilen.toNat + 1 := by
      simp only [BitVec.toNat_ofNat]
      exact Nat.mod_eq_of_lt (by omega)
    exact { h with
      ipos_le := by rw [hn]; exact Nat.le_succ_of_le hpos
      ilen_le := by rw [hn]; exact hlt
      ibit_end := by
        intro he
        have := congrArg BitVec.toNat he
        rw [hn] at this
        simp only at this
        omega
      collecting_range := by
        intro hc
        simp only [legalIn] at hl
        rcases noChunk_cases hl with h1 | h1 <;> simp_all }
  · exact h

theorem iclrBody_registers {s : State} (h : RegisterInv s) (hl : legalIn .iclr s.state = true) :
    (iclrBody s).All RegisterInv :=
  { h with
    ipos_le := by simp
    ilen_le := by simp
    ibit_end := by simp
    collecting_range := by
      intro hc
      simp only [legalIn] at hl
      rcases noChunk_cases hl with h1 | h1 <;> simp_all
    collecting_tokens := by
      intro hc
      simp only [legalIn] at hl
      rcases noChunk_cases hl with h1 | h1 <;> simp_all }

theorem setSearch_registers {s : State} (r : Nat × Nat) (h : RegisterInv s) : RegisterInv (s.setSearch r) :=
  { h with }

theorem cbeginBody_registers {s : State} (h : RegisterInv s) (hf : s.state ≠ .failed)
    (hp : precondition .cbegin s = true) :
    (cbeginBody s).All RegisterInv := by
  simp only [precondition, Bool.and_eq_true, decide_eq_true_eq] at hp
  have hi := h.ilen_lt
  have hpos := h.ipos_le
  have hch := s.chunk.isLt
  have hn : (BitVec.ofNat 32 (min s.ilen.toNat (s.ipos.toNat + s.chunk.toNat))).toNat =
      min s.ilen.toNat (s.ipos.toNat + s.chunk.toNat) := by
    simp only [BitVec.toNat_ofNat]
    exact Nat.mod_eq_of_lt (by omega)
  exact { h with
    eidx_le := by simp
    cmvalid_tvalid := by simp
    encode_cmvalid := by simp
    decode_tvalid := by simp
    failed_iff := by simp [h.err_eq_none hf]
    collecting_range := by
      intro _
      refine ⟨Nat.le_refl _, ?_, ?_, hp.1⟩ <;> simp only [State.openChunk_cend, State.openChunk_ipos, State.openChunk_ilen, hn] <;> omega
    collecting_tokens := by
      intro _
      simp only [State.openChunk_cend, State.openChunk_cstart, hn, Config.tokMax]
      exact ⟨by omega, by simp⟩
    collecting_no_tree := by simp
    open_aligned := fun _ => hp.2 }

theorem length_upcoming (s : State) : s.upcoming.length = min s.win.toNat (s.cend.toNat - s.ipos.toNat) := by
  simp [State.upcoming, State.ibufSlice]

/-- Moving the cursor and recording the bytes in the other order (R162). -/
theorem consume_eq_recordAll (s : State) (n : Nat) :
    s.consume n = ({ s with ipos := BitVec.ofNat 32 (s.ipos.toNat + n) } : State).recordAll
      (s.ibufSlice s.ipos.toNat n) := by
  have key : ∀ (bs : List Byte) (v : BitVec 32) (u : State),
      ({ u with ipos := v } : State).recordAll bs = { u.recordAll bs with ipos := v } := by
    intro bs v
    induction bs with
    | nil => intro u; rfl
    | cons b bs ih => intro u; exact ih (u.record b)
  exact (key _ _ s).symm

/-- What one matcher step does to the counts, with a search result that stays in the chunk (R162). -/
theorem mstepWith_registers {s : State} (r : Nat × Nat) (h : RegisterInv s) (hs : s.state = .collecting)
    (hlt : s.ipos.toNat < s.cend.toNat) (hr : s.ipos.toNat + r.2 ≤ s.cend.toNat) : RegisterInv (mstepWith s r) := by
  have hi := h.ilen_lt
  obtain ⟨h1, h2, h3, h4⟩ := h.collecting_range hs
  obtain ⟨h5, h6⟩ := h.collecting_tokens hs
  simp only [Config.tokMax] at h5
  have he := h.eidx_le
  have key : ∀ n w, 1 ≤ n → s.ipos.toNat + n ≤ s.cend.toNat → RegisterInv (((s.setSearch r).pushToken w).consume n) := by
    intro n w hn hle
    rw [consume_eq_recordAll]
    refine RegisterInv.recordAll ?_ _
    exact { h with
      ipos_le := by simp; omega
      ibit_end := fun _ => h4
      eidx_le := by simp; omega
      collecting_range := by simp [h4]; omega
      collecting_tokens := by simp [Config.tokMax]; omega }
  unfold mstepWith
  split
  · exact key r.2 _ (by omega) hr
  · exact key 1 _ (by omega) (by omega)

theorem mstepBody_registers {s : State} (h : RegisterInv s) (hs : s.state = .collecting)
    (hlt : s.ipos.toNat < s.cend.toNat) : (mstepBody s).All RegisterInv := by
  refine mstepWith_registers _ h hs hlt ?_
  have := (s.findLongest_bounds s.upcoming).2
  rw [length_upcoming] at this
  omega

theorem buildTree_registers {s : State} (h : RegisterInv s) : RegisterInv s.buildTree := { h with }

theorem buildBody_registers {s : State} (h : RegisterInv s) (hs : s.state = .collecting) :
    (buildBody s).All RegisterInv := by
  unfold buildBody
  split
  · trivial
  · exact { h with
      eidx_le := by simp
      cmvalid_tvalid := by simp
      encode_cmvalid := by simp
      decode_tvalid := by simp
      failed_iff := by simp [h.err_eq_none (by simp [hs])]
      collecting_range := by simp
      collecting_tokens := by simp
      collecting_no_tree := by simp
      open_aligned := fun _ => h.open_aligned (.inl hs) }

theorem HTree.length_ser (t : HTree) : t.ser.length = t.serLen := by
  induction t with
  | nil => rfl
  | leaf i w => rfl
  | node l r ihl ihr => simp [ser, serLen, ihl, ihr]; omega

theorem tstoreBody_registers {s : State} (h : RegisterInv s) : (tstoreBody s).All RegisterInv := by
  unfold tstoreBody
  split
  · trivial
  · rename_i t _
    refine needOut_all h fun hroom => h.appendBytes _ ?_
    rw [HTree.length_ser]
    simpa [State.hasRoom] using hroom

/-- What a parse that succeeds returns (R185): where it ends, how many nodes, which index. -/
theorem parseNode_ok {at_ : Nat → Byte} {ilen : Nat} (k : Nat) {top : Bool} {pos cnt : Nat} {r : Parsed}
    (h : parseNode at_ ilen k top pos cnt = .ok r) :
    pos < r.pos ∧ r.pos ≤ ilen ∧ (cnt ≤ Config.nodeMax → cnt + r.nodes.length ≤ Config.nodeMax) ∧
      ((r.nodes = [] ∧ r.index = Config.nil) ∨ (r.nodes ≠ [] ∧ r.index = BitVec.ofNat 17 cnt)) := by
  induction k generalizing top pos cnt r with
  | zero => simp [parseNode] at h
  | succ k ih =>
    unfold parseNode at h
    split at h
    · simp at h
    split at h
    · simp at h
    split at h
    · split at h
      · simp at h
      split at h
      · simp at h
      rename_i l hl
      split at h
      · simp at h
      rename_i r' hr
      simp only [Except.ok.injEq] at h
      obtain ⟨l1, l2, l3, -⟩ := ih hl
      obtain ⟨r1, r2, r3, -⟩ := ih hr
      subst h
      refine ⟨by simp only; omega, r2, fun _ => ?_, .inr ⟨by simp, rfl⟩⟩
      have := r3 (by have := l3 (by omega); omega)
      simp only [List.length_cons, List.length_append]
      omega
    split at h
    · split at h
      · simp at h
      split at h
      · simp at h
      split at h
      · simp at h
      simp only [Except.ok.injEq] at h
      subst h
      refine ⟨by simp only; omega, by simp only; omega, fun _ => ?_, .inr ⟨by simp, rfl⟩⟩
      simp only [List.length_cons, List.length_nil]
      omega
    split at h
    · simp only [Except.ok.injEq] at h
      subst h
      exact ⟨by simp only; omega, by simp only; omega, fun h => by simpa using h, .inl ⟨rfl, rfl⟩⟩
    · simp at h

theorem tloadBody_registers {s : State} (h : RegisterInv s) (hl : legalIn .tload s.state = true)
    (hp : precondition .tload s = true) : (tloadBody s).All RegisterInv := by
  simp only [precondition, Bool.and_eq_true, decide_eq_true_eq] at hp
  simp only [legalIn] at hl
  have hi := h.ilen_lt
  have hf : s.state ≠ .failed := by rcases noChunk_cases hl with h1 | h1 <;> simp [h1]
  unfold tloadBody
  split
  · exact { h with
      cmvalid_tvalid := by simp
      encode_cmvalid := by rcases noChunk_cases hl with h1 | h1 <;> simp [h1]
      decode_tvalid := by rcases noChunk_cases hl with h1 | h1 <;> simp [h1]
      collecting_no_tree := by simp }
  · rename_i t ht
    obtain ⟨t1, t2, -, -⟩ := parseNode_ok _ ht
    have hn : (t.pos) % 2 ^ 32 = t.pos := Nat.mod_eq_of_lt (by omega)
    exact { h with
      ipos_le := by simp; omega
      ibit_end := fun _ => hp.1
      omark_le := by simp
      cmvalid_tvalid := by simp
      encode_cmvalid := by simp
      decode_tvalid := by simp
      failed_iff := by simp [h.err_eq_none hf]
      collecting_range := by simp
      collecting_tokens := by simp
      collecting_no_tree := by simp
      open_aligned := fun _ => hp.2 }

theorem length_operandBits (n : BitVec 5) (v : BitVec 16) : (operandBits n v).length = n.toNat := by simp [operandBits]

theorem noChunk_no_obligation {st : CodecState} (h : st.noChunk = true) :
    st ≠ .collecting ∧ st ≠ .treeReady ∧ st ≠ .headerParsed ∧ st ≠ .decoding := by
  rcases noChunk_cases h with h1 | h1 <;> simp [h1]

theorem wbitsBody_registers {s : State} (n : BitVec 5) (v : BitVec 16) (h : RegisterInv s)
    (hl : legalIn (.wbits n v) s.state = true) : (wbitsBody n v s).All RegisterInv := by
  refine needOut_all h fun hroom => h.putBits _ ?_ (noChunk_no_obligation hl)
  rw [length_operandBits]
  simpa [State.hasRoom] using hroom

theorem withCode_all {P : State → Prop} {s : State} {w : Word} {f : Bits → Res}
    (hf : ∀ c, s.codeOf w = some c → (f c).All P) : (s.withCode w f).All P := by
  unfold State.withCode
  split
  · exact hf _ ‹_›
  · trivial

theorem withCode_defined {s : State} {w : Word} {f : Bits → Res} (hc : ∃ c, s.codeOf w = some c)
    (hf : ∀ c, s.codeOf w = some c → (f c).Defined) : (s.withCode w f).Defined := by
  obtain ⟨c, hc⟩ := hc
  unfold State.withCode
  rw [hc]
  exact hf c hc

theorem RegisterInv.finish {s : State} (h : RegisterInv s) (c : Bits)
    (hroom : s.olen.toNat + (s.nacc.toNat + 7) / 8 ≤ s.params.outMax)
    (hopen : s.state ≠ .collecting ∧ s.state ≠ .treeReady ∧ s.state ≠ .headerParsed ∧ s.state ≠ .decoding) :
    RegisterInv (s.finish c) := by
  unfold State.finish
  split
  · refine h.putBits _ ?_ hopen
    have := s.nacc_lt
    rw [State.length_padding]
    omega
  · exact h

theorem wfinBody_registers {s : State} (h : RegisterInv s) (hl : legalIn .wfin s.state = true) :
    (wfinBody s).All RegisterInv := by
  have hn := s.nacc_lt
  unfold wfinBody
  split
  · refine needOut_all h fun hroom => withCode_all fun c _ => ?_
    refine h.finish c ?_ (noChunk_no_obligation hl)
    have : s.olen.toNat + 1 ≤ s.params.outMax := by simpa [State.hasRoom] using hroom
    omega
  · exact h

/-- Reading a bit keeps it (R203). -/
theorem RegisterInv.skipBit {s : State} (h : RegisterInv s) (ha : s.avail = true) (hs : s.state ≠ .collecting) :
    RegisterInv s.skipBit := by
  have hi := h.ilen_lt
  have hlt : s.ipos.toNat < s.ilen.toNat := by simpa [State.avail] using ha
  have hb := s.ibit.isLt
  unfold State.skipBit
  split
  · exact { h with
      ipos_le := by simp; omega
      ibit_end := by simp
      collecting_range := by simp [hs]
      collecting_tokens := by simp [hs] }
  · exact { h with
      ibit_end := by
        intro he
        simp only at he
        rw [he] at hlt
        omega
      collecting_range := by simp [hs] }

theorem rbitBody_registers {s : State} (h : RegisterInv s) (hl : legalIn .rbit s.state = true) :
    (rbitBody s).All RegisterInv := by
  unfold rbitBody
  split
  · exact { h.skipBit ‹_› (noChunk_no_obligation hl).1 with }
  · exact { h with }

theorem RegisterInv.align {s : State} (h : RegisterInv s) (hs : s.state ≠ .collecting) : RegisterInv s.align := by
  have hi := h.ilen_lt
  have hle := h.ipos_le
  unfold State.align
  split
  · rename_i hne
    have hlt : s.ipos.toNat ≠ s.ilen.toNat := fun he => hne (h.ibit_end (BitVec.eq_of_toNat_eq he))
    exact { h with
      ipos_le := by simp; omega
      ibit_end := by simp
      collecting_range := by simp [hs]
      collecting_tokens := by simp [hs] }
  · exact h

theorem ralignBody_registers {s : State} (h : RegisterInv s) (hl : legalIn .ralign s.state = true) :
    (ralignBody s).All RegisterInv := h.align (noChunk_no_obligation hl).1

/-- Writing bits does not look at EIDX and STATE. -/
theorem putBits_with (u : State) (e : BitVec 16) (st : CodecState) (c : Bits) :
    ({ u with eidx := e, state := st } : State).putBits c = { u.putBits c with eidx := e, state := st } := by
  induction c generalizing u with
  | nil => rfl
  | cons b c ih =>
    rw [State.putBits, State.putBits, ← ih]
    congr 1
    unfold State.putBit
    simp only
    split <;> rfl

theorem finish_with (u : State) (e : BitVec 16) (st : CodecState) (c : Bits) :
    ({ u with eidx := e, state := st } : State).finish c = { u.finish c with eidx := e, state := st } := by
  unfold State.finish
  simp only
  split
  · exact putBits_with u e st _
  · rfl

theorem estepBody_registers {s : State} (h : RegisterInv s) (hl : legalIn .estep s.state = true)
    (hp : precondition .estep s = true) : (estepBody s).All RegisterInv := by
  simp only [precondition, decide_eq_true_eq] at hp
  simp only [legalIn, Bool.or_eq_true, decide_eq_true_eq] at hl
  have hc := h.encode_cmvalid hl
  have hf : s.state ≠ .failed := by rcases hl with h1 | h1 <;> simp [h1]
  have hnt := s.ntok.isLt
  refine withCode_all fun c _ => needOut_all h fun hroom => ?_
  simp only [State.hasRoom, decide_eq_true_eq] at hroom
  have key : RegisterInv { s with eidx := BitVec.ofNat 16 (s.eidx.toNat + 1), state := .encoding } :=
    { h with
      eidx_le := by simp; omega
      encode_cmvalid := fun _ => hc
      decode_tvalid := by simp
      failed_iff := by simp [h.err_eq_none hf]
      collecting_range := by simp
      collecting_tokens := by simp
      collecting_no_tree := by simp
      open_aligned := by simp }
  simp only [Res.All]
  rw [← putBits_with]
  exact key.putBits c hroom (by simp)

theorem efinBody_registers {s : State} (h : RegisterInv s) (hl : legalIn .efin s.state = true) :
    (efinBody s).All RegisterInv := by
  simp only [legalIn, Bool.or_eq_true, decide_eq_true_eq] at hl
  have hc := h.encode_cmvalid hl
  have hf : s.state ≠ .failed := by rcases hl with h1 | h1 <;> simp [h1]
  have hn := s.nacc_lt
  have ho := h.outMax_lt
  refine withCode_all fun c _ => needOut_all h fun hroom => ?_
  simp only [State.hasRoom, decide_eq_true_eq] at hroom
  have key : RegisterInv { s with eidx := s.eidx, state := .done } :=
    { h with
      encode_cmvalid := fun _ => hc
      decode_tvalid := by simp
      failed_iff := by simp [h.err_eq_none hf]
      collecting_range := by simp
      collecting_tokens := by simp
      collecting_no_tree := by simp
      open_aligned := by simp }
  have hcount := State.putBits_counts ({ s with eidx := s.eidx, state := .done } : State) c (by simp; omega)
  have h2 : RegisterInv ((({ s with eidx := s.eidx, state := .done } : State).putBits c).finish c) := by
    refine (key.putBits c (by simp; omega) (by simp)).finish c ?_ (by simp)
    rw [hcount.1, hcount.2]
    simp
    omega
  rw [putBits_with, finish_with] at h2
  have : ((s.putBits c).finish c).eidx = s.eidx := by simp
  simp only [Res.All]
  rwa [← this] at h2

theorem RegisterInv.emit {s : State} (h : RegisterInv s) (b : Byte) (hroom : s.olen.toNat + 1 ≤ s.params.outMax) :
    RegisterInv (s.emit b) :=
  (h.record b).appendBytes [b] hroom

theorem RegisterInv.copyMatch {s : State} (h : RegisterInv s) (o n : Nat)
    (hroom : s.olen.toNat + n ≤ s.params.outMax) : RegisterInv (s.copyMatch o n) := by
  induction n generalizing s with
  | zero => exact h
  | succ n ih =>
    refine ih (h.emit _ (by omega)) ?_
    have := h.outMax_lt
    have := State.appendBytes_olen (s.record (s.hist o)) [s.hist o] (by simp; omega)
    simp only [State.appendBytes, List.length_singleton] at this
    unfold State.emit
    rw [this]
    simp
    omega

theorem skipBit_bitIndex {s : State} (ha : s.avail = true) : s.skipBit.bitIndex = s.bitIndex + 1 := by
  have hlt : s.ipos.toNat < s.ilen.toNat := by simpa [State.avail] using ha
  have hl := s.ilen.isLt
  have hb := s.ibit.isLt
  unfold State.skipBit State.bitIndex
  split
  · simp; omega
  · simp; omega

theorem skipBit_frame (s : State) : s.skipBit = { s with ipos := s.skipBit.ipos, ibit := s.skipBit.ibit } := by
  unfold State.skipBit
  split <;> rfl

/-- The walk moves the cursor and nothing else, onwards by at least one bit, and ends at a leaf (R181). -/
theorem walkFrom_symbol (k : Nat) {i : BitVec 17} {s t : State} {w : Word} (h : walkFrom k i s = .symbol w t) :
    t = { s with ipos := t.ipos, ibit := t.ibit } ∧ s.bitIndex < t.bitIndex ∧
      (∃ j x, s.nodeAt j = .leaf w x) ∧
      (RegisterInv s → s.state ≠ .collecting → RegisterInv t) := by
  induction k generalizing i s with
  | zero => simp [walkFrom] at h
  | succ k ih =>
    unfold walkFrom at h
    split at h
    · simp at h
    rename_i ha
    simp only [Bool.not_eq_false] at ha
    split at h
    · simp at h
    have hsk := skipBit_bitIndex ha
    split at h
    · rename_i x y hx
      simp only [WalkEnd.symbol.injEq] at h
      obtain ⟨rfl, rfl⟩ := h
      exact ⟨skipBit_frame s, by omega, ⟨_, _, hx⟩, fun hi hs => hi.skipBit ha hs⟩
    · obtain ⟨h1, h2, ⟨j, x, h3⟩, h4⟩ := ih h
      have hfr := skipBit_frame s
      refine ⟨?_, by omega, ⟨j, x, ?_⟩, fun hi hs => h4 (hi.skipBit ha hs) (by simpa using hs)⟩
      · rw [h1, hfr]
      · simpa [State.nodeAt] using h3

theorem walk_symbol {s t : State} {w : Word} (h : s.walk = .symbol w t) :
    t = { s with ipos := t.ipos, ibit := t.ibit } ∧ s.bitIndex < t.bitIndex ∧
      (∃ j x, s.nodeAt j = .leaf w x) ∧
      (RegisterInv s → s.state ≠ .collecting → RegisterInv t) := walkFrom_symbol _ h

theorem RegisterInv.decoded {s : State} (h : RegisterInv s) (w : Word)
    (hs : s.state = .headerParsed ∨ s.state = .decoding) : RegisterInv (s.decoded w) := by
  have hf : s.state ≠ .failed := by rcases hs with h1 | h1 <;> simp [h1]
  exact { h with
    encode_cmvalid := by simp [State.decoded]
    decode_tvalid := fun _ => h.decode_tvalid hs
    failed_iff := by simp [State.decoded, h.err_eq_none hf]
    collecting_range := by simp [State.decoded]
    collecting_tokens := by simp [State.decoded]
    collecting_no_tree := by simp [State.decoded]
    open_aligned := fun _ => h.open_aligned (by rcases hs with h1 | h1 <;> simp [h1]) }

/-- Ending a chunk keeps it. -/
theorem RegisterInv.ended {s : State} (h : RegisterInv s) (hf : s.state ≠ .failed) : RegisterInv { s with state := .done } :=
  { h with
    encode_cmvalid := by simp
    decode_tvalid := by simp
    failed_iff := by simp [h.err_eq_none hf]
    collecting_range := by simp
    collecting_tokens := by simp
    collecting_no_tree := by simp
    open_aligned := by simp }

theorem dstepBody_registers {s : State} (h : RegisterInv s) (hl : legalIn .dstep s.state = true) :
    (dstepBody s).All RegisterInv := by
  simp only [legalIn, Bool.or_eq_true, decide_eq_true_eq] at hl
  have hc : s.state ≠ .collecting := by rcases hl with h1 | h1 <;> simp [h1]
  have hf : s.state ≠ .failed := by rcases hl with h1 | h1 <;> simp [h1]
  unfold dstepBody
  split
  · rename_i w t ht
    obtain ⟨h1, -, -, h4⟩ := walk_symbol ht
    have htr := h4 h hc
    have hst : t.state = s.state := by rw [h1]
    have ho : t.olen = s.olen := by rw [h1]
    have hpa : t.params = s.params := by rw [h1]
    unfold dstepSymbol
    split
    · trivial
    · have := (htr.align (by rw [hst]; exact hc)).ended (by simpa [hst] using hf)
      exact { this with }
    · split
      · rename_i b _ hroom
        simp only [State.hasRoom, decide_eq_true_eq] at hroom
        refine (htr.emit b (by rw [ho, hpa]; exact hroom)).decoded w ?_
        simpa [State.emit, hst] using hl
      · exact h
    · split
      · split
        · rename_i o l _ _ hroom
          simp only [State.hasRoom, decide_eq_true_eq] at hroom
          refine (htr.copyMatch o.toNat l.toNat (by rw [ho, hpa]; exact hroom)).decoded w ?_
          simpa [hst] using hl
        · exact h
      · exact h
  · split
    · have : RegisterInv { s with ipos := s.ilen, ibit := 0 } :=
        { h with
          ipos_le := Nat.le_refl _
          ibit_end := fun _ => rfl
          collecting_range := by simp [hc]
          collecting_tokens := by simp [hc] }
      exact { this.ended hf with }
    · exact h
  · exact h

/-! The composites: loops over primitives, each of which keeps the invariant. -/

theorem collectAll_registers {s : State} (h : RegisterInv s) : (collectAll s).All RegisterInv :=
  repeatWhile_all (fun s hs _ => runChecked_all hs fun hl hp =>
    mstepBody_registers hs (by simpa [legalIn] using hl) (by simpa [precondition] using hp)) _ h

theorem encodeAll_registers {s : State} (h : RegisterInv s) : (encodeAll s).All RegisterInv :=
  repeatWhile_all (fun _ hs _ => runChecked_all hs fun hl hp => estepBody_registers hs hl hp) _ h

theorem not_failed_of_legal_cbegin {st : CodecState} (h : legalIn .cbegin st = true) : st ≠ .failed := by
  rcases noChunk_cases h with h1 | h1 <;> simp [h1]

theorem encchunkBody_registers {s : State} (h : RegisterInv s) : (encchunkBody s).All RegisterInv := by
  refine Res.inComposite_all _ ?_
  refine Res.andThen_all (runChecked_all h fun hl hp => cbeginBody_registers h (not_failed_of_legal_cbegin hl) hp) ?_
  intro s h
  refine Res.andThen_all (collectAll_registers h) ?_
  intro s h
  refine Res.andThen_all (runChecked_all h fun hl _ => buildBody_registers h (by simpa [legalIn] using hl)) ?_
  intro s h
  refine Res.andThen_all (runChecked_all h fun _ _ => tstoreBody_registers h) ?_
  intro s h
  refine Res.andThen_all (encodeAll_registers h) ?_
  intro s h
  exact runChecked_all h fun hl _ => efinBody_registers h hl

theorem decodeAll_registers {s : State} (h : RegisterInv s) : (decodeAll s).All RegisterInv :=
  repeatWhile_all (fun _ hs _ => runChecked_all hs fun hl _ => dstepBody_registers hs hl) _ h

theorem decchunkBody_registers {s : State} (h : RegisterInv s) : (decchunkBody s).All RegisterInv := by
  refine Res.inComposite_all _ ?_
  refine Res.andThen_all (runChecked_all h fun hl hp => tloadBody_registers h hl hp) ?_
  intro s h
  exact decodeAll_registers h

theorem untilInputUsed_all {P : State → Prop} {body : State → Res} (hb : ∀ s, P s → (body s).All P) {s : State}
    (hs : P s) : (untilInputUsed body s).All P :=
  Res.andThen_all (hb s hs) fun _ ht => repeatWhile_all (fun u hu _ => hb u hu) _ ht

theorem compressBody_registers {s : State} (h : RegisterInv s) : (compressBody s).All RegisterInv := by
  unfold compressBody
  split
  · rename_i h6
    refine Res.inComposite_all _ (untilInputUsed_all (fun u hu => runChecked_all hu fun _ _ => encchunkBody_registers hu) ?_)
    refine h.clearOut.clearRing.appendBytes _ ?_
    simpa [fileHeader, magicBytes] using h6
  · exact h

theorem readHeader_ok {s : State} {p : Nat} {cap : BitVec 16} (h : s.readHeader p = .ok cap) :
    p + 6 ≤ s.ilen.toNat ∧ cap ≠ 0 ∧ cap = capOfBytes (s.ibufAt (p + 4)) (s.ibufAt (p + 5)) := by
  unfold State.readHeader at h
  split at h
  · simp at h
  iterate 4
    split at h
    · simp at h
  split at h
  · simp at h
  rename_i h1 _ _ _ _ h2
  simp only [Except.ok.injEq] at h
  subst h
  exact ⟨by omega, h2, rfl⟩

theorem openFile_registers {s : State} {cap : BitVec 16} (h : RegisterInv s)
    (hl : legalIn .decompress s.state = true) (hp : precondition .decompress s = true)
    (hr : s.readHeader s.ipos.toNat = .ok cap) : RegisterInv (s.openFile cap) := by
  obtain ⟨h1, h2, -⟩ := readHeader_ok hr
  simp only [precondition, decide_eq_true_eq] at hp
  have hi := h.ilen_lt
  have hc := (noChunk_no_obligation hl).1
  have hcap : 1 ≤ cap.toNat := by
    rcases Nat.eq_zero_or_pos cap.toNat with h0 | h0
    · exact absurd (BitVec.eq_of_toNat_eq (by simpa using h0)) h2
    · exact h0
  exact { h with
    cap_pos := hcap
    wptr_lt := by simp; omega
    fill_le := by simp
    not_wrapped := by simp
    ipos_le := by simp; omega
    ibit_end := fun _ => hp
    omark_le := by simp
    olen_le := by simp
    acc_low := by simp
    collecting_range := by simp [hc]
    collecting_tokens := by simp [hc]
    open_aligned := by simp }

theorem decompressBody_registers {s : State} (h : RegisterInv s) (hl : legalIn .decompress s.state = true)
    (hp : precondition .decompress s = true) : (decompressBody s).All RegisterInv := by
  unfold decompressBody
  split
  · exact h
  · exact Res.inComposite_all _ (untilInputUsed_all
      (fun u hu => runChecked_all hu fun _ _ => decchunkBody_registers hu) (openFile_registers h hl hp ‹_›))

end Sys2Proof.Machine
end

