-- ==== Sys2Proof/Laws/Tree.lean ====
section
/-! SUPPORT. Codes as paths, trees parsed from bytes, walks along a path. -/

namespace Sys2Proof.Machine

open Sys2Proof

/-! ## Codes (43_huffman.md R180, 30_encoding.md R99) -/

theorem HTree.codes_eq_map (t : HTree) (p : Bits) : t.codes p = (t.codes []).map fun x => (x.1, p ++ x.2) := by
  induction t generalizing p with
  | nil => rfl
  | leaf => simp [HTree.codes]
  | node l r ihl ihr =>
    simp only [HTree.codes, List.nil_append]
    rw [ihl (p ++ [false]), ihr (p ++ [true]), ihl [false], ihr [true]]
    simp [Function.comp_def]

theorem HTree.codes_fst (t : HTree) (p : Bits) : (t.codes p).map Prod.fst = t.leaves := by
  induction t generalizing p with
  | nil => rfl
  | leaf => rfl
  | node l r ihl ihr => simp [HTree.codes, HTree.leaves, ihl, ihr]

/-- A leaf's code is the path to it. -/
theorem HTree.mem_codes (t : HTree) (k : Nat) (c : Bits) :
    (k, c) ∈ t.codes [] ↔ ∃ w, t.follow c = some (.leaf k w) := by
  induction t generalizing c with
  | nil => cases c <;> simp [HTree.codes, HTree.follow]
  | leaf j v => cases c <;> simp [HTree.codes, HTree.follow, eq_comm]
  | node l r ihl ihr =>
    simp only [HTree.codes, List.nil_append, List.mem_append]
    rw [HTree.codes_eq_map l, HTree.codes_eq_map r]
    cases c with
    | nil => simp [HTree.follow]
    | cons b c =>
      cases b
      · simp [HTree.follow, ← ihl]
      · simp [HTree.follow, ← ihr]

theorem HTree.follow_append (t : HTree) (p q : Bits) : t.follow (p ++ q) = (t.follow p).bind fun u => u.follow q := by
  induction p generalizing t with
  | nil => simp [HTree.follow]
  | cons b p ih =>
    cases t with
    | nil => simp [HTree.follow]
    | leaf => simp [HTree.follow]
    | node l r => cases b <;> simp [HTree.follow, ih]

/-- "no code is a prefix of another" (R99). -/
theorem HTree.codes_prefix_free (t : HTree) {j k : Nat} {c d : Bits} (hj : (j, c) ∈ t.codes []) (hk : (k, d) ∈ t.codes [])
    (h : c <+: d) : j = k ∧ c = d := by
  obtain ⟨v, hv⟩ := (t.mem_codes j c).mp hj
  obtain ⟨w, hw⟩ := (t.mem_codes k d).mp hk
  obtain ⟨e, rfl⟩ := h
  rw [HTree.follow_append, hv, Option.bind_some] at hw
  cases e with
  | nil => simp only [HTree.follow, Option.some.injEq, HTree.leaf.injEq] at hw; simp [hw.1]
  | cons b e => simp [HTree.follow] at hw

theorem HTree.codes_ne_nil (l r : HTree) {k : Nat} {c : Bits} (h : (k, c) ∈ (HTree.node l r).codes []) : c ≠ [] := by
  rintro rfl
  obtain ⟨w, hw⟩ := ((HTree.node l r).mem_codes k []).mp h
  simp [HTree.follow] at hw

/-- A leaf that a path leads to is in the node memory. -/
theorem TreeOf.follow_leaf {f : Nat → Node} {i : BitVec 17} {t : HTree} (h : TreeOf f i t) {p : Bits} {k : Nat} {w : Word}
    (hp : t.follow p = some (.leaf k w)) : ∃ x, f k = .leaf w x := by
  induction p generalizing i t with
  | nil =>
    simp only [HTree.follow, Option.some.injEq] at hp
    subst hp
    exact h.2.2
  | cons b p ih =>
    cases t with
    | nil => simp [HTree.follow] at hp
    | leaf => simp [HTree.follow] at hp
    | node l r =>
      obtain ⟨-, a, c, x, -, hl, hr⟩ := h
      cases b
      · exact ih hl (by simpa [HTree.follow] using hp)
      · exact ih hr (by simpa [HTree.follow] using hp)

/-- What writing codes leaves in an entry. -/
theorem read_writeCodes (m : Mem Bits) (cs : List (Nat × Bits)) (h : (cs.map Prod.fst).Nodup) :
    (∀ x ∈ cs, Mem.read ([] : Bits) (writeCodes m cs) x.1 = x.2) ∧
    ∀ k, k ∉ cs.map Prod.fst → Mem.read ([] : Bits) (writeCodes m cs) k = Mem.read ([] : Bits) m k := by
  induction cs generalizing m with
  | nil => simp [writeCodes]
  | cons x xs ih =>
    obtain ⟨k, c⟩ := x
    rw [List.map_cons, List.nodup_cons] at h
    obtain ⟨h1, h2⟩ := ih (Mem.write ([] : Bits) m k c) h.2
    refine ⟨fun y hy => ?_, fun j hj => ?_⟩
    · rw [writeCodes]
      rcases List.mem_cons.mp hy with rfl | hy
      · rw [h2 _ h.1, Mem.read_write_same]
      · exact h1 y hy
    · simp only [List.map_cons, List.mem_cons, not_or] at hj
      rw [writeCodes, h2 j hj.2, Mem.read_write_ne _ _ hj.1]

theorem wf_writeCodes {m : Mem Bits} (cs : List (Nat × Bits)) (h : Mem.wf ([] : Bits) m = true) :
    Mem.wf ([] : Bits) (writeCodes m cs) = true := by
  induction cs generalizing m with
  | nil => exact h
  | cons x xs ih => exact ih (Mem.wf_write _ _ h)

theorem within_writeCodes {m : Mem Bits} {n : Nat} (cs : List (Nat × Bits)) (h : Mem.within n m = true)
    (hc : ∀ x ∈ cs, x.1 < n) : Mem.within n (writeCodes m cs) = true := by
  induction cs generalizing m with
  | nil => exact h
  | cons x xs ih => exact ih (Mem.within_write _ h (hc x (by simp))) fun y hy => hc y (by simp [hy])

/-! ## Parsing (R185) -/

theorem TreeOf.nodes_congr {f g : Nat → Node} {i : BitVec 17} {t : HTree} (h : TreeOf f i t)
    (hfg : ∀ k < Config.nodeMax, f k = g k) : TreeOf g i t := by
  have hlt : ∀ j : BitVec 17, j ≠ Config.nil → j.toNat < Config.nodeMax := fun j hj => by
    have h1 := j.isLt
    have h2 : j.toNat ≠ 131071 := fun he => hj (BitVec.eq_of_toNat_eq (by simpa [Config.nil] using he))
    unfold Config.nodeMax
    omega
  induction t generalizing i with
  | nil => exact h
  | leaf k w =>
    obtain ⟨h1, rfl, x, hx⟩ := h
    exact ⟨h1, rfl, x, by rw [← hfg _ (hlt _ h1)]; exact hx⟩
  | node l r ihl ihr =>
    obtain ⟨h1, a, b, x, hx, hl, hr⟩ := h
    exact ⟨h1, a, b, x, by rw [← hfg _ (hlt _ h1)]; exact hx, ihl hl, ihr hr⟩

/-- The bytes at `pos` begin with `l`. -/
def BytesAt (at_ : Nat → Byte) (pos : Nat) (l : List Byte) : Prop := ∀ j < l.length, at_ (pos + j) = l.getD j 0

theorem bytesAt_cons {at_ : Nat → Byte} {pos : Nat} {b : Byte} {l : List Byte} :
    BytesAt at_ pos (b :: l) ↔ at_ pos = b ∧ BytesAt at_ (pos + 1) l := by
  constructor
  · intro h
    refine ⟨by simpa using h 0 (by simp), fun j hj => ?_⟩
    have := h (j + 1) (by simpa using hj)
    rw [List.getD_cons_succ] at this
    rw [← this]
    congr 1
    omega
  · rintro ⟨h1, h2⟩ j hj
    cases j with
    | zero => simpa using h1
    | succ j =>
      rw [List.getD_cons_succ, ← h2 j (by simpa using hj)]
      congr 1
      omega

theorem bytesAt_append {at_ : Nat → Byte} {pos : Nat} {a b : List Byte} :
    BytesAt at_ pos (a ++ b) ↔ BytesAt at_ pos a ∧ BytesAt at_ (pos + a.length) b := by
  induction a generalizing pos with
  | nil => simp [BytesAt]
  | cons x a ih =>
    rw [List.cons_append, bytesAt_cons, bytesAt_cons, ih, List.length_cons, and_assoc]
    rw [show pos + 1 + a.length = pos + (a.length + 1) by omega]

theorem wordOfBytes_extract (w : Word) : wordOfBytes (w.extractLsb' 24 8) (w.extractLsb' 16 8) (w.extractLsb' 8 8)
    (w.extractLsb' 0 8) = w := by
  unfold wordOfBytes
  ext i hi
  simp only [BitVec.getElem_append, BitVec.getElem_extractLsb']
  have bit (k : Nat) (h : k = i) : w.getLsbD k = w[i] := by subst h; exact BitVec.getLsbD_eq_getElem hi
  repeat' split
  all_goals exact bit _ (by omega)

theorem toNat_append_eq {n m : Nat} (x : BitVec n) (y : BitVec m) : (x ++ y).toNat = x.toNat * 2 ^ m + y.toNat := by
  rw [BitVec.toNat_append, ← Nat.shiftLeft_add_eq_or_of_lt y.isLt, Nat.shiftLeft_eq]

theorem wordBytes_wordOfBytes (a b c d : Byte) : wordBytes (wordOfBytes a b c d) = [a, b, c, d] := by
  have h : (wordOfBytes a b c d).toNat = ((a.toNat * 2 ^ 8 + b.toNat) * 2 ^ 8 + c.toNat) * 2 ^ 8 + d.toNat := by
    unfold wordOfBytes
    rw [toNat_append_eq, toNat_append_eq, toNat_append_eq]
  have ha := a.isLt
  have hb := b.isLt
  have hc := c.isLt
  have hd := d.isLt
  simp only [wordBytes, List.cons.injEq, and_true]
  refine ⟨?_, ?_, ?_, ?_⟩ <;> apply BitVec.eq_of_toNat_eq <;>
    rw [BitVec.extractLsb'_toNat, h, Nat.shiftRight_eq_div_pow] <;> omega

/-- Everything a parse that succeeds says of its tree (R185): the bytes are the tree's, every node is in the list at its
pre-order index, with weight 0 and children in range. -/
structure ParseOf (at_ : Nat → Byte) (ilen pos cnt : Nat) (r : Parsed) (t : HTree) : Prop where
  bytes : BytesAt at_ pos t.ser
  pos_eq : r.pos = pos + t.ser.length
  pos_le : r.pos ≤ ilen
  valid : t.symbolsValid = true
  length_eq : r.nodes.length = t.size
  leaves_eq : r.nodes.countP Node.isLeaf = t.leafCount
  weight_zero : ∀ x ∈ r.nodes, x.weight = 0
  in_range : ∀ x ∈ r.nodes, nodeInRange (cnt + t.size) x = true
  index_in_range : childInRange (cnt + t.size) r.index
  fits : cnt + t.size ≤ Config.nodeMax
  tree : ∀ f : Nat → Node, (∀ j < t.size, f (cnt + j) = r.nodes.getD j Node.zero) →
    ∃ u, TreeOf f r.index u ∧ u.shape = t.shape ∧ nodesOf f r.index u = List.range' cnt t.size

theorem nodeInRange_mono {m n : Nat} (h : m ≤ n) {x : Node} (hx : nodeInRange m x = true) : nodeInRange n x = true := by
  cases x with
  | leaf => exact hx
  | internal l r w =>
    simp only [nodeInRange, Bool.and_eq_true, decide_eq_true_eq] at hx ⊢
    exact ⟨hx.1.imp_right fun h1 => by omega, hx.2.imp_right fun h1 => by omega⟩

theorem ofNat17_ne_nil {cnt : Nat} (h : cnt < Config.nodeMax) :
    (BitVec.ofNat 17 cnt).toNat = cnt ∧ BitVec.ofNat 17 cnt ≠ Config.nil := by
  unfold Config.nodeMax at h
  have h1 : (BitVec.ofNat 17 cnt).toNat = cnt := by simp only [BitVec.toNat_ofNat]; omega
  refine ⟨h1, fun he => ?_⟩
  have := congrArg BitVec.toNat he
  rw [h1] at this
  simp only [Config.nil, BitVec.toNat_ofNat] at this
  omega

/-- A parse that succeeds has read the bytes of a tree. -/
theorem parseNode_sound {at_ : Nat → Byte} {ilen : Nat} (k : Nat) {top : Bool} {pos cnt : Nat} {r : Parsed}
    (h : parseNode at_ ilen k top pos cnt = .ok r) (hcnt : cnt ≤ Config.nodeMax) :
    ∃ t, ParseOf at_ ilen pos cnt r t ∧ (top = true → ∃ l r', t = .node l r') := by
  induction k generalizing top pos cnt r with
  | zero => simp [parseNode] at h
  | succ k ih =>
    unfold parseNode at h
    split at h
    · simp at h
    split at h
    · simp at h
    split at h
    · rename_i hb
      split at h
      · simp at h
      rename_i hc
      have hlt : cnt < Config.nodeMax := by omega
      split at h
      · simp at h
      rename_i l hl
      split at h
      · simp at h
      rename_i r' hr
      simp only [Except.ok.injEq] at h
      obtain ⟨tl, hL, -⟩ := ih hl (by omega)
      have hfl := hL.fits
      rw [hL.length_eq] at hr
      obtain ⟨tr, hR, -⟩ := ih hr (by omega)
      obtain ⟨hn1, hn2⟩ := ofNat17_ne_nil hlt
      subst h
      have hsz : (HTree.node tl tr).size = 1 + tl.size + tr.size := rfl
      refine ⟨.node tl tr, ?_, fun _ => ⟨tl, tr, rfl⟩⟩
      constructor
      · rw [HTree.ser, bytesAt_cons, bytesAt_append]
        exact ⟨hb, hL.bytes, hL.pos_eq ▸ hR.bytes⟩
      · simp only [HTree.ser, List.length_cons, List.length_append, hR.pos_eq, hL.pos_eq]
        omega
      · exact hR.pos_le
      · simp [HTree.symbolsValid, hL.valid, hR.valid]
      · simp only [List.length_cons, List.length_append, hL.length_eq, hR.length_eq, hsz]
        omega
      · simp [HTree.leafCount, hL.leaves_eq, hR.leaves_eq, Node.isLeaf]
      · intro x hx
        rcases List.mem_cons.mp hx with rfl | hx
        · rfl
        · rcases List.mem_append.mp hx with hx | hx
          · exact hL.weight_zero x hx
          · exact hR.weight_zero x hx
      · intro x hx
        rw [hsz]
        rcases List.mem_cons.mp hx with rfl | hx
        · simp only [nodeInRange, Bool.and_eq_true, decide_eq_true_eq]
          exact ⟨hL.index_in_range.imp_right fun h1 => by omega, hR.index_in_range.imp_right fun h1 => by omega⟩
        · rcases List.mem_append.mp hx with hx | hx
          · exact nodeInRange_mono (by omega) (hL.in_range x hx)
          · exact nodeInRange_mono (by omega) (hR.in_range x hx)
      · right
        rw [hn1, hsz]
        omega
      · rw [hsz]
        have := hR.fits
        omega
      · intro f hf
        have hlenl := hL.length_eq
        have hf0 := hf 0 (by rw [hsz]; omega)
        rw [Nat.add_zero, List.getD_cons_zero] at hf0
        obtain ⟨ul, hul, hsl, hnl⟩ := hL.tree f fun j hj => by
          have := hf (j + 1) (by rw [hsz]; omega)
          rw [List.getD_cons_succ, List.getD_append _ _ _ _ (by omega)] at this
          rw [← this]
          congr 1
          omega
        obtain ⟨ur, hur, hsr, hnr⟩ := hR.tree f fun j hj => by
          have := hf (tl.size + j + 1) (by rw [hsz]; omega)
          rw [List.getD_cons_succ, List.getD_append_right _ _ _ _ (by omega), hlenl, Nat.add_sub_cancel_left] at this
          rw [← this]
          congr 1
          omega
        refine ⟨.node ul ur, ⟨hn2, l.index, r'.index, 0, by rw [hn1]; exact hf0, hul, hur⟩, ?_, ?_⟩
        · simp [HTree.shape, hsl, hsr]
        · simp only [nodesOf, hn1, hf0, Node.child, hsz, Bool.false_eq_true, if_false, if_true, hnl, hnr]
          rw [show 1 + tl.size + tr.size = (tl.size + tr.size) + 1 by omega, List.range'_succ, ← List.range'_append_1]
    split at h
    · rename_i hb0 hb
      split at h
      · simp at h
      split at h
      · simp at h
      rename_i hp hv
      split at h
      · simp at h
      simp only [Except.ok.injEq] at h
      obtain ⟨hn1, hn2⟩ := ofNat17_ne_nil (cnt := cnt) (by omega)
      subst h
      refine ⟨.leaf cnt (wordOfBytes (at_ (pos + 1)) (at_ (pos + 2)) (at_ (pos + 3)) (at_ (pos + 4))), ?_, ?_⟩
      · constructor
        · rw [HTree.ser, wordBytes_wordOfBytes]
          simp only [bytesAt_cons, hb, true_and]
          exact fun j hj => absurd hj (by simp)
        · simp [HTree.ser, wordBytes]
        · simp only; omega
        · simpa [HTree.symbolsValid] using hv
        · rfl
        · rfl
        · simp [Node.weight]
        · simpa [nodeInRange] using hv
        · right; rw [hn1]; simp only [HTree.size]; omega
        · simp only [HTree.size]; omega
        · intro f hf
          have hf0 := hf 0 (by simp [HTree.size])
          rw [Nat.add_zero, List.getD_cons_zero] at hf0
          exact ⟨.leaf cnt _, ⟨hn2, hn1, 0, hf0⟩, rfl, rfl⟩
      · intro ht
        simp_all
    split at h
    · rename_i hb0 hb1 hb
      simp only [Except.ok.injEq] at h
      subst h
      refine ⟨.nil, ?_, ?_⟩
      · constructor
        · rw [HTree.ser, bytesAt_cons]
          exact ⟨hb, fun j hj => absurd hj (by simp)⟩
        · simp [HTree.ser]
        · simp only; omega
        · rfl
        · rfl
        · rfl
        · simp
        · simp
        · left; rfl
        · simpa [HTree.size] using hcnt
        · intro f _
          exact ⟨.nil, rfl, rfl, rfl⟩
      · intro ht
        simp_all
    · simp at h

theorem HTree.ser_shape (t : HTree) : t.shape.ser = t.ser := by
  induction t with
  | nil => rfl
  | leaf => rfl
  | node l r ihl ihr => simp [HTree.shape, HTree.ser, ihl, ihr]

theorem HTree.size_shape (t : HTree) : t.shape.size = t.size := by
  induction t with
  | nil => rfl
  | leaf => rfl
  | node l r ihl ihr => simp [HTree.shape, HTree.size, ihl, ihr]

theorem HTree.leafCount_shape (t : HTree) : t.shape.leafCount = t.leafCount := by
  induction t with
  | nil => rfl
  | leaf => rfl
  | node l r ihl ihr => simp [HTree.shape, HTree.leafCount, ihl, ihr]

/-- "self-delimiting" (30_encoding.md R100): the bytes at one place are those of one tree only. -/
theorem HTree.ser_inj {at_ : Nat → Byte} {pos : Nat} {t u : HTree} (ht : BytesAt at_ pos t.ser)
    (hu : BytesAt at_ pos u.ser) : t.shape = u.shape := by
  induction t generalizing pos u with
  | nil =>
    rw [HTree.ser, bytesAt_cons] at ht
    cases u with
    | nil => rfl
    | leaf => rw [HTree.ser, bytesAt_cons, ht.1] at hu; exact absurd hu.1 (by decide)
    | node => rw [HTree.ser, bytesAt_cons, ht.1] at hu; exact absurd hu.1 (by decide)
  | leaf k w =>
    rw [HTree.ser, bytesAt_cons] at ht
    cases u with
    | nil => rw [HTree.ser, bytesAt_cons, ht.1] at hu; exact absurd hu.1 (by decide)
    | node => rw [HTree.ser, bytesAt_cons, ht.1] at hu; exact absurd hu.1 (by decide)
    | leaf j v =>
      rw [HTree.ser, bytesAt_cons] at hu
      have hw : wordBytes w = wordBytes v := List.ext_getElem (by simp [wordBytes]) fun n h1 h2 => by
        have e1 := ht.2 n h1
        have e2 := hu.2 n h2
        rw [List.getD_eq_getElem _ _ h1] at e1
        rw [List.getD_eq_getElem _ _ h2] at e2
        exact e1.symm.trans e2
      simp only [wordBytes, List.cons.injEq, and_true] at hw
      rw [HTree.shape, HTree.shape, ← wordOfBytes_extract w, ← wordOfBytes_extract v, hw.1, hw.2.1, hw.2.2.1, hw.2.2.2]
  | node l r ihl ihr =>
    rw [HTree.ser, bytesAt_cons, bytesAt_append] at ht
    cases u with
    | nil => rw [HTree.ser, bytesAt_cons, ht.1] at hu; exact absurd hu.1 (by decide)
    | leaf => rw [HTree.ser, bytesAt_cons, ht.1] at hu; exact absurd hu.1 (by decide)
    | node a b =>
      rw [HTree.ser, bytesAt_cons, bytesAt_append] at hu
      have hl := ihl ht.2.1 hu.2.1
      have hs : l.ser.length = a.ser.length := by rw [← l.ser_shape, hl, a.ser_shape]
      rw [HTree.shape, HTree.shape, hl, ihr ht.2.2 (hs ▸ hu.2.2)]

theorem HTree.one_le_length_ser (t : HTree) : 1 ≤ t.ser.length := by cases t <;> simp [HTree.ser]

/-- On the bytes of a tree that fits, a parse succeeds. -/
theorem parseNode_complete {at_ : Nat → Byte} {ilen : Nat} (t : HTree) : ∀ (k : Nat) (top : Bool) (pos cnt : Nat),
    t.ser.length ≤ k → BytesAt at_ pos t.ser → pos + t.ser.length ≤ ilen → t.symbolsValid = true →
    cnt + t.size ≤ Config.nodeMax → (top = true → ∃ l r, t = .node l r) → ∃ r, parseNode at_ ilen k top pos cnt = .ok r := by
  induction t with
  | nil =>
    intro k top pos cnt hk hb hle hv hc ht
    obtain ⟨k, rfl⟩ : ∃ j, k = j + 1 := ⟨k - 1, by simp [HTree.ser] at hk; omega⟩
    have hf : top = false := by cases top with
      | false => rfl
      | true => obtain ⟨l, r, h⟩ := ht rfl; cases h
    rw [HTree.ser, bytesAt_cons] at hb
    simp only [HTree.ser, List.length_cons, List.length_nil] at hle
    unfold parseNode
    rw [if_neg (by omega), if_neg (by simp [hf]), if_neg (by rw [hb.1]; decide), if_neg (by rw [hb.1]; decide), if_pos hb.1]
    exact ⟨_, rfl⟩
  | leaf j w =>
    intro k top pos cnt hk hb hle hv hc ht
    obtain ⟨k, rfl⟩ : ∃ j, k = j + 1 := ⟨k - 1, by simp [HTree.ser] at hk; omega⟩
    have hf : top = false := by cases top with
      | false => rfl
      | true => obtain ⟨l, r, h⟩ := ht rfl; cases h
    rw [HTree.ser, wordBytes, bytesAt_cons, bytesAt_cons, bytesAt_cons, bytesAt_cons, bytesAt_cons] at hb
    obtain ⟨h0, h1, h2, h3, h4, -⟩ := hb
    simp only [HTree.ser, wordBytes, List.length_cons, List.length_nil] at hle
    unfold parseNode
    rw [if_neg (by omega), if_neg (by simp [hf]), if_neg (by rw [h0]; decide), if_pos h0, if_neg (by omega)]
    rw [show pos + 2 = pos + 1 + 1 by omega, show pos + 3 = pos + 1 + 1 + 1 by omega,
      show pos + 4 = pos + 1 + 1 + 1 + 1 by omega, h1, h2, h3, h4, wordOfBytes_extract]
    rw [if_neg (by simpa [HTree.symbolsValid] using hv), if_neg (by simp only [HTree.size] at hc; omega)]
    exact ⟨_, rfl⟩
  | node l r ihl ihr =>
    intro k top pos cnt hk hb hle hv hc _
    obtain ⟨k, rfl⟩ : ∃ j, k = j + 1 := ⟨k - 1, by simp [HTree.ser] at hk; omega⟩
    rw [HTree.ser, bytesAt_cons, bytesAt_append] at hb
    simp only [HTree.ser, List.length_cons, List.length_append] at hle hk
    simp only [HTree.symbolsValid, Bool.and_eq_true] at hv
    simp only [HTree.size] at hc
    unfold parseNode
    rw [if_neg (by omega), if_neg (by simp [hb.1]), if_pos hb.1, if_neg (by omega)]
    obtain ⟨rl, hl⟩ := ihl k false (pos + 1) (cnt + 1) (by omega) hb.2.1 (by omega) hv.1 (by omega) (by simp)
    obtain ⟨tl, hL, -⟩ := parseNode_sound k hl (by omega)
    have hsl := HTree.ser_inj hL.bytes hb.2.1
    have hlen : tl.ser.length = l.ser.length := by rw [← tl.ser_shape, hsl, l.ser_shape]
    have hsize : tl.size = l.size := by rw [← tl.size_shape, hsl, l.size_shape]
    obtain ⟨rr, hr⟩ := ihr k false rl.pos (cnt + 1 + rl.nodes.length) (by omega)
      (by rw [hL.pos_eq, hlen]; exact hb.2.2) (by rw [hL.pos_eq, hlen]; omega) hv.2
      (by rw [hL.length_eq, hsize]; omega) (by simp)
    rw [hl]
    simp only [hr]
    exact ⟨_, rfl⟩

/-! ## Walking (R181) -/

/-- The cursor `n` bits further, bit by bit. -/
def State.skipBits : Nat → State → State
  | 0, s => s
  | n + 1, s => State.skipBits n s.skipBit

@[simp] theorem skipBit_nodeAt (s : State) (k : Nat) : s.skipBit.nodeAt k = s.nodeAt k := by
  unfold State.skipBit
  split <;> rfl

theorem avail_of_unread {s : State} {b : Bool} {p : Bits} (h : b :: p <+: s.unread) : s.avail = true := by
  by_contra hn
  have : s.ilen.toNat - s.ipos.toNat = 0 := by simp [State.avail] at hn; omega
  unfold State.unread State.ibufSlice at h
  rw [this] at h
  simp [Mem.readSeq] at h

theorem unread_prefix {s : State} {b : Bool} {p : Bits} (h : b :: p <+: s.unread) :
    s.nextBit = b ∧ p <+: s.skipBit.unread := by
  rw [State.unread_eq_cons (avail_of_unread h), List.cons_prefix_cons] at h
  exact ⟨h.1.symm, h.2⟩

/-- Along the path of a leaf the walk ends there, the cursor behind the path. -/
theorem walkFrom_leaf {l r : HTree} {k : Nat} {w : Word} (p : Bits) : ∀ (n : Nat) (i : BitVec 17) (s : State),
    p.length ≤ n → TreeOf s.nodeAt i (.node l r) → (HTree.node l r).follow p = some (.leaf k w) → p <+: s.unread →
    walkFrom n i s = .symbol w (State.skipBits p.length s) := by
  induction p generalizing l r with
  | nil => intro n i s _ _ h; simp [HTree.follow] at h
  | cons b p ih =>
    intro n i s hn ht hf hp
    obtain ⟨n, rfl⟩ : ∃ m, n = m + 1 := ⟨n - 1, by simp at hn; omega⟩
    obtain ⟨h1, a, c, x, hx, hl, hr⟩ := ht
    obtain ⟨hb, hp'⟩ := unread_prefix hp
    unfold walkFrom
    rw [if_neg (by simp [avail_of_unread hp]), hx, hb]
    have hsub : ∃ j u, (Node.internal a c x).child b = j ∧ TreeOf s.nodeAt j u ∧ u.follow p = some (.leaf k w) := by
      cases b
      · exact ⟨a, l, rfl, hl, by simpa [HTree.follow] using hf⟩
      · exact ⟨c, r, rfl, hr, by simpa [HTree.follow] using hf⟩
    obtain ⟨j, u, hj, hu, hfu⟩ := hsub
    rw [hj]
    cases u with
    | nil => cases p <;> simp [HTree.follow] at hfu
    | leaf j' v =>
      obtain ⟨hj1, rfl, y, hy⟩ := hu
      cases p with
      | cons => simp [HTree.follow] at hfu
      | nil =>
        simp only [HTree.follow, Option.some.injEq, HTree.leaf.injEq] at hfu
        rw [if_neg hj1, hy, hfu.2]
        rfl
    | node l' r' =>
      have hu' := hu
      obtain ⟨hj1, a', c', x', hx', -, -⟩ := hu
      rw [if_neg hj1, hx']
      simp only
      exact ih n j s.skipBit (by simp at hn; omega) (hu'.congr fun k => (skipBit_nodeAt s k).symm) hfu hp'

/-- Along a path to an absent child the walk ends in a mismatch. -/
theorem walkFrom_nil {l r : HTree} (p : Bits) : ∀ (n : Nat) (i : BitVec 17) (s : State),
    p.length ≤ n → TreeOf s.nodeAt i (.node l r) → (HTree.node l r).follow p = some .nil → p <+: s.unread →
    walkFrom n i s = .mismatch := by
  induction p generalizing l r with
  | nil => intro n i s _ _ h; simp [HTree.follow] at h
  | cons b p ih =>
    intro n i s hn ht hf hp
    obtain ⟨n, rfl⟩ : ∃ m, n = m + 1 := ⟨n - 1, by simp at hn; omega⟩
    obtain ⟨h1, a, c, x, hx, hl, hr⟩ := ht
    obtain ⟨hb, hp'⟩ := unread_prefix hp
    unfold walkFrom
    rw [if_neg (by simp [avail_of_unread hp]), hx, hb]
    have hsub : ∃ j u, (Node.internal a c x).child b = j ∧ TreeOf s.nodeAt j u ∧ u.follow p = some .nil := by
      cases b
      · exact ⟨a, l, rfl, hl, by simpa [HTree.follow] using hf⟩
      · exact ⟨c, r, rfl, hr, by simpa [HTree.follow] using hf⟩
    obtain ⟨j, u, hj, hu, hfu⟩ := hsub
    rw [hj]
    cases u with
    | nil => rw [if_pos (show j = Config.nil from hu)]
    | leaf j' v => cases p <;> simp [HTree.follow] at hfu
    | node l' r' =>
      have hu' := hu
      obtain ⟨hj1, a', c', x', hx', -, -⟩ := hu
      rw [if_neg hj1, hx']
      simp only
      exact ih n j s.skipBit (by simp at hn; omega) (hu'.congr fun k => (skipBit_nodeAt s k).symm) hfu hp'

/-- Bits that end before a leaf exhaust the walk. -/
theorem walkFrom_exhausted {l r a b : HTree} (p : Bits) : ∀ (n : Nat) (i : BitVec 17) (s : State),
    TreeOf s.nodeAt i (.node l r) → (HTree.node l r).follow p = some (.node a b) → p = s.unread →
    walkFrom n i s = .exhausted := by
  induction p generalizing l r with
  | nil =>
    intro n i s _ _ hp
    cases n with
    | zero => rfl
    | succ n =>
      unfold walkFrom
      rw [if_pos]
      by_contra hn
      rw [State.unread_eq_cons (by simpa using hn)] at hp
      cases hp
  | cons x p ih =>
    intro n i s ht hf hp
    cases n with
    | zero => rfl
    | succ n =>
      obtain ⟨h1, a', c', y, hx, hl, hr⟩ := ht
      have hpre : x :: p <+: s.unread := by rw [← hp]
      obtain ⟨hb, -⟩ := unread_prefix hpre
      have hp' : p = s.skipBit.unread := by
        rw [State.unread_eq_cons (avail_of_unread hpre)] at hp
        exact (List.cons.inj hp).2
      unfold walkFrom
      rw [if_neg (by simp [avail_of_unread hpre]), hx, hb]
      have hsub : ∃ j u, (Node.internal a' c' y).child x = j ∧ TreeOf s.nodeAt j u ∧ u.follow p = some (.node a b) := by
        cases x
        · exact ⟨a', l, rfl, hl, by simpa [HTree.follow] using hf⟩
        · exact ⟨c', r, rfl, hr, by simpa [HTree.follow] using hf⟩
      obtain ⟨j, u, hj, hu, hfu⟩ := hsub
      rw [hj]
      cases u with
      | nil => cases p <;> simp [HTree.follow] at hfu
      | leaf => cases p <;> simp [HTree.follow] at hfu
      | node l' r' =>
        have hu' := hu
        obtain ⟨hj1, a'', c'', x', hx', -, -⟩ := hu
        rw [if_neg hj1, hx']
        simp only
        exact ih n j s.skipBit (hu'.congr fun k => (skipBit_nodeAt s k).symm) hfu hp'

/-! ## Items of a serialised tree, rounds of a file composite (43_huffman.md R185, 46_container.md R246, R247) -/

@[simp] theorem itemBytes_nil : itemBytes [] = [] := rfl
@[simp] theorem itemBytes_cons (x : TreeItem) (is : List TreeItem) : itemBytes (x :: is) = x.bytes ++ itemBytes is := by
  simp [itemBytes]
@[simp] theorem itemBytes_append (is js : List TreeItem) : itemBytes (is ++ js) = itemBytes is ++ itemBytes js := by
  simp [itemBytes]

@[simp] theorem itemNodes_nil : itemNodes [] = 0 := rfl
@[simp] theorem itemNodes_cons (x : TreeItem) (is : List TreeItem) :
    itemNodes (x :: is) = (if x.isNode then 1 else 0) + itemNodes is := by
  simp only [itemNodes, List.countP_cons, Nat.add_comm]
@[simp] theorem itemNodes_append (is js : List TreeItem) : itemNodes (is ++ js) = itemNodes is + itemNodes js := by
  simp [itemNodes]

/-- Some subtree is still to come before any item is read. -/
theorem moreToCome_pos {n : Nat} {is : List TreeItem} (h : moreToCome n is = true) : 1 ≤ n := by
  cases is with
  | nil => exact of_decide_eq_true h
  | cons x is => cases x <;> simp_all [moreToCome]

/-- More subtrees to come never hurt. -/
theorem moreToCome_mono {is : List TreeItem} : ∀ {n m : Nat}, n ≤ m → moreToCome n is = true → moreToCome m is = true := by
  induction is with
  | nil => intro n m hnm h; simp only [moreToCome, decide_eq_true_eq] at *; omega
  | cons x is ih =>
    intro n m hnm h
    cases x <;> simp only [moreToCome, Bool.and_eq_true, decide_eq_true_eq] at * <;>
      exact ⟨by omega, ih (by omega) h.2⟩

theorem moreToCome_internals (k : Nat) : ∀ n, 1 ≤ n → moreToCome n (List.replicate k .internal) = true := by
  induction k with
  | zero => exact fun n hn => decide_eq_true hn
  | succ k ih => exact fun n hn => by simp [List.replicate_succ, moreToCome, hn, ih (n + 1) (by omega)]

theorem itemBytes_internals (k : Nat) : itemBytes (List.replicate k .internal) = List.replicate k 0 := by
  induction k with
  | zero => rfl
  | succ k ih => rw [List.replicate_succ, itemBytes_cons, ih]; rfl

theorem itemNodes_internals (k : Nat) : itemNodes (List.replicate k .internal) = k := by
  simp [itemNodes, List.countP_replicate, TreeItem.isNode]

theorem readSeq_nil {α : Type} (d : α) (a n : Nat) : Mem.readSeq d ([] : Mem α) a n = List.replicate n d := by
  simp [Mem.readSeq, Mem.read, List.map_const']

theorem RoundsBefore.trans {i : Instr} {s t u : State} (h : RoundsBefore i s t) (h' : RoundsBefore i t u) :
    RoundsBefore i s u := by
  induction h with
  | here => exact h'
  | more he hn hl _ ih => exact .more he hn hl (ih h')

end Sys2Proof.Machine
end

