-- ==== Sys2Proof/Tests/Slice0.lean ====
section
/-! SUPPORT. Tests: well-formedness, decoding of words written out from 30_encoding.md, one-step tests with the results
of spec/95_test_vectors.md and of the command rules' own examples, and a witness for the hypotheses of each statement. -/

set_option Elab.async false

namespace Sys2Proof.Tests

open Sys2Proof Sys2Proof.Machine

/-! ## Helpers -/

/-- Bytes from numbers. -/
def bytes (l : List Nat) : List Byte := l.map (BitVec.ofNat 8)

/-- A state with input bytes loaded. -/
def load (l : List Nat) (s : State) : State :=
  { s with ibuf := Mem.writeSeq (0 : Byte) [] 0 (bytes l), ilen := BitVec.ofNat 32 l.length }

/-- The state after commands, each run from the one before. -/
def after (is : List Instr) (s : State) : State :=
  is.foldl (fun s i => match exec i s with
    | .next t => t
    | .fault _ => s
    | .refused _ => s) s

/-- Does the command answer exactly this next state? -/
def gives (i : Instr) (s t : State) : Bool :=
  match exec i s with
  | .next u => decide (u = t)
  | .fault _ => false
  | .refused _ => false

/-- Does a step answer exactly this next state? -/
def stepGives (s t : State) : Bool :=
  match step s with
  | .next u => decide (u = t)
  | .fault _ => false
  | .refused _ => false

/-- "aaaaaaaaaa" (S1) with `CAP = 16`. -/
def tenA : State := load (List.replicate 10 0x61) { State.reset with cap := 16 }

/-- P2 up to each point: collecting, all tokens, tree built, tree stored. -/
def collecting : State := after [.cbegin, .mstep] tenA
def collected : State := after [.mstep] collecting
def built : State := after [.build] collected
def encoding : State := after [.estep, .estep] built

/-- The chunk record of S1 (P3). -/
def record : List Nat :=
  [0x00, 0x01, 0x80, 0x00, 0x00, 0x00, 0x00, 0x01, 0x00, 0x00, 0x00, 0x61, 0x01, 0x40, 0x00, 0x01, 0x09, 0xB0]

/-- P3 up to each point. -/
def recordLoaded : State := load record { State.reset with cap := 16 }
def parsed : State := after [.tload] recordLoaded
def decoding : State := after [.dstep] parsed

/-- Two small buffers, both full. -/
def full : State := { load [1, 2] State.reset with params := ⟨2, 2⟩, obuf := [(0, 1), (1, 2)], olen := 2 }

/-- `Failed`, after an unused opcode (V40.3). -/
def failed : State := State.reset.raise .illegalCommand 0x07000000#32

/-! ## Well-formed terms -/

theorem test_wf_refuses_zero_count : (Instr.wbits 0 0).wellFormed = false := by decide
theorem test_wf_refuses_count_17 : (Instr.wbits 17 0).wellFormed = false := by decide
theorem test_wf_refuses_high_bits : (Instr.wbits 3 0b1000).wellFormed = false := by decide
theorem test_wf_accepts_all_16_bits : (Instr.wbits 16 0xFFFF).wellFormed = true := by decide

/-! ## Decoding: opcode, then the operand fields of the format, most significant first (R91, R93) -/

theorem test_decode_nop : decode (0b00000000#8 ++ 0#24) = .ok .nop := by decide
theorem test_decode_reset : decode (0b00000001#8 ++ 0#24) = .ok .reset := by decide
theorem test_decode_csrw : decode (0b00000010#8 ++ 0b00000100#8 ++ 0b0000000000000010#16) = .ok (.csrw 0x04 2) := by decide
theorem test_decode_csrr : decode (0b00000011#8 ++ 0b00100010#8 ++ 0#16) = .ok (.csrr 0x22) := by decide
theorem test_decode_push : decode (0b00000100#8 ++ 0#16 ++ 0b01100001#8) = .ok (.push 0x61) := by decide
theorem test_decode_iclr : decode (0b00000101#8 ++ 0#24) = .ok .iclr := by decide
theorem test_decode_oclr : decode (0b00000110#8 ++ 0#24) = .ok .oclr := by decide
theorem test_decode_lbclr : decode (0b00010000#8 ++ 0#24) = .ok .lbclr := by decide
theorem test_decode_lbrec : decode (0b00010001#8 ++ 0#16 ++ 0b01101001#8) = .ok (.lbrec 0x69) := by decide
theorem test_decode_lbfind : decode (0b00010010#8 ++ 0#24) = .ok .lbfind := by decide
theorem test_decode_cbegin : decode (0b00100000#8 ++ 0#24) = .ok .cbegin := by decide
theorem test_decode_mstep : decode (0b00100001#8 ++ 0#24) = .ok .mstep := by decide
theorem test_decode_build : decode (0b00110000#8 ++ 0#24) = .ok .build := by decide
theorem test_decode_tstore : decode (0b00110001#8 ++ 0#24) = .ok .tstore := by decide
theorem test_decode_tload : decode (0b00110010#8 ++ 0#24) = .ok .tload := by decide
theorem test_decode_wbits :
    decode (0b01000000#8 ++ 0#3 ++ 0b00011#5 ++ 0b0000000000000101#16) = .ok (.wbits 3 0b101) := by decide
theorem test_decode_wfin : decode (0b01000001#8 ++ 0#24) = .ok .wfin := by decide
theorem test_decode_rbit : decode (0b01000010#8 ++ 0#24) = .ok .rbit := by decide
theorem test_decode_ralign : decode (0b01000011#8 ++ 0#24) = .ok .ralign := by decide
theorem test_decode_estep : decode (0b01010000#8 ++ 0#24) = .ok .estep := by decide
theorem test_decode_efin : decode (0b01010001#8 ++ 0#24) = .ok .efin := by decide
theorem test_decode_dstep : decode (0b01010010#8 ++ 0#24) = .ok .dstep := by decide
theorem test_decode_encchunk : decode (0b01011000#8 ++ 0#24) = .ok .encchunk := by decide
theorem test_decode_decchunk : decode (0b01011001#8 ++ 0#24) = .ok .decchunk := by decide
theorem test_decode_compress : decode (0b01100000#8 ++ 0#24) = .ok .compress := by decide
theorem test_decode_decompress : decode (0b01100001#8 ++ 0#24) = .ok .decompress := by decide
/-- V40.2, V40.3, V40.21, V40.23 and the illegal WBITS words of 2.5. -/
theorem test_decode_rejects :
    [0x00000001#32, 0x07000000#32, 0xFFFFFFFF#32, 0x03000001#32, 0x04000100#32, 0x40000000#32, 0x40110000#32,
      0x40030008#32, 0x40200001#32].map decode =
    [.error .nonzeroField, .error .unusedOpcode, .error .unusedOpcode, .error .nonzeroField, .error .nonzeroField,
      .error .badBitCount, .error .badBitCount, .error .highBitsSet, .error .nonzeroField] := by decide
theorem test_table_word : decodeTableWord 32 0x04000061 = some (.push 0x61) := by decide

/-! ## Symbol words (R96, R97) -/

theorem test_symbol_words : literalWord 0x61 = 0x00000061#32 ∧ matchWord 1 9 = 0x40000109#32 ∧
    symbolOf 0x80000000#32 = some .stop ∧ symbolOf 0xC0000000#32 = none ∧ symbolOf 0x40000005#32 = none ∧
    symbolOf 0x40000500#32 = none ∧ symbolOf 0x00000161#32 = none ∧ symbolOf 0x80000001#32 = none := by decide

/-! ## One step each -/

/-- V40.1, R122. -/
theorem test_nop : stepGives (State.reset.withFetchWord 32 0) State.reset = true := by decide +kernel

/-- V40.31. -/
theorem test_reset : gives .reset { failed with olen := 4 } State.reset = true := by decide +kernel

/-- V40.5, and R298: the ring is cleared. -/
theorem test_csrw_cap :
    gives (.csrw 0x00 16) { State.reset with fill := 3, wptr := 3 }
      { State.reset with cap := 16 } = true := by decide +kernel
/-- V40.12. -/
theorem test_csrw_ctrl : gives (.csrw 0x04 2) State.reset { State.reset with ctrl := 0b10 } = true := by decide +kernel

/-- V40.17. -/
theorem test_csrr_root : gives (.csrr 0x22) State.reset { State.reset with rdata := 0x0001FFFF } = true := by
  decide +kernel
/-- V44.1: `CSRR BITACC` gives 0x000003A0. -/
theorem test_csrr_bitacc :
    gives (.csrr 0x1B) { State.reset with acc := 0xA0, nacc := 3 }
      { State.reset with acc := 0xA0, nacc := 3, rdata := 0x000003A0 } = true := by decide +kernel

/-- V40.22. -/
theorem test_push : gives (.push 0x61) State.reset { State.reset with ibuf := [(0, 0x61)], ilen := 1 } = true := by
  decide +kernel
/-- V40.24. -/
theorem test_push_full : gives (.push 0x61) full (full.raise .resourceExhausted 1) = true := by decide +kernel

/-- R127: "from `ILEN = 24`, `IPOS = 24`: after `ICLR` both are 0". -/
theorem test_iclr : gives .iclr { State.reset with ilen := 24, ipos := 24 } State.reset = true := by decide +kernel

/-- R128: "from `OLEN = 2`, `NACC = 3`: after `OCLR`, `OLEN = 0`, `NACC = 0`". -/
theorem test_oclr : gives .oclr { State.reset with olen := 2, nacc := 3, acc := 0xA0, omark := 1 } State.reset = true := by
  decide +kernel

/-- R145. -/
theorem test_lbclr : gives .lbclr { State.reset with fill := 10, wptr := 10 } State.reset = true := by decide +kernel

/-- `CAP = 4`, the bytes "abcdefgh" recorded (P5). -/
def efgh : State := after ((bytes [97, 98, 99, 100, 101, 102, 103, 104]).map .lbrec) { State.reset with cap := 4 }

/-- R146: history "fghi", `WPTR = 1`, `FILL = 4`. -/
theorem test_lbrec : (after [.lbrec 0x69] efgh).history = bytes [102, 103, 104, 105] ∧
    (after [.lbrec 0x69] efgh).wptr = 1 ∧ (after [.lbrec 0x69] efgh).fill = 4 ∧
    (after [.lbrec 0x69] efgh).ring = [(0, 0x69), (1, 0x66), (2, 0x67), (3, 0x68)] := by decide +kernel

/-- V41.12 (overlap across a wrapped ring). -/
theorem test_lbfind_overlap : let t := after [.lbfind] (load [101, 102, 103, 104, 101, 102, 103, 104] efgh)
    t.moff = 4 ∧ t.mlen = 8 ∧ t.fMatch = true := by decide +kernel
/-- V41.1: "offsets 4 and 8 tie at 3; smaller wins". -/
theorem test_lbfind_tie :
    let s := after ((bytes [97, 98, 99, 88, 97, 98, 99, 89]).map .lbrec) { State.reset with cap := 16 }
    let t := after [.lbfind] (load [97, 98, 99, 90] s)
    t.moff = 4 ∧ t.mlen = 3 ∧ t.fMatch = true := by decide +kernel

/-- R161: `ILEN = 9`, `IPOS = 4`, `CHUNK = 4` gives `CSTART = 4`, `CEND = 8`. -/
theorem test_cbegin : gives .cbegin { State.reset with ilen := 9, ipos := 4, chunk := 4, ntok := 2, eidx := 2 } { State.reset with ilen := 9, ipos := 4, chunk := 4, cstart := 4, cend := 8, state := .collecting } = true := by
  decide +kernel

/-- P2: the first MSTEP is a literal. -/
theorem test_mstep_literal : collecting.tokmem = [(0, 0x00000061)] ∧ collecting.ntok = 1 ∧ collecting.ipos = 1 ∧
    collecting.fill = 1 ∧ collecting.fMatch = false := by decide +kernel
/-- R162, P2: the second is `Match(1, 9)`. -/
theorem test_mstep_match : collected.tokmem = [(0, 0x00000061), (1, 0x40000109)] ∧ collected.ipos = 10 ∧
    collected.fill = 10 ∧ collected.moff = 1 ∧ collected.mlen = 9 ∧ collected.fMatch = true := by decide +kernel

/-- R182: nodes and codes of S1. -/
theorem test_build : built.nodemem = [(0, .leaf 0x00000061 1), (1, .leaf 0x40000109 1), (2, .leaf 0x80000000 1),
      (3, .internal 0 1 2), (4, .internal 2 3 3)] ∧ built.root = 4 ∧ built.nnode = 5 ∧ built.nleaf = 3 ∧
    built.codemap = [(0, [true, false]), (1, [true, true]), (2, [false])] ∧ built.state = .treeReady := by decide +kernel
/-- S2: the tree of the empty chunk. -/
theorem test_build_empty : let t := after [.cbegin, .build] State.reset
    t.nodemem = [(0, .leaf 0x80000000 1), (1, .internal 0 0x1FFFF 1)] ∧ t.root = 1 ∧ t.nnode = 2 ∧
    t.codemap = [(0, [false])] := by decide +kernel

/-- R184: the 17 bytes. -/
theorem test_tstore : (after [.tstore] built).output = bytes (record.take 17) := by decide +kernel
/-- R210: a tree that does not fit appends nothing. -/
theorem test_tstore_no_room :
    gives .tstore { built with params := ⟨100, 16⟩ }
      ({ built with params := ⟨100, 16⟩ }.raise .resourceExhausted 2) = true := by decide +kernel

/-- V43.7. -/
theorem test_tload : parsed.nodemem = [(0, .internal 1 2 0), (1, .leaf 0x80000000 0), (2, .internal 3 4 0),
      (3, .leaf 0x00000061 0), (4, .leaf 0x40000109 0)] ∧ parsed.nnode = 5 ∧ parsed.nleaf = 3 ∧ parsed.root = 0 ∧
    parsed.ipos = 17 ∧ parsed.state = .headerParsed := by decide +kernel
/-- V43.10 to V43.19: the information words. -/
theorem test_tload_bad :
    [[], [1, 0x80, 0, 0, 0], [0, 3], [0, 1, 0x80, 0], [0, 1, 0xC0, 0, 0, 0, 2], [0, 1, 0x40, 0, 0, 5, 2],
      [0, 1, 0x40, 0, 5, 0, 2], [0, 1, 0, 0, 1, 0x61, 2], [0, 1, 0x80, 0, 0, 1, 2], [0, 1, 0x80, 0, 0, 0]].map
      (fun l => (after [.tload] (load l State.reset)).errinfo) = [0, 0, 1, 4, 1, 1, 1, 1, 1, 6] := by decide +kernel

/-- V44.2, V44.3. -/
theorem test_wbits : let s := after [.wbits 7 0b0110011] { State.reset with acc := 0xA0, nacc := 3 }
    s.obuf = [(0, 0xAC)] ∧ s.olen = 1 ∧ s.acc = 0xC0 ∧ s.nacc = 2 := by decide +kernel
theorem test_wbits_16 : let s := after [.wbits 16 0xABCD] { State.reset with acc := 0xC0, nacc := 2 }
    s.output = bytes [0xEA, 0xF3] ∧ s.acc = 0x40 ∧ s.nacc = 2 := by decide +kernel

/-- A code map whose stop code is `10`, three bits pending (R206's example). -/
def pending : State := { State.reset with
  acc := 0xC0, nacc := 3, nodemem := [(0, .leaf 0x80000000 1), (1, .internal 3 2 1), (2, .internal 0 4 1)]
  nleaf := 1, nnode := 5, root := 1, tvalid := true, cmvalid := true, codemap := [(0, [true, false])] }

/-- R206: byte 0xD5. -/
theorem test_wfin : (after [.wfin] pending).output = bytes [0xD5] ∧ (after [.wfin] pending).nacc = 0 := by decide +kernel
/-- R206: illegal with pending bits and no code map. -/
theorem test_wfin_illegal :
    gives .wfin { pending with cmvalid := false }
      ({ pending with cmvalid := false }.raise .illegalCommand 0x41000000) = true := by decide +kernel

/-- R207: `ibuf = [0xA5, 0x80]`, the first bit of the second byte and the end. -/
theorem test_rbit : let s := { load [0xA5, 0x80] State.reset with ipos := 1 }
    gives .rbit s { s with ibit := 1, fBit := true } = true := by decide +kernel
theorem test_rbit_exhausted : let s := { load [0xA5, 0x80] State.reset with ipos := 2, fBit := true }
    gives .rbit s { s with fBit := false, fExh := true } = true := by decide +kernel

/-- R208. -/
theorem test_ralign : let s := { load [0xA5, 0x80] State.reset with ibit := 2 }
    gives .ralign s { s with ibit := 0, ipos := 1 } = true ∧ gives .ralign { s with ibit := 0 } { s with ibit := 0 } = true := by
  decide +kernel

/-- R222: `10`, then `11`. -/
theorem test_estep : encoding.acc = 0xB0 ∧ encoding.nacc = 4 ∧ encoding.eidx = 2 ∧ encoding.state = .encoding := by
  decide +kernel
/-- V45.4: a third ESTEP. -/
theorem test_estep_illegal :
    gives .estep encoding (encoding.raise .illegalCommand 0x50000000) = true := by decide +kernel

/-- R223: byte 0xB0. -/
theorem test_efin : (after [.efin] encoding).output = bytes [0xB0] ∧ (after [.efin] encoding).state = .done := by
  decide +kernel

/-- R225: `Literal 'a'`, then `Match(1,9)`. -/
theorem test_dstep : decoding.output = bytes [0x61] ∧ decoding.ipos = 17 ∧ decoding.ibit = 2 ∧
    (after [.dstep] decoding).output = bytes (List.replicate 10 0x61) ∧ (after [.dstep] decoding).ibit = 4 ∧
    (after [.dstep] decoding).dsym = 0x40000109 := by decide +kernel
/-- V60.2: the absent child, on the bit at 8 * 7. -/
theorem test_dstep_mismatch : let s := after [.tload] (load [0, 1, 0x80, 0, 0, 0, 2, 0x80] State.reset)
    gives .dstep s (s.raise .decodeTreeMismatch 56) = true := by decide +kernel

/-- R227. -/
theorem test_encchunk : (after [.encchunk] tenA).output = bytes record ∧ (after [.encchunk] tenA).state = .done := by
  decide +kernel

/-- R228. -/
theorem test_decchunk : let t := after [.decchunk] recordLoaded
    t.output = bytes (List.replicate 10 0x61) ∧ t.ipos = 18 ∧ t.fStop = true ∧ t.state = .done := by decide +kernel
/-- V45.2: no tree, `ERRINFO = ILEN`, raised in `Done`. -/
theorem test_decchunk_no_tree : let t := after [.decchunk, .decchunk] recordLoaded
    t.err = some .malformedHeader ∧ t.errinfo = 18 ∧ t.estate = .done ∧ t.olen = 10 := by decide +kernel

/-- S1. -/
theorem test_compress : (after [.compress] tenA).output = bytes ([0x4C, 0x5A, 0x48, 0x01, 0x00, 0x10] ++ record) := by
  decide +kernel
/-- S1. -/
theorem test_decompress : let t := after [.decompress] (load ([0x4C, 0x5A, 0x48, 0x01, 0x00, 0x10] ++ record) State.reset)
    t.output = bytes (List.replicate 10 0x61) ∧ t.cap = 16 ∧ t.ipos = 24 ∧ t.state = .done := by decide +kernel
/-- V46.10. -/
theorem test_decompress_version : let t := after [.decompress] (load ([0x4C, 0x5A, 0x48, 0x02, 0x00, 0x10] ++ record) State.reset)
    t.err = some .malformedHeader ∧ t.errinfo = 3 ∧ t.cap = 4096 := by decide +kernel

/-! ## Witnesses: for each statement a state and operands that meet its hypotheses, for each clause at a boundary -/

theorem exec_of_gives {i : Instr} {s t : State} (h : gives i s t = true) : exec i s = .next t := by
  unfold gives at h
  split at h
  · rename_i u hu
    rw [hu, of_decide_eq_true h]
  · exact absurd h (by decide)
  · exact absurd h (by decide)

theorem step_of_stepGives {s t : State} (h : stepGives s t = true) : step s = .next t := by
  unfold stepGives at h
  split at h
  · rename_i u hu
    rw [hu, of_decide_eq_true h]
  · exact absurd h (by decide)
  · exact absurd h (by decide)

/-- Issue commands one after another; nothing if one of them fails. -/
def runAll : List Instr → State → Option State
  | [], s => some s
  | i :: is, s =>
    match exec i s with
    | .next t => if t.state = .failed then none else runAll is t
    | .fault _ => none
    | .refused _ => none

theorem runs_of_runAll {is : List Instr} {s t : State} (h : runAll is s = some t) : Runs is s t := by
  induction is generalizing s with
  | nil => exact Option.some.inj h ▸ .done s
  | cons i is ih =>
    unfold runAll at h
    split at h
    · split at h
      · simp at h
      · exact .step ‹_› ‹_› (ih h)
    · simp at h
    · simp at h

theorem runs_of_isSome {is : List Instr} {s : State} (h : (runAll is s).isSome = true) : ∃ t, Runs is s t := by
  obtain ⟨t, ht⟩ := Option.isSome_iff_exists.mp h
  exact ⟨t, runs_of_runAll ht⟩

/-- Does the command answer a next state of which this holds? -/
def givesSome (i : Instr) (s : State) (p : State → Bool) : Bool :=
  match exec i s with
  | .next u => p u
  | .fault _ => false
  | .refused _ => false

theorem exists_of_givesSome {i : Instr} {s : State} {p : State → Bool} (h : givesSome i s p = true) :
    ∃ t, exec i s = .next t ∧ p t = true := by
  unfold givesSome at h
  split at h
  · exact ⟨_, ‹_›, h⟩
  · exact absurd h (by decide)
  · exact absurd h (by decide)

/-- More states: the output full or nearly full, other inputs. -/
def tight (n : Nat) (s : State) : State := { s with params := ⟨100, n⟩ }
def fiveBytes : State := tight 35 (load [1, 2, 3, 4, 5] State.reset)
def oneLeaf : State := after [.tload] (load [0, 1, 0x80, 0, 0, 0, 2, 0x80] State.reset)
def noBits : State := after [.tload] (load (record.take 17) State.reset)
def badOffset : State := after [.tload] (load (record.take 17 ++ [0xC0]) State.reset)
def lastSymbol : State := after [.dstep] decoding
def fileLoaded : State := load ([0x4C, 0x5A, 0x48, 0x01, 0x00, 0x10] ++ record) State.reset
def recordTree : HTree := .node (.leaf 1 0x80000000) (.node (.leaf 3 0x00000061) (.leaf 4 0x40000109))
def builtTree : HTree := .node (.leaf 2 0x80000000) (.node (.leaf 0 0x00000061) (.leaf 1 0x40000109))

theorem inv_full : RegisterInv full := by constructor <;> decide +kernel
theorem inv_tenA : RegisterInv tenA := by constructor <;> decide +kernel
theorem inv_collecting : RegisterInv collecting := by constructor <;> decide +kernel
theorem inv_built : RegisterInv built := by constructor <;> decide +kernel
theorem inv_encoding : RegisterInv encoding := by constructor <;> decide +kernel
theorem inv_recordLoaded : RegisterInv recordLoaded := by constructor <;> decide +kernel
theorem inv_parsed : RegisterInv parsed := by constructor <;> decide +kernel
theorem inv_decoding : RegisterInv decoding := by constructor <;> decide +kernel
theorem inv_lastSymbol : RegisterInv lastSymbol := by constructor <;> decide +kernel
theorem inv_pending : RegisterInv pending := by constructor <;> decide +kernel
theorem inv_oneLeaf : RegisterInv oneLeaf := by constructor <;> decide +kernel
theorem inv_noBits : RegisterInv noBits := by constructor <;> decide +kernel
theorem inv_badOffset : RegisterInv badOffset := by constructor <;> decide +kernel
theorem inv_fileLoaded : RegisterInv fileLoaded := by constructor <;> decide +kernel

theorem witness_ResetGivesResetValuesAndKeepsMemories :
    ({ failed with port := [.resetInput] } : State).port = .resetInput :: [] := rfl

theorem witness_UnreadBitsAreMostSignificantFirst :
    decoding.ipos.toNat < decoding.ilen.toNat ∧ decoding.unread.length = 6 := by decide +kernel

theorem witness_StepRunsTheDecodedCommand :
    ({ tenA with port := [.command 0x20000000#32] } : State).port = .command 0x20000000#32 :: [] ∧
    decode 0x20000000#32 = .ok .cbegin ∧ (Instr.wbits 16 0xFFFF).wellFormed = true := by decide

theorem witness_StepWaitsAndRefusesIllegalWords :
    State.reset.port = [] ∧ decode 0x07000000#32 = .error .unusedOpcode ∧ failed.state = .failed ∧
    parsed.state = .headerParsed := by decide +kernel

theorem witness_CommandsOutsideTheLegalityTableRaise :
    Instr.mstep.wellFormed = true ∧ parsed.state ≠ .failed ∧ ¬ Accepted .mstep parsed ∧
    ¬ Accepted (.csrw 0x00 0) State.reset ∧ ¬ Accepted .mstep collected :=
  ⟨rfl, by decide +kernel, fun h => absurd h.1 (by decide +kernel), fun h => absurd h.2 (by decide),
    fun h => absurd h.2 (by decide +kernel)⟩

theorem witness_AcceptedCommandsRaiseNoIllegalCommand :
    RegisterInv tenA ∧ tenA.state ≠ .failed ∧ Accepted .encchunk tenA ∧ ∃ t, exec .encchunk tenA = .next t ∧ t.err = none :=
  ⟨inv_tenA, by decide, ⟨by decide, by decide, by decide⟩,
    (exists_of_givesSome (p := fun t => decide (t.err = none)) (by decide +kernel)).imp fun _ h =>
      ⟨h.1, of_decide_eq_true h.2⟩⟩

theorem witness_CommandsRaiseOnlyTheirErrors :
    State.reset.err = none ∧ exec .tload State.reset = .next (State.reset.dropTree.raise .malformedHeader 0) ∧
    (State.reset.dropTree.raise .malformedHeader 0).err = some .malformedHeader :=
  ⟨rfl, exec_of_gives (by decide +kernel), rfl⟩

theorem witness_ErrorEntryRecordsTheStateAndRollsBack :
    Composite .dstep = false ∧ oneLeaf.state ≠ .failed ∧
    exec .dstep oneLeaf = .next (oneLeaf.raise .decodeTreeMismatch 56) ∧
    exec .tload State.reset = .next (State.reset.dropTree.raise .malformedHeader 0) :=
  ⟨rfl, by decide +kernel, exec_of_gives (by decide +kernel), exec_of_gives (by decide +kernel)⟩

theorem witness_FailedExecutesNopResetAndCsrrOnly :
    failed.state = .failed ∧ implementedCsr 0x04 ∧ implementedCsr 0x10 ∧ implementedCsr 0x28 ∧ ¬ implementedCsr 0x05 ∧
    ¬ implementedCsr 0x29 ∧ decode 0x07000000#32 = .error .unusedOpcode := by decide

theorem witness_OnlyResetLeavesFailed :
    failed.state = .failed ∧ step failed = .next failed ∧
    step { failed with port := [.resetInput] } = .next State.reset :=
  ⟨rfl, rfl, rfl⟩

theorem witness_StateChangesFollowTheTransitionTable :
    tenA.state ≠ .failed ∧ exec .cbegin tenA = .next tenA.openChunk :=
  ⟨by decide, exec_of_gives (by decide +kernel)⟩

theorem witness_CsrwWritesTheConfiguration :
    ChunkClosed State.reset ∧ 1 ≤ (1#16).toNat ∧ 2 ≤ (2#16).toNat ∧ (255#16).toNat ≤ 255 ∧ (3#16).toNat ≤ 3 := by decide

theorem witness_PushAppendsOneInputByte :
    ChunkClosed State.reset ∧ State.reset.ilen.toNat < State.reset.params.inMax ∧ ChunkClosed full ∧
    full.params.inMax ≤ full.ilen.toNat := by decide

theorem witness_ClearsResetTheirCountersOnly : ChunkClosed pending := by decide

theorem witness_LbrecRecordsOneByte : RegisterInv State.reset ∧ ChunkClosed State.reset := ⟨.reset, by decide⟩

theorem witness_LbfindFindsTheLongestMatch : RegisterInv tenA ∧ ChunkClosed tenA ∧ tenA.ibit = 0 :=
  ⟨inv_tenA, by decide, rfl⟩

theorem witness_SearchResultReplaysAndIsDeterministic :
    RegisterInv collecting ∧ collecting.findLongest collecting.upcoming = (1, 9) ∧
    ({ State.reset with ctrl := 0b10 } : State).ovl = false :=
  ⟨inv_collecting, by decide +kernel, by decide⟩

theorem witness_CbeginOpensAChunk : ChunkClosed tenA ∧ tenA.ibit = 0 ∧ tenA.nacc = 0 := by decide

theorem witness_MstepEmitsOneToken :
    RegisterInv collecting ∧ collecting.state = .collecting ∧ collecting.ipos.toNat < collecting.cend.toNat ∧
    (after [.cbegin] tenA).state = .collecting ∧ (after [.cbegin] tenA).ipos.toNat < (after [.cbegin] tenA).cend.toNat :=
  ⟨inv_collecting, by decide +kernel⟩

/-- The hypotheses the statements about BUILD share, for a chunk with tokens and for the empty chunk. -/
theorem witness_BuildStatements :
    collected.state = .collecting ∧ collected.ipos = collected.cend ∧
    (∀ k < collected.ntok.toNat, tokenWord (collected.tokAt k) = true) ∧ 1 ≤ collected.ntok.toNat ∧
    exec .build collected = .next built ∧ 2 ≤ built.nleaf.toNat ∧
    (after [.cbegin] State.reset).ipos = (after [.cbegin] State.reset).cend ∧
    (after [.cbegin, .build] State.reset).nleaf = 1 :=
  ⟨by decide +kernel, by decide +kernel, by decide +kernel, by decide +kernel, exec_of_gives (by decide +kernel),
    by decide +kernel⟩

theorem witness_BuildDoesNotDependOnTokenOrder :
    collected.state = .collecting ∧ collected.ipos = collected.cend ∧ collected.tokens.Perm collected.tokens ∧
    exec .build collected = .next built :=
  ⟨by decide +kernel, by decide +kernel, .refl _, exec_of_gives (by decide +kernel)⟩

theorem witness_TstoreAppendsTheTreeBytes :
    RegisterInv (tight 17 built) ∧ (tight 17 built).state = .treeReady ∧ (tight 17 built).tree = some builtTree ∧
    (tight 17 built).olen.toNat + builtTree.ser.length ≤ (tight 17 built).params.outMax ∧
    RegisterInv (tight 16 built) ∧ (tight 16 built).tree = some builtTree ∧
    (tight 16 built).params.outMax < (tight 16 built).olen.toNat + builtTree.ser.length :=
  ⟨by constructor <;> decide +kernel, by decide +kernel, by decide +kernel, by decide +kernel,
    by constructor <;> decide +kernel, by decide +kernel⟩

theorem witness_TloadReadsTheTreeThatWasSerialised :
    RegisterInv recordLoaded ∧ ChunkClosed recordLoaded ∧ recordLoaded.ibit = 0 ∧ recordLoaded.nacc = 0 ∧
    recordTree.symbolsValid = true ∧ recordTree.size ≤ 131071 ∧
    recordLoaded.ipos.toNat + recordTree.ser.length ≤ recordLoaded.ilen.toNat ∧
    recordLoaded.ibufSlice recordLoaded.ipos.toNat recordTree.ser.length = recordTree.ser :=
  ⟨inv_recordLoaded, by decide +kernel⟩

theorem witness_TloadAcceptsOnlySerialisedTrees :
    RegisterInv recordLoaded ∧ ChunkClosed recordLoaded ∧ exec .tload recordLoaded = .next parsed ∧
    parsed.state = .headerParsed :=
  ⟨inv_recordLoaded, by decide +kernel, exec_of_gives (by decide +kernel), by decide +kernel⟩

/-- One item read, a root, on input that begins with its tag. -/
theorem itemsRead_root {s : State} (hb : s.ipos.toNat + 1 ≤ s.ilen.toNat) (h0 : s.ibufSlice s.ipos.toNat 1 = [0x00]) :
    s.ItemsRead [.internal] where
  unfinished := rfl
  root_internal := by simp
  symbols_valid := by simp
  nodes_fit := by decide
  bytes_there := hb
  bytes_eq := h0

theorem itemsRead_nothing {s : State} (hb : s.ipos.toNat ≤ s.ilen.toNat) : s.ItemsRead [] where
  unfinished := rfl
  root_internal := by simp
  symbols_valid := by simp
  nodes_fit := by decide
  bytes_there := hb
  bytes_eq := rfl

/-- NODE_MAX root tags and one more. -/
def deep : State := { State.reset with ilen := 131072 }

theorem itemsRead_internals {s : State} {k : Nat} (hm : s.ibuf = []) (hk : k ≤ 131071)
    (hb : s.ipos.toNat + k ≤ s.ilen.toNat) : s.ItemsRead (List.replicate k .internal) where
  unfinished := moreToCome_internals _ _ (by decide)
  root_internal := by intro x hx; exact (List.mem_replicate.mp (List.mem_of_mem_head? hx)).2
  symbols_valid := by simp [List.mem_replicate]
  nodes_fit := by rwa [itemNodes_internals]
  bytes_there := by rwa [itemBytes_internals, List.length_replicate]
  bytes_eq := by rw [itemBytes_internals, List.length_replicate, State.ibufSlice, hm]; exact readSeq_nil _ _ _

/-- A row of R261 for each clause: bytes missing, no root, unknown tag, truncated leaf, invalid symbol word, NODE_MAX. -/
theorem witness_TloadOnBadTreeClearsTheTreeAndRaises :
    (RegisterInv State.reset ∧ ChunkClosed State.reset ∧ State.reset.ipos = State.reset.ilen ∧
      (load [1] State.reset).ipos ≠ (load [1] State.reset).ilen ∧
      (load [1] State.reset).ibufAt (load [1] State.reset).ipos.toNat ≠ 0x00#8 ∧
      exec .tload State.reset = .next (State.reset.dropTree.raise .malformedHeader 0)) ∧
    ((load [0] State.reset).ItemsRead [.internal] ∧ (load [0] State.reset).BadTag [.internal] 1) ∧
    ((load [1] State.reset).ItemsRead [] ∧ (load [1] State.reset).BadTag [] 0) ∧
    ((load [0, 3] State.reset).ItemsRead [.internal] ∧ (load [0, 3] State.reset).BadTag [.internal] 1) ∧
    ((load [0, 1, 0x80, 0] State.reset).ItemsRead [.internal] ∧
      (load [0, 1, 0x80, 0] State.reset).BadTag [.internal] 4) ∧
    ((load [0, 1, 0xC0, 0, 0, 0, 2] State.reset).ItemsRead [.internal] ∧
      (load [0, 1, 0xC0, 0, 0, 0, 2] State.reset).BadTag [.internal] 1) ∧
    (RegisterInv deep ∧ deep.ItemsRead (List.replicate 131071 .internal) ∧
      deep.BadTag (List.replicate 131071 .internal) 131071) := by
  have hd : deep.tagAt (List.replicate 131071 .internal) = 131071 := by
    rw [State.tagAt, itemBytes_internals, List.length_replicate]; rfl
  refine ⟨⟨.reset, by decide, rfl, by decide, by decide, exec_of_gives (by decide +kernel)⟩,
    ⟨itemsRead_root (by decide) (by decide), .missing rfl⟩,
    ⟨itemsRead_nothing (by decide), .root rfl (by decide) (by decide)⟩,
    ⟨itemsRead_root (by decide) (by decide), .unknown (by decide) (by decide)⟩,
    ⟨itemsRead_root (by decide) (by decide), .truncated (by decide) (by decide) (by decide) (by decide)⟩,
    ⟨itemsRead_root (by decide) (by decide), .invalid (by decide) (by decide) (by decide) (by decide)⟩,
    by constructor <;> decide +kernel, itemsRead_internals rfl (by decide) (by decide), ?_⟩
  have h : deep.BadTag (List.replicate 131071 .internal) (deep.tagAt (List.replicate 131071 .internal)) :=
    .tooMany (itemNodes_internals _) (by rw [hd]; decide) (.inl (by rw [hd]; rfl))
  rwa [hd] at h

theorem witness_WbitsWritesItsBits :
    RegisterInv full ∧ ChunkClosed full ∧ 1 ≤ (1#5).toNat ∧ (1#16).toNat < 2 ^ (1#5).toNat ∧ (16#5).toNat ≤ 16 ∧
    (0xFFFF#16).toNat < 2 ^ (16#5).toNat ∧ full.olen.toNat + (full.nacc.toNat + (7#5).toNat) / 8 ≤ full.params.outMax ∧
    full.params.outMax < full.olen.toNat + (full.nacc.toNat + (8#5).toNat) / 8 :=
  ⟨inv_full, by decide, by decide, by decide, by decide, by decide, by decide, by decide⟩

theorem witness_WfinPadsWithTheStopCode :
    RegisterInv pending ∧ ChunkClosed pending ∧ pending.nacc ≠ 0 ∧ pending.cmvalid = true ∧
    pending.codeOf 0x80000000#32 = some [true, false] ∧ pending.olen.toNat + 1 ≤ pending.params.outMax ∧
    RegisterInv (tight 1 { pending with olen := 1 }) ∧
    (tight 1 { pending with olen := 1 }).params.outMax < (tight 1 { pending with olen := 1 }).olen.toNat + 1 ∧
    State.reset.nacc = 0 :=
  ⟨inv_pending, by decide, by decide, by decide, by decide +kernel, by decide, by constructor <;> decide +kernel,
    by decide, rfl⟩

theorem witness_RbitAndRalignMoveTheReadCursor :
    ChunkClosed tenA ∧ tenA.ipos.toNat < tenA.ilen.toNat ∧ tenA.ibit = 0 ∧
    ({ tenA with ibit := 7 } : State).ibit ≠ 0 ∧ State.reset.ilen.toNat ≤ State.reset.ipos.toNat := by decide +kernel

/-- An encoding state whose output is full, seven bits pending. -/
def crowded : State := tight 1 { encoding with eidx := 1, nacc := 7, acc := 0xFE, olen := 1 }

theorem inv_crowded : RegisterInv crowded := by constructor <;> decide +kernel

theorem witness_EstepWritesOneTokenCode :
    RegisterInv built ∧ built.state = .treeReady ∧ built.eidx.toNat < built.ntok.toNat ∧
    built.codeOf (built.tokAt built.eidx.toNat) = some [true, false] ∧
    built.olen.toNat + (built.nacc.toNat + 2) / 8 ≤ built.params.outMax ∧
    RegisterInv crowded ∧ crowded.state = .encoding ∧ crowded.eidx.toNat < crowded.ntok.toNat ∧
    crowded.codeOf (crowded.tokAt crowded.eidx.toNat) = some [true, true] ∧
    crowded.params.outMax < crowded.olen.toNat + (crowded.nacc.toNat + 2) / 8 :=
  ⟨inv_built, by decide +kernel, by decide +kernel, by decide +kernel, by decide +kernel, inv_crowded, by decide +kernel⟩

theorem witness_EfinWritesTheStopCodeAndPads :
    RegisterInv encoding ∧ encoding.state = .encoding ∧ encoding.eidx = encoding.ntok ∧
    encoding.codeOf 0x80000000#32 = some [false] ∧
    encoding.olen.toNat + (encoding.nacc.toNat + 1 + 7) / 8 ≤ encoding.params.outMax ∧
    RegisterInv { crowded with eidx := 2 } ∧ ({ crowded with eidx := 2 } : State).eidx = crowded.ntok ∧
    crowded.params.outMax < crowded.olen.toNat + (crowded.nacc.toNat + 1 + 7) / 8 :=
  ⟨inv_encoding, by decide +kernel, by decide +kernel, by decide +kernel, by decide +kernel,
    by constructor <;> decide +kernel, by decide +kernel⟩

theorem witness_DstepDecodesAndAppliesOneSymbol :
    (RegisterInv parsed ∧ parsed.state = .headerParsed ∧ parsed.tree = some recordTree ∧
      recordTree.follow [true, false] = some (.leaf 3 0x00000061) ∧ [true, false] <+: parsed.unread ∧
      symbolOf 0x00000061#32 = some (.literal 0x61) ∧
      parsed.olen.toNat + (expand parsed.history (.literal 0x61)).length ≤ parsed.params.outMax) ∧
    (RegisterInv (tight 10 decoding) ∧ (tight 10 decoding).state = .decoding ∧ (tight 10 decoding).tree = some recordTree ∧
      recordTree.follow [true, true] = some (.leaf 4 0x40000109) ∧ [true, true] <+: (tight 10 decoding).unread ∧
      symbolOf 0x40000109#32 = some (.copy 1 9) ∧ (1#16).toNat ≤ (tight 10 decoding).fill.toNat ∧
      (tight 10 decoding).olen.toNat + (expand (tight 10 decoding).history (.copy 1 9)).length ≤ 10) ∧
    (RegisterInv lastSymbol ∧ lastSymbol.state = .decoding ∧ lastSymbol.tree = some recordTree ∧
      recordTree.follow [false] = some (.leaf 1 0x80000000) ∧ [false] <+: lastSymbol.unread) :=
  ⟨⟨inv_parsed, by decide +kernel⟩,
    ⟨by constructor <;> decide +kernel, by decide +kernel⟩,
    ⟨inv_lastSymbol, by decide +kernel⟩⟩

theorem witness_DstepEndsOrRaisesWhereNoTokenApplies :
    (RegisterInv oneLeaf ∧ oneLeaf.state = .headerParsed ∧ oneLeaf.tree = some (.node (.leaf 1 0x80000000) .nil) ∧
      (HTree.node (.leaf 1 0x80000000) .nil).follow [true] = some .nil ∧ [true] <+: oneLeaf.unread) ∧
    (RegisterInv noBits ∧ noBits.state = .headerParsed ∧ noBits.tree = some recordTree ∧
      recordTree.follow noBits.unread = some recordTree ∧ noBits.last = true ∧
      ({ noBits with ctrl := 0b01 } : State).last = false) ∧
    (RegisterInv badOffset ∧ badOffset.tree = some recordTree ∧ [true, true] <+: badOffset.unread ∧
      symbolOf 0x40000109#32 = some (.copy 1 9) ∧ badOffset.fill.toNat < (1#16).toNat) ∧
    (RegisterInv (tight 9 decoding) ∧ (tight 9 decoding).tree = some recordTree ∧
      [true, true] <+: (tight 9 decoding).unread ∧ (1#16).toNat ≤ (tight 9 decoding).fill.toNat ∧
      9 < (tight 9 decoding).olen.toNat + (expand (tight 9 decoding).history (.copy 1 9)).length) :=
  ⟨⟨inv_oneLeaf, by decide +kernel⟩,
    ⟨inv_noBits, by decide +kernel⟩,
    ⟨inv_badOffset, by decide +kernel⟩,
    ⟨by constructor <;> decide +kernel, by decide +kernel⟩⟩

/-- S1 with the header written, before its one chunk. -/
def headed : State := { tenA with obuf := Mem.writeSeq (0 : Byte) [] 0 (fileHeader 16), olen := 6 }

theorem witness_CompositesAreTheirPrimitivesInSequence :
    RegisterInv tenA ∧
    (∃ t, Runs (.cbegin :: (List.replicate 2 .mstep ++ [.build, .tstore] ++ List.replicate 2 .estep ++ [.efin])) tenA t) ∧
    (∃ t, Runs (.tload :: List.replicate 3 .dstep) recordLoaded t ∧ t.state = .done) ∧
    (ChunkClosed tenA ∧ tenA.ibit = 0 ∧ 6 ≤ tenA.params.outMax ∧ Memory.wf tenA.obuf = true ∧
      Memory.wf headed.obuf = true ∧ headed.olen = 6 ∧ headed.obufSlice 0 6 = [0x4C, 0x5A, 0x48, 0x01, 0x00, 0x10] ∧
      ∃ t, RunsUntilUsed .encchunk headed t) ∧
    (fileLoaded.ipos.toNat + 6 ≤ fileLoaded.ilen.toNat ∧
      fileLoaded.ibufSlice fileLoaded.ipos.toNat 6 = [0x4C, 0x5A, 0x48, 0x01, 0x00, 0x10] ∧
      ∃ t, RunsUntilUsed .decchunk (fileLoaded.openFile 16) t) := by
  refine ⟨inv_tenA, runs_of_isSome (by decide +kernel), ?_, ⟨by decide, by decide, by decide +kernel, by decide,
    by decide +kernel, rfl, by decide +kernel, ?_⟩, by decide +kernel, by decide +kernel, ?_⟩
  · have h : ((runAll (.tload :: List.replicate 3 .dstep) recordLoaded).any fun t => decide (t.state = .done)) = true := by
      decide +kernel
    obtain ⟨t, ht, hd⟩ := Option.any_eq_true _ _ |>.mp h
    exact ⟨t, runs_of_runAll ht, of_decide_eq_true hd⟩
  · obtain ⟨t, ht, hp⟩ := exists_of_givesSome (i := .encchunk) (s := headed)
      (p := fun t => decide (t.state ≠ .failed) && decide (t.ilen.toNat ≤ t.ipos.toNat)) (by decide +kernel)
    simp only [Bool.and_eq_true, decide_eq_true_eq] at hp
    exact ⟨t, .last ht hp.1 hp.2⟩
  · obtain ⟨t, ht, hp⟩ := exists_of_givesSome (i := .decchunk) (s := fileLoaded.openFile 16)
      (p := fun t => decide (t.state ≠ .failed) && decide (t.ilen.toNat ≤ t.ipos.toNat)) (by decide +kernel)
    simp only [Bool.and_eq_true, decide_eq_true_eq] at hp
    exact ⟨t, .last ht hp.1 hp.2⟩

/-- Issue commands, none of which fails, and then one that does. -/
def thenFails (is : List Instr) (i : Instr) (s : State) (p : State → Bool) : Bool :=
  (runAll is s).any fun u => p u && givesSome i u fun t => decide (t.state = .failed)

theorem exists_of_thenFails {is : List Instr} {i : Instr} {s : State} {p : State → Bool}
    (h : thenFails is i s p = true) : ∃ u t, Runs is s u ∧ p u = true ∧ exec i u = .next t ∧ t.state = .failed := by
  obtain ⟨u, hu, hp⟩ := Option.any_eq_true _ _ |>.mp h
  simp only [Bool.and_eq_true] at hp
  obtain ⟨t, ht, hf⟩ := exists_of_givesSome hp.2
  exact ⟨u, t, runs_of_runAll hu, hp.1, ht, of_decide_eq_true hf⟩

/-- One round of a file composite, after which bytes remain, and then one that fails. -/
def roundThenFails (i : Instr) (h : State) (p : State → Bool) : Bool :=
  givesSome i h fun u => decide (u.state ≠ .failed) && decide (u.ipos.toNat < u.ilen.toNat) &&
    givesSome i u fun t => decide (t.state = .failed) && p t

theorem exists_of_roundThenFails {i : Instr} {h : State} {p : State → Bool} (hr : roundThenFails i h p = true) :
    ∃ u t, RoundsBefore i h u ∧ exec i u = .next t ∧ t.state = .failed ∧ p t = true := by
  obtain ⟨u, hu, hp⟩ := exists_of_givesSome hr
  simp only [Bool.and_eq_true, decide_eq_true_eq] at hp
  obtain ⟨t, ht, hf⟩ := exists_of_givesSome hp.2
  simp only [Bool.and_eq_true, decide_eq_true_eq] at hf
  exact ⟨u, t, .more hu hp.1.1 hp.1.2 (.here u), ht, hf⟩

/-- S1 in two chunks with room for the header and the first of them. -/
def twoChunks : State := tight 30 { tenA with chunk := 5 }
def twoHeaded : State := { twoChunks with obuf := Mem.writeSeq (0 : Byte) [] 0 (fileHeader 16), olen := 6 }

/-- S1's file with a second chunk that is no tree, and one whose bits end (`LAST = 0`). -/
def thenNoTree : State := load ([0x4C, 0x5A, 0x48, 0x01, 0x00, 0x10] ++ record ++ [0, 3]) State.reset
def thenNoBits : State :=
  { load ([0x4C, 0x5A, 0x48, 0x01, 0x00, 0x10] ++ record ++ record.take 17) State.reset with ctrl := 0b01 }

theorem witness_CompositesStopAtTheFirstError :
    (RegisterInv (tight 16 tenA) ∧ ∃ u t, Runs (.cbegin :: (List.replicate 2 .mstep ++ [.build])) (tight 16 tenA) u ∧
      true = true ∧ exec .tstore u = .next t ∧ t.state = .failed) ∧
    (RegisterInv fiveBytes ∧ ∃ u t,
      Runs (.cbegin :: (List.replicate 5 .mstep ++ [.build, .tstore] ++ List.replicate 2 .estep)) fiveBytes u ∧
      decide (u.eidx.toNat < u.ntok.toNat) = true ∧ exec .estep u = .next t ∧ t.state = .failed) ∧
    (RegisterInv (tight 17 tenA) ∧ ∃ u t,
      Runs (.cbegin :: (List.replicate 2 .mstep ++ [.build, .tstore] ++ List.replicate 2 .estep)) (tight 17 tenA) u ∧
      decide (u.eidx = u.ntok) = true ∧ exec .efin u = .next t ∧ t.state = .failed) ∧
    (Accepted .tload State.reset ∧ exec .tload State.reset = .next (State.reset.dropTree.raise .malformedHeader 0)) ∧
    (∃ u t, Runs (.tload :: List.replicate 0 .dstep) (load [0, 1, 0x80, 0, 0, 0, 2, 0x80] State.reset) u ∧
      decide (u.state ≠ .done) = true ∧ exec .dstep u = .next t ∧ t.state = .failed) ∧
    (RegisterInv twoChunks ∧ ChunkClosed twoChunks ∧ twoChunks.ibit = 0 ∧ 6 ≤ twoChunks.params.outMax ∧
      Memory.wf twoChunks.obuf = true ∧ Memory.wf twoHeaded.obuf = true ∧
      twoHeaded.obufSlice 0 6 = [0x4C, 0x5A, 0x48, 0x01, 0x00, 0x10] ∧
      ∃ u t, RoundsBefore .encchunk twoHeaded u ∧ exec .encchunk u = .next t ∧ t.state = .failed ∧ true = true) ∧
    (RegisterInv (tight 5 tenA) ∧ (tight 5 tenA).params.outMax < 6) ∧
    (RegisterInv thenNoTree ∧ thenNoTree.ibufSlice 0 6 = [0x4C, 0x5A, 0x48, 0x01, 0x00, 0x10] ∧
      ∃ u t, RoundsBefore .decchunk (thenNoTree.openFile 16) u ∧ exec .decchunk u = .next t ∧ t.state = .failed ∧
        decide (t.estate = .done) = true) ∧
    (RegisterInv thenNoBits ∧ thenNoBits.ibufSlice 0 6 = [0x4C, 0x5A, 0x48, 0x01, 0x00, 0x10] ∧
      ∃ u t, RoundsBefore .decchunk (thenNoBits.openFile 16) u ∧ exec .decchunk u = .next t ∧ t.state = .failed ∧
        decide (t.estate = .headerParsed) = true) :=
  ⟨⟨by constructor <;> decide +kernel, exists_of_thenFails (p := fun _ => true) (by decide +kernel)⟩,
    ⟨by constructor <;> decide +kernel,
      exists_of_thenFails (p := fun u => decide (u.eidx.toNat < u.ntok.toNat)) (by decide +kernel)⟩,
    ⟨by constructor <;> decide +kernel, exists_of_thenFails (p := fun u => decide (u.eidx = u.ntok)) (by decide +kernel)⟩,
    ⟨⟨by decide, by decide, by decide⟩, exec_of_gives (by decide +kernel)⟩,
    exists_of_thenFails (p := fun u => decide (u.state ≠ .done)) (by decide +kernel),
    ⟨by constructor <;> decide +kernel, by decide, by decide, by decide, by decide, by decide +kernel, by decide +kernel,
      exists_of_roundThenFails (p := fun _ => true) (by decide +kernel)⟩,
    ⟨by constructor <;> decide +kernel, by decide⟩,
    ⟨by constructor <;> decide +kernel, by decide +kernel,
      exists_of_roundThenFails (p := fun t => decide (t.estate = .done)) (by decide +kernel)⟩,
    ⟨by constructor <;> decide +kernel, by decide +kernel,
      exists_of_roundThenFails (p := fun t => decide (t.estate = .headerParsed)) (by decide +kernel)⟩⟩

theorem witness_EncchunkAppendsTheChunkRecord :
    RegisterInv (tight 18 tenA) ∧ ChunkClosed tenA ∧ tenA.ibit = 0 ∧ tenA.nacc = 0 ∧
    (tight 18 tenA).olen.toNat + (tight 18 tenA).chunkRecord.length ≤ (tight 18 tenA).params.outMax ∧
    RegisterInv (tight 17 tenA) ∧
    (tight 17 tenA).params.outMax < (tight 17 tenA).olen.toNat + (tight 17 tenA).chunkRecord.length :=
  ⟨by constructor <;> decide +kernel, by decide, by decide, by decide, by decide +kernel,
    by constructor <;> decide +kernel, by decide +kernel⟩

theorem witness_DecchunkDecodesWhatEncchunkEncodes :
    RegisterInv tenA ∧ RegisterInv (tight 10 recordLoaded) ∧ ChunkClosed recordLoaded ∧ recordLoaded.ibit = 0 ∧
    recordLoaded.nacc = 0 ∧ recordLoaded.cap = tenA.cap ∧ recordLoaded.history = tenA.history ∧
    recordLoaded.ipos.toNat + tenA.chunkRecord.length ≤ recordLoaded.ilen.toNat ∧
    recordLoaded.ibufSlice recordLoaded.ipos.toNat tenA.chunkRecord.length = tenA.chunkRecord ∧
    (tight 10 recordLoaded).olen.toNat +
      (tenA.ibufSlice tenA.ipos.toNat (min tenA.chunk.toNat (tenA.ilen.toNat - tenA.ipos.toNat))).length ≤ 10 :=
  ⟨inv_tenA, by constructor <;> decide +kernel, by decide +kernel⟩

theorem witness_CompressWritesTheFile :
    RegisterInv (tight 24 tenA) ∧ ChunkClosed tenA ∧ tenA.ibit = 0 ∧
    (tight 24 tenA).fileBytes.length ≤ (tight 24 tenA).params.outMax ∧
    RegisterInv (tight 23 tenA) ∧ (tight 23 tenA).params.outMax < (tight 23 tenA).fileBytes.length :=
  ⟨by constructor <;> decide +kernel, by decide, by decide, by decide +kernel, by constructor <;> decide +kernel,
    by decide +kernel⟩

theorem witness_DecompressInvertsCompress :
    RegisterInv tenA ∧ RegisterInv (tight 10 fileLoaded) ∧ ChunkClosed fileLoaded ∧ fileLoaded.ibit = 0 ∧
    fileLoaded.ibufSlice fileLoaded.ipos.toNat (fileLoaded.ilen.toNat - fileLoaded.ipos.toNat) = tenA.fileBytes ∧
    (tenA.ibufSlice tenA.ipos.toNat (tenA.ilen.toNat - tenA.ipos.toNat)).length ≤ (tight 10 fileLoaded).params.outMax :=
  ⟨inv_tenA, by constructor <;> decide +kernel, by decide +kernel⟩

/-- S1's file with its capacity altered. -/
def altered (cap : BitVec 16) : State := load ((fileHeader cap).map BitVec.toNat ++ record) State.reset

theorem witness_AlteredCapacityIsNeverSilentlyWrong :
    ((altered 16).ibufSlice (altered 16).ipos.toNat ((altered 16).ilen.toNat - (altered 16).ipos.toNat) =
      fileHeader 16 ++ tenA.fileBytes.drop 6 ∧
      (tenA.ibufSlice tenA.ipos.toNat (tenA.ilen.toNat - tenA.ipos.toNat)).length ≤ (altered 16).params.outMax) ∧
    givesSome .decompress (altered 0) (fun t => decide (t.err = some .malformedHeader)) = true ∧
    givesSome .decompress (altered 1) (fun t => decide (t.state = .done)) = true ∧
    givesSome .decompress (altered 65535) (fun t => decide (t.state = .done)) = true :=
  ⟨by decide +kernel, by decide +kernel⟩

theorem witness_DecompressChecksTheFileHeader :
    RegisterInv fileLoaded ∧ ChunkClosed fileLoaded ∧ fileLoaded.ibit = 0 ∧
    (load [0x4C, 0x5A, 0x48, 0x01, 0x00] State.reset).ilen.toNat < 0 + 6 ∧
    0 + 6 ≤ (load [0x4C, 0x5A, 0x48, 0x01, 0x00, 0x00] State.reset).ilen.toNat ∧
    (load [0x00, 0x5A, 0x48, 0x01, 0x00, 0x00] State.reset).ibufAt 0 ≠ 0x4C#8 ∧
    (load [0x4C, 0x00, 0x48, 0x01, 0x00, 0x00] State.reset).ibufAt 1 ≠ 0x5A#8 ∧
    (load [0x4C, 0x5A, 0x00, 0x01, 0x00, 0x00] State.reset).ibufAt 2 ≠ 0x48#8 ∧
    (load [0x4C, 0x5A, 0x48, 0x00, 0x00, 0x00] State.reset).ibufAt 3 ≠ 0x01#8 ∧
    (load [0x4C, 0x5A, 0x48, 0x01, 0x00, 0x00] State.reset).ibufAt 4 = 0#8 ∧
    (load [0x4C, 0x5A, 0x48, 0x01, 0x00, 0x00] State.reset).ibufAt 5 = 0#8 :=
  ⟨inv_fileLoaded, by decide +kernel⟩

/-- The 14 bytes of R250 with `CAP = 1`, loaded. -/
def emptyFile : State :=
  load [0x4C, 0x5A, 0x48, 0x01, 0x00, 0x01, 0x00, 0x01, 0x80, 0x00, 0x00, 0x00, 0x02, 0x00] State.reset

theorem witness_EmptyInputGivesFourteenBytes :
    (RegisterInv (tight 14 State.reset) ∧ ChunkClosed State.reset ∧ State.reset.ibit = 0 ∧
      State.reset.ipos = State.reset.ilen ∧ 14 ≤ (tight 14 State.reset).params.outMax) ∧
    (RegisterInv emptyFile ∧ ChunkClosed emptyFile ∧ emptyFile.ibit = 0 ∧
      emptyFile.ibufSlice emptyFile.ipos.toNat (emptyFile.ilen.toNat - emptyFile.ipos.toNat) =
        [0x4C, 0x5A, 0x48, 0x01, (1#16).extractLsb' 8 8, (1#16).extractLsb' 0 8,
          0x00, 0x01, 0x80, 0x00, 0x00, 0x00, 0x02, 0x00]) :=
  ⟨⟨by constructor <;> decide +kernel, by decide, rfl, rfl, by decide⟩,
    by constructor <;> decide +kernel, by decide +kernel⟩

theorem witness_EachRegisterHasItsWriters :
    RegisterInv collected ∧ exec .build collected = .next built ∧ Instr.build ≠ .reset :=
  ⟨by constructor <;> decide +kernel, exec_of_gives (by decide +kernel), by decide⟩

theorem witness_ReadoutAnswersExactlyTheValidEntries : RegisterInv built ∧ built.readRing 9 = some 0x61 ∧
    built.readRing 10 = none ∧ built.readCodemap 2 = some [false] :=
  ⟨inv_built, by decide +kernel⟩

theorem memoryInv_built : MemoryInv built := by constructor <;> decide +kernel
theorem treeInv_built : TreeInv built := by constructor <;> decide +kernel
theorem step_built : step built = .next built := step_of_stepGives (by decide +kernel)

theorem witness_StepKeepsTheInvariants : RegisterInv built ∧ MemoryInv built ∧ TreeInv built ∧
    ∃ t, step built = .next t := ⟨inv_built, memoryInv_built, treeInv_built, built, step_built⟩

theorem witness_StepKeepsTheCollectedInvariant : CollectedInv collected where
  tokens_legal _ := by
    intro k hk
    have h2 : collected.ntok.toNat = 2 := by decide +kernel
    have h0 : symbolOf (collected.tokAt 0) = some (.literal 0x61) := by decide +kernel
    have h1 : symbolOf (collected.tokAt 1) = some (.copy 1 9) := by decide +kernel
    rcases (by omega : k = 0 ∨ k = 1) with rfl | rfl
    · rw [tokenLegal, h0]; trivial
    · rw [tokenLegal, h1]; decide +kernel
  expansion _ := ⟨[], by decide +kernel⟩

theorem witness_NoStepStops : RegisterInv built ∧ TreeInv built ∧ (⟨1, 1⟩ : Config.Params).legal :=
  ⟨inv_built, treeInv_built, by decide⟩

/-! ## Reset -/

theorem test_reset_memories_wf : Memory.wf State.reset.ring = true ∧ Memory.wf State.reset.ibuf = true ∧
    Memory.wf State.reset.obuf = true ∧ Mem.wf (0 : Word) State.reset.tokmem = true ∧
    Mem.wf Node.zero State.reset.nodemem = true ∧ Mem.wf ([] : Bits) State.reset.codemap = true := by decide

end Sys2Proof.Tests
end

section
/-! ## The dispatch of a command and what every step keeps (40_host_config.md R120, 45_chunk_codec.md R229) -/

namespace Sys2Proof.Machine

open Sys2Proof

/-- The pseudocode of a command, apart from the checks of R120. -/
def bodyOf : Instr → State → Res
  | .nop => .ok
  | .reset => fun s => .ok s.resetRegisters
  | .csrw a v => csrwBody a v
  | .csrr a => csrrBody a
  | .push b => pushBody b
  | .iclr => iclrBody
  | .oclr => oclrBody
  | .lbclr => lbclrBody
  | .lbrec b => lbrecBody b
  | .lbfind => lbfindBody
  | .cbegin => cbeginBody
  | .mstep => mstepBody
  | .build => buildBody
  | .tstore => tstoreBody
  | .tload => tloadBody
  | .wbits n v => wbitsBody n v
  | .wfin => wfinBody
  | .rbit => rbitBody
  | .ralign => ralignBody
  | .estep => estepBody
  | .efin => efinBody
  | .dstep => dstepBody
  | .encchunk => encchunkBody
  | .decchunk => decchunkBody
  | .compress => compressBody
  | .decompress => decompressBody

/-- Every arm of `exec` is the dispatch of R120 around the command's pseudocode. -/
theorem exec_eq_command (i : Instr) (s : State) : exec i s = command i (bodyOf i) s := by
  cases i <;> rfl

/-- What `Failed` still executes passes the checks of R120 in every state. -/
theorem checks_of_runsInFailed {i : Instr} {s : State} (h : runsInFailed i = true) :
    legalIn i s.state = true ∧ precondition i s = true := by
  cases i with
  | nop => exact ⟨rfl, rfl⟩
  | reset => exact ⟨rfl, rfl⟩
  | csrr a => exact ⟨rfl, h⟩
  | _ => cases h

/-- What a command that answers a next state has done: nothing in `Failed`, error entry for a failed check, or its
pseudocode, which completed or raised. -/
theorem exec_next {i : Instr} {s t : State} (h : exec i s = .next t) :
    (s.state = .failed ∧ t = s) ∨
    (s.state ≠ .failed ∧ t = s.raise .illegalCommand (encode i)) ∨
    (legalIn i s.state = true ∧ precondition i s = true ∧ (bodyOf i s).outcome = .next t ∧
      (s.state = .failed → runsInFailed i = true)) := by
  rw [exec_eq_command] at h
  rcases command_cases i (bodyOf i) s with ⟨hf, -, he⟩ | ⟨-, hr, he⟩ | ⟨hf, he⟩ <;> rw [he] at h
  · exact .inl ⟨hf, (Host.Outcome.next.inj h).symm⟩
  · exact .inr (.inr ⟨(checks_of_runsInFailed hr).1, (checks_of_runsInFailed hr).2, h, fun _ => hr⟩)
  · rcases runChecked_cases i (bodyOf i) s with ⟨-, hl, hp, hb⟩ | ⟨-, hb⟩ <;> rw [hb] at h
    · exact .inr (.inr ⟨hl, hp, h, fun h' => absurd h' hf⟩)
    · exact .inr (.inl ⟨hf, (Host.Outcome.next.inj h).symm⟩)

/-- `P` is kept by the pseudocode of the command, where R120 lets it run. -/
def KeptBy (P : State → Prop) (i : Instr) : Prop :=
  ∀ ⦃s : State⦄, P s → legalIn i s.state = true → precondition i s = true → (bodyOf i s).All P

theorem KeptBy.checked {P : State → Prop} {i : Instr} (h : KeptBy P i) {s : State} (hs : P s) :
    (runChecked i (bodyOf i) s).All P :=
  runChecked_all hs (h hs)

/-- The primitives of ENCCHUNK (45_chunk_codec.md R227) and of DECCHUNK (R228). -/
def encchunkPrimitives : List Instr := [.cbegin, .mstep, .build, .tstore, .estep, .efin]
def decchunkPrimitives : List Instr := [.tload, .dstep]

section
variable {P : State → Prop} {s : State}

/-- ENCCHUNK keeps what its primitives keep (R227). -/
theorem encchunkBody_all (h : ∀ i ∈ encchunkPrimitives, KeptBy P i) (hs : P s) : (encchunkBody s).All P := by
  refine Res.inComposite_all _ ?_
  refine Res.andThen_all ((h .cbegin (by decide)).checked hs) fun s hs => ?_
  refine Res.andThen_all (repeatWhile_all (fun s hs _ => (h .mstep (by decide)).checked hs) _ hs) fun s hs => ?_
  refine Res.andThen_all ((h .build (by decide)).checked hs) fun s hs => ?_
  refine Res.andThen_all ((h .tstore (by decide)).checked hs) fun s hs => ?_
  refine Res.andThen_all (repeatWhile_all (fun s hs _ => (h .estep (by decide)).checked hs) _ hs) fun s hs => ?_
  exact (h .efin (by decide)).checked hs

/-- DECCHUNK keeps what its primitives keep (R228). -/
theorem decchunkBody_all (h : ∀ i ∈ decchunkPrimitives, KeptBy P i) (hs : P s) : (decchunkBody s).All P := by
  refine Res.inComposite_all _ (Res.andThen_all ((h .tload (by decide)).checked hs) fun s hs => ?_)
  exact repeatWhile_all (fun s hs _ => (h .dstep (by decide)).checked hs) _ hs

/-- COMPRESS keeps what the primitives of ENCCHUNK keep, if writing the file header does (46_container.md R246). -/
theorem compressBody_all (h : ∀ i ∈ encchunkPrimitives, KeptBy P i) (hs : P s)
    (hw : 6 ≤ s.params.outMax → P (s.clearOut.clearRing.appendBytes (fileHeader s.cap))) : (compressBody s).All P := by
  unfold compressBody
  split
  · exact Res.inComposite_all _ (untilInputUsed_all (fun u hu => runChecked_all hu fun _ _ => encchunkBody_all h hu)
      (hw ‹_›))
  · exact hs

/-- DECOMPRESS keeps what the primitives of DECCHUNK keep, if opening the file does (46_container.md R247). -/
theorem decompressBody_all (h : ∀ i ∈ decchunkPrimitives, KeptBy P i) (hs : P s)
    (ho : ∀ cap, s.readHeader s.ipos.toNat = .ok cap → P (s.openFile cap)) : (decompressBody s).All P := by
  unfold decompressBody
  split
  · exact hs
  · exact Res.inComposite_all _ (untilInputUsed_all (fun u hu => runChecked_all hu fun _ _ => decchunkBody_all h hu)
      (ho _ ‹_›))

end

/-- `P` is kept by the pseudocode of every accepted command but RESET and the composites, and by what a file composite
does before its first chunk (46_container.md R246, R247). -/
structure KeptByPrimitives (P : State → Prop) : Prop where
  primitive : ∀ {i : Instr}, Composite i = false → i ≠ .reset → KeptBy P i
  writeHeader : ∀ {s : State}, P s → s.state.noChunk = true → 6 ≤ s.params.outMax →
    P (s.clearOut.clearRing.appendBytes (fileHeader s.cap))
  openFile : ∀ {s : State} {cap : BitVec 16}, P s → s.state.noChunk = true → s.ibit = 0 →
    s.readHeader s.ipos.toNat = .ok cap → P (s.openFile cap)

/-- The primitives of the chunk composites are primitives. -/
theorem chunkPrimitives_primitive :
    ∀ i ∈ encchunkPrimitives ++ decchunkPrimitives, Composite i = false ∧ i ≠ .reset := by decide

namespace KeptByPrimitives

variable {P : State → Prop}

theorem chunk (h : KeptByPrimitives P) {i : Instr} (hi : i ∈ encchunkPrimitives ++ decchunkPrimitives) : KeptBy P i :=
  h.primitive (chunkPrimitives_primitive i hi).1 (chunkPrimitives_primitive i hi).2

/-- Every command but RESET keeps what its primitives keep. -/
theorem body (h : KeptByPrimitives P) {i : Instr} (hr : i ≠ .reset) : KeptBy P i := by
  intro s hs hl hp
  have henc : ∀ i ∈ encchunkPrimitives, KeptBy P i := fun i hi => h.chunk (List.mem_append_left _ hi)
  have hdec : ∀ i ∈ decchunkPrimitives, KeptBy P i := fun i hi => h.chunk (List.mem_append_right _ hi)
  by_cases hc : Composite i = false
  · exact h.primitive hc hr hs hl hp
  · cases i with
    | encchunk => exact encchunkBody_all henc hs
    | decchunk => exact decchunkBody_all hdec hs
    | compress => exact compressBody_all henc hs (h.writeHeader hs hl)
    | decompress => exact decompressBody_all hdec hs fun _ => h.openFile hs hl (of_decide_eq_true hp)
    | _ => exact absurd rfl hc

end KeptByPrimitives

/-- `P` is kept by every way a step changes the state. -/
structure StepInvariant (P : State → Prop) : Prop extends KeptByPrimitives P where
  raise : ∀ {s : State} (k : ErrorKind) (info : Word), P s → P (s.raise k info)
  resetRegisters : ∀ {s : State}, P s → P s.resetRegisters
  takeInput : ∀ {s : State} (rest : List HostInput), P s → P { s with port := rest }

namespace StepInvariant

variable {P : State → Prop}

theorem exec_keeps (h : StepInvariant P) {i : Instr} {s t : State} (hs : P s) (he : exec i s = .next t) : P t := by
  rcases exec_next he with ⟨-, rfl⟩ | ⟨-, rfl⟩ | ⟨hl, hp, hb, -⟩
  · exact hs
  · exact h.raise _ _ hs
  · refine Res.outcome_all (fun s k info => h.raise k info) ?_ hb
    by_cases hr : i = .reset
    · subst hr; exact h.resetRegisters hs
    · exact h.body hr hs hl hp

/-- One step keeps it, whatever stands first on the port. -/
theorem step_keeps (h : StepInvariant P) {s t : State} (hs : P s) (he : step s = .next t) : P t := by
  rcases step_cases s with ⟨-, h'⟩ | ⟨rest, -, h'⟩ | ⟨w, rest, i, -, -, h'⟩ | ⟨w, rest, e, -, -, -, h'⟩ |
    ⟨w, rest, e, -, -, -, h'⟩ <;> rw [h'] at he
  · exact Host.Outcome.next.inj he ▸ hs
  · exact Host.Outcome.next.inj he ▸ h.resetRegisters (h.takeInput rest hs)
  · exact h.exec_keeps (h.takeInput rest hs) he
  · exact Host.Outcome.next.inj he ▸ h.takeInput rest hs
  · exact Host.Outcome.next.inj he ▸ h.raise _ _ (h.takeInput rest hs)

end StepInvariant

/-! ## The register invariant (10_state.md R48) -/

/-- Each primitive's pseudocode keeps the register invariant. -/
theorem registerInv_primitive {i : Instr} (hc : Composite i = false) (hr : i ≠ .reset) : KeptBy RegisterInv i := by
  intro s h hl hp
  cases i with
  | nop => exact h
  | reset => exact absurd rfl hr
  | csrw a v => exact csrwBody_registers a v h hp
  | csrr a => exact csrrBody_registers a h
  | push b => exact pushBody_registers b h hl
  | iclr => exact iclrBody_registers h hl
  | oclr => exact h.clearOut
  | lbclr => exact h.clearRing
  | lbrec b => exact h.record b
  | lbfind => exact setSearch_registers _ h
  | cbegin => exact cbeginBody_registers h (not_failed_of_legal_cbegin hl) hp
  | mstep => exact mstepBody_registers h (of_decide_eq_true hl) (of_decide_eq_true hp)
  | build => exact buildBody_registers h (of_decide_eq_true hl)
  | tstore => exact tstoreBody_registers h
  | tload => exact tloadBody_registers h hl hp
  | wbits n v => exact wbitsBody_registers n v h hl
  | wfin => exact wfinBody_registers h hl
  | rbit => exact rbitBody_registers h hl
  | ralign => exact ralignBody_registers h hl
  | estep => exact estepBody_registers h hl hp
  | efin => exact efinBody_registers h hl
  | dstep => exact dstepBody_registers h hl
  | encchunk | decchunk | compress | decompress => cases hc

/-- The register invariant is kept by every way a step changes the state. -/
theorem registerInv_stepInvariant : StepInvariant RegisterInv where
  primitive := registerInv_primitive
  writeHeader h _ h6 := h.clearOut.clearRing.appendBytes _ (by simpa [fileHeader, magicBytes] using h6)
  openFile h hl hb hr := openFile_registers h hl (decide_eq_true hb) hr
  raise k info h := h.raise k info
  resetRegisters h := .resetRegisters h.params_legal
  takeInput _ h := { h with }

/-- Settles O56: each command's pseudocode keeps R48's invariants, and so do error entry and reset. -/
theorem stepKeepsTheRegisterInvariant : Obligations.StepKeepsTheRegisterInvariant :=
  fun _ _ hs he => registerInv_stepInvariant.step_keeps hs he

end Sys2Proof.Machine
end

section
/-! ## The reset state, one step, CSRR, the ports (10_state.md R44, R49, R51, R52; 40_host_config.md R120) -/

namespace Sys2Proof.Machine

open Sys2Proof

/-- Settles O1: every register is the table's by definition, and every readout range is empty. -/
theorem resetStateHasTheResetValues : Obligations.ResetStateHasTheResetValues := by
  unfold Obligations.ResetStateHasTheResetValues
  refine ⟨rfl, rfl, rfl, rfl, rfl, rfl, rfl, rfl, rfl, rfl, rfl, rfl, rfl, rfl, rfl, rfl, rfl, rfl, rfl, rfl, rfl, rfl,
    rfl, rfl, rfl, rfl, rfl, rfl, rfl, rfl, rfl, rfl, fun i => ⟨?_, rfl, rfl, rfl, rfl, rfl⟩⟩
  show (if State.reset.ringValid i then _ else _) = _
  simp [State.ringValid, State.reset]

theorem collectedInv_of_not_encoding {s : State} (h : ¬ Encoding s) : CollectedInv s :=
  ⟨fun he => absurd he h, fun he => absurd he h⟩

/-- Without a valid tree the tree invariant speaks of the tokens only. -/
theorem treeInv_of_no_tree {s : State} (ht : s.tvalid = false) (hc : s.cmvalid = false)
    (htok : ∀ k < s.ntok.toNat, tokenWord (s.tokAt k) = true) : TreeInv s := by
  constructor
  case tokens_valid => exact htok
  all_goals simp [ht, hc]

/-- Settles O55. -/
theorem invariantsHoldAfterReset : Obligations.InvariantsHoldAfterReset :=
  ⟨.reset, by constructor <;> rfl, treeInv_of_no_tree rfl rfl fun k hk => absurd hk (Nat.not_lt_zero k),
    collectedInv_of_not_encoding (by decide)⟩

/-! ### Decoding what was encoded -/

/-- A field of a word, as arithmetic on the word's number. -/
theorem extractLsb'_eq_of_toNat {w : Word} {a k : Nat} {x : BitVec k} (h : w.toNat / 2 ^ a % 2 ^ k = x.toNat) :
    w.extractLsb' a k = x :=
  BitVec.eq_of_toNat_eq (by rw [BitVec.extractLsb'_toNat, Nat.shiftRight_eq_div_pow, h])

theorem wellFormedBits_iff {n : BitVec 5} {v : BitVec 16} :
    wellFormedBits n v = true ↔ 1 ≤ n.toNat ∧ n.toNat ≤ 16 ∧ v.toNat < 2 ^ n.toNat := by
  simp [wellFormedBits, and_assoc]

theorem decode_csrw {w : Word} {a : BitVec 8} {v : BitVec 16}
    (h : w.toNat = 0x02000000 + a.toNat * 2 ^ 16 + v.toNat) : decode w = .ok (.csrw a v) := by
  have ha := a.isLt
  have hv := v.isLt
  have hop : opcodeField w = 0x02#8 := extractLsb'_eq_of_toNat (by simp only [BitVec.toNat_ofNat]; omega)
  have hA : addrField w = a := extractLsb'_eq_of_toNat (by omega)
  have hV : valueField w = v := extractLsb'_eq_of_toNat (by omega)
  simp [decode, hop, decodeC, hA, hV]

theorem decode_csrr {w : Word} {a : BitVec 8} (h : w.toNat = 0x03000000 + a.toNat * 2 ^ 16) :
    decode w = .ok (.csrr a) := by
  have ha := a.isLt
  have hop : opcodeField w = 0x03#8 := extractLsb'_eq_of_toNat (by simp only [BitVec.toNat_ofNat]; omega)
  have hA : addrField w = a := extractLsb'_eq_of_toNat (by omega)
  have h0 : w.extractLsb' 0 16 = 0#16 := extractLsb'_eq_of_toNat (by simp only [BitVec.toNat_ofNat]; omega)
  simp [decode, hop, decodeA, hA, h0]

/-- A word of format B: its opcode, zeros, and its byte. -/
theorem formatB_fields {w : Word} {op : Nat} {b : Byte} (h : w.toNat = op * 2 ^ 24 + b.toNat) (_ : op < 256) :
    (opcodeField w).toNat = op ∧ w.extractLsb' 8 16 = 0#16 ∧ byteField w = b := by
  have hb := b.isLt
  refine ⟨?_, extractLsb'_eq_of_toNat (by simp only [BitVec.toNat_ofNat]; omega), extractLsb'_eq_of_toNat (by omega)⟩
  rw [opcodeField, BitVec.extractLsb'_toNat, Nat.shiftRight_eq_div_pow]
  omega

theorem decode_push {w : Word} {b : Byte} (h : w.toNat = 0x04000000 + b.toNat) : decode w = .ok (.push b) := by
  obtain ⟨hop, h0, hb⟩ := formatB_fields (op := 0x04) h (by decide)
  simp [decode, hop, decodeB, h0, hb]

theorem decode_lbrec {w : Word} {b : Byte} (h : w.toNat = 0x11000000 + b.toNat) : decode w = .ok (.lbrec b) := by
  obtain ⟨hop, h0, hb⟩ := formatB_fields (op := 0x11) h (by decide)
  simp [decode, hop, decodeB, h0, hb]

theorem decode_wbits {w : Word} {n : BitVec 5} {v : BitVec 16} (hw : wellFormedBits n v = true)
    (h : w.toNat = 0x40000000 + n.toNat * 2 ^ 16 + v.toNat) : decode w = .ok (.wbits n v) := by
  have hn := n.isLt
  have hv := v.isLt
  obtain ⟨h1, h16, -⟩ := wellFormedBits_iff.mp hw
  have hop : opcodeField w = 0x40#8 := extractLsb'_eq_of_toNat (by simp only [BitVec.toNat_ofNat]; omega)
  have h0 : w.extractLsb' 21 3 = 0#3 := extractLsb'_eq_of_toNat (by simp only [BitVec.toNat_ofNat]; omega)
  have hN : countField w = n := extractLsb'_eq_of_toNat (by omega)
  have hV : valueField w = v := extractLsb'_eq_of_toNat (by omega)
  have hcount : ¬ (n.toNat = 0 ∨ 16 < n.toNat) := by omega
  simp [decode, hop, decodeW, h0, hN, hV, hw, hcount]

/-- The decoder takes every encoding back to its term (30_encoding.md R93). -/
theorem decode_encode {i : Instr} (h : i.wellFormed = true) : decode (encode i) = .ok i := by
  cases i with
  | csrw a v => exact decode_csrw (Laws.CommandWord.csrw a v)
  | csrr a => exact decode_csrr (Laws.CommandWord.csrr a)
  | push b => exact decode_push (Laws.CommandWord.push b)
  | lbrec b => exact decode_lbrec (Laws.CommandWord.lbrec b)
  | wbits n v => exact decode_wbits h (Laws.CommandWord.wbits n v)
  | _ => rfl

/-- A step takes the first word off the port and runs what it decodes to (R120). -/
theorem step_command {s : State} {w : Word} {rest : List HostInput} {i : Instr} (hp : s.port = .command w :: rest)
    (hd : decode w = .ok i) : step s = exec i { s with port := rest } := by
  simp [step, serve, hp, accept, issue, hd]

theorem withFetchWord_port (s : State) (w : Word) :
    s.withFetchWord 32 w.toNat = { s with port := .command w :: s.port } := by
  have hw : BitVec.ofNat 32 (w.toNat % 2 ^ 32) = w := by
    have hlt := w.isLt
    exact BitVec.eq_of_toNat_eq (by simp only [BitVec.toNat_ofNat]; omega)
  rw [State.withFetchWord, hw, State.issueFirst]

/-- Settles O8: the word on the port is decoded, and the decoder inverts the encoder. -/
theorem stepRunsTheDecodedCommand : Obligations.StepRunsTheDecodedCommand := by
  refine ⟨fun s w rest i => step_command, fun s i hw => ?_⟩
  rw [withFetchWord_port, step_command rfl (decode_encode hw)]

/-! ### CSRR -/

/-- CSRR runs in every state, `Failed` included, and writes RDATA (R125, R270). -/
theorem exec_csrr {s : State} {a : BitVec 8} {v : Word} (ha : csrImplemented a = true) (hv : s.csrRead a = some v) :
    exec (.csrr a) s = .next { s with rdata := v } := by
  have hb : (bodyOf (.csrr a) s).outcome = .next { s with rdata := v } := by simp [bodyOf, csrrBody, hv, Res.outcome]
  rw [exec_eq_command]
  by_cases hf : s.state = .failed
  · simp [command, hf, runsInFailed, ha, hb]
  · rw [command_legal (i := .csrr a) rfl hf rfl ha, hb]

/-- FLAGS read as a number: each flag at its bit (R34). -/
theorem flags_setWidth (s : State) : s.flags.setWidth 32 = BitVec.ofNat 32
    ((if s.fMatch then 2 ^ 0 else 0) + (if s.fBit then 2 ^ 1 else 0) + (if s.fExh then 2 ^ 2 else 0) +
      (if s.fStop then 2 ^ 3 else 0) + (if s.tvalid then 2 ^ 4 else 0) + (if s.cmvalid then 2 ^ 5 else 0)) := by
  unfold State.flags
  generalize s.fMatch = m, s.fBit = b, s.fExh = e, s.fStop = p, s.tvalid = t, s.cmvalid = c
  revert m b e p t c
  decide

/-- BITACC read as a number (R44). -/
theorem bitacc_setWidth (s : State) : s.bitacc.setWidth 32 = BitVec.ofNat 32 (s.nacc.toNat * 2 ^ 8 + s.acc.toNat) := by
  apply BitVec.eq_of_toNat_eq
  rw [State.bitacc, BitVec.toNat_setWidth, toNat_append_eq, BitVec.toNat_ofNat]

/-- Settles O19: each address selects its register. -/
theorem csrrReadsEveryRegister : Obligations.CsrrReadsEveryRegister := by
  intro s stateNumber errNumber bit reads
  have read : ∀ {a : BitVec 8} {v w : Word}, csrImplemented a = true → s.csrRead a = some v → v = w → reads a w :=
    fun ha hv hw => hw ▸ exec_csrr ha hv
  have hstate : ∀ st : CodecState, st.code.setWidth 32 = stateNumber st := fun st => by cases st <;> rfl
  have herr : (errCode s.err).setWidth 32 = errNumber s.err := by
    cases s.err with
    | none => rfl
    | some k => cases k <;> rfl
  refine ⟨read rfl rfl rfl, read rfl rfl rfl, read rfl rfl rfl, read rfl rfl rfl, read rfl rfl rfl,
    read rfl rfl (hstate _), read rfl rfl herr, read rfl rfl rfl, read rfl rfl (hstate _),
    read rfl rfl (flags_setWidth s), read rfl rfl rfl, read rfl rfl rfl, read rfl rfl rfl, read rfl rfl rfl,
    read rfl rfl rfl, read rfl rfl rfl, read rfl rfl (bitacc_setWidth s), read rfl rfl rfl, read rfl rfl rfl,
    read rfl rfl rfl, read rfl rfl rfl, read rfl rfl rfl, read rfl rfl rfl, read rfl rfl rfl, read rfl rfl rfl,
    read rfl rfl rfl, read rfl rfl rfl, read rfl rfl rfl, read rfl rfl rfl, read rfl rfl rfl⟩

/-! ### The ports -/

/-- The ring entries `Hist(1)` to `Hist(FILL)` reach are the readable ones; the others of R51's words follow (R75). -/
theorem ringValid_iff {s : State} (hc : 1 ≤ s.cap.toNat) (i : Nat) : s.ringValid i = true ↔
    ∃ d, 1 ≤ d ∧ d ≤ s.fill.toNat ∧ i = (s.wptr.toNat + s.cap.toNat - d) % s.cap.toNat := by
  simp only [State.ringValid, Bool.and_eq_true, decide_eq_true_eq, List.any_eq_true, List.mem_range]
  constructor
  · rintro ⟨-, j, hj, rfl⟩
    exact ⟨j + 1, by omega, by omega, rfl⟩
  · rintro ⟨d, h1, h2, rfl⟩
    exact ⟨Nat.mod_lt _ hc, d - 1, by omega, by rw [Nat.sub_add_cancel h1]⟩

/-- A guarded read answers a value exactly when the guard holds and the value is the entry. -/
theorem guarded_eq_some {α : Type} {p : Prop} [Decidable p] {x b : α} :
    (if p then some x else none) = some b ↔ p ∧ b = x := by
  split <;> simp [*, eq_comm]

/-- Settles O54: each readout is its guard; for the ring the guard is what `Hist` reaches. -/
theorem readoutAnswersExactlyTheValidEntries : Obligations.ReadoutAnswersExactlyTheValidEntries := by
  intro s h
  refine ⟨fun i b => ?_, fun i b => guarded_eq_some, fun i b => guarded_eq_some, fun i w => guarded_eq_some,
    fun i x => guarded_eq_some.trans and_assoc, fun i c => guarded_eq_some.trans ?_, rfl, decide_eq_true_iff,
    decide_eq_true_iff⟩
  · rw [State.readRing, guarded_eq_some, ringValid_iff h.cap_pos, and_comm]
  · simp only [and_assoc]

end Sys2Proof.Machine
end

section
/-! ## Who writes what: the fields each command's pseudocode writes (10_state.md R22 to R43) -/

namespace Sys2Proof.Machine

open Sys2Proof

/-- The fields of State, by name. -/
inductive Field where
  | ring | wptr | fill | ibuf | ilen | ipos | ibit | obuf | olen | acc | nacc | omark | tokmem | ntok | cstart
  | cend | eidx | nodemem | nnode | nleaf | root | tvalid | codemap | cmvalid | moff | mlen | dsym | fMatch | fBit
  | fExh | fStop | state | err | errinfo | estate | rdata | cap | win | minlen | chunk | ctrl | params | port
  deriving DecidableEq

/-- The field has one value in both states. -/
def Field.Same (s t : State) : Field → Prop
  | .ring => t.ring = s.ring
  | .wptr => t.wptr = s.wptr
  | .fill => t.fill = s.fill
  | .ibuf => t.ibuf = s.ibuf
  | .ilen => t.ilen = s.ilen
  | .ipos => t.ipos = s.ipos
  | .ibit => t.ibit = s.ibit
  | .obuf => t.obuf = s.obuf
  | .olen => t.olen = s.olen
  | .acc => t.acc = s.acc
  | .nacc => t.nacc = s.nacc
  | .omark => t.omark = s.omark
  | .tokmem => t.tokmem = s.tokmem
  | .ntok => t.ntok = s.ntok
  | .cstart => t.cstart = s.cstart
  | .cend => t.cend = s.cend
  | .eidx => t.eidx = s.eidx
  | .nodemem => t.nodemem = s.nodemem
  | .nnode => t.nnode = s.nnode
  | .nleaf => t.nleaf = s.nleaf
  | .root => t.root = s.root
  | .tvalid => t.tvalid = s.tvalid
  | .codemap => t.codemap = s.codemap
  | .cmvalid => t.cmvalid = s.cmvalid
  | .moff => t.moff = s.moff
  | .mlen => t.mlen = s.mlen
  | .dsym => t.dsym = s.dsym
  | .fMatch => t.fMatch = s.fMatch
  | .fBit => t.fBit = s.fBit
  | .fExh => t.fExh = s.fExh
  | .fStop => t.fStop = s.fStop
  | .state => t.state = s.state
  | .err => t.err = s.err
  | .errinfo => t.errinfo = s.errinfo
  | .estate => t.estate = s.estate
  | .rdata => t.rdata = s.rdata
  | .cap => t.cap = s.cap
  | .win => t.win = s.win
  | .minlen => t.minlen = s.minlen
  | .chunk => t.chunk = s.chunk
  | .ctrl => t.ctrl = s.ctrl
  | .params => t.params = s.params
  | .port => t.port = s.port

/-- `s`, with the fields `w` selects taken from `t`. -/
def State.take (w : Field → Bool) (s t : State) : State where
  ring := if w .ring then t.ring else s.ring
  wptr := if w .wptr then t.wptr else s.wptr
  fill := if w .fill then t.fill else s.fill
  ibuf := if w .ibuf then t.ibuf else s.ibuf
  ilen := if w .ilen then t.ilen else s.ilen
  ipos := if w .ipos then t.ipos else s.ipos
  ibit := if w .ibit then t.ibit else s.ibit
  obuf := if w .obuf then t.obuf else s.obuf
  olen := if w .olen then t.olen else s.olen
  acc := if w .acc then t.acc else s.acc
  nacc := if w .nacc then t.nacc else s.nacc
  omark := if w .omark then t.omark else s.omark
  tokmem := if w .tokmem then t.tokmem else s.tokmem
  ntok := if w .ntok then t.ntok else s.ntok
  cstart := if w .cstart then t.cstart else s.cstart
  cend := if w .cend then t.cend else s.cend
  eidx := if w .eidx then t.eidx else s.eidx
  nodemem := if w .nodemem then t.nodemem else s.nodemem
  nnode := if w .nnode then t.nnode else s.nnode
  nleaf := if w .nleaf then t.nleaf else s.nleaf
  root := if w .root then t.root else s.root
  tvalid := if w .tvalid then t.tvalid else s.tvalid
  codemap := if w .codemap then t.codemap else s.codemap
  cmvalid := if w .cmvalid then t.cmvalid else s.cmvalid
  moff := if w .moff then t.moff else s.moff
  mlen := if w .mlen then t.mlen else s.mlen
  dsym := if w .dsym then t.dsym else s.dsym
  fMatch := if w .fMatch then t.fMatch else s.fMatch
  fBit := if w .fBit then t.fBit else s.fBit
  fExh := if w .fExh then t.fExh else s.fExh
  fStop := if w .fStop then t.fStop else s.fStop
  state := if w .state then t.state else s.state
  err := if w .err then t.err else s.err
  errinfo := if w .errinfo then t.errinfo else s.errinfo
  estate := if w .estate then t.estate else s.estate
  rdata := if w .rdata then t.rdata else s.rdata
  cap := if w .cap then t.cap else s.cap
  win := if w .win then t.win else s.win
  minlen := if w .minlen then t.minlen else s.minlen
  chunk := if w .chunk then t.chunk else s.chunk
  ctrl := if w .ctrl then t.ctrl else s.ctrl
  params := if w .params then t.params else s.params
  port := if w .port then t.port else s.port

/-- A state that is `s` with the selected fields replaced has every other field from `s`. -/
theorem Field.same_of_eq_take {w : Field → Bool} {s t : State} (h : t = s.take w t) (f : Field) (hf : w f = false) :
    f.Same s t := by
  rw [h]
  cases f <;> simp [Field.Same, State.take, hf]

theorem Field.Same.refl (f : Field) (s : State) : f.Same s s := by cases f <;> rfl

theorem Field.Same.trans {f : Field} {s t u : State} (h : f.Same s t) (h' : f.Same t u) : f.Same s u := by
  cases f <;> exact Eq.trans h' h

/-! The commands with operands, whatever the operands are. -/

def isCsrw : Instr → Bool
  | .csrw _ _ => true
  | _ => false

def isCsrr : Instr → Bool
  | .csrr _ => true
  | _ => false

def isPush : Instr → Bool
  | .push _ => true
  | _ => false

def isLbrec : Instr → Bool
  | .lbrec _ => true
  | _ => false

def isWbits : Instr → Bool
  | .wbits _ _ => true
  | _ => false

@[simp] theorem isCsrw_eq_false {i : Instr} : isCsrw i = false ↔ ∀ a v, i ≠ .csrw a v := by cases i <;> simp [isCsrw]
@[simp] theorem isCsrr_eq_false {i : Instr} : isCsrr i = false ↔ ∀ a, i ≠ .csrr a := by cases i <;> simp [isCsrr]
@[simp] theorem isPush_eq_false {i : Instr} : isPush i = false ↔ ∀ b, i ≠ .push b := by cases i <;> simp [isPush]
@[simp] theorem isLbrec_eq_false {i : Instr} : isLbrec i = false ↔ ∀ b, i ≠ .lbrec b := by cases i <;> simp [isLbrec]
@[simp] theorem isWbits_eq_false {i : Instr} : isWbits i = false ↔ ∀ n v, i ≠ .wbits n v := by
  cases i <;> simp [isWbits]

/-- Who writes the field, error entry and RESET aside. A composite writes what its primitives write
(`writes_of_encchunkPrimitive`, `writes_of_decchunkPrimitive`), a file composite what opening the file writes too. -/
def writes (i : Instr) : Field → Bool
  | .ring => isLbrec i || decide (i ∈ [.mstep, .dstep, .encchunk, .decchunk, .compress, .decompress])
  | .wptr | .fill => isCsrw i || isLbrec i ||
      decide (i ∈ [.lbclr, .mstep, .dstep, .encchunk, .decchunk, .compress, .decompress])
  | .ibuf => isPush i
  | .ilen => isPush i || decide (i = .iclr)
  | .ipos => decide (i ∈ [.iclr, .mstep, .tload, .rbit, .ralign, .dstep, .encchunk, .decchunk, .compress, .decompress])
  | .ibit => decide (i ∈ [.iclr, .rbit, .ralign, .dstep, .decchunk, .decompress])
  | .obuf => isWbits i ||
      decide (i ∈ [.tstore, .wfin, .estep, .efin, .dstep, .encchunk, .decchunk, .compress, .decompress])
  | .olen => isWbits i ||
      decide (i ∈ [.tstore, .wfin, .estep, .efin, .dstep, .encchunk, .decchunk, .compress, .decompress]) ||
      decide (i = .oclr)
  | .acc | .nacc => isWbits i ||
      decide (i ∈ [.oclr, .wfin, .estep, .efin, .encchunk, .compress, .decompress])
  | .omark => decide (i ∈ [.oclr, .tload, .decchunk, .compress, .decompress])
  | .tokmem => decide (i ∈ [.mstep, .encchunk, .compress])
  | .ntok => decide (i ∈ [.cbegin, .mstep, .encchunk, .compress])
  | .cstart | .cend => decide (i ∈ [.cbegin, .encchunk, .compress])
  | .eidx => decide (i ∈ [.cbegin, .build, .estep, .encchunk, .compress])
  | .nodemem | .nnode | .nleaf | .root =>
      decide (i ∈ [.build, .tload, .encchunk, .decchunk, .compress, .decompress])
  | .tvalid | .cmvalid => decide (i ∈ [.cbegin, .build, .tload, .encchunk, .decchunk, .compress, .decompress])
  | .codemap => decide (i ∈ [.build, .encchunk, .compress])
  | .moff | .mlen | .fMatch => decide (i ∈ [.lbfind, .mstep, .encchunk, .compress])
  | .dsym => decide (i ∈ [.dstep, .decchunk, .decompress])
  | .fBit => decide (i = .rbit)
  | .fExh => decide (i ∈ [.rbit, .tload, .dstep, .decchunk, .decompress])
  | .fStop => decide (i ∈ [.tload, .dstep, .decchunk, .decompress])
  | .state =>
      decide (i ∈ [.cbegin, .build, .tload, .estep, .efin, .dstep, .encchunk, .decchunk, .compress, .decompress])
  | .rdata => isCsrr i
  | .cap => isCsrw i || decide (i = .decompress)
  | .win | .minlen | .chunk | .ctrl => isCsrw i
  | .err | .errinfo | .estate | .params | .port => false

/-- Every field the command does not write has one value in both states. -/
def Keeps (i : Instr) (s t : State) : Prop := ∀ f, writes i f = false → f.Same s t

namespace Keeps

variable {i j : Instr} {s t u : State}

theorem refl (i : Instr) (s : State) : Keeps i s s := fun f _ => .refl f s

theorem trans (h : Keeps i s t) (h' : Keeps i t u) : Keeps i s u := fun f hf => (h f hf).trans (h' f hf)

theorem of_eq_take (h : t = s.take (writes i) t) : Keeps i s t := Field.same_of_eq_take h

/-- A command that writes more keeps less. -/
theorem mono (hw : ∀ f, writes j f = true → writes i f = true) (h : Keeps j s t) : Keeps i s t := fun f hf =>
  h f (Bool.eq_false_iff.mpr fun hj => by simp [hw f hj] at hf)

end Keeps

/-! ### The primitives, one by one -/

theorem csrwBody_keeps (a : BitVec 8) (v : BitVec 16) (s : State) : (csrwBody a v s).All (Keeps (.csrw a v) s) := by
  unfold csrwBody
  split <;> exact .of_eq_take rfl

theorem csrrBody_keeps (a : BitVec 8) (s : State) : (csrrBody a s).All (Keeps (.csrr a) s) := by
  unfold csrrBody
  split <;> exact .of_eq_take rfl

theorem pushBody_keeps (b : Byte) (s : State) : (pushBody b s).All (Keeps (.push b) s) := by
  unfold pushBody
  split <;> exact .of_eq_take rfl

theorem mstepBody_keeps (s : State) : (mstepBody s).All (Keeps .mstep s) := by
  show Keeps .mstep s (mstepWith s _)
  unfold mstepWith
  split <;> exact .of_eq_take (by rw [State.consume_frame]; rfl)

theorem buildBody_keeps (s : State) : (buildBody s).All (Keeps .build s) := by
  unfold buildBody
  split
  · trivial
  · exact .of_eq_take rfl

theorem tstoreBody_keeps (s : State) : (tstoreBody s).All (Keeps .tstore s) := by
  unfold tstoreBody
  split
  · trivial
  · exact needOut_all (.refl _ s) fun _ => .of_eq_take (by rw [State.appendBytes_frame]; rfl)

theorem tloadBody_keeps (s : State) : (tloadBody s).All (Keeps .tload s) := by
  unfold tloadBody
  split <;> exact .of_eq_take rfl

theorem wbitsBody_keeps (n : BitVec 5) (v : BitVec 16) (s : State) :
    (wbitsBody n v s).All (Keeps (.wbits n v) s) :=
  needOut_all (.refl _ s) fun _ => .of_eq_take (by rw [State.putBits_frame]; rfl)

theorem wfinBody_keeps (s : State) : (wfinBody s).All (Keeps .wfin s) := by
  unfold wfinBody
  split
  · exact needOut_all (.refl _ s) fun _ => withCode_all fun c _ => .of_eq_take (by rw [State.finish_frame]; rfl)
  · exact .refl _ s

theorem rbitBody_keeps (s : State) : (rbitBody s).All (Keeps .rbit s) := by
  unfold rbitBody
  split
  · exact .of_eq_take (by rw [skipBit_frame]; rfl)
  · exact .of_eq_take rfl

theorem align_frame (s : State) : s.align = { s with ipos := s.align.ipos, ibit := s.align.ibit } := by
  unfold State.align
  split <;> rfl

theorem ralignBody_keeps (s : State) : (ralignBody s).All (Keeps .ralign s) :=
  .of_eq_take (by rw [align_frame]; rfl)

theorem estepBody_keeps (s : State) : (estepBody s).All (Keeps .estep s) :=
  withCode_all fun c _ => needOut_all (.refl _ s) fun _ => .of_eq_take (by rw [State.putBits_frame]; rfl)

theorem efinBody_keeps (s : State) : (efinBody s).All (Keeps .efin s) :=
  withCode_all fun c _ => needOut_all (.refl _ s) fun _ =>
    .of_eq_take (by rw [State.finish_frame, State.putBits_frame]; rfl)

/-- The walk moves the cursor only (R181). -/
theorem keeps_of_walk {s t : State} {w : Word} (h : s.walk = .symbol w t) : Keeps .dstep s t :=
  .of_eq_take (by rw [(walk_symbol h).1]; rfl)

theorem dstepSymbol_keeps (s t : State) (w : Word) (h : Keeps .dstep s t) :
    (dstepSymbol s t w).All (Keeps .dstep s) := by
  unfold dstepSymbol
  split
  · trivial
  · exact h.trans (.of_eq_take (by rw [State.stopChunk, align_frame]; rfl))
  · split
    · exact h.trans (.of_eq_take rfl)
    · exact .refl _ s
  · split
    · split
      · exact h.trans (.of_eq_take (by rw [State.copyMatch_frame]; rfl))
      · exact .refl _ s
    · exact .refl _ s

theorem dstepBody_keeps (s : State) : (dstepBody s).All (Keeps .dstep s) := by
  unfold dstepBody
  split
  · exact dstepSymbol_keeps s _ _ (keeps_of_walk ‹_›)
  · split
    · exact .of_eq_take rfl
    · exact .refl _ s
  · exact .refl _ s

/-- A primitive's pseudocode writes its own fields only, whether it completes or raises. -/
theorem primitive_keeps {i : Instr} (hc : Composite i = false) (hr : i ≠ .reset) (s : State) :
    (bodyOf i s).All (Keeps i s) := by
  cases i with
  | nop => exact .refl _ s
  | reset => exact absurd rfl hr
  | csrw a v => exact csrwBody_keeps a v s
  | csrr a => exact csrrBody_keeps a s
  | push b => exact pushBody_keeps b s
  | iclr => exact .of_eq_take rfl
  | oclr => exact .of_eq_take rfl
  | lbclr => exact .of_eq_take rfl
  | lbrec b => exact .of_eq_take rfl
  | lbfind => exact .of_eq_take rfl
  | cbegin => exact .of_eq_take rfl
  | mstep => exact mstepBody_keeps s
  | build => exact buildBody_keeps s
  | tstore => exact tstoreBody_keeps s
  | tload => exact tloadBody_keeps s
  | wbits n v => exact wbitsBody_keeps n v s
  | wfin => exact wfinBody_keeps s
  | rbit => exact rbitBody_keeps s
  | ralign => exact ralignBody_keeps s
  | estep => exact estepBody_keeps s
  | efin => exact efinBody_keeps s
  | dstep => exact dstepBody_keeps s
  | encchunk | decchunk | compress | decompress => cases hc

/-! ### The composites -/

theorem writes_of_encchunkPrimitive :
    ∀ i ∈ encchunkPrimitives, ∀ f, writes i f = true → writes .encchunk f = true ∧ writes .compress f = true := by
  intro i hi f
  revert i
  cases f <;> decide

theorem writes_of_decchunkPrimitive :
    ∀ i ∈ decchunkPrimitives, ∀ f, writes i f = true → writes .decchunk f = true ∧ writes .decompress f = true := by
  intro i hi f
  revert i
  cases f <;> decide

theorem Res.All.imp {P Q : State → Prop} {r : Res} (h : r.All P) (hPQ : ∀ s, P s → Q s) : r.All Q := by
  cases r with
  | ok s => exact hPQ s h
  | raised k info s => exact hPQ s h
  | stuck e => trivial

/-- A primitive that writes no more than the composite keeps what the composite keeps. -/
theorem keptBy_keeps {i j : Instr} (hj : Composite j = false ∧ j ≠ .reset)
    (hw : ∀ f, writes j f = true → writes i f = true) (s : State) : KeptBy (Keeps i s) j := fun u hu _ _ =>
  (primitive_keeps hj.1 hj.2 u).imp fun _ ht => hu.trans (ht.mono hw)

/-- Every command but RESET writes its own fields only, whether it completes or raises. -/
theorem body_keeps {i : Instr} (hr : i ≠ .reset) (s : State) : (bodyOf i s).All (Keeps i s) := by
  have henc : ∀ j ∈ encchunkPrimitives, Composite j = false ∧ j ≠ .reset := fun j hj =>
    chunkPrimitives_primitive j (List.mem_append_left _ hj)
  have hdec : ∀ j ∈ decchunkPrimitives, Composite j = false ∧ j ≠ .reset := fun j hj =>
    chunkPrimitives_primitive j (List.mem_append_right _ hj)
  by_cases hc : Composite i = false
  · exact primitive_keeps hc hr s
  · cases i with
    | encchunk =>
      refine encchunkBody_all (fun j hj => keptBy_keeps (henc j hj) (fun f hf => ?_) s) (.refl _ s)
      exact (writes_of_encchunkPrimitive j hj f hf).1
    | decchunk =>
      refine decchunkBody_all (fun j hj => keptBy_keeps (hdec j hj) (fun f hf => ?_) s) (.refl _ s)
      exact (writes_of_decchunkPrimitive j hj f hf).1
    | compress =>
      refine compressBody_all (fun j hj => keptBy_keeps (henc j hj) (fun f hf => ?_) s) (.refl _ s) fun _ => ?_
      · exact (writes_of_encchunkPrimitive j hj f hf).2
      · exact .of_eq_take (by rw [State.appendBytes_frame]; rfl)
    | decompress =>
      refine decompressBody_all (fun j hj => keptBy_keeps (hdec j hj) (fun f hf => ?_) s) (.refl _ s) fun _ _ => ?_
      · exact (writes_of_decchunkPrimitive j hj f hf).2
      · exact .of_eq_take rfl
    | _ => exact absurd rfl hc

end Sys2Proof.Machine
end

section
/-! ## Each register has its writers (10_state.md sections 2 to 9) -/

namespace Sys2Proof.Machine

open Sys2Proof

/-! ### Error entry -/

/-- `P` holds of the state error entry acts on, where the pseudocode raises. -/
def Res.RaisedOn (P : State → Prop) : Res → Prop
  | .ok _ => True
  | .raised _ _ s => P s
  | .stuck _ => True

theorem needOut_raisedOn {P : State → Prop} {s : State} {k : Nat} {f : State → Res} (hs : P s)
    (hf : (f s).RaisedOn P) : (s.needOut k f).RaisedOn P := by
  unfold State.needOut
  split
  · exact hf
  · exact hs

theorem withCode_raisedOn {P : State → Prop} {s : State} {w : Word} {f : Bits → Res} (hf : ∀ c, (f c).RaisedOn P) :
    (s.withCode w f).RaisedOn P := by
  unfold State.withCode
  split
  · exact hf _
  · trivial

theorem dstepBody_raisedOn (s : State) : (dstepBody s).RaisedOn (· = s) := by
  unfold dstepBody
  split
  · unfold dstepSymbol
    split
    · trivial
    · trivial
    · split <;> trivial
    · split
      · split <;> trivial
      · exact rfl
  · split
    · trivial
    · exact rfl
  · exact rfl

/-- Every check of a primitive stands before its first write (60_exceptions.md R268): what raises, raises on the state
the command began in; TLOAD alone clears the tree registers first (43_huffman.md R186). -/
theorem primitive_raisedOn {i : Instr} (hc : Composite i = false) (s : State) :
    (bodyOf i s).RaisedOn fun u => u = s ∨ (i = .tload ∧ u = s.dropTree) := by
  cases i with
  | csrw a v =>
    show (csrwBody a v s).RaisedOn _
    unfold csrwBody
    split
    case h_6 => exact .inl rfl
    all_goals trivial
  | csrr a =>
    show (csrrBody a s).RaisedOn _
    unfold csrrBody
    split
    · trivial
    · exact .inl rfl
  | push b =>
    show (pushBody b s).RaisedOn _
    unfold pushBody
    split
    · trivial
    · exact .inl rfl
  | build =>
    show (buildBody s).RaisedOn _
    unfold buildBody
    split <;> trivial
  | tstore =>
    show (tstoreBody s).RaisedOn _
    unfold tstoreBody
    split
    · trivial
    · exact needOut_raisedOn (.inl rfl) trivial
  | tload =>
    show (tloadBody s).RaisedOn _
    unfold tloadBody
    split
    · exact .inr ⟨rfl, rfl⟩
    · trivial
  | wbits n v =>
    show (wbitsBody n v s).RaisedOn _
    exact needOut_raisedOn (.inl rfl) trivial
  | wfin =>
    show (wfinBody s).RaisedOn _
    unfold wfinBody
    split
    · exact needOut_raisedOn (.inl rfl) (withCode_raisedOn fun _ => trivial)
    · trivial
  | rbit =>
    show (rbitBody s).RaisedOn _
    unfold rbitBody
    split <;> trivial
  | estep => exact withCode_raisedOn fun c => needOut_raisedOn (.inl rfl) trivial
  | efin => exact withCode_raisedOn fun c => needOut_raisedOn (.inl rfl) trivial
  | dstep =>
    have h := dstepBody_raisedOn s
    show (dstepBody s).RaisedOn _
    cases hr : dstepBody s with
    | raised k info u => rw [hr] at h; exact .inl h
    | ok | stuck => trivial
  | encchunk | decchunk | compress | decompress => cases hc
  | nop | reset | iclr | oclr | lbclr | lbrec | lbfind | cbegin | mstep | ralign => trivial

/-- CSRR of an implemented address reads a register (R125). -/
theorem csrRead_isSome {a : BitVec 8} (ha : csrImplemented a = true) (s : State) : ∃ w, s.csrRead a = some w := by
  simp only [csrImplemented, Bool.or_eq_true, Bool.and_eq_true, decide_eq_true_eq] at ha
  unfold State.csrRead
  split
  case h_31 => simp only [imp_false] at *; omega
  all_goals exact ⟨_, rfl⟩

/-- What `Failed` still executes does not raise (R270). -/
theorem bodyOf_ok_of_runsInFailed {i : Instr} (h : runsInFailed i = true) (s : State) : ∃ t, bodyOf i s = .ok t := by
  cases i with
  | nop => exact ⟨_, rfl⟩
  | reset => exact ⟨_, rfl⟩
  | csrr a =>
    obtain ⟨w, hw⟩ := csrRead_isSome h s
    exact ⟨{ s with rdata := w }, by simp [bodyOf, csrrBody, hw]⟩
  | _ => cases h

/-- How a command ends that answers a next state: without error entry, or outside `Failed` with error entry on a state
`u`, which for a primitive is the state it began in, apart from TLOAD's tree registers. -/
theorem exec_ends {i : Instr} {s t : State} (h : RegisterInv s) (hr : i ≠ .reset) (he : exec i s = .next t) :
    (Keeps i s t ∧ (t.state = .failed → s.state = .failed)) ∨
    (s.state ≠ .failed ∧ ∃ u k info, Keeps i s u ∧ t = u.raise k info ∧
      (Composite i = false → u = s ∨ (i = .tload ∧ u = s.dropTree))) := by
  have ht := registerInv_stepInvariant.exec_keeps h he
  rcases exec_next he with ⟨-, rfl⟩ | ⟨hf, rfl⟩ | ⟨-, -, hb, hrun⟩
  · exact .inl ⟨.refl i t, id⟩
  · exact .inr ⟨hf, s, _, _, .refl i s, rfl, fun _ => .inl rfl⟩
  · have hk := body_keeps hr s
    rcases Res.outcome_next hb with hok | ⟨k, info, u, hra, rfl⟩
    · rw [hok] at hk
      refine .inl ⟨hk, fun hf => ?_⟩
      have herr : t.err = s.err := hk .err rfl
      rw [h.failed_iff, ← herr, ← ht.failed_iff]
      exact hf
    · rw [hra] at hk
      refine .inr ⟨fun hf => ?_, u, k, info, hk, rfl, fun hc => ?_⟩
      · obtain ⟨v, hv⟩ := bodyOf_ok_of_runsInFailed (hrun hf) s
        rw [hra] at hv
        cases hv
      · have := primitive_raisedOn hc s
        rw [hra] at this
        exact this

/-- The fields error entry writes (R268, R269). -/
def raiseWrites : Field → Bool
  | .olen | .state | .err | .errinfo | .estate => true
  | _ => false

theorem raise_same (u : State) (k : ErrorKind) (info : Word) {f : Field} (hf : raiseWrites f = false) :
    f.Same u (u.raise k info) := by
  cases f with
  | olen | state | err | errinfo | estate => cases hf
  | _ => rfl

/-- A field that neither the command nor error entry writes is as it was. -/
theorem exec_same {i : Instr} {s t : State} (h : RegisterInv s) (hr : i ≠ .reset) (he : exec i s = .next t) {f : Field}
    (hw : writes i f = false) (hf : raiseWrites f = false) : f.Same s t := by
  rcases exec_ends h hr he with ⟨hk, -⟩ | ⟨-, u, k, info, hk, rfl, -⟩
  · exact hk f hw
  · exact (hk f hw).trans (raise_same u k info hf)

/-! ### The output bytes -/

/-- OLEN did not fall and the bytes below it are as they were: output "grows only at its end" (10_state.md R25). -/
structure OutputGrows (s t : State) : Prop where
  olen_le : s.olen.toNat ≤ t.olen.toNat
  bytes_kept : ∀ a < s.olen.toNat, t.obufAt a = s.obufAt a

namespace OutputGrows

variable {s t u : State}

theorem of_same (hb : t.obuf = s.obuf) (ho : t.olen = s.olen) : OutputGrows s t :=
  ⟨by rw [ho], fun a _ => by rw [State.obufAt, hb]; rfl⟩

theorem refl (s : State) : OutputGrows s s := of_same rfl rfl

theorem trans (h : OutputGrows s t) (h' : OutputGrows t u) : OutputGrows s u :=
  ⟨h.olen_le.trans h'.olen_le, fun a ha => (h'.bytes_kept a (by have := h.olen_le; omega)).trans (h.bytes_kept a ha)⟩

theorem appendBytes (s : State) (bs : List Byte) (h : s.olen.toNat + bs.length < 2 ^ 32) :
    OutputGrows s (s.appendBytes bs) := by
  refine ⟨by rw [State.appendBytes_olen s bs h]; omega, fun a ha => ?_⟩
  rw [State.obufAt, State.appendBytes_obuf s bs h, Mem.read_writeSeq, if_neg (by omega)]
  rfl

theorem putBits (s : State) (c : Bits) (h : s.olen.toNat + (s.nacc.toNat + c.length) / 8 < 2 ^ 32) :
    OutputGrows s (s.putBits c) :=
  ⟨by rw [(State.putBits_counts s c h).2]; omega, fun _ ha => State.putBits_obuf_read c h ha⟩

theorem finish (s : State) (c : Bits) (h : s.olen.toNat + (s.nacc.toNat + 7) / 8 < 2 ^ 32) :
    OutputGrows s (s.finish c) := by
  have hn := s.nacc_lt
  unfold State.finish
  split
  · exact putBits s _ (by rw [State.length_padding]; omega)
  · exact refl s

end OutputGrows

/-- DSTEP appends the bytes its token stands for (45_chunk_codec.md R224). -/
theorem dstepSymbol_outputGrows {s t : State} (w : Word) (ht : t = { s with ipos := t.ipos, ibit := t.ibit })
    (hmax : s.params.outMax < 2 ^ 32) : (dstepSymbol s t w).All (OutputGrows s) := by
  have ho : t.olen = s.olen := by rw [ht]
  have hst : OutputGrows s t := .of_same (by rw [ht]) ho
  have hroom : ∀ {k}, s.hasRoom k = true → t.olen.toNat + k < 2 ^ 32 := fun hk => by
    rw [State.hasRoom, decide_eq_true_eq] at hk
    rw [ho]
    omega
  unfold dstepSymbol
  split
  · trivial
  · exact hst.trans (.of_same (by simp [State.stopChunk]) (by simp [State.stopChunk]))
  · split
    · next b _ hk =>
      have hg := OutputGrows.appendBytes (t.record b) [b] (hroom hk)
      exact hst.trans ⟨hg.olen_le, hg.bytes_kept⟩
    · exact .refl s
  · split
    · split
      · next o l _ _ hk =>
        have hg := OutputGrows.appendBytes (t.recordAll (State.copied o.toNat l.toNat t))
          (State.copied o.toNat l.toNat t) (by simpa using hroom hk)
        rw [← State.copyMatch_eq] at hg
        have hrec : OutputGrows t (t.recordAll (State.copied o.toNat l.toNat t)) := .of_same (by simp) (by simp)
        exact (hst.trans hrec).trans ⟨hg.olen_le, hg.bytes_kept⟩
      · exact .refl s
    · exact .refl s

theorem dstepBody_outputGrows {s : State} (h : RegisterInv s) : (dstepBody s).All (OutputGrows s) := by
  unfold dstepBody
  split
  · exact dstepSymbol_outputGrows _ (walk_symbol ‹_›).1 h.outMax_lt
  · split <;> exact .of_same rfl rfl
  · exact .refl s

/-- Every primitive but OCLR adds to the output at its end, or leaves it. -/
theorem primitive_outputGrows {i : Instr} (hc : Composite i = false) (hr : i ≠ .reset) (ho : i ≠ .oclr) {s : State}
    (h : RegisterInv s) : (bodyOf i s).All (OutputGrows s) := by
  have hmax := h.outMax_lt
  have hn := s.nacc_lt
  have hroom : ∀ {k}, s.hasRoom k = true → s.olen.toNat + k < 2 ^ 32 := fun hk => by
    rw [State.hasRoom, decide_eq_true_eq] at hk
    omega
  by_cases hw : writes i .obuf = false ∧ writes i .olen = false
  · exact (primitive_keeps hc hr s).imp fun t ht => .of_same (ht .obuf hw.1) (ht .olen hw.2)
  · cases i with
    | tstore =>
      show (tstoreBody s).All _
      unfold tstoreBody
      split
      · trivial
      · exact needOut_all (.refl s) fun hk => .appendBytes s _ (by rw [HTree.length_ser]; exact hroom hk)
    | wbits n v =>
      show (wbitsBody n v s).All _
      exact needOut_all (.refl s) fun hk => .putBits s _ (by rw [length_operandBits]; exact hroom hk)
    | wfin =>
      show (wfinBody s).All _
      unfold wfinBody
      split
      · exact needOut_all (.refl s) fun hk => withCode_all fun c _ => .finish s c (by have := hroom hk; omega)
      · exact .refl s
    | estep =>
      refine withCode_all fun c _ => needOut_all (.refl s) fun hk => ?_
      have hg := OutputGrows.putBits s c (hroom hk)
      exact ⟨hg.olen_le, hg.bytes_kept⟩
    | efin =>
      refine withCode_all fun c _ => needOut_all (.refl s) fun hk => ?_
      have hk := hroom hk
      have hcount := State.putBits_counts s c (by omega)
      have hg := (OutputGrows.putBits s c (by omega)).trans (.finish (s.putBits c) c (by omega))
      exact ⟨hg.olen_le, hg.bytes_kept⟩
    | dstep => exact dstepBody_outputGrows h
    | oclr => exact absurd rfl ho
    | encchunk | decchunk | compress | decompress => cases hc
    | _ => exact absurd ⟨rfl, rfl⟩ hw

/-- What a chunk composite that began in `s` keeps of the output: it grows, and a roll-back would not take it below
where `s` had it (60_exceptions.md R269). -/
structure OutputKept (s u : State) : Prop where
  registers : RegisterInv u
  grows : OutputGrows s u
  mark : u.state = .headerParsed ∨ u.state = .decoding → s.olen.toNat ≤ u.omark.toNat

theorem Res.All.and {P Q : State → Prop} {r : Res} (h : r.All P) (h' : r.All Q) : r.All fun s => P s ∧ Q s := by
  cases r with
  | ok s => exact ⟨h, h'⟩
  | raised k info s => exact ⟨h, h'⟩
  | stuck e => trivial

/-- After a primitive of a chunk composite a roll-back goes no lower than before: OMARK is what TLOAD made it, or the
chunk is not being decoded. -/
theorem chunkPrimitive_mark {i : Instr} (hi : i ∈ encchunkPrimitives ++ decchunkPrimitives) {s u : State}
    (hu : OutputKept s u) (hl : legalIn i u.state = true) :
    (bodyOf i u).All fun t => t.state = .headerParsed ∨ t.state = .decoding → s.olen.toNat ≤ t.omark.toNat := by
  obtain ⟨hc, hr⟩ := chunkPrimitives_primitive i hi
  have hkeep := primitive_keeps hc hr u
  have hle := hu.grows.olen_le
  cases i with
  | tload =>
    show (tloadBody u).All _
    unfold tloadBody
    split
    · exact hu.mark
    · exact fun _ => hle
  | dstep =>
    refine hkeep.imp fun t ht _ => ?_
    rw [show t.omark = u.omark from ht .omark rfl]
    exact hu.mark (by simpa [legalIn] using hl)
  | mstep | tstore =>
    refine hkeep.imp fun t ht hs => ?_
    rw [show t.state = u.state from ht .state rfl] at hs
    rw [show t.omark = u.omark from ht .omark rfl]
    exact hu.mark hs
  | cbegin => exact fun hs => by simp at hs
  | build =>
    show (buildBody u).All _
    unfold buildBody
    split
    · trivial
    · exact fun hs => by simp at hs
  | estep => exact withCode_all fun c _ => needOut_all hu.mark fun _ hs => by simp at hs
  | efin => exact withCode_all fun c _ => needOut_all hu.mark fun _ hs => by simp at hs
  | _ => simp [encchunkPrimitives, decchunkPrimitives] at hi

theorem chunkPrimitive_outputKept {i : Instr} (hi : i ∈ encchunkPrimitives ++ decchunkPrimitives) (s : State) :
    KeptBy (OutputKept s) i := by
  intro u hu hl hp
  obtain ⟨hc, hr⟩ := chunkPrimitives_primitive i hi
  have ho : i ≠ .oclr := by rintro rfl; simp [encchunkPrimitives, decchunkPrimitives] at hi
  have hreg := registerInv_primitive hc hr hu.registers hl hp
  have hgrow := primitive_outputGrows hc hr ho hu.registers
  exact ((hreg.and hgrow).and (chunkPrimitive_mark hi hu hl)).imp fun t ⟨⟨h1, h2⟩, h3⟩ => ⟨h1, hu.grows.trans h2, h3⟩

/-- Error entry keeps what a chunk composite keeps of the output. -/
theorem OutputKept.raise {s u : State} (h : OutputKept s u) (k : ErrorKind) (info : Word) :
    OutputGrows s (u.raise k info) := by
  have hg := h.grows
  refine ⟨?_, hg.bytes_kept⟩
  rw [State.raise_olen]
  split
  · exact h.mark ‹_›
  · exact hg.olen_le

/-- ENCCHUNK and DECCHUNK add to the output at its end, or leave it (R227, R228). -/
theorem chunkComposite_outputGrows {i : Instr} (hi : i = .encchunk ∨ i = .decchunk) {s t : State} (h : RegisterInv s)
    (hl : legalIn i s.state = true) (hb : (bodyOf i s).outcome = .next t) : OutputGrows s t := by
  have hstart : OutputKept s s := by
    refine ⟨h, .refl s, fun hd => ?_⟩
    rcases hi with rfl | rfl <;> rcases hd with hd | hd <;> rw [hd] at hl <;> cases hl
  have hall : (bodyOf i s).All (OutputKept s) := by
    rcases hi with rfl | rfl
    · exact encchunkBody_all (fun j hj => chunkPrimitive_outputKept (List.mem_append_left _ hj) s) hstart
    · exact decchunkBody_all (fun j hj => chunkPrimitive_outputKept (List.mem_append_right _ hj) s) hstart
  rcases Res.outcome_next hb with hok | ⟨k, info, u, hra, rfl⟩
  · rw [hok] at hall
    exact hall.grows
  · rw [hra] at hall
    exact hall.raise k info

/-- The output bytes below OLEN stay, and OLEN falls by OCLR and the roll-back of R269 only. -/
structure OutputStays (i : Instr) (s t : State) : Prop where
  bytes_kept : ∀ a < s.olen.toNat, t.obufAt a = s.obufAt a
  olen_falls : t.olen.toNat < s.olen.toNat →
    i = .oclr ∨ (t.state = .failed ∧ (s.state = .headerParsed ∨ s.state = .decoding))

theorem OutputGrows.stays {s t : State} (h : OutputGrows s t) (i : Instr) : OutputStays i s t :=
  ⟨h.bytes_kept, fun hlt => absurd h.olen_le (by omega)⟩

/-- Error entry on the state a primitive began in, or on that state without its tree. -/
theorem raise_outputStays {i : Instr} {s u : State} (hu : u = s ∨ (i = .tload ∧ u = s.dropTree)) (k : ErrorKind)
    (info : Word) : OutputStays i s (u.raise k info) := by
  have hb : (u.raise k info).obuf = s.obuf := by rcases hu with rfl | ⟨-, rfl⟩ <;> rfl
  refine ⟨fun a _ => by rw [State.obufAt, hb]; rfl, fun hlt => .inr ⟨rfl, ?_⟩⟩
  by_contra hd
  have ho : (u.raise k info).olen = s.olen := by
    rcases hu with rfl | ⟨-, rfl⟩ <;> exact (State.raise_olen ..).trans (if_neg hd)
  rw [ho] at hlt
  omega

/-- Every command but RESET and the file composites treats the output so. -/
theorem exec_outputStays {i : Instr} {s t : State} (h : RegisterInv s) (hr : i ≠ .reset)
    (hi : i ∉ [.compress, .decompress]) (he : exec i s = .next t) : OutputStays i s t := by
  rcases exec_next he with ⟨-, rfl⟩ | ⟨-, rfl⟩ | ⟨hl, -, hb, -⟩
  · exact (OutputGrows.refl t).stays i
  · exact raise_outputStays (.inl rfl) _ _
  · by_cases hc : Composite i = false
    · rcases Res.outcome_next hb with hok | ⟨k, info, u, hra, rfl⟩
      · by_cases ho : i = .oclr
        · subst ho
          cases hok
          exact ⟨fun _ _ => rfl, fun _ => .inl rfl⟩
        · have hg := primitive_outputGrows hc hr ho h
          rw [hok] at hg
          exact hg.stays i
      · have hs := primitive_raisedOn hc s
        rw [hra] at hs
        exact raise_outputStays hs k info
    · refine (chunkComposite_outputGrows ?_ h hl hb).stays i
      cases i with
      | encchunk => exact .inl rfl
      | decchunk => exact .inr rfl
      | compress | decompress => simp at hi
      | _ => exact absurd rfl hc

/-! ### The statement -/

/-- A command that does not write `obuf` and OLEN leaves them, but for the roll-back of R269. -/
theorem exec_olen {i : Instr} {s t : State} (h : RegisterInv s) (hr : i ≠ .reset) (hc : Composite i = false)
    (hw : writes i .olen = false) (he : exec i s = .next t) :
    t.olen = if t.state = .failed ∧ (s.state = .headerParsed ∨ s.state = .decoding) then s.omark else s.olen := by
  rcases exec_ends h hr he with ⟨hk, hf⟩ | ⟨-, u, k, info, -, rfl, hu⟩
  · rw [if_neg]
    · exact hk .olen hw
    · rintro ⟨ht, hd⟩
      rw [hf ht] at hd
      simp at hd
  · have ho : (u.raise k info).olen =
        if s.state = .headerParsed ∨ s.state = .decoding then s.omark else s.olen := by
      rcases hu hc with rfl | ⟨-, rfl⟩ <;> exact State.raise_olen ..
    exact ho.trans (if_congr (by simp) rfl rfl)

/-- TLOAD and the commands made of it set no CMVALID (43_huffman.md R186); CBEGIN sets neither flag (R161). -/
theorem body_cmvalid {i : Instr} (hi : i ∈ [.cbegin, .tload, .decchunk, .decompress]) {s : State}
    (hs : s.cmvalid = false) : (bodyOf i s).All fun t => t.cmvalid = false := by
  have htload : ∀ s, (tloadBody s).All fun t => t.cmvalid = false := fun s => by
    unfold tloadBody
    split <;> exact rfl
  have hdstep : KeptBy (fun t => t.cmvalid = false) .dstep := fun s hs _ _ =>
    (dstepBody_keeps s).imp fun t ht => Eq.trans (ht .cmvalid rfl) hs
  have hdec : ∀ j ∈ decchunkPrimitives, KeptBy (fun t => t.cmvalid = false) j := by
    intro j hj
    rcases List.mem_cons.mp hj with rfl | hj
    · exact fun s _ _ _ => htload s
    · rw [List.mem_singleton.mp hj]; exact hdstep
  simp only [List.mem_cons, List.not_mem_nil, or_false] at hi
  rcases hi with rfl | rfl | rfl | rfl
  · exact rfl
  · exact htload s
  · exact decchunkBody_all hdec hs
  · exact decompressBody_all hdec hs fun _ _ => hs

/-- CMVALID is set by BUILD and the commands made of it only. -/
theorem exec_cmvalid {i : Instr} {s t : State} (h : RegisterInv s) (hr : i ≠ .reset) (he : exec i s = .next t)
    (hs : s.cmvalid = false) (ht : t.cmvalid = true) : i ∈ [.build, .encchunk, .compress] := by
  by_contra hi
  have same : t.cmvalid = s.cmvalid → False := fun he => by rw [he, hs] at ht; cases ht
  by_cases hw : writes i .cmvalid = false
  · exact same (exec_same h hr he (f := .cmvalid) hw rfl)
  · have hmem : i ∈ [.cbegin, .tload, .decchunk, .decompress] := by
      simp only [writes, Bool.not_eq_false, decide_eq_true_eq, List.mem_cons, List.not_mem_nil, or_false] at hw hi ⊢
      tauto
    rcases exec_next he with ⟨-, rfl⟩ | ⟨-, rfl⟩ | ⟨-, -, hb, -⟩
    · exact same rfl
    · exact same rfl
    · have := Res.outcome_all (P := fun t => t.cmvalid = false) (fun s k info hs => hs) (body_cmvalid hmem hs) hb
      rw [this] at ht
      cases ht

/-- TVALID is set by BUILD, TLOAD and the commands made of them only. -/
theorem exec_tvalid {i : Instr} {s t : State} (h : RegisterInv s) (hr : i ≠ .reset) (he : exec i s = .next t)
    (hs : s.tvalid = false) (ht : t.tvalid = true) :
    i ∈ [.build, .tload, .encchunk, .decchunk, .compress, .decompress] := by
  by_contra hi
  have same : t.tvalid = s.tvalid → False := fun he => by rw [he, hs] at ht; cases ht
  by_cases hc : i = .cbegin
  · subst hc
    rcases exec_next he with ⟨-, rfl⟩ | ⟨-, rfl⟩ | ⟨-, -, hb, -⟩
    · exact same rfl
    · exact same rfl
    · cases hb
      cases ht
  · refine same (exec_same h hr he (f := .tvalid) (decide_eq_false fun hm => ?_) rfl)
    exact hi ((List.mem_cons.mp hm).resolve_left hc)

/-- Settles O53: the table `writes` is the statement's, field by field, and what error entry writes beside it is said by
`exec_ends`. -/
theorem eachRegisterHasItsWriters : Obligations.EachRegisterHasItsWriters := by
  intro i s t h he hr decoding
  have same : ∀ f, writes i f = false → raiseWrites f = false → f.Same s t := fun _ => exec_same h hr he
  have only : ∀ {l : List Instr} {j : Instr}, i ∉ j :: l → i ∉ l := fun hi hm => hi (List.mem_cons_of_mem _ hm)
  refine ⟨same .params rfl rfl, same .port rfl rfl, fun hcsrw hlbrec hi => ?ring,
    fun hi => same .ibuf (by simpa [writes] using hi) rfl,
    fun hi hi' => same .ilen (by simpa [writes, hi'] using hi) rfl, fun hi => same .ipos (decide_eq_false hi) rfl,
    fun hi => same .ibit (decide_eq_false hi) rfl, fun hwb hi => ?output,
    fun hi => (exec_outputStays h hr hi he).bytes_kept, fun hlt => ?olenFalls, fun hwb hi => ?pendingBits,
    fun hi => same .omark (decide_eq_false hi) rfl,
    fun hi => same .tokmem (decide_eq_false hi) rfl, fun hi => same .ntok (decide_eq_false hi) rfl,
    fun hi => ⟨same .cstart (decide_eq_false hi) rfl, same .cend (decide_eq_false hi) rfl⟩,
    fun hi => same .eidx (decide_eq_false hi) rfl,
    fun hi => ⟨same .nodemem (decide_eq_false hi) rfl, same .nnode (decide_eq_false hi) rfl,
      same .nleaf (decide_eq_false hi) rfl, same .root (decide_eq_false hi) rfl⟩,
    fun hi => ⟨same .tvalid (decide_eq_false hi) rfl, same .cmvalid (decide_eq_false hi) rfl⟩,
    exec_tvalid h hr he, exec_cmvalid h hr he, fun hi => same .codemap (decide_eq_false hi) rfl,
    fun hi => ⟨same .moff (decide_eq_false hi) rfl, same .mlen (decide_eq_false hi) rfl,
      same .fMatch (decide_eq_false hi) rfl⟩,
    fun hi => same .dsym (decide_eq_false hi) rfl, fun hi => same .fBit (decide_eq_false hi) rfl,
    fun hi => same .fExh (decide_eq_false hi) rfl, fun hi => same .fStop (decide_eq_false hi) rfl,
    fun hi => ?codecState, fun hf => ?errorRegisters, fun hi => same .rdata (isCsrr_eq_false.mpr hi) rfl,
    fun hi => ?configuration, fun hi hi' => same .cap (by simpa [writes, hi'] using hi) rfl⟩
  case ring =>
    have hl : isLbrec i = false := isLbrec_eq_false.mpr hlbrec
    have hc : isCsrw i = false := isCsrw_eq_false.mpr hcsrw
    refine ⟨same .ring ?_ rfl, same .wptr ?_ rfl, same .fill ?_ rfl⟩
    · simp only [writes, hl, Bool.false_or]; exact decide_eq_false (only hi)
    · simp only [writes, hl, hc, Bool.false_or]; exact decide_eq_false hi
    · simp only [writes, hl, hc, Bool.false_or]; exact decide_eq_false hi
  case output =>
    have hw : writes i .obuf = false := by
      simp only [writes, isWbits_eq_false.mpr hwb, Bool.false_or]
      exact decide_eq_false hi
    refine ⟨same .obuf hw rfl, fun ho => exec_olen h hr ?_ ?_ he⟩
    · cases i with
      | encchunk | decchunk | compress | decompress => simp at hi
      | _ => rfl
    · show (writes i .obuf || decide (i = .oclr)) = false
      rw [hw, decide_eq_false ho]
      rfl
  case olenFalls =>
    by_cases hi : i ∈ [.compress, .decompress]
    · exact .inl (List.mem_cons_of_mem _ hi)
    · exact ((exec_outputStays h hr hi he).olen_falls hlt).imp_left fun ho => by simp [ho]
  case pendingBits =>
    have hb : isWbits i = false := isWbits_eq_false.mpr hwb
    refine ⟨same .acc ?_ rfl, same .nacc ?_ rfl⟩ <;> simp only [writes, hb, Bool.false_or] <;> exact decide_eq_false hi
  case codecState =>
    rcases exec_ends h hr he with ⟨hk, -⟩ | ⟨-, u, k, info, -, rfl, -⟩
    · exact .inl (hk .state (decide_eq_false hi))
    · exact .inr rfl
  case errorRegisters =>
    rcases exec_ends h hr he with ⟨hk, -⟩ | ⟨hn, u, k, info, -, rfl, -⟩
    · exact ⟨hk .err rfl, hk .errinfo rfl, hk .estate rfl⟩
    · rcases hf with hf | hf
      · exact absurd hf hn
      · exact absurd rfl hf
  case configuration =>
    have hw := isCsrw_eq_false.mpr hi
    exact ⟨same .win hw rfl, same .minlen hw rfl, same .chunk hw rfl, same .ctrl hw rfl⟩

end Sys2Proof.Machine
end

section
/-! ## The tokens of an open chunk (10_state.md R48, 42_matcher.md R164) -/

namespace Sys2Proof.Machine

open Sys2Proof

/-! ### Histories cut to the capacity -/

theorem trim_of_length_le {cap : Nat} {H : List Byte} (h : H.length ≤ cap) : trim cap H = H := by
  simp [trim, Nat.sub_eq_zero_of_le h]

theorem length_trim (cap : Nat) (H : List Byte) : (trim cap H).length = min H.length cap := by
  simp only [trim, List.length_drop]
  omega

/-- Bytes dropped early would be dropped later anyway. -/
theorem trim_trim_append (cap : Nat) (H bs : List Byte) : trim cap (trim cap H ++ bs) = trim cap (H ++ bs) := by
  have h : trim cap H ++ bs = (H ++ bs).drop (H.length - cap) := by
    rw [List.drop_append_of_le_length (Nat.sub_le ..), trim]
  rw [h]
  simp only [trim, List.drop_drop, List.length_drop, List.length_append]
  congr 1
  omega

/-- Recording appends to the history and evicts the oldest bytes (R141). -/
theorem history_recordAll_trim {s : State} (h : RingOk s) (bs : List Byte) :
    (s.recordAll bs).history = trim s.cap.toNat (s.history ++ bs) := by
  rw [State.history_recordAll h, trim, List.length_append, State.length_history]

/-! ### Token words -/

theorem symTag_append (tag : BitVec 2) (res : BitVec 6) (o : BitVec 16) (l : BitVec 8) :
    symTag (tag ++ res ++ o ++ l) = tag ∧ symReserved (tag ++ res ++ o ++ l) = res ∧
      symOffset (tag ++ res ++ o ++ l) = o ∧ symLow (tag ++ res ++ o ++ l) = l := by
  have h : (tag ++ res ++ o ++ l).toNat =
      ((tag.toNat * 2 ^ 6 + res.toNat) * 2 ^ 16 + o.toNat) * 2 ^ 8 + l.toNat := by
    rw [toNat_append_eq, toNat_append_eq, toNat_append_eq]
  have ht := tag.isLt
  have hr := res.isLt
  have ho := o.isLt
  have hl := l.isLt
  exact ⟨extractLsb'_eq_of_toNat (by omega), extractLsb'_eq_of_toNat (by omega),
    extractLsb'_eq_of_toNat (by omega), extractLsb'_eq_of_toNat (by omega)⟩

theorem symbolOf_literalWord (b : Byte) : symbolOf (literalWord b) = some (.literal b) := by
  obtain ⟨h1, h2, h3, h4⟩ := symTag_append 0b00#2 0#6 0#16 b
  rw [symbolOf, literalWord, h1, h2, h3, h4, if_pos rfl, if_pos ⟨rfl, rfl⟩]

theorem symbolOf_matchWord {o : BitVec 16} {l : BitVec 8} (ho : o ≠ 0) (hl : l ≠ 0) :
    symbolOf (matchWord o l) = some (.copy o l) := by
  obtain ⟨h1, h2, h3, h4⟩ := symTag_append 0b01#2 0#6 o l
  rw [symbolOf, matchWord, h1, h2, h3, h4, if_neg (by decide), if_pos rfl, if_pos ⟨rfl, ho, hl⟩]

/-! ### What a token stands for -/

/-- The match copy on a list gives what the match copy on the ring gives, as far as the list ends like the history. -/
theorem expandCopy_eq_copied {o : Nat} (ho : 1 ≤ o) (n : Nat) {s : State} (hr : RingOk s) (hf : o ≤ s.fill.toNat)
    {H : List Byte} (hH : ∀ d, 1 ≤ d → d ≤ o → H.getD (H.length - d) 0 = s.hist d) (hlen : o ≤ H.length) :
    expandCopy o n H = State.copied o n s := by
  induction n generalizing s H with
  | zero => rfl
  | succ n ih =>
    have hcap := hr.fill_le
    rw [expandCopy, State.copied, hH o ho (le_refl o)]
    refine congrArg _ (ih (State.record_ringOk hr _) (by rw [State.record_fill_toNat]; omega) (fun d h1 h2 => ?_)
      (by rw [List.length_append]; omega))
    rw [List.length_append, List.length_singleton]
    obtain rfl | ⟨e, rfl⟩ : d = 1 ∨ ∃ e, d = e + 2 := by
      rcases Nat.lt_or_ge d 2 with h | h
      · exact .inl (by omega)
      · exact .inr ⟨d - 2, by omega⟩
    · rw [State.hist_record_one hr, Nat.add_sub_cancel, List.getD_append_right _ _ _ _ (le_refl _), Nat.sub_self,
        List.getD_cons_zero]
    · rw [State.hist_record_succ hr _ (by omega) (by omega), ← hH (e + 1) (by omega) (by omega),
        List.getD_append _ _ _ _ (by omega), Nat.add_sub_add_right]

/-- The bytes of a match found in the ring, taken against the history (R164). -/
theorem expandCopy_history {s : State} (hr : RingOk s) {o : Nat} (ho : 1 ≤ o) (hf : o ≤ s.fill.toNat) (n : Nat) :
    expandCopy o n s.history = State.copied o n s :=
  expandCopy_eq_copied ho n hr hf (fun _ h1 h2 => State.getD_history s h1 (by omega)) (by simpa using hf)

/-- One more token stands for its own bytes, taken against the history the tokens before it leave. -/
theorem expandAll_snoc (cap : Nat) (H : List Byte) (ws : List Word) {w : Word} {x : Symbol} (hw : symbolOf w = some x)
    (hws : ∀ v ∈ ws, symbolOf v ≠ none) (hH : H.length ≤ cap) :
    expandAll cap H (ws ++ [w]) = expandAll cap H ws ++ expand (trim cap (H ++ expandAll cap H ws)) x := by
  induction ws generalizing H with
  | nil => simp [expandAll, hw, trim_of_length_le hH]
  | cons v ws ih =>
    obtain ⟨y, hy⟩ := Option.ne_none_iff_exists'.mp (hws v (by simp))
    simp only [List.cons_append, expandAll, hy]
    rw [ih _ (fun u hu => hws u (by simp [hu])) (by rw [length_trim]; omega), List.append_assoc, trim_trim_append,
      List.append_assoc]

theorem symbolOf_ne_none_of_tokenLegal {s : State} {w : Word} (h : tokenLegal s w) : symbolOf w ≠ none := by
  intro hn
  rw [tokenLegal, hn] at h
  exact h

/-! ### The invariant and the fields it speaks of -/

/-- The fields the collected-token invariant speaks of, STATE aside. -/
def collectedFields : List Field :=
  [.tokmem, .ntok, .cstart, .ipos, .ibuf, .ring, .wptr, .fill, .cap, .win, .minlen, .ctrl]

/-- Legality of a token depends on the settings only. -/
theorem tokenLegal_congr {s t : State} (hc : t.cap = s.cap) (hw : t.win = s.win) (hm : t.minlen = s.minlen)
    (ho : t.ctrl = s.ctrl) (w : Word) : tokenLegal t w ↔ tokenLegal s w := by
  simp only [tokenLegal, State.ovl, hc, hw, hm, ho]

theorem history_congr {s t : State} (hr : t.ring = s.ring) (hw : t.wptr = s.wptr) (hf : t.fill = s.fill)
    (hc : t.cap = s.cap) : t.history = s.history := by
  simp only [State.history, State.hist, State.ringAt, hr, hw, hf, hc]

theorem CollectedInv.congr {s t : State} (h : CollectedInv s) (e : ∀ f ∈ collectedFields, f.Same s t)
    (hs : Encoding t → Encoding s) : CollectedInv t := by
  have htok : t.tokmem = s.tokmem := e .tokmem (by decide)
  have hntok : t.ntok = s.ntok := e .ntok (by decide)
  have hcap : t.cap = s.cap := e .cap (by decide)
  constructor
  · intro ht k hk
    rw [tokenLegal_congr hcap (e .win (by decide)) (e .minlen (by decide)) (e .ctrl (by decide)), State.tokAt, htok]
    exact h.tokens_legal (hs ht) k (hntok ▸ hk)
  · intro ht
    have hcs : t.cstart = s.cstart := e .cstart (by decide)
    have hip : t.ipos = s.ipos := e .ipos (by decide)
    have hib : t.ibuf = s.ibuf := e .ibuf (by decide)
    rw [history_congr (e .ring (by decide)) (e .wptr (by decide)) (e .fill (by decide)) hcap, State.tokens,
      State.ibufSlice, hcap, htok, hntok, hib, hcs, hip]
    exact h.expansion (hs ht)

/-! ### The commands that act on an open chunk -/

/-- A chunk just opened has no token and has consumed nothing (R161). -/
theorem openChunk_collected {s : State} (h : RegisterInv s) : CollectedInv s.openChunk := by
  constructor
  · intro _ k hk
    exact absurd hk (by simp)
  · intro _
    refine ⟨s.history, by simpa using h.fill_le, ?_, ?_⟩
    · simp [State.tokens, State.ibufSlice, Mem.readSeq, expandAll]
    · rw [history_congr (s := s) (t := s.openChunk) rfl rfl rfl rfl]
      simp [State.ibufSlice, Mem.readSeq, trim_of_length_le, h.fill_le]

theorem readSeq_append {α : Type} (d : α) (m : Mem α) (a n k : Nat) :
    Mem.readSeq d m a (n + k) = Mem.readSeq d m a n ++ Mem.readSeq d m (a + n) k := by
  simp [Mem.readSeq, List.range_add, Function.comp_def, Nat.add_assoc]

/-- The tokens after one more (R162). -/
theorem pushToken_tokens {s : State} (w : Word) (h : s.ntok.toNat + 1 < 2 ^ 16) :
    (s.pushToken w).tokens = s.tokens ++ [w] := by
  have hn : (BitVec.ofNat 16 (s.ntok.toNat + 1)).toNat = s.ntok.toNat + 1 := by
    simp only [BitVec.toNat_ofNat]
    exact Nat.mod_eq_of_lt h
  have hne : ∀ b, 0 ≤ b → b < 0 + s.ntok.toNat →
      Mem.read (0 : Word) (Mem.write 0 s.tokmem s.ntok.toNat w) b = Mem.read 0 s.tokmem b := fun b _ hb =>
    Mem.read_write_ne _ _ (by omega)
  rw [State.tokens, State.pushToken_ntok, hn, State.pushToken_tokmem, Mem.readSeq_succ, Mem.readSeq_congr hne,
    Nat.zero_add, Mem.read_write_same]
  rfl

/-- One more token that is legal and stands for the next `n` input bytes keeps the invariant (R162, R164). -/
theorem consume_collected {s : State} {w : Word} {x : Symbol} {n : Nat} (h : RegisterInv s) (hc : CollectedInv s)
    (hs : s.state = .collecting) (hn : 1 ≤ n) (hle : s.ipos.toNat + n ≤ s.cend.toNat) (hw : symbolOf w = some x)
    (hl : tokenLegal s w) (hx : expand s.history x = s.ibufSlice s.ipos.toNat n) :
    CollectedInv ((s.pushToken w).consume n) := by
  obtain ⟨h1, h2, h3, -⟩ := h.collecting_range hs
  obtain ⟨h5, h6⟩ := h.collecting_tokens hs
  have hi := h.ilen_lt
  simp only [Config.tokMax] at h5
  have hen : Encoding s := .inl hs
  have hlegal := hc.tokens_legal hen
  obtain ⟨H, hH, hexp, hhist⟩ := hc.expansion hen
  have hipos : ((s.pushToken w).consume n).ipos.toNat = s.ipos.toNat + n := by
    simp only [State.consume_ipos, State.pushToken_ipos, BitVec.toNat_ofNat]
    omega
  have hntok : ((s.pushToken w).consume n).ntok.toNat = s.ntok.toNat + 1 := by
    simp only [State.consume_ntok, State.pushToken_ntok, BitVec.toNat_ofNat]
    omega
  have htok : ∀ k, ((s.pushToken w).consume n).tokAt k = if k = s.ntok.toNat then w else s.tokAt k := by
    intro k
    rw [State.tokAt, State.consume_tokmem, State.pushToken_tokmem, Mem.read_write]
    rfl
  have hslice : s.ibufSlice s.cstart.toNat (s.ipos.toNat + n - s.cstart.toNat) =
      s.ibufSlice s.cstart.toNat (s.ipos.toNat - s.cstart.toNat) ++ s.ibufSlice s.ipos.toNat n := by
    rw [show s.ipos.toNat + n - s.cstart.toNat = (s.ipos.toNat - s.cstart.toNat) + n by omega, State.ibufSlice,
      readSeq_append, Nat.add_sub_cancel' h1]
    rfl
  constructor
  · intro _ k hk
    rw [tokenLegal_congr (s := s) (by simp) (by simp) (by simp) (by simp), htok]
    split
    · exact hl
    · exact hlegal k (by omega)
  · intro _
    refine ⟨H, by simpa using hH, ?_, ?_⟩
    · have hsym : ∀ v ∈ s.tokens, symbolOf v ≠ none := by
        intro v hv
        simp only [State.tokens, Mem.readSeq, List.mem_map, List.mem_range, Nat.zero_add] at hv
        obtain ⟨k, hk, rfl⟩ := hv
        exact symbolOf_ne_none_of_tokenLegal (hlegal k hk)
      have htoks : ((s.pushToken w).consume n).tokens = s.tokens ++ [w] := by
        rw [← pushToken_tokens w (by omega)]
        simp [State.tokens]
      rw [htoks, State.consume_cap, State.pushToken_cap, expandAll_snoc _ _ _ hw hsym hH, hexp, ← hhist, hx, hipos]
      simpa [State.ibufSlice] using hslice.symm
    · have hrec : ((s.pushToken w).consume n).history =
          ((s.pushToken w).recordAll (s.ibufSlice s.ipos.toNat n)).history := history_congr rfl rfl rfl rfl
      have hring : RingOk (s.pushToken w) := ⟨h.ringOk.wptr_lt, h.ringOk.fill_le⟩
      rw [hrec, history_recordAll_trim hring, history_congr (s := s) (t := s.pushToken w) rfl rfl rfl rfl, hhist,
        State.pushToken_cap, trim_trim_append, List.append_assoc, hipos]
      simpa [State.ibufSlice] using congrArg (fun bs => trim s.cap.toNat (H ++ bs)) hslice.symm

/-- What the matcher finds among the upcoming bytes is a legal token that stands for them (R143, R164). -/
theorem findLongest_token {s : State} {o L : Nat} (h : RegisterInv s) (hf : s.findLongest s.upcoming = (o, L))
    (hne : L ≠ 0) :
    symbolOf (matchWord (BitVec.ofNat 16 o) (BitVec.ofNat 8 L)) = some (.copy (BitVec.ofNat 16 o) (BitVec.ofNat 8 L)) ∧
      tokenLegal s (matchWord (BitVec.ofNat 16 o) (BitVec.ofNat 8 L)) ∧
      expand s.history (.copy (BitVec.ofNat 16 o) (BitVec.ofNat 8 L)) = s.ibufSlice s.ipos.toNat L := by
  have hbounds := s.findLongest_bounds s.upcoming
  have hspec := s.findLongest_spec s.upcoming (by have := h.minlen_ge; omega)
  have hcopied := State.copied_findLongest h.ringOk s.upcoming
  rw [hf] at hbounds hspec hcopied
  obtain ⟨hfill, hlen, hr⟩ := hbounds
  obtain ⟨ho, hm⟩ := hr hne
  have hmin : s.minlen.toNat ≤ L := by
    rcases hspec with ⟨h0, -⟩ | ⟨-, -, -, h1, -⟩
    · exact absurd (congrArg Prod.snd h0) hne
    · exact h1
  have hcap := h.fill_le
  have hc := s.cap.isLt
  have hwin := s.win.isLt
  simp only [length_upcoming] at hfill hlen ho hm
  have h16 : (BitVec.ofNat 16 o).toNat = o := by simp only [BitVec.toNat_ofNat]; omega
  have h8 : (BitVec.ofNat 8 L).toNat = L := by simp only [BitVec.toNat_ofNat]; omega
  have hsym : symbolOf (matchWord (BitVec.ofNat 16 o) (BitVec.ofNat 8 L)) =
      some (.copy (BitVec.ofNat 16 o) (BitVec.ofNat 8 L)) := by
    refine symbolOf_matchWord (fun he => ?_) (fun he => ?_)
    · have h0 := h16.symm.trans (congrArg BitVec.toNat he)
      simp only [BitVec.ofNat_eq_ofNat, BitVec.toNat_ofNat] at h0
      omega
    · have h0 := h8.symm.trans (congrArg BitVec.toNat he)
      simp only [BitVec.ofNat_eq_ofNat, BitVec.toNat_ofNat] at h0
      omega
  refine ⟨hsym, ?_, ?_⟩
  · rw [tokenLegal, hsym]
    simp only [h16, h8]
    exact ⟨ho, by omega, hmin, by omega, fun hovl => hm ▸ s.matchLen_le_offset hovl _ _⟩
  · have hsplit : s.upcoming = s.ibufSlice s.ipos.toNat L ++ s.ibufSlice (s.ipos.toNat + L)
        (min s.win.toNat (s.cend.toNat - s.ipos.toNat) - L) := by
      rw [State.upcoming, State.ibufSlice, State.ibufSlice, State.ibufSlice, ← readSeq_append, Nat.add_sub_cancel' hlen]
    rw [expand, h16, h8, expandCopy_history h.ringOk ho hfill, hcopied hne, hsplit,
      List.take_left' (by simp [State.ibufSlice])]

/-- A matcher step emits one legal token for the bytes it consumes (R162). -/
theorem mstepBody_collected {s : State} (h : RegisterInv s) (hc : CollectedInv s) (hs : s.state = .collecting)
    (hlt : s.ipos.toNat < s.cend.toNat) : (mstepBody s).All CollectedInv := by
  have hsame : ∀ r, ∀ f ∈ collectedFields, f.Same s (s.setSearch r) := fun r f hf =>
    Field.same_of_eq_take (w := writes .lbfind) rfl f (by revert f; decide)
  have hset : ∀ r, RegisterInv (s.setSearch r) ∧ CollectedInv (s.setSearch r) := fun r =>
    ⟨setSearch_registers r h, hc.congr (hsame r) id⟩
  obtain ⟨⟨o, L⟩, hf⟩ : ∃ r, s.findLongest s.upcoming = r := ⟨_, rfl⟩
  have hlen := (s.findLongest_bounds s.upcoming).2.1
  rw [hf, length_upcoming] at hlen
  simp only [mstepBody, hf, mstepWith]
  split
  · next hne =>
    obtain ⟨hw, hl, hx⟩ := findLongest_token h hf hne
    exact consume_collected (hset _).1 (hset _).2 hs (by omega)
      (by simp only [State.setSearch_ipos, State.setSearch_cend]; omega) hw hl hx
  · refine consume_collected (hset _).1 (hset _).2 hs (le_refl 1) hlt (symbolOf_literalWord _) ?_ ?_
    · rw [tokenLegal, symbolOf_literalWord]
      trivial
    · simp [expand, State.ibufSlice, Mem.readSeq, State.ibufAt]

/-! ### The others -/

theorem collected_of_keeps {i : Instr} {s t : State} (h : CollectedInv s) (hk : Keeps i s t)
    (hw : ∀ f ∈ collectedFields, writes i f = false) (hs : Encoding t → Encoding s) : CollectedInv t :=
  h.congr (fun f hf => hk f (hw f hf)) hs

theorem not_encoding_of_noChunk {s : State} (h : s.state.noChunk = true) : ¬ Encoding s := by
  rcases noChunk_cases h with h | h <;> simp [Encoding, h]

/-- No state DSTEP leaves is one of an encode chunk (45_chunk_codec.md R221). -/
theorem dstepBody_state {s : State} (hl : legalIn .dstep s.state = true) : (dstepBody s).All fun t => ¬ Encoding t := by
  simp only [legalIn, Bool.or_eq_true, decide_eq_true_eq] at hl
  have hs : ¬ Encoding s := by rcases hl with h | h <;> simp [Encoding, h]
  unfold dstepBody
  split
  · unfold dstepSymbol
    split
    · trivial
    · simp [Res.All, Encoding]
    · split
      · simp [Res.All, Encoding]
      · exact hs
    · split
      · split
        · simp [Res.All, Encoding]
        · exact hs
      · exact hs
  · split
    · simp [Res.All, Encoding]
    · exact hs
  · exact hs

theorem tloadBody_state {s : State} (hl : legalIn .tload s.state = true) : (tloadBody s).All fun t => ¬ Encoding t := by
  unfold tloadBody
  split
  · exact not_encoding_of_noChunk (s := s.dropTree) hl
  · simp [Res.All, Encoding]

theorem writes_csrr (a : BitVec 8) : writes (.csrr a) = fun f => decide (f = .rdata) := by
  funext f
  cases f <;> rfl

/-- Each primitive's pseudocode keeps the collected-token invariant: CBEGIN and MSTEP act on the chunk, BUILD, TSTORE,
ESTEP and EFIN leave its fields alone, and where the others are legal no encode chunk is open. -/
theorem collectedInv_primitive {i : Instr} (hc : Composite i = false) (hr : i ≠ .reset) {s : State}
    (h : RegisterInv s) (hcol : CollectedInv s) (hl : legalIn i s.state = true) (hp : precondition i s = true) :
    (bodyOf i s).All CollectedInv := by
  have hkeep := primitive_keeps hc hr s
  have closed : s.state.noChunk = true → writes i .state = false → (bodyOf i s).All CollectedInv := fun hn hw =>
    hkeep.imp fun t ht => collectedInv_of_not_encoding (not_encoding_of_noChunk (by
      rw [show t.state = s.state from ht _ hw, hn]))
  cases i with
  | nop => exact hcol
  | reset => exact absurd rfl hr
  | csrr a =>
    exact hkeep.imp fun t ht => collected_of_keeps hcol ht (by rw [writes_csrr]; decide) fun he => by
      rwa [Encoding, show t.state = s.state from ht .state rfl] at he
  | cbegin => exact openChunk_collected h
  | mstep => exact mstepBody_collected h hcol (of_decide_eq_true hl) (of_decide_eq_true hp)
  | build => exact hkeep.imp fun t ht => collected_of_keeps hcol ht (by decide) fun _ => .inl (of_decide_eq_true hl)
  | tstore =>
    exact hkeep.imp fun t ht => collected_of_keeps hcol ht (by decide) fun _ => .inr (.inl (of_decide_eq_true hl))
  | estep | efin =>
    simp only [legalIn, Bool.or_eq_true, decide_eq_true_eq] at hl
    exact hkeep.imp fun t ht => collected_of_keeps hcol ht (by decide) fun _ => .inr hl
  | tload => exact (tloadBody_state hl).imp fun _ => collectedInv_of_not_encoding
  | dstep => exact (dstepBody_state hl).imp fun _ => collectedInv_of_not_encoding
  | csrw | push | iclr | oclr | lbclr | lbrec | lbfind | wbits | wfin | rbit | ralign => exact closed hl rfl
  | encchunk | decchunk | compress | decompress => cases hc

/-- The register and the collected-token invariant together are kept by every way a step changes the state. -/
theorem collectedInv_stepInvariant : StepInvariant fun s => RegisterInv s ∧ CollectedInv s where
  primitive hc hr _ hs hl hp :=
    (registerInv_primitive hc hr hs.1 hl hp).and (collectedInv_primitive hc hr hs.1 hs.2 hl hp)
  writeHeader hs hl h6 := ⟨registerInv_stepInvariant.writeHeader hs.1 hl h6,
    collectedInv_of_not_encoding (not_encoding_of_noChunk (by simpa using hl))⟩
  openFile hs hl hb hr := ⟨registerInv_stepInvariant.openFile hs.1 hl hb hr,
    collectedInv_of_not_encoding (not_encoding_of_noChunk (by simpa using hl))⟩
  raise k info hs := ⟨hs.1.raise k info, collectedInv_of_not_encoding (by simp [Encoding])⟩
  resetRegisters hs := ⟨.resetRegisters hs.1.params_legal,
    collectedInv_of_not_encoding (by simp [Encoding, State.reset])⟩
  takeInput rest hs := ⟨{ hs.1 with }, hs.2.congr (fun f hf => by
    refine Field.same_of_eq_take (w := fun g => decide (g = .port)) rfl f ?_
    revert f; decide) id⟩

/-- Settles O59: a matcher step adds one token that stands for the bytes it consumes, and nothing else touches an open
chunk. -/
theorem stepKeepsTheCollectedInvariant : Obligations.StepKeepsTheCollectedInvariant :=
  fun _ _ hr hs he => (collectedInv_stepInvariant.step_keeps ⟨hr, hs⟩ he).2

end Sys2Proof.Machine
end

section
/-! ## The tree, its codes and the token memory (10_state.md R28, R31, R32; 43_huffman.md R188) -/

namespace Sys2Proof.Machine

open Sys2Proof

/-! ### A tree whose nodes are the entries below NNODE -/

theorem TreeOf.index_mem {f : Nat → Node} {i : BitVec 17} {t : HTree} (h : TreeOf f i t) :
    i = Config.nil ∨ i.toNat ∈ nodesOf f i t := by
  cases t with
  | nil => exact .inl h
  | leaf k w => exact .inr (by simp [nodesOf, h.2.1])
  | node l r => exact .inr (by simp [nodesOf])

/-- The children of a node of the tree are nodes of the tree, or absent. -/
theorem TreeOf.children_mem {f : Nat → Node} {i : BitVec 17} {t : HTree} (h : TreeOf f i t) {k : Nat}
    (hk : k ∈ nodesOf f i t) {a b : BitVec 17} {x : BitVec 32} (hx : f k = .internal a b x) :
    (a = Config.nil ∨ a.toNat ∈ nodesOf f i t) ∧ (b = Config.nil ∨ b.toNat ∈ nodesOf f i t) := by
  induction t generalizing i with
  | nil => simp [nodesOf] at hk
  | leaf j w =>
    obtain ⟨-, -, y, hy⟩ := h
    rw [nodesOf, List.mem_singleton] at hk
    rw [hk, hy] at hx
    cases hx
  | node l r ihl ihr =>
    obtain ⟨-, c, d, y, hy, hl, hr⟩ := h
    simp only [nodesOf, hy, Node.child, Bool.false_eq_true, if_false, if_true, List.mem_cons, List.mem_append] at hk ⊢
    rcases hk with rfl | hk | hk
    · rw [hy] at hx
      cases hx
      have ha := hl.index_mem
      have hb := hr.index_mem
      tauto
    · have := ihl hl hk
      tauto
    · have := ihr hr hk
      tauto

/-- The leaves among a tree's nodes, from left to right. -/
theorem TreeOf.filter_isLeaf {f : Nat → Node} {i : BitVec 17} {t : HTree} (h : TreeOf f i t) :
    (nodesOf f i t).filter (fun k => (f k).isLeaf) = t.leaves := by
  induction t generalizing i with
  | nil => rfl
  | leaf j w =>
    obtain ⟨-, -, x, hx⟩ := h
    simp [nodesOf, HTree.leaves, hx, Node.isLeaf]
  | node l r ihl ihr =>
    obtain ⟨-, c, d, y, hy, hl, hr⟩ := h
    have hnot : (Node.internal c d y).isLeaf = false := rfl
    simp only [nodesOf, hy, Node.child, Bool.false_eq_true, if_false, if_true, List.filter_cons, hnot,
      List.filter_append, ihl hl, ihr hr, HTree.leaves]

/-- The registers hold a tree with an internal root, its nodes are the entries below NNODE, each once, and the leaves
among them hold valid symbol words. -/
structure HoldsTree (s : State) (l r : HTree) : Prop where
  tree : TreeOf s.nodeAt s.root (.node l r)
  nodes : (nodesOf s.nodeAt s.root (.node l r)).Perm (List.range s.nnode.toNat)
  leaves : s.nleaf.toNat = (HTree.node l r).leafCount
  symbols_valid : ∀ k < s.nnode.toNat, ∀ w x, s.nodeAt k = .leaf w x → validSymbol w = true

namespace HoldsTree

variable {s : State} {l r : HTree}

theorem mem_nodes (h : HoldsTree s l r) {k : Nat} : k ∈ nodesOf s.nodeAt s.root (.node l r) ↔ k < s.nnode.toNat := by
  rw [h.nodes.mem_iff, List.mem_range]

theorem size_eq (h : HoldsTree s l r) : (HTree.node l r).size = s.nnode.toNat := by
  rw [← length_nodesOf s.nodeAt s.root, h.nodes.length_eq, List.length_range]

theorem tree_eq (h : HoldsTree s l r) : s.tree = some (.node l r) := State.tree_of_size h.tree h.size_eq.le

theorem root_in_range (h : HoldsTree s l r) : s.root.toNat < s.nnode.toNat :=
  h.mem_nodes.mp (h.tree.index_mem.resolve_left h.tree.1)

theorem root_internal (h : HoldsTree s l r) : (s.nodeAt s.root.toNat).isLeaf = false := by
  obtain ⟨-, a, b, x, hx, -, -⟩ := h.tree
  rw [hx]
  rfl

theorem nodes_in_range (h : HoldsTree s l r) (k : Nat) (hk : k < s.nnode.toNat) :
    nodeInRange s.nnode.toNat (s.nodeAt k) = true := by
  cases hx : s.nodeAt k with
  | leaf w x => exact h.symbols_valid k hk w x hx
  | internal a b x =>
    obtain ⟨ha, hb⟩ := h.tree.children_mem (h.mem_nodes.mpr hk) hx
    simp only [nodeInRange, Bool.and_eq_true, decide_eq_true_eq]
    exact ⟨ha.imp_right h.mem_nodes.mp, hb.imp_right h.mem_nodes.mp⟩

theorem leaf_count (h : HoldsTree s l r) :
    s.nleaf.toNat = ((List.range s.nnode.toNat).filter fun k => (s.nodeAt k).isLeaf).length := by
  rw [← (h.nodes.filter _).length_eq, h.tree.filter_isLeaf, HTree.length_leaves, h.leaves]

theorem one_parent (h : HoldsTree s l r) : (nodesUnder s.nodemem (s.nnode.toNat + 1) s.root).Nodup := by
  have hh := (HTree.node l r).height_le_size
  rw [h.size_eq] at hh
  rw [nodesUnder_eq h.tree hh]
  exact h.nodes.nodup_iff.mpr List.nodup_range

/-- Such a tree, with valid tokens and no code map, is all the tree invariant asks for. -/
theorem treeInv (h : HoldsTree s l r) (htok : ∀ k < s.ntok.toNat, tokenWord (s.tokAt k) = true)
    (hstop : s.cmvalid = true → s.hasCode stopWord)
    (hcodes : s.cmvalid = true → ∀ k < s.ntok.toNat, s.hasCode (s.tokAt k))
    (hpaths : s.cmvalid = true → ∀ t ∈ s.tree, ∀ x ∈ t.codes [], s.codeAt x.1 = x.2) : TreeInv s where
  root_in_range _ := h.root_in_range
  root_internal _ := h.root_internal
  nodes_in_range _ := h.nodes_in_range
  leaf_count _ := h.leaf_count
  is_tree _ := by rw [h.tree_eq]; rfl
  one_parent _ := h.one_parent
  tokens_valid := htok
  stop_has_code := hstop
  tokens_have_codes := hcodes
  codes_are_paths := hpaths

end HoldsTree

/-! ### BUILD (43_huffman.md R177, R180, R188) -/

theorem symbolOf_stopWord : symbolOf stopWord = some .stop := by decide

theorem validSymbol_of_tokenWord {w : Word} (h : tokenWord w = true) : validSymbol w = true := by
  rw [tokenWord, Bool.and_eq_true] at h
  exact h.1

theorem mem_tokens {s : State} {w : Word} : w ∈ s.tokens ↔ ∃ k < s.ntok.toNat, s.tokAt k = w := by
  simp [State.tokens, Mem.readSeq, State.tokAt]

/-- The entries below NLEAF are the leaves of the alphabet, in its order (R176, R178 (b)). -/
theorem buildTree_leaf (s : State) {k : Nat} (hk : k < s.buildTree.nleaf.toNat) :
    ∃ x, s.buildTree.nodeAt k = .leaf ((alphabet s.tokens).getD k 0) x := by
  have h1 := length_alphabet_tokens s
  rw [buildTree_nleaf_toNat] at hk
  rw [buildTree_nodeAt, if_pos (by rw [length_buildNodes]; split <;> omega), buildNodes_leaf _ _ hk]
  exact ⟨_, rfl⟩

/-- BUILD leaves such a tree, its leaves the entries below NLEAF (R177, R178). -/
theorem buildTree_holdsTree {s : State} (htok : ∀ k < s.ntok.toNat, tokenWord (s.tokAt k) = true) : ∃ l r,
    HoldsTree s.buildTree l r ∧ (HTree.node l r).leaves.Perm (List.range s.buildTree.nleaf.toNat) := by
  obtain ⟨l, r, -, hT, hlv, hnd, -, -⟩ := buildTree_tree s
  refine ⟨l, r, ⟨hT, hnd, ?_, fun k hk w x hx => ?_⟩, hlv⟩
  · rw [← HTree.length_leaves, hlv.length_eq, List.length_range]
  · have hmem : k ∈ (HTree.node l r).leaves := by
      rw [← hT.filter_isLeaf, List.mem_filter, hnd.mem_iff, List.mem_range, hx]
      exact ⟨hk, rfl⟩
    have hkl : k < s.buildTree.nleaf.toNat := List.mem_range.mp (hlv.mem_iff.mp hmem)
    obtain ⟨y, hy⟩ := buildTree_leaf s hkl
    rw [hx] at hy
    rw [buildTree_nleaf_toNat] at hkl
    have hw : w ∈ alphabet s.tokens := by
      rw [(Node.leaf.inj hy).1, List.getD_eq_getElem _ _ hkl]
      exact List.getElem_mem hkl
    rcases (mem_alphabet _ _).mp hw with rfl | hw
    · decide
    · obtain ⟨j, hj, rfl⟩ := mem_tokens.mp hw
      exact validSymbol_of_tokenWord (htok j hj)

/-- After `Codes()` the code of each leaf is its path (R180). -/
theorem codeTree_codeAt (s : State) {l r : HTree} (hnd : (HTree.node l r).leaves.Nodup) :
    ∀ x ∈ (HTree.node l r).codes [], (s.codeTree (.node l r)).codeAt x.1 = x.2 :=
  (read_writeCodes s.codemap _ (by rw [HTree.codes_fst]; exact hnd)).1

/-- Each symbol of the alphabet has a code, not an empty one (R188). -/
theorem codeTree_hasCode {s : State} {l r : HTree}
    (hlv : (HTree.node l r).leaves.Perm (List.range s.buildTree.nleaf.toNat)) {w : Word} (hw : w ∈ alphabet s.tokens) :
    (s.buildTree.codeTree (.node l r)).hasCode w := by
  obtain ⟨k, hk, rfl⟩ := List.getElem_of_mem hw
  have hkl : k < s.buildTree.nleaf.toNat := by rw [buildTree_nleaf_toNat]; exact hk
  obtain ⟨x, hx⟩ := buildTree_leaf s hkl
  rw [List.getD_eq_getElem _ _ hk] at hx
  have hfind : ((List.range s.buildTree.nleaf.toNat).find? fun j =>
      (s.buildTree.nodeAt j).isLeafOf (alphabet s.tokens)[k]).isSome := by
    rw [List.find?_isSome]
    exact ⟨k, List.mem_range.mpr hkl, by rw [hx]; simp [Node.isLeafOf]⟩
  obtain ⟨j, hj⟩ := Option.isSome_iff_exists.mp hfind
  have hjl : j ∈ (HTree.node l r).leaves := hlv.mem_iff.mpr (List.mem_of_find?_eq_some hj)
  rw [← HTree.codes_fst _ [], List.mem_map] at hjl
  obtain ⟨⟨j', c⟩, hc, rfl⟩ := hjl
  have hpath := codeTree_codeAt s.buildTree (hlv.nodup_iff.mpr List.nodup_range) _ hc
  have hcode : (s.buildTree.codeTree (.node l r)).codeOf (alphabet s.tokens)[k] = some c :=
    (congrArg (Option.map (s.buildTree.codeTree (.node l r)).codeAt) hj).trans (congrArg some hpath)
  rw [State.hasCode, hcode]
  exact ⟨by simp, by simpa using HTree.codes_ne_nil l r hc⟩

theorem buildBody_treeInv {s : State} (h : TreeInv s) : (buildBody s).All TreeInv := by
  obtain ⟨l, r, hT, hlv⟩ := buildTree_holdsTree h.tokens_valid
  unfold buildBody
  rw [hT.tree_eq]
  have hT' : HoldsTree (s.buildTree.codeTree (.node l r)) l r := ⟨hT.tree, hT.nodes, hT.leaves, hT.symbols_valid⟩
  refine hT'.treeInv h.tokens_valid (fun _ => codeTree_hasCode hlv ((mem_alphabet _ _).mpr (.inl rfl)))
    (fun _ k hk => codeTree_hasCode hlv ((mem_alphabet _ _).mpr (.inr (mem_tokens.mpr ⟨k, hk, rfl⟩)))) fun _ t ht => ?_
  rw [hT'.tree_eq, Option.mem_some_iff] at ht
  exact ht ▸ codeTree_codeAt s.buildTree (hlv.nodup_iff.mpr List.nodup_range)

/-! ### TLOAD (43_huffman.md R185, R186) -/

/-- What TLOAD leaves in every entry of `nodemem`. -/
theorem loadTree_nodeAt (s : State) (t : Parsed) (k : Nat) :
    (s.loadTree t).nodeAt k = if k < t.nodes.length then t.nodes.getD k Node.zero else s.nodeAt k := by
  rw [State.nodeAt, State.loadTree_nodemem, Mem.read_writeSeq]
  simp [State.nodeAt]

theorem HTree.shape_eq_node {t a b : HTree} (h : t.shape = (HTree.node a b).shape) : ∃ l r, t = .node l r := by
  cases t with
  | node l r => exact ⟨l, r, rfl⟩
  | nil | leaf => cases h

/-- A parse that succeeds leaves such a tree (R185). -/
theorem loadTree_holdsTree {s : State} {p : Nat} {t : Parsed} (h : s.parse p = .ok t) :
    ∃ l r, HoldsTree (s.loadTree t) l r := by
  obtain ⟨T, hT, htop⟩ := parseNode_sound _ h (Nat.zero_le _)
  obtain ⟨a, b, rfl⟩ := htop rfl
  have hlen := hT.length_eq
  have hfits := hT.fits
  rw [Nat.zero_add] at hfits
  unfold Config.nodeMax at hfits
  have hle := List.countP_le_length (p := Node.isLeaf) (l := t.nodes)
  have hnnode : (s.loadTree t).nnode.toNat = t.nodes.length := by
    simp only [State.loadTree_nnode, BitVec.toNat_ofNat]
    omega
  have hnleaf : (s.loadTree t).nleaf.toNat = t.nodes.countP Node.isLeaf := by
    simp only [State.loadTree_nleaf, BitVec.toNat_ofNat]
    omega
  have hindex : t.index = (s.loadTree t).root := by
    obtain ⟨-, -, -, ⟨hnil, -⟩ | ⟨-, hidx⟩⟩ := parseNode_ok _ h
    · rw [hnil] at hlen
      simp only [List.length_nil, HTree.size] at hlen
      omega
    · exact hidx
  obtain ⟨u, hu, hshape, hnodes⟩ := hT.tree (s.loadTree t).nodeAt fun j hj => by
    rw [Nat.zero_add, loadTree_nodeAt, if_pos (by omega)]
  obtain ⟨l, r, rfl⟩ := HTree.shape_eq_node hshape
  rw [hindex] at hu hnodes
  refine ⟨l, r, hu, ?_, ?_, fun k hk w x hx => ?_⟩
  · rw [hnodes, hnnode, hlen, List.range_eq_range']
  · rw [hnleaf, hT.leaves_eq, ← HTree.leafCount_shape, ← hshape, HTree.leafCount_shape]
  · rw [hnnode] at hk
    rw [loadTree_nodeAt, if_pos hk, List.getD_eq_getElem _ _ hk] at hx
    have := hT.in_range _ (List.getElem_mem hk)
    rwa [hx] at this

theorem tloadBody_treeInv {s : State} (h : TreeInv s) : (tloadBody s).All TreeInv := by
  unfold tloadBody
  split
  · exact treeInv_of_no_tree rfl rfl h.tokens_valid
  · obtain ⟨l, r, hT⟩ := loadTree_holdsTree ‹_›
    exact hT.treeInv h.tokens_valid (by simp) (by simp) (by simp)

/-! ### MSTEP (42_matcher.md R162) -/

/-- A word with a token's symbol is one `tokmem` may hold (R28). -/
theorem tokenWord_of_symbolOf {w : Word} {x : Symbol} (hw : symbolOf w = some x) (hx : x ≠ .stop) :
    tokenWord w = true := by
  have hne : w ≠ stopWord := by
    rintro rfl
    rw [symbolOf_stopWord] at hw
    exact hx (Option.some.inj hw).symm
  simp [tokenWord, validSymbol, hw, hne]

/-- The token a matcher step emits is a valid Literal or Match word. -/
theorem mstepBody_tokens {s : State} (h : RegisterInv s) (htok : ∀ k < s.ntok.toNat, tokenWord (s.tokAt k) = true) :
    (mstepBody s).All fun t => ∀ k < t.ntok.toNat, tokenWord (t.tokAt k) = true := by
  have pushed : ∀ (u : State) (w : Word) n, u.tokmem = s.tokmem → u.ntok = s.ntok → tokenWord w = true →
      ∀ k < ((u.pushToken w).consume n).ntok.toNat, tokenWord (((u.pushToken w).consume n).tokAt k) = true := by
    intro u w n hm hn hw k hk
    rw [State.tokAt, State.consume_tokmem, State.pushToken_tokmem, Mem.read_write]
    split
    · exact hw
    · rw [hm]
      refine htok k ?_
      simp only [State.consume_ntok, State.pushToken_ntok, BitVec.toNat_ofNat, hn] at hk ‹¬_›
      omega
  obtain ⟨⟨o, L⟩, hf⟩ : ∃ r, s.findLongest s.upcoming = r := ⟨_, rfl⟩
  simp only [mstepBody, hf, mstepWith]
  split
  · exact pushed _ _ _ rfl rfl (tokenWord_of_symbolOf (findLongest_token h hf ‹_›).1 (by simp))
  · exact pushed _ _ _ rfl rfl (tokenWord_of_symbolOf (symbolOf_literalWord _) (by simp))

/-! ### The others -/

/-- The fields the tree invariant speaks of. -/
def treeFields : List Field := [.tokmem, .ntok, .nodemem, .nnode, .nleaf, .root, .tvalid, .codemap, .cmvalid]

theorem TreeInv.congr {s t : State} (h : TreeInv s) (e : ∀ f ∈ treeFields, f.Same s t) : TreeInv t := by
  have ht : t = { t with
      tokmem := s.tokmem, ntok := s.ntok, nodemem := s.nodemem, nnode := s.nnode, nleaf := s.nleaf, root := s.root
      tvalid := s.tvalid, codemap := s.codemap, cmvalid := s.cmvalid } := by
    rw [← show t.tokmem = s.tokmem from e .tokmem (by decide), ← show t.ntok = s.ntok from e .ntok (by decide),
      ← show t.nodemem = s.nodemem from e .nodemem (by decide), ← show t.nnode = s.nnode from e .nnode (by decide),
      ← show t.nleaf = s.nleaf from e .nleaf (by decide), ← show t.root = s.root from e .root (by decide),
      ← show t.tvalid = s.tvalid from e .tvalid (by decide), ← show t.codemap = s.codemap from e .codemap (by decide),
      ← show t.cmvalid = s.cmvalid from e .cmvalid (by decide)]
  rw [ht]
  exact { h with }

/-- Only CBEGIN, MSTEP, BUILD and TLOAD, among the primitives, write a field of the tree invariant. -/
theorem writes_treeFields {i : Instr} (hc : Composite i = false) (hi : i ∉ [.cbegin, .mstep, .build, .tload]) :
    ∀ f ∈ treeFields, writes i f = false := by
  have hd : i ∉ [.encchunk, .decchunk, .compress, .decompress] := by
    intro hm
    simp only [List.mem_cons, List.not_mem_nil, or_false] at hm
    rcases hm with rfl | rfl | rfl | rfl <;> cases hc
  intro f hf
  simp only [treeFields, List.mem_cons, List.not_mem_nil, or_false, not_or] at hf hi hd
  rcases hf with rfl | rfl | rfl | rfl | rfl | rfl | rfl | rfl | rfl <;> exact decide_eq_false (by simp [hi, hd])

/-- Each primitive's pseudocode keeps the tree invariant: CBEGIN drops tree and tokens, MSTEP adds a valid token while
there is no tree, BUILD and TLOAD make one, and nothing else writes its fields. -/
theorem treeInv_primitive {i : Instr} (hc : Composite i = false) (hr : i ≠ .reset) {s : State}
    (h : RegisterInv s) (ht : TreeInv s) (hl : legalIn i s.state = true) (hp : precondition i s = true) :
    (bodyOf i s).All TreeInv := by
  by_cases hi : i ∈ [.cbegin, .mstep, .build, .tload]
  · simp only [List.mem_cons, List.not_mem_nil, or_false] at hi
    rcases hi with rfl | rfl | rfl | rfl
    · exact treeInv_of_no_tree rfl rfl fun k hk => absurd hk (Nat.not_lt_zero k)
    · have hs : s.state = .collecting := of_decide_eq_true hl
      have hno := h.collecting_no_tree hs
      have hcm : s.cmvalid = false := Bool.eq_false_iff.mpr fun hv => by
        rw [h.cmvalid_tvalid hv] at hno
        cases hno
      refine ((mstepBody_keeps s).and (mstepBody_tokens h ht.tokens_valid)).imp ?_
      rintro t ⟨hk, htok⟩
      exact treeInv_of_no_tree (Eq.trans (hk .tvalid rfl) hno) (Eq.trans (hk .cmvalid rfl) hcm) htok
    · exact buildBody_treeInv ht
    · exact tloadBody_treeInv ht
  · exact (primitive_keeps hc hr s).imp fun t hk => ht.congr fun f hf => hk f (writes_treeFields hc hi f hf)

theorem treeInv_stepInvariant : StepInvariant fun s => RegisterInv s ∧ TreeInv s where
  primitive hc hr _ hs hl hp := (registerInv_primitive hc hr hs.1 hl hp).and (treeInv_primitive hc hr hs.1 hs.2 hl hp)
  writeHeader hs hl h6 := ⟨registerInv_stepInvariant.writeHeader hs.1 hl h6, by
    rw [State.appendBytes_frame]
    exact { hs.2 with }⟩
  openFile hs hl hb hr := ⟨registerInv_stepInvariant.openFile hs.1 hl hb hr, { hs.2 with }⟩
  raise k info hs := ⟨hs.1.raise k info, { hs.2 with }⟩
  resetRegisters hs := ⟨.resetRegisters hs.1.params_legal,
    treeInv_of_no_tree rfl rfl fun k hk => absurd hk (Nat.not_lt_zero k)⟩
  takeInput rest hs := ⟨{ hs.1 with }, { hs.2 with }⟩

/-- Settles O58: BUILD and TLOAD leave a tree, BUILD its paths as codes, MSTEP a valid token, and nothing else touches
tree, codes or tokens but to drop them. -/
theorem stepKeepsTheTreeInvariant : Obligations.StepKeepsTheTreeInvariant :=
  fun _ _ hr hs he => (treeInv_stepInvariant.step_keeps ⟨hr, hs⟩ he).2

end Sys2Proof.Machine
end

section
/-! ## Memories in canonical form, inside their index ranges (20_memory.md R60, R75) -/

namespace Sys2Proof.Machine

open Sys2Proof

/-- The fields the memory invariant speaks of. -/
def memoryFields : List Field := [.ring, .ibuf, .obuf, .tokmem, .nodemem, .codemap, .params]

namespace MemoryInv

variable {s t : State}

theorem congr (h : MemoryInv s) (e : ∀ f ∈ memoryFields, f.Same s t) : MemoryInv t := by
  have ht : t = { t with
      ring := s.ring, ibuf := s.ibuf, obuf := s.obuf, tokmem := s.tokmem, nodemem := s.nodemem, codemap := s.codemap
      params := s.params } := by
    rw [← show t.ring = s.ring from e .ring (by decide), ← show t.ibuf = s.ibuf from e .ibuf (by decide),
      ← show t.obuf = s.obuf from e .obuf (by decide), ← show t.tokmem = s.tokmem from e .tokmem (by decide),
      ← show t.nodemem = s.nodemem from e .nodemem (by decide),
      ← show t.codemap = s.codemap from e .codemap (by decide), ← show t.params = s.params from e .params (by decide)]
  rw [ht]
  exact { h with }

/-! ### The input buffer and the ring -/

theorem pushByte (h : MemoryInv s) (b : Byte) (hlt : s.ilen.toNat < s.params.inMax) (n : BitVec 32) :
    MemoryInv { s with ibuf := Mem.write (0 : Byte) s.ibuf s.ilen.toNat b, ilen := n } :=
  { h with
    ibuf_wf := Mem.wf_write _ _ h.ibuf_wf
    ibuf_within := Mem.within_write _ h.ibuf_within hlt }

/-- Records land below CAP (41_lookback.md R140). -/
theorem recordAll (h : MemoryInv s) (hr : RingOk s) (bs : List Byte) : MemoryInv (s.recordAll bs) := by
  have hwf := State.recordAll_ring_wf bs h.ring_wf
  have hin := State.recordAll_ring_within bs hr h.ring_within
  rw [State.recordAll_frame]
  exact { h with ring_wf := hwf, ring_within := hin }

/-! ### The output buffer, where the bytes have room (44_bitstream.md R210) -/

theorem appendBytes (h : MemoryInv s) (bs : List Byte) (hmax : s.params.outMax < 2 ^ 32)
    (hroom : s.olen.toNat + bs.length ≤ s.params.outMax) : MemoryInv (s.appendBytes bs) := by
  have hobuf := State.appendBytes_obuf s bs (by omega)
  rw [State.appendBytes_frame, hobuf]
  exact { h with
    obuf_wf := Mem.wf_writeSeq _ _ h.obuf_wf
    obuf_within := Mem.within_writeSeq _ h.obuf_within hroom }

theorem putBits (h : MemoryInv s) (c : Bits) (hmax : s.params.outMax < 2 ^ 32)
    (hroom : s.olen.toNat + (s.nacc.toNat + c.length) / 8 ≤ s.params.outMax) : MemoryInv (s.putBits c) := by
  have hwf := State.putBits_obuf_wf h.obuf_wf c
  have hin := State.putBits_obuf_within h.obuf_within c hmax hroom
  rw [State.putBits_frame]
  exact { h with obuf_wf := hwf, obuf_within := hin }

theorem finish (h : MemoryInv s) (c : Bits) (hmax : s.params.outMax < 2 ^ 32)
    (hroom : s.olen.toNat + (s.nacc.toNat + 7) / 8 ≤ s.params.outMax) : MemoryInv (s.finish c) := by
  have hwf := State.finish_obuf_wf h.obuf_wf c
  have hin := State.finish_obuf_within h.obuf_within c hmax hroom
  rw [State.finish_frame]
  exact { h with obuf_wf := hwf, obuf_within := hin }

/-- Decoded bytes go to the ring and to the output (45_chunk_codec.md R224). -/
theorem decodedBytes (h : MemoryInv s) (hr : RingOk s) (bs : List Byte) (hmax : s.params.outMax < 2 ^ 32)
    (hroom : s.olen.toNat + bs.length ≤ s.params.outMax) : MemoryInv ((s.recordAll bs).appendBytes bs) :=
  (h.recordAll hr bs).appendBytes bs (by simpa using hmax) (by simpa using hroom)

/-! ### Tokens, nodes, codes -/

theorem pushToken (h : MemoryInv s) (w : Word) (hlt : s.ntok.toNat < Config.tokMax) : MemoryInv (s.pushToken w) :=
  { h with
    tokmem_wf := Mem.wf_write _ _ h.tokmem_wf
    tokmem_within := Mem.within_write _ h.tokmem_within hlt }

/-- A built tree has at most NODE_MAX nodes: NTOK is 16 bits wide (43_huffman.md R177). -/
theorem buildTree (h : MemoryInv s) : MemoryInv s.buildTree :=
  { h with
    nodemem_wf := Mem.wf_writeSeq _ _ h.nodemem_wf
    nodemem_within := Mem.within_writeSeq _ h.nodemem_within (by simpa using (length_buildNodes_le s).2) }

/-- `Codes()` writes at the indices of the leaves (R180). -/
theorem codeTree (h : MemoryInv s) {T : HTree} (hT : ∀ k ∈ T.leaves, k < Config.nodeMax) : MemoryInv (s.codeTree T) :=
  { h with
    codemap_wf := wf_writeCodes _ h.codemap_wf
    codemap_within := within_writeCodes _ h.codemap_within fun _ hx =>
      hT _ (HTree.codes_fst T [] ▸ List.mem_map_of_mem hx) }

theorem loadTree (h : MemoryInv s) {p : Parsed} (hp : p.nodes.length ≤ Config.nodeMax) : MemoryInv (s.loadTree p) :=
  { h with
    nodemem_wf := Mem.wf_writeSeq _ _ h.nodemem_wf
    nodemem_within := Mem.within_writeSeq _ h.nodemem_within (by simpa using hp) }

end MemoryInv

/-! ### The primitives that write a memory -/

section
variable {s : State}

/-- The room a command asked for, as a bound on OLEN (R210). -/
theorem hasRoom_iff {k : Nat} : s.hasRoom k = true ↔ s.olen.toNat + k ≤ s.params.outMax := decide_eq_true_iff

theorem pushBody_memory (b : Byte) (hm : MemoryInv s) : (pushBody b s).All MemoryInv := by
  unfold pushBody
  split
  · exact hm.pushByte b ‹_› _
  · exact hm

/-- While a chunk collects, the tokens are no more than the bytes consumed, and those fewer than TOK_MAX before the
chunk's end (10_state.md R48). -/
theorem ntok_lt_of_collecting (h : RegisterInv s) (hs : s.state = .collecting) (hlt : s.ipos.toNat < s.cend.toNat) :
    s.ntok.toNat < Config.tokMax := by
  obtain ⟨hend, htok⟩ := h.collecting_tokens hs
  have hstart := (h.collecting_range hs).1
  omega

theorem mstepBody_memory (h : RegisterInv s) (hm : MemoryInv s) (hs : s.state = .collecting)
    (hlt : s.ipos.toNat < s.cend.toNat) : (mstepBody s).All MemoryInv := by
  have hntok : s.ntok.toNat < Config.tokMax := ntok_lt_of_collecting h hs hlt
  have collected : ∀ r w n, MemoryInv (((s.setSearch r).pushToken w).consume n) := fun r w n => by
    have hset : MemoryInv (s.setSearch r) := { hm with }
    exact { (hset.pushToken w hntok).recordAll ⟨h.wptr_lt, h.fill_le⟩ (s.ibufSlice s.ipos.toNat n) with }
  show MemoryInv (mstepWith s _)
  unfold mstepWith
  split
  · exact collected _ _ _
  · exact collected _ _ _

/-- The leaves of a built tree are the entries below NLEAF, at most one more than the tokens (43_huffman.md R178). -/
theorem buildBody_memory (hm : MemoryInv s) : (buildBody s).All MemoryInv := by
  obtain ⟨l, r, htree, -, hleaves, -, -, -⟩ := buildTree_tree s
  have hle := (length_alphabet_tokens s).2
  have hntok := s.ntok.isLt
  unfold buildBody
  rw [htree]
  refine hm.buildTree.codeTree fun k hk => ?_
  have hk := List.mem_range.mp (hleaves.mem_iff.mp hk)
  rw [buildTree_nleaf_toNat] at hk
  unfold Config.nodeMax
  omega

theorem tstoreBody_memory (h : RegisterInv s) (hm : MemoryInv s) : (tstoreBody s).All MemoryInv := by
  unfold tstoreBody
  split
  · trivial
  · refine needOut_all hm fun hroom => hm.appendBytes _ h.outMax_lt ?_
    rw [HTree.length_ser]
    exact hasRoom_iff.mp hroom

theorem tloadBody_memory (hm : MemoryInv s) : (tloadBody s).All MemoryInv := by
  unfold tloadBody
  split
  · exact { hm with }
  · obtain ⟨-, -, hlen, -⟩ := parseNode_ok _ ‹_›
    exact hm.loadTree (by simpa using hlen (Nat.zero_le _))

theorem wbitsBody_memory (n : BitVec 5) (v : BitVec 16) (h : RegisterInv s) (hm : MemoryInv s) :
    (wbitsBody n v s).All MemoryInv := by
  refine needOut_all hm fun hroom => hm.putBits _ h.outMax_lt ?_
  rw [length_operandBits]
  exact hasRoom_iff.mp hroom

theorem wfinBody_memory (h : RegisterInv s) (hm : MemoryInv s) : (wfinBody s).All MemoryInv := by
  have hn := s.nacc_lt
  unfold wfinBody
  split
  · refine needOut_all hm fun hroom => withCode_all fun c _ => hm.finish c h.outMax_lt ?_
    have := hasRoom_iff.mp hroom
    omega
  · exact hm

theorem estepBody_memory (h : RegisterInv s) (hm : MemoryInv s) : (estepBody s).All MemoryInv :=
  withCode_all fun c _ => needOut_all hm fun hroom => { hm.putBits c h.outMax_lt (hasRoom_iff.mp hroom) with }

/-- The stop code and the padding take the room asked for together (45_chunk_codec.md R223). -/
theorem efinBody_memory (h : RegisterInv s) (hm : MemoryInv s) : (efinBody s).All MemoryInv := by
  have hmax := h.outMax_lt
  refine withCode_all fun c _ => needOut_all hm fun hroom => ?_
  have hroom := hasRoom_iff.mp hroom
  obtain ⟨hnacc, holen⟩ := State.putBits_counts s c (by omega)
  have hput := hm.putBits c hmax (by omega)
  have hfin := hput.finish c (by simpa using hmax) (by rw [hnacc, holen, State.putBits_params]; omega)
  exact { hfin with }

theorem dstepSymbol_memory {t : State} (w : Word) (h : RegisterInv s) (hm : MemoryInv s)
    (ht : t = { s with ipos := t.ipos, ibit := t.ibit }) : (dstepSymbol s t w).All MemoryInv := by
  have hmt : MemoryInv t := by rw [ht]; exact { hm with }
  have hring : RingOk t := by rw [ht]; exact ⟨h.wptr_lt, h.fill_le⟩
  have hout : ∀ bs : List Byte, s.hasRoom bs.length = true → MemoryInv ((t.recordAll bs).appendBytes bs) := by
    intro bs hroom
    have holen : t.olen = s.olen := by rw [ht]
    have hparams : t.params = s.params := by rw [ht]
    exact hmt.decodedBytes hring bs (hparams ▸ h.outMax_lt) (by rw [holen, hparams]; exact hasRoom_iff.mp hroom)
  unfold dstepSymbol
  split
  · trivial
  · show MemoryInv t.stopChunk
    rw [State.stopChunk, align_frame]
    exact { hmt with }
  · split
    · next b _ hroom => exact { hout [b] hroom with }
    · exact hm
  · split
    · split
      · next o l _ _ hroom =>
        have hcopy := hout (State.copied o.toNat l.toNat t) (by rwa [State.length_copied])
        rw [← State.copyMatch_eq] at hcopy
        exact { hcopy with }
      · exact hm
    · exact hm

theorem dstepBody_memory (h : RegisterInv s) (hm : MemoryInv s) : (dstepBody s).All MemoryInv := by
  unfold dstepBody
  split
  · exact dstepSymbol_memory _ h hm (walk_symbol ‹_›).1
  · split
    · exact { hm with }
    · exact hm
  · exact hm

end

/-- Each primitive's pseudocode keeps the memory invariant: those that write a memory write below its bound, and the
others leave the memories alone. -/
theorem memoryInv_primitive {i : Instr} (hc : Composite i = false) (hr : i ≠ .reset) {s : State}
    (h : RegisterInv s) (hm : MemoryInv s) (hl : legalIn i s.state = true) (hp : precondition i s = true) :
    (bodyOf i s).All MemoryInv := by
  have untouched : (∀ f ∈ memoryFields, writes i f = false) → (bodyOf i s).All MemoryInv := fun hw =>
    (primitive_keeps hc hr s).imp fun t hk => hm.congr fun f hf => hk f (hw f hf)
  cases i with
  | push b => exact pushBody_memory b hm
  | lbrec b => exact hm.recordAll h.ringOk [b]
  | mstep => exact mstepBody_memory h hm (of_decide_eq_true hl) (of_decide_eq_true hp)
  | build => exact buildBody_memory hm
  | tstore => exact tstoreBody_memory h hm
  | tload => exact tloadBody_memory hm
  | wbits n v => exact wbitsBody_memory n v h hm
  | wfin => exact wfinBody_memory h hm
  | estep => exact estepBody_memory h hm
  | efin => exact efinBody_memory h hm
  | dstep => exact dstepBody_memory h hm
  | nop | csrw | csrr | iclr | oclr | lbclr | lbfind | cbegin | rbit | ralign =>
    exact untouched (by simp [memoryFields, writes, isLbrec, isPush, isWbits])
  | reset => exact absurd rfl hr
  | encchunk | decchunk | compress | decompress => cases hc

/-- The register and the memory invariant together are kept by every way a step changes the state. -/
theorem memoryInv_stepInvariant : StepInvariant fun s => RegisterInv s ∧ MemoryInv s where
  primitive hc hr _ hs hl hp :=
    (registerInv_primitive hc hr hs.1 hl hp).and (memoryInv_primitive hc hr hs.1 hs.2 hl hp)
  writeHeader {s} hs hl h6 :=
    have hclear : MemoryInv s.clearOut.clearRing := { hs.2 with }
    ⟨registerInv_stepInvariant.writeHeader hs.1 hl h6,
      hclear.appendBytes _ hs.1.outMax_lt (by simpa [fileHeader, magicBytes] using h6)⟩
  openFile hs hl hb hr := ⟨registerInv_stepInvariant.openFile hs.1 hl hb hr, { hs.2 with }⟩
  raise k info hs := ⟨hs.1.raise k info, { hs.2 with }⟩
  resetRegisters hs := ⟨.resetRegisters hs.1.params_legal, { hs.2 with }⟩
  takeInput rest hs := ⟨{ hs.1 with }, { hs.2 with }⟩

/-- Settles O57: every write keeps the canonical form, and its index is below the memory's bound: WPTR below CAP, ILEN
and OLEN with room, NTOK below TOK_MAX, nodes and leaves of a tree of at most NODE_MAX nodes. -/
theorem stepKeepsTheMemoryInvariant : Obligations.StepKeepsTheMemoryInvariant :=
  fun _ _ hr hm he => (memoryInv_stepInvariant.step_keeps ⟨hr, hm⟩ he).2

end Sys2Proof.Machine
end

section
/-! ## The unread bits (20_memory.md R62, R64; 44_bitstream.md R203) -/

namespace Sys2Proof.Machine

open Sys2Proof

/-- Bit `k` of a byte in transmission order is bit `7 - k` of the byte (R62). -/
theorem getD_bitsOfByte (b : Byte) {k : Nat} (hk : k < 8) : (bitsOfByte b).getD k false = b.getLsbD (7 - k) := by
  simp [bitsOfByte, List.getD_eq_getElem?_getD, hk]

theorem length_flatMap_bitsOfByte (l : List Byte) : (l.flatMap bitsOfByte).length = 8 * l.length := by
  simp [List.length_flatMap, Nat.mul_comm]

/-- Bit `k` of a byte sequence is in byte `k / 8`, at place `k % 8` from its most significant bit (R64). -/
theorem getD_flatMap_bitsOfByte (l : List Byte) {k : Nat} (hk : k < 8 * l.length) :
    (l.flatMap bitsOfByte).getD k false = (l.getD (k / 8) 0).getLsbD (7 - k % 8) := by
  induction l generalizing k with
  | nil => simp at hk
  | cons b l ih =>
    rw [List.flatMap_cons]
    by_cases h8 : k < 8
    · rw [List.getD_append _ _ _ _ (by simpa using h8), getD_bitsOfByte b h8, Nat.div_eq_of_lt h8, Nat.mod_eq_of_lt h8,
        List.getD_cons_zero]
    · obtain ⟨j, rfl⟩ := Nat.exists_eq_add_of_le' (not_lt.mp h8)
      rw [List.length_cons] at hk
      rw [List.getD_append_right _ _ _ _ (by simp), length_bitsOfByte, Nat.add_sub_cancel, ih (by omega),
        Nat.add_mod_right, Nat.add_div_right j (by decide), List.getD_cons_succ]

/-- Settles O7: the unread bits are a byte sequence's from `ibuf[IPOS]` on, less the first IBIT. -/
theorem unreadBitsAreMostSignificantFirst : Obligations.UnreadBitsAreMostSignificantFirst := by
  intro s _
  have hlen : s.unread.length = 8 * (s.ilen.toNat - s.ipos.toNat) - s.ibit.toNat := by
    rw [State.unread, List.length_drop, length_flatMap_bitsOfByte, State.ibufSlice, Mem.length_readSeq]
  refine ⟨hlen, fun j hj => ?_⟩
  rw [hlen] at hj
  calc s.unread.getD j false
      = ((s.ibufSlice s.ipos.toNat (s.ilen.toNat - s.ipos.toNat)).flatMap bitsOfByte).getD (s.ibit.toNat + j) false := by
        simp only [State.unread, List.getD_eq_getElem?_getD, List.getElem?_drop]
    _ = (s.ibufAt (s.ipos.toNat + (s.ibit.toNat + j) / 8)).getLsbD (7 - (s.ibit.toNat + j) % 8) := by
        rw [getD_flatMap_bitsOfByte _ (by rw [State.ibufSlice, Mem.length_readSeq]; omega), State.ibufSlice,
          Mem.getD_readSeq _ _ _ _ _ (by omega), State.ibufAt]
    _ = _ := by
        rw [show 8 * s.ipos.toNat + s.ibit.toNat + j = (s.ibit.toNat + j) + 8 * s.ipos.toNat by omega,
          Nat.add_mul_div_left _ _ (by decide), Nat.add_mul_mod_self_left, Nat.add_comm (_ / 8)]

end Sys2Proof.Machine
end

section
/-! ## Command words and symbol words (30_encoding.md R90 to R98) -/

namespace Sys2Proof.Machine

open Sys2Proof

/-! ### The fields of a command word, as arithmetic on its number (R91) -/

theorem toNat_extractLsb' (w : Word) (a k : Nat) : (w.extractLsb' a k).toNat = w.toNat / 2 ^ a % 2 ^ k := by
  rw [BitVec.extractLsb'_toNat, Nat.shiftRight_eq_div_pow]

theorem extractLsb'_eq_zero_iff {w : Word} {a k : Nat} : w.extractLsb' a k = 0#k ↔ w.toNat / 2 ^ a % 2 ^ k = 0 := by
  rw [← BitVec.toNat_inj, toNat_extractLsb', BitVec.toNat_zero]

theorem toNat_opcodeField (w : Word) : (opcodeField w).toNat = w.toNat / 2 ^ 24 := by
  rw [opcodeField, toNat_extractLsb', Nat.mod_eq_of_lt (by have := w.isLt; omega)]

theorem toNat_byteField (w : Word) : (byteField w).toNat = w.toNat % 2 ^ 8 := by
  rw [byteField, toNat_extractLsb', Nat.pow_zero, Nat.div_one]

theorem toNat_addrField (w : Word) : (addrField w).toNat = w.toNat / 2 ^ 16 % 2 ^ 8 := toNat_extractLsb' ..

theorem toNat_valueField (w : Word) : (valueField w).toNat = w.toNat % 2 ^ 16 := by
  rw [valueField, toNat_extractLsb', Nat.pow_zero, Nat.div_one]

theorem toNat_countField (w : Word) : (countField w).toNat = w.toNat / 2 ^ 16 % 2 ^ 5 := toNat_extractLsb' ..

/-! ### What each format's decoder accepts (R94) -/

theorem decodeZ_eq_ok {i j : Instr} {w : Word} : decodeZ i w = .ok j ↔ w.toNat % 2 ^ 24 = 0 ∧ j = i := by
  simp only [decodeZ, extractLsb'_eq_zero_iff, Nat.pow_zero, Nat.div_one]
  split <;> simp_all [eq_comm]

theorem decodeB_eq_ok {f : Byte → Instr} {j : Instr} {w : Word} :
    decodeB f w = .ok j ↔ w.toNat / 2 ^ 8 % 2 ^ 16 = 0 ∧ j = f (byteField w) := by
  simp only [decodeB, extractLsb'_eq_zero_iff]
  split <;> simp_all [eq_comm]

theorem decodeC_eq_ok {f : BitVec 8 → BitVec 16 → Instr} {j : Instr} {w : Word} :
    decodeC f w = .ok j ↔ j = f (addrField w) (valueField w) := by
  simp [decodeC, eq_comm]

theorem decodeA_eq_ok {f : BitVec 8 → Instr} {j : Instr} {w : Word} :
    decodeA f w = .ok j ↔ w.toNat % 2 ^ 16 = 0 ∧ j = f (addrField w) := by
  simp only [decodeA, extractLsb'_eq_zero_iff, Nat.pow_zero, Nat.div_one]
  split <;> simp_all [eq_comm]

theorem decodeW_eq_ok {f : BitVec 5 → BitVec 16 → Instr} {j : Instr} {w : Word} :
    decodeW f w = .ok j ↔ w.toNat / 2 ^ 21 % 2 ^ 3 = 0 ∧ wellFormedBits (countField w) (valueField w) = true ∧
      j = f (countField w) (valueField w) := by
  simp only [decodeW, extractLsb'_eq_zero_iff]
  split
  · next hz =>
    split
    · next hcount =>
      have hbad : wellFormedBits (countField w) (valueField w) ≠ true := fun h => by
        have := wellFormedBits_iff.mp h
        omega
      exact ⟨nofun, fun h => absurd h.2.1 hbad⟩
    · split
      · next hv => exact ⟨fun h => ⟨hz, hv, (Except.ok.inj h).symm⟩, fun h => by rw [h.2.2]⟩
      · next hv => simp [hv]
  · next hz => exact ⟨nofun, fun h => absurd h.1 hz⟩

/-! ### The word of what was decoded (R93) -/

/-- In format Z the opcode is the whole word. -/
theorem encode_of_decodeZ {w : Word} {op : Nat} {i j : Instr} (hop : (opcodeField w).toNat = op)
    (he : (encode i).toNat = op * 2 ^ 24) (hw : i.wellFormed = true) (h : decodeZ i w = .ok j) :
    j.wellFormed = true ∧ encode j = w := by
  obtain ⟨hz, rfl⟩ := decodeZ_eq_ok.mp h
  rw [toNat_opcodeField] at hop
  exact ⟨hw, BitVec.eq_of_toNat_eq (by omega)⟩

/-- In format B the byte is below the opcode. -/
theorem encode_of_decodeB {w : Word} {op : Nat} {f : Byte → Instr} {j : Instr} (hop : (opcodeField w).toNat = op)
    (he : ∀ b, (encode (f b)).toNat = op * 2 ^ 24 + b.toNat) (hw : ∀ b, (f b).wellFormed = true)
    (h : decodeB f w = .ok j) : j.wellFormed = true ∧ encode j = w := by
  obtain ⟨hz, rfl⟩ := decodeB_eq_ok.mp h
  rw [toNat_opcodeField] at hop
  refine ⟨hw _, BitVec.eq_of_toNat_eq ?_⟩
  rw [he, toNat_byteField]
  omega

/-- The decoder gives a well-formed term whose encoding is the word. -/
theorem encode_of_decode {w : Word} {i : Instr} (h : decode w = .ok i) : i.wellFormed = true ∧ encode i = w := by
  unfold decode at h
  split at h
  case h_3 hop =>
    cases decodeC_eq_ok.mp h
    rw [toNat_opcodeField] at hop
    refine ⟨rfl, BitVec.eq_of_toNat_eq ?_⟩
    rw [Laws.CommandWord.csrw, toNat_addrField, toNat_valueField]
    omega
  case h_4 hop =>
    obtain ⟨hz, rfl⟩ := decodeA_eq_ok.mp h
    rw [toNat_opcodeField] at hop
    refine ⟨rfl, BitVec.eq_of_toNat_eq ?_⟩
    rw [Laws.CommandWord.csrr, toNat_addrField]
    omega
  case h_5 hop => exact encode_of_decodeB hop Laws.CommandWord.push (fun _ => rfl) h
  case h_9 hop => exact encode_of_decodeB hop Laws.CommandWord.lbrec (fun _ => rfl) h
  case h_16 hop =>
    obtain ⟨hz, hv, rfl⟩ := decodeW_eq_ok.mp h
    rw [toNat_opcodeField] at hop
    refine ⟨hv, BitVec.eq_of_toNat_eq ?_⟩
    rw [Laws.CommandWord.wbits, toNat_countField, toNat_valueField]
    omega
  case h_27 => cases h
  all_goals exact encode_of_decodeZ ‹_› rfl rfl h

/-- Settles O4: the decoder inverts the encoder, and each format's decoder returns a term whose fields are the word's. -/
theorem decodeIsTheInverseOfEncode : Obligations.DecodeIsTheInverseOfEncode := by
  refine fun w i => ⟨encode_of_decode, fun ⟨hw, he⟩ => ?_⟩
  rw [← he, decode_encode hw]

/-- Settles O3: under each opcode its format's decoder accepts the words the map says. -/
theorem legalWordsAreThoseOfTheOpcodeMap : Obligations.LegalWordsAreThoseOfTheOpcodeMap := by
  intro w
  simp only [← toNat_opcodeField]
  unfold decode
  split
  case h_27 => simp_all
  all_goals
    next hop =>
    simp [hop, decodeZ_eq_ok, decodeB_eq_ok, decodeC_eq_ok, decodeA_eq_ok, decodeW_eq_ok, wellFormedBits_iff,
      toNat_countField, toNat_valueField]

/-! ### Symbol words -/

theorem toNat_literalWord (b : Byte) : (literalWord b).toNat = b.toNat := by
  simp only [literalWord, Laws.CommandWord.toNat_append_arith, BitVec.toNat_ofNat]
  omega

theorem toNat_matchWord (o : BitVec 16) (l : BitVec 8) :
    (matchWord o l).toNat = 0x40000000 + o.toNat * 2 ^ 8 + l.toNat := by
  simp only [matchWord, Laws.CommandWord.toNat_append_arith, BitVec.toNat_ofNat]
  omega

/-- A word is its tag, its reserved bits, its offset and its low byte (R96). -/
theorem symbolFields_append (w : Word) : symTag w ++ symReserved w ++ symOffset w ++ symLow w = w := by
  refine BitVec.eq_of_toNat_eq ?_
  have hw := w.isLt
  simp only [Laws.CommandWord.toNat_append_arith, symTag, symReserved, symOffset, symLow, toNat_extractLsb']
  omega

/-- A valid symbol word is its symbol's word, and a match has an offset and a length (R96, R97). -/
theorem toWord_of_symbolOf {w : Word} {x : Symbol} (h : symbolOf w = some x) :
    x.toWord = w ∧ ∀ o l, x = .copy o l → o ≠ 0 ∧ l ≠ 0 := by
  have hw := symbolFields_append w
  unfold symbolOf at h
  split at h
  · next ht =>
    split at h
    · next hf =>
      cases h
      rw [ht, hf.1, hf.2] at hw
      exact ⟨hw, nofun⟩
    · cases h
  split at h
  · next ht =>
    split at h
    · next hf =>
      obtain ⟨hr, ho, hl⟩ := hf
      cases h
      rw [ht, hr] at hw
      exact ⟨hw, fun o l e => by cases e; exact ⟨ho, hl⟩⟩
    · cases h
  split at h
  · next ht =>
    split at h
    · next hz =>
      cases h
      refine ⟨BitVec.eq_of_toNat_eq ?_, nofun⟩
      have htag := congrArg BitVec.toNat ht
      have hlow := extractLsb'_eq_zero_iff.mp hz
      have hlt := w.isLt
      simp only [symTag, toNat_extractLsb', BitVec.toNat_ofNat] at htag
      simp only [Symbol.toWord, stopWord, BitVec.toNat_ofNat]
      omega
    · cases h
  · cases h

/-- Settles O6: the fields of a valid word are its symbol's, and the order is that of the numbers. -/
theorem symbolWordsAreTaggedAndOrdered : Obligations.SymbolWordsAreTaggedAndOrdered := by
  have hstop : stopWord.toNat = 0x80000000 := rfl
  refine ⟨fun w x => ⟨fun h => ?_, fun h => ?_⟩, fun b o l => ?_, fun b => ?_, fun o l => ?_, fun b c => ?_,
    fun o p l k => ?_⟩
  · obtain ⟨rfl, hc⟩ := toWord_of_symbolOf h
    cases x with
    | literal b => exact toNat_literalWord b
    | copy o l =>
      obtain ⟨ho, hl⟩ := hc o l rfl
      have pos {n : Nat} {x : BitVec n} (hx : x ≠ 0) : 1 ≤ x.toNat :=
        Nat.pos_of_ne_zero fun h => hx (BitVec.eq_of_toNat_eq (by simpa using h))
      exact ⟨pos ho, pos hl, toNat_matchWord o l⟩
    | stop => rfl
  · cases x with
    | literal b => rw [BitVec.eq_of_toNat_eq (h.trans (toNat_literalWord b).symm), symbolOf_literalWord]
    | copy o l =>
      obtain ⟨ho, hl, hw⟩ := h
      rw [BitVec.eq_of_toNat_eq (hw.trans (toNat_matchWord o l).symm), symbolOf_matchWord]
      · rintro rfl
        cases ho
      · rintro rfl
        cases hl
    | stop => rw [BitVec.eq_of_toNat_eq (h.trans hstop.symm), symbolOf_stopWord]
  · rw [toNat_literalWord, toNat_matchWord]
    omega
  · rw [toNat_literalWord, hstop]
    omega
  · rw [toNat_matchWord, hstop]
    omega
  · rw [toNat_literalWord, toNat_literalWord]
  · rw [toNat_matchWord, toNat_matchWord]
    omega

/-- Settles O5: the decoder is run on each word. -/
theorem sampleWordsDecode : Obligations.SampleWordsDecode := by
  exact ⟨rfl, rfl, rfl, rfl, rfl, rfl, rfl, rfl, rfl, rfl, rfl, rfl, rfl, rfl, rfl⟩

end Sys2Proof.Machine
end

section
/-! ## The tree commands: BUILD's codes, TSTORE, TLOAD (43_huffman.md R180, R184 to R186, R188) -/

namespace Sys2Proof.Machine

open Sys2Proof

/-- R220's two states in which no chunk is open, as the legality table asks for them. -/
theorem noChunk_of_closed {s : State} (h : ChunkClosed s) : s.state.noChunk = true := by
  rcases h with h | h <;> rw [h] <;> rfl

theorem not_failed_of_closed {s : State} (h : ChunkClosed s) : s.state ≠ .failed := by
  rcases h with h | h <;> rw [h] <;> decide

/-- A command whose checks hold runs its pseudocode (40_host_config.md R120). -/
theorem exec_of_legal {i : Instr} {s : State} (hw : i.wellFormed = true) (hf : s.state ≠ .failed)
    (hl : legalIn i s.state = true) (hp : precondition i s = true) : exec i s = (bodyOf i s).outcome := by
  rw [exec_eq_command, command_legal hw hf hl hp]

/-! ### The output bytes -/

/-- Appending bytes that fit in the address space (10_state.md R25). -/
theorem State.appended_appendBytes (s : State) (bs : List Byte) (h : s.olen.toNat + bs.length < 2 ^ 32) :
    Appended s (s.appendBytes bs) bs := by
  have hobuf := State.appendBytes_obuf s bs h
  refine ⟨State.appendBytes_olen s bs h, ?_, fun a ha => ?_⟩
  · rw [State.obufSlice, hobuf, Mem.readSeq_writeSeq]
  · rw [State.obufAt, hobuf, Mem.read_writeSeq, if_neg (by omega)]
    rfl

/-- The bytes behind the written ones keep their place too. -/
theorem State.putBits_obufAt_behind {s : State} (c : Bits) (h : s.olen.toNat + (s.nacc.toNat + c.length) / 8 < 2 ^ 32)
    {a : Nat} (ha : (s.putBits c).olen.toNat ≤ a) : (s.putBits c).obufAt a = s.obufAt a := by
  induction c generalizing s with
  | nil => rfl
  | cons b c ih =>
    simp only [List.length_cons] at h
    obtain ⟨hnacc, holen⟩ := State.putBit_counts s b (by omega)
    have hrest : (s.putBit b).olen.toNat + ((s.putBit b).nacc.toNat + c.length) / 8 < 2 ^ 32 := by
      rw [hnacc, holen]
      omega
    have hend := (State.putBits_counts (s.putBit b) c hrest).2
    rw [State.putBits] at ha ⊢
    have hne : s.nacc.toNat + 1 = 8 → a ≠ s.olen.toNat := by omega
    rw [ih hrest ha, State.putBit]
    split
    · next he => exact Mem.read_write_ne _ _ (hne he)
    · rfl

/-- `PutBits` where its bytes fit in the address space (44_bitstream.md R201). -/
theorem State.bitsWritten_putBits {s : State} (hacc : AccLow s.acc s.nacc.toNat) (c : Bits)
    (h : s.olen.toNat + (s.nacc.toNat + c.length) / 8 < 2 ^ 32) : BitsWritten s (s.putBits c) c where
  written_eq := State.putBits_written hacc c h
  nacc_eq := (State.putBits_counts s c h).1
  olen_eq := (State.putBits_counts s c h).2
  low_zero := State.putBits_accLow hacc c
  others_kept _ ha := ha.elim (State.putBits_obuf_read c h) (State.putBits_obufAt_behind c h)

/-! ### `NeedOut` (44_bitstream.md R210) and error entry (60_exceptions.md R268) -/

theorem needOut_of_room {s : State} {k : Nat} {f : State → Res} (h : s.olen.toNat + k ≤ s.params.outMax) :
    s.needOut k f = f s := if_pos (hasRoom_iff.mpr h)

theorem needOut_of_no_room {s : State} {k : Nat} {f : State → Res} (h : s.params.outMax < s.olen.toNat + k) :
    s.needOut k f = .raised .resourceExhausted 2 s := if_neg fun hr => absurd (hasRoom_iff.mp hr) (by omega)

/-- Where no decode chunk is open, error entry rolls nothing back (R269). -/
theorem State.raise_of_not_decoding {s : State} (h : ¬ (s.state = .headerParsed ∨ s.state = .decoding)) (k : ErrorKind)
    (info : Word) :
    s.raise k info = { s with estate := s.state, err := some k, errinfo := info, state := .failed } := by
  rw [State.raise, if_neg h]

/-- Settles O33: `NeedOut` asks for the tree's `SerLen` bytes, and they are appended or nothing is. -/
theorem tstoreAppendsTheTreeBytes : Obligations.TstoreAppendsTheTreeBytes := by
  intro s T h hs hT
  have hexec : exec .tstore s = (tstoreBody s).outcome :=
    exec_of_legal rfl (by rw [hs]; decide) (by rw [hs]; rfl) rfl
  have hbody : tstoreBody s = s.needOut T.ser.length fun s => .ok (s.appendBytes T.ser) := by
    rw [tstoreBody, hT, HTree.length_ser]
  rw [hexec, hbody]
  refine ⟨fun hroom => ?_, fun hroom => ?_⟩
  · have hmax := h.outMax_lt
    rw [needOut_of_room hroom]
    exact ⟨_, rfl, State.appendBytes_frame .., State.appended_appendBytes s _ (by omega)⟩
  · rw [needOut_of_no_room hroom]
    exact congrArg _ (State.raise_of_not_decoding (by simp [hs]) _ _)

/-- Settles O37: `NeedOut` asks for the bytes that `PutBits` of the operand's bits completes. -/
theorem wbitsWritesItsBits : Obligations.WbitsWritesItsBits := by
  intro s n v h hc h1 h16 hv
  have hexec : exec (.wbits n v) s = (wbitsBody n v s).outcome :=
    exec_of_legal (wellFormedBits_iff.mpr ⟨h1, h16, hv⟩) (not_failed_of_closed hc) (noChunk_of_closed hc) rfl
  have hlen := length_operandBits n v
  rw [hexec, wbitsBody]
  refine ⟨fun hroom => ?_, fun hroom => ?_⟩
  · have hmax := h.outMax_lt
    rw [needOut_of_room hroom]
    exact ⟨_, rfl, State.putBits_frame .., State.bitsWritten_putBits h.acc_low _ (by omega)⟩
  · rw [needOut_of_no_room hroom]
    exact congrArg _ (State.raise_of_not_decoding (by rcases hc with hc | hc <;> simp [hc]) _ _)

/-! ### TLOAD (43_huffman.md R185, R186) -/

/-- Bytes of the input buffer at `p`, as a slice of it. -/
theorem bytesAt_ibuf {s : State} {p : Nat} {l : List Byte} : BytesAt s.ibufAt p l ↔ s.ibufSlice p l.length = l := by
  constructor
  · intro h
    refine List.ext_getElem (by simp [State.ibufSlice]) fun j h1 h2 => ?_
    have hj := h j h2
    rw [List.getD_eq_getElem _ _ h2] at hj
    rw [← hj, ← List.getD_eq_getElem _ 0 h1, State.ibufSlice, Mem.getD_readSeq _ _ _ _ _ h2, State.ibufAt]
  · intro h j hj
    rw [← h, State.ibufSlice, Mem.getD_readSeq _ _ _ _ _ (by simpa [State.ibufSlice] using hj), State.ibufAt]

theorem HTree.symbolsValid_shape (t : HTree) : t.shape.symbolsValid = t.symbolsValid := by
  induction t with
  | nil | leaf => rfl
  | node l r ihl ihr => simp [HTree.shape, HTree.symbolsValid, ihl, ihr]

/-- A parse that succeeds has read a tree's bytes, and the registers then hold that tree. -/
theorem loadTree_of_parse {s : State} {p : Nat} {t : Parsed} (h : s.parse p = .ok t) : ∃ T U,
    ParseOf s.ibufAt s.ilen.toNat p 0 t T ∧ (s.loadTree t).tree = some U ∧ U.shape = T.shape := by
  obtain ⟨T, hT, htop⟩ := parseNode_sound _ h (Nat.zero_le _)
  obtain ⟨l, r, hL⟩ := loadTree_holdsTree h
  have hlen := hT.length_eq
  have hroot : t.index = (s.loadTree t).root := by
    obtain ⟨a, b, rfl⟩ := htop rfl
    obtain ⟨-, -, -, ⟨hnil, -⟩ | ⟨-, hidx⟩⟩ := parseNode_ok _ h
    · rw [hnil] at hlen
      simp only [List.length_nil, HTree.size] at hlen
      omega
    · exact hidx
  obtain ⟨U, hU, hshape, -⟩ := hT.tree (s.loadTree t).nodeAt fun j hj => by
    rw [Nat.zero_add, loadTree_nodeAt, if_pos (by omega)]
  rw [hroot] at hU
  exact ⟨T, U, hT, by rw [hL.tree_eq, hL.tree.unique hU], hshape⟩

theorem exec_tload {s : State} (hc : ChunkClosed s) (hibit : s.ibit = 0) (hnacc : s.nacc = 0) :
    exec .tload s = (tloadBody s).outcome :=
  exec_of_legal rfl (not_failed_of_closed hc) (noChunk_of_closed hc) (by simp [precondition, hibit, hnacc])

theorem tloadBody_of_parse {s : State} {t : Parsed} (h : s.parse s.ipos.toNat = .ok t) :
    tloadBody s = .ok (s.loadTree t) := by
  rw [tloadBody, h]

/-- TLOAD completes only after a parse that succeeds. -/
theorem parse_of_exec_tload {s t : State} (hc : ChunkClosed s) (hibit : s.ibit = 0) (hnacc : s.nacc = 0)
    (he : exec .tload s = .next t) (ht : t.state = .headerParsed) :
    ∃ r, s.parse s.ipos.toNat = .ok r ∧ t = s.loadTree r := by
  rw [exec_tload hc hibit hnacc, tloadBody] at he
  split at he
  · injection he with he
    rw [← he] at ht
    cases ht
  · next r hr =>
    injection he with he
    exact ⟨r, hr, he.symm⟩

theorem loadTree_ipos_toNat {s : State} {p : Nat} {t : Parsed} {T : HTree} (hT : ParseOf s.ibufAt s.ilen.toNat p 0 t T) :
    (s.loadTree t).ipos.toNat = p + T.ser.length := by
  have hle := hT.pos_le
  have hlt := s.ilen.isLt
  rw [← hT.pos_eq, State.loadTree_ipos, BitVec.toNat_ofNat, Nat.mod_eq_of_lt (by omega)]

/-- Settles O35: what a successful parse has read are the bytes of the tree it loads. -/
theorem tloadAcceptsOnlySerialisedTrees : Obligations.TloadAcceptsOnlySerialisedTrees := by
  intro s t h hc hibit hnacc he ht
  obtain ⟨p, hp, rfl⟩ := parse_of_exec_tload hc hibit hnacc he ht
  obtain ⟨T, U, hT, hU, hshape⟩ := loadTree_of_parse hp
  have hser : U.ser = T.ser := by rw [← U.ser_shape, hshape, T.ser_shape]
  have hipos := loadTree_ipos_toNat hT
  refine ⟨U, hU, ?_, ?_, ?_, ?_⟩
  · rw [← U.symbolsValid_shape, hshape, T.symbolsValid_shape, hT.valid]
  · rw [hser, hipos]
  · rw [hipos, ← hT.pos_eq]
    exact hT.pos_le
  · rw [hser]
    exact bytesAt_ibuf.mp hT.bytes

/-- Settles O34: the parser succeeds on a tree's bytes, and bytes are those of one tree only. -/
theorem tloadReadsTheTreeThatWasSerialised : Obligations.TloadReadsTheTreeThatWasSerialised := by
  intro s l r h hc hibit hnacc V hvalid hsize hroom hbytes
  have hat : BytesAt s.ibufAt s.ipos.toNat V.ser := bytesAt_ibuf.mpr hbytes
  obtain ⟨p, hp⟩ : ∃ p, s.parse s.ipos.toNat = .ok p :=
    parseNode_complete V _ true s.ipos.toNat 0 (by omega) hat hroom hvalid (by simpa [Config.nodeMax] using hsize)
      fun _ => ⟨l, r, rfl⟩
  obtain ⟨T, U, hT, hU, hshape⟩ := loadTree_of_parse hp
  have hTV : T.shape = V.shape := HTree.ser_inj hT.bytes hat
  have hlen : p.nodes.length = V.size := by rw [hT.length_eq, ← T.size_shape, hTV, V.size_shape]
  have hleaf : p.nodes.countP Node.isLeaf = V.leafCount := by
    rw [hT.leaves_eq, ← T.leafCount_shape, hTV, V.leafCount_shape]
  have hser : T.ser = V.ser := by rw [← T.ser_shape, hTV, V.ser_shape]
  have hnnode : (s.loadTree p).nnode.toNat = p.nodes.length := by
    rw [State.loadTree_nnode, BitVec.toNat_ofNat, Nat.mod_eq_of_lt (by omega)]
  refine ⟨s.loadTree p, U, ?_, hU, hshape.trans hTV, ?_, ?_, fun k hk => ?_, fun k hk => ?_⟩
  · rw [exec_tload hc hibit hnacc, tloadBody_of_parse hp]
    rfl
  · rw [← hlen, ← hleaf]
    rfl
  · rw [loadTree_ipos_toNat hT, hser]
  · rw [hnnode] at hk
    rw [loadTree_nodeAt, if_pos hk, List.getD_eq_getElem _ _ hk]
    exact hT.weight_zero _ (List.getElem_mem hk)
  · rw [hnnode] at hk
    rw [loadTree_nodeAt, if_neg (by omega)]

/-! ### BUILD's codes (R180, R188) -/

/-- No symbol word stands in two leaves of a built tree (R176). -/
theorem buildTree_leaf_inj {s : State} {j k : Nat} {w : Word} {x y : BitVec 32} (hj : j < s.buildTree.nleaf.toNat)
    (hk : k < s.buildTree.nleaf.toNat) (hx : s.buildTree.nodeAt j = .leaf w x) (hy : s.buildTree.nodeAt k = .leaf w y) :
    j = k := by
  obtain ⟨x', hx'⟩ := buildTree_leaf s hj
  obtain ⟨y', hy'⟩ := buildTree_leaf s hk
  rw [buildTree_nleaf_toNat] at hj hk
  have hjw := (Node.leaf.inj (hx.symm.trans hx')).1
  have hkw := (Node.leaf.inj (hy.symm.trans hy')).1
  rw [List.getD_eq_getElem _ _ hj] at hjw
  rw [List.getD_eq_getElem _ _ hk] at hkw
  exact (nodup_alphabet s.tokens).getElem_inj_iff.mp (hjw.symm.trans hkw)

/-- `LeafOf` of a leaf's symbol is that leaf (R188). -/
theorem buildTree_leafOf {s : State} {k : Nat} {w : Word} {x : BitVec 32} (hk : k < s.buildTree.nleaf.toNat)
    (hx : s.buildTree.nodeAt k = .leaf w x) : s.buildTree.leafOf w = some k := by
  have hsome : (s.buildTree.leafOf w).isSome := by
    rw [State.leafOf, List.find?_isSome]
    exact ⟨k, List.mem_range.mpr hk, by rw [hx]; simp [Node.isLeafOf]⟩
  obtain ⟨j, hj⟩ := Option.isSome_iff_exists.mp hsome
  have hjl := List.mem_range.mp (List.mem_of_find?_eq_some hj)
  have hjw := List.find?_some hj
  cases hnode : s.buildTree.nodeAt j with
  | leaf v y =>
    rw [hnode] at hjw
    obtain rfl : v = w := of_decide_eq_true hjw
    rw [hj, buildTree_leaf_inj hjl hk hnode hx]
  | internal => rw [hnode] at hjw; cases hjw

/-- Each leaf of a built tree has its path among the codes, and its symbol is where the path leads (R180). -/
theorem buildTree_path {s : State} {l r : HTree} (hT : TreeOf s.buildTree.nodeAt s.buildTree.root (.node l r))
    (hlv : (HTree.node l r).leaves.Perm (List.range s.buildTree.nleaf.toNat)) {k : Nat}
    (hk : k < s.buildTree.nleaf.toNat) : ∃ c w x, (k, c) ∈ (HTree.node l r).codes [] ∧
      (HTree.node l r).follow c = some (.leaf k w) ∧ s.buildTree.nodeAt k = .leaf w x := by
  have hmem : k ∈ ((HTree.node l r).codes []).map Prod.fst := by
    rw [HTree.codes_fst, hlv.mem_iff, List.mem_range]
    exact hk
  obtain ⟨⟨j, c⟩, hc, rfl⟩ := List.mem_map.mp hmem
  obtain ⟨w, hw⟩ := ((HTree.node l r).mem_codes j c).mp hc
  obtain ⟨x, hx⟩ := hT.follow_leaf hw
  exact ⟨c, w, x, hc, hw, hx⟩

/-- The code of a leaf's symbol is the leaf's (R180, R188). -/
theorem codeTree_codeOf {s : State} {k : Nat} {w : Word} {x : BitVec 32} (hk : k < s.buildTree.nleaf.toNat)
    (hx : s.buildTree.nodeAt k = .leaf w x) (T : HTree) :
    (s.buildTree.codeTree T).codeOf w = some ((s.buildTree.codeTree T).codeAt k) :=
  congrArg (Option.map (s.buildTree.codeTree T).codeAt) (buildTree_leafOf hk hx)

theorem exec_build {s : State} (hs : s.state = .collecting) (hend : s.ipos = s.cend) :
    exec .build s = (buildBody s).outcome :=
  exec_of_legal rfl (by rw [hs]; decide) (by rw [hs]; rfl) (by simp [precondition, hend])

/-- Settles O30: the codes are the paths to the leaves, and no path of a tree with an internal root is empty or begins
another. -/
theorem buildCodesAreThePathsAndPrefixFree : Obligations.BuildCodesAreThePathsAndPrefixFree := by
  intro s t hs hend he
  obtain ⟨l, r, htree, hT, hlv, -⟩ := buildTree_tree s
  rw [exec_build hs hend, buildBody, htree] at he
  obtain rfl : s.buildTree.codeTree (.node l r) = t := by injection he
  have hcodes := codeTree_codeAt s.buildTree (hlv.nodup_iff.mpr List.nodup_range)
  refine ⟨.node l r, htree, by rw [HTree.codes_fst]; exact hlv, fun k hk => ?_, fun j k hj hk hne hpre => ?_,
    fun k hk => ?_⟩
  · obtain ⟨c, w, x, hc, hw, hx⟩ := buildTree_path hT hlv hk
    have hcode : (s.buildTree.codeTree (.node l r)).codeAt k = c := hcodes _ hc
    exact ⟨w, x, hx, hcode ▸ hw, hcode ▸ HTree.codes_ne_nil l r hc, codeTree_codeOf hk hx _⟩
  · obtain ⟨c, -, -, hc, -⟩ := buildTree_path hT hlv hj
    obtain ⟨d, -, -, hd, -⟩ := buildTree_path hT hlv hk
    rw [show _ = c from hcodes _ hc, show _ = d from hcodes _ hd] at hpre
    exact hne (HTree.codes_prefix_free _ hc hd hpre).1
  · refine (read_writeCodes s.codemap _ ?_).2 k ?_
    · rw [HTree.codes_fst]
      exact hlv.nodup_iff.mpr List.nodup_range
    · rw [HTree.codes_fst, hlv.mem_iff, List.mem_range]
      exact not_lt.mpr hk

end Sys2Proof.Machine
end

section
/-! ## Bits as bytes, codes as a tree's paths (20_memory.md R62, 43_huffman.md R180, 44_bitstream.md R200 to R202) -/

namespace Sys2Proof.Machine

open Sys2Proof

/-! ### Whole bytes written from an empty accumulator -/

theorem State.putBits_append (s : State) (c d : Bits) : s.putBits (c ++ d) = (s.putBits c).putBits d := by
  induction c generalizing s with
  | nil => rfl
  | cons b c ih => exact ih (s.putBit b)

/-- The accumulator with the first `k` bits of `c` in it, the first of them most significant (R200). -/
def accOf (c : Bits) (k : Nat) : Byte := (List.range k).foldl (fun b j => accWith b j (c.getD j false)) 0

theorem accOf_succ (c : Bits) (k : Nat) : accOf c (k + 1) = accWith (accOf c k) k (c.getD k false) := by
  rw [accOf, List.range_succ, List.foldl_append]
  rfl

theorem length_packBits (c : Bits) : (packBits c).length = (c.length + 7) / 8 := by simp [packBits]

theorem packBits_eq_cons {c : Bits} (h : 8 ≤ c.length) : packBits c = accOf c 8 :: packBits (c.drop 8) := by
  have hn : (c.length + 7) / 8 = ((c.drop 8).length + 7) / 8 + 1 := by
    rw [List.length_drop]
    omega
  have hget (k j : Nat) : (c.drop 8).getD (8 * k + j) false = c.getD (8 * (k + 1) + j) false := by
    rw [List.getD_eq_getElem?_getD, List.getElem?_drop, List.getD_eq_getElem?_getD,
      show 8 + (8 * k + j) = 8 * (k + 1) + j by omega]
  simp only [packBits, hn, List.range_succ_eq_map, List.map_cons, List.map_map, accOf, hget, Function.comp_def,
    Nat.mul_zero, Nat.zero_add, Nat.succ_eq_add_one]

theorem State.eq_of_empty {s : State} (hnacc : s.nacc = 0) (hacc : s.acc = 0) : { s with acc := 0, nacc := 0 } = s := by
  rw [← hnacc, ← hacc]

/-- Fewer than eight bits from an empty accumulator stay pending. -/
theorem State.putBits_pending {s : State} (hnacc : s.nacc = 0) (hacc : s.acc = 0) (c : Bits) {k : Nat} (hk : k < 8)
    (hc : k ≤ c.length) : s.putBits (c.take k) = { s with acc := accOf c k, nacc := BitVec.ofNat 3 k } := by
  induction k with
  | zero => exact (State.eq_of_empty hnacc hacc).symm
  | succ k ih =>
    have hk3 : (BitVec.ofNat 3 k).toNat = k := by
      rw [BitVec.toNat_ofNat]
      omega
    rw [List.take_succ_eq_append_getElem hc, State.putBits_append, ih (by omega) (by omega), State.putBits, State.putBits,
      State.putBit, if_neg (by simp only [hk3]; omega), accOf_succ, List.getD_eq_getElem _ _ hc]
    simp only [hk3]

/-- The eighth bit completes the byte. -/
theorem State.putBit_eighth (s : State) (a : Byte) (b : Bool) :
    ({ s with acc := a, nacc := 7 } : State).putBit b =
      ({ s with acc := 0, nacc := 0 } : State).appendByte (accWith a 7 b) := rfl

/-- Eight bits from an empty accumulator make one byte. -/
theorem State.putBits_byte {s : State} (hnacc : s.nacc = 0) (hacc : s.acc = 0) {c : Bits} (hc : 8 ≤ c.length) :
    s.putBits (c.take 8) = s.appendByte (accOf c 8) := by
  rw [List.take_succ_eq_append_getElem (by omega : 7 < c.length), State.putBits_append,
    State.putBits_pending hnacc hacc c (by decide) (by omega), accOf_succ c 7, List.getD_eq_getElem _ _ (by omega)]
  exact (State.putBit_eighth s _ _).trans (by rw [State.eq_of_empty hnacc hacc])

/-- Whole bytes from an empty accumulator are appended as bytes (R201). -/
theorem State.putBits_eq_appendBytes {s : State} (hnacc : s.nacc = 0) (hacc : s.acc = 0) {c : Bits} {n : Nat}
    (hc : c.length = 8 * n) : s.putBits c = s.appendBytes (packBits c) := by
  induction n generalizing s c with
  | zero =>
    rw [List.length_eq_zero_iff.mp hc]
    rfl
  | succ n ih =>
    have hdrop : (c.drop 8).length = 8 * n := by
      rw [List.length_drop]
      omega
    calc s.putBits c = (s.putBits (c.take 8)).putBits (c.drop 8) := by rw [← State.putBits_append, List.take_append_drop]
      _ = (s.appendByte (accOf c 8)).appendBytes (packBits (c.drop 8)) := by
        rw [State.putBits_byte hnacc hacc (by omega), ih (s := s.appendByte _) hnacc hacc hdrop]
      _ = s.appendBytes (packBits c) := by
        rw [packBits_eq_cons (c := c) (by omega)]
        rfl

/-- A chunk's bits fill whole bytes (R202). -/
theorem length_chunkBits (T : HTree) (toks : List Word) :
    (chunkBits T toks).length = 8 * (((toks.flatMap T.codeFor ++ T.codeFor stopWord).length + 7) / 8) := by
  rw [chunkBits, List.length_append, State.length_padding]
  omega

/-- `Finish` writes no bit where none is pending (R202). -/
theorem State.finish_eq_putBits (s : State) (c : Bits) :
    s.finish c = s.putBits (padding c ((8 - s.nacc.toNat) % 8)) := by
  have hn := s.nacc_lt
  unfold State.finish
  split
  · rw [Nat.mod_eq_of_lt (by omega)]
  · rw [show s.nacc.toNat = 0 by omega]
    rfl

/-! ### The code a tree gives a symbol word -/

theorem HTree.paths_eq_map (t : HTree) (p : Bits) : t.paths p = (t.paths []).map fun x => (x.1, p ++ x.2) := by
  induction t generalizing p with
  | nil => rfl
  | leaf => simp [HTree.paths]
  | node l r ihl ihr =>
    simp only [HTree.paths, List.nil_append]
    rw [ihl (p ++ [false]), ihr (p ++ [true]), ihl [false], ihr [true]]
    simp [Function.comp_def]

/-- A symbol word's paths lead to its leaves. -/
theorem HTree.mem_paths (t : HTree) (w : Word) (c : Bits) :
    (w, c) ∈ t.paths [] ↔ ∃ k, t.follow c = some (.leaf k w) := by
  induction t generalizing c with
  | nil => cases c <;> simp [HTree.paths, HTree.follow]
  | leaf j v => cases c <;> simp [HTree.paths, HTree.follow, eq_comm]
  | node l r ihl ihr =>
    simp only [HTree.paths, List.nil_append, List.mem_append]
    rw [HTree.paths_eq_map l, HTree.paths_eq_map r]
    cases c with
    | nil => simp [HTree.follow]
    | cons b c =>
      cases b
      · simp [HTree.follow, ← ihl]
      · simp [HTree.follow, ← ihr]

/-- The code of a symbol word with one path is that path. -/
theorem HTree.codeFor_eq {t : HTree} {w : Word} {c : Bits} {k : Nat} (hc : t.follow c = some (.leaf k w))
    (huniq : ∀ d j, t.follow d = some (.leaf j w) → d = c) : t.codeFor w = c := by
  have hmem : (w, c) ∈ t.paths [] := (t.mem_paths w c).mpr ⟨k, hc⟩
  cases hl : (t.paths []).lookup w with
  | none => simpa using List.lookup_eq_none_iff.mp hl _ hmem
  | some d =>
    obtain ⟨l₁, l₂, hsplit, -⟩ := List.lookup_eq_some_iff.mp hl
    obtain ⟨j, hj⟩ := (t.mem_paths w d).mp (hsplit ▸ by simp)
    rw [HTree.codeFor, hl, huniq d j hj]
    rfl

/-- After BUILD the code of each symbol of the alphabet is the one its tree gives it (R180, R188). -/
theorem codeTree_codeFor {s : State} {l r : HTree} (hT : TreeOf s.buildTree.nodeAt s.buildTree.root (.node l r))
    (hlv : (HTree.node l r).leaves.Perm (List.range s.buildTree.nleaf.toNat)) {w : Word} (hw : w ∈ alphabet s.tokens) :
    (s.buildTree.codeTree (.node l r)).codeOf w = some ((HTree.node l r).codeFor w) := by
  obtain ⟨k, hk, rfl⟩ := List.getElem_of_mem hw
  have hkl : k < s.buildTree.nleaf.toNat := by rwa [buildTree_nleaf_toNat]
  obtain ⟨c, v, x, hc, hv, hx⟩ := buildTree_path hT hlv hkl
  obtain ⟨y, hy⟩ := buildTree_leaf s hkl
  obtain rfl : v = (alphabet s.tokens)[k] := by
    rw [(Node.leaf.inj (hx.symm.trans hy)).1, List.getD_eq_getElem _ _ hk]
  have hcode := codeTree_codeAt s.buildTree (hlv.nodup_iff.mpr List.nodup_range) _ hc
  rw [codeTree_codeOf hkl hx, hcode, HTree.codeFor_eq hv fun d j hd => ?_]
  have hdj := ((HTree.node l r).mem_codes j d).mpr ⟨_, hd⟩
  have hjl : j < s.buildTree.nleaf.toNat := by
    rw [← List.mem_range, ← hlv.mem_iff, ← HTree.codes_fst _ []]
    exact List.mem_map_of_mem hdj
  obtain ⟨z, hz⟩ := hT.follow_leaf hd
  obtain rfl := buildTree_leaf_inj hjl hkl hz hx
  exact (codeTree_codeAt s.buildTree (hlv.nodup_iff.mpr List.nodup_range) _ hdj).symm.trans hcode

end Sys2Proof.Machine
end

section
/-! ## The tokens of a chunk: MSTEP repeated, and what it depends on (42_matcher.md R160 to R163, 45_chunk_codec.md R227) -/

namespace Sys2Proof.Machine

open Sys2Proof

/-! ### What collecting a chunk reads and writes -/

/-- The fields a chunk's tokens depend on: the ring, the input, the tokens, the configuration; the others as after reset. -/
def State.chunkView (s : State) : State :=
  { State.reset with
    ring := s.ring, wptr := s.wptr, fill := s.fill, ibuf := s.ibuf, ilen := s.ilen, ipos := s.ipos
    tokmem := s.tokmem, ntok := s.ntok, cend := s.cend
    cap := s.cap, win := s.win, minlen := s.minlen, chunk := s.chunk, ctrl := s.ctrl }

section
variable {s u : State} (h : s.chunkView = u.chunkView)
include h

theorem recordAll_view (bs : List Byte) : (s.recordAll bs).chunkView = (u.recordAll bs).chunkView := by
  induction bs generalizing s u with
  | nil => exact h
  | cons b bs ih => exact ih (congrArg (fun v => (v.record b).chunkView) h)

theorem consume_view (n : Nat) : (s.consume n).chunkView = (u.consume n).chunkView := by
  have hslice : s.ibufSlice s.ipos.toNat n = u.ibufSlice u.ipos.toNat n :=
    congrArg (fun v => v.ibufSlice v.ipos.toNat n) h
  have hipos : s.ipos = u.ipos := (congrArg State.ipos h :)
  rw [State.consume, State.consume, hslice, hipos]
  exact congrArg (fun v => ({ v with ipos := BitVec.ofNat 32 (u.ipos.toNat + n) } : State).chunkView) (recordAll_view h _)

theorem bestMatch_view (U : List Byte) (k : Nat) : s.bestMatch U k = u.bestMatch U k := by
  induction k with
  | zero => rfl
  | succ k ih =>
    rw [State.bestMatch, State.bestMatch, ih]
    exact congrArg (fun v => longer (k + 1) (v.matchLen (k + 1) U) _) h

theorem findLongest_view : s.findLongest s.upcoming = u.findLongest u.upcoming := by
  have hfill : s.fill = u.fill := (congrArg State.fill h :)
  have hup : s.upcoming = u.upcoming := (congrArg State.upcoming h :)
  have hmin : s.minlen = u.minlen := (congrArg State.minlen h :)
  rw [State.findLongest, State.findLongest, hup, hfill, hmin, bestMatch_view h]

theorem pushToken_view (r : Nat × Nat) (w : Word) :
    ((s.setSearch r).pushToken w).chunkView = ((u.setSearch r).pushToken w).chunkView :=
  congrArg (fun v => ((v.setSearch r).pushToken w).chunkView) h

theorem mstepWith_view (r : Nat × Nat) : (mstepWith s r).chunkView = (mstepWith u r).chunkView := by
  have hbyte : s.ibufAt s.ipos.toNat = u.ibufAt u.ipos.toNat := (congrArg (fun v => v.ibufAt v.ipos.toNat) h :)
  rw [mstepWith, mstepWith, hbyte]
  split
  · exact consume_view (pushToken_view h r _) _
  · exact consume_view (pushToken_view h r _) _

theorem collect_view (n : Nat) : (State.collect n s).chunkView = (State.collect n u).chunkView := by
  induction n generalizing s u with
  | zero => exact h
  | succ n ih =>
    have hipos : s.ipos = u.ipos := (congrArg State.ipos h :)
    have hcend : s.cend = u.cend := (congrArg State.cend h :)
    rw [State.collect, State.collect, hipos, hcend]
    split
    · rw [findLongest_view h]
      exact ih (mstepWith_view h _)
    · exact h

/-- A chunk's tokens depend on the ring, the input and the configuration only (42_matcher.md R165). -/
theorem collectChunk_view : s.collectChunk.chunkView = u.collectChunk.chunkView := by
  have hipos : s.ipos = u.ipos := (congrArg State.ipos h :)
  have hopen : s.openChunk.chunkView = u.openChunk.chunkView := congrArg (fun v => v.openChunk.chunkView) h
  have hcend : s.openChunk.cend = u.openChunk.cend := (congrArg State.cend hopen :)
  rw [State.collectChunk, State.collectChunk, hipos, hcend]
  exact collect_view hopen _

end

/-! ### The tree of the tokens -/

theorem TreeOf.congr_nodes {f g : Nat → Node} {i : BitVec 17} {t : HTree} (h : TreeOf f i t)
    (hfg : ∀ k ∈ nodesOf f i t, f k = g k) : TreeOf g i t := by
  induction t generalizing i with
  | nil => exact h
  | leaf k w =>
    obtain ⟨hne, hik, x, hx⟩ := h
    exact ⟨hne, hik, x, hfg k (by simp [nodesOf]) ▸ hx⟩
  | node l r ihl ihr =>
    obtain ⟨hne, a, b, x, hx, hl, hr⟩ := h
    simp only [nodesOf, hx, Node.child, List.mem_cons, List.mem_append, Bool.false_eq_true, if_false, if_true] at hfg
    exact ⟨hne, a, b, x, by rw [← hfg _ (.inl rfl), hx], ihl hl fun k hk => hfg k (.inr (.inl hk)),
      ihr hr fun k hk => hfg k (.inr (.inr hk))⟩

/-- The tree BUILD makes is a function of the token words: no node of it is one BUILD did not write (R177). -/
theorem buildTree_tree_congr {s u : State} (h : s.tokens = u.tokens) : s.buildTree.tree = u.buildTree.tree := by
  obtain ⟨l, r, hs, hT, -, hnodes, hsize, -⟩ := buildTree_tree s
  have hnnode : u.buildTree.nnode = s.buildTree.nnode := by simp only [State.buildTree, h]
  have hroot : u.buildTree.root = s.buildTree.root := by simp only [State.buildTree, h]
  rw [hs]
  refine (State.tree_of_size (hroot ▸ hT.congr_nodes fun k hk => ?_) (by rw [hnnode, hsize])).symm
  rw [hnodes.mem_iff, List.mem_range, buildTree_nnode_toNat] at hk
  rw [buildTree_nodeAt, buildTree_nodeAt, ← h, if_pos hk, if_pos hk]

theorem tokens_view {s u : State} (h : s.chunkView = u.chunkView) : s.tokens = u.tokens :=
  (congrArg State.tokens h :)

/-- A chunk's record depends on the same. -/
theorem chunkRecord_view {s u : State} (h : s.chunkView = u.chunkView) : s.chunkRecord = u.chunkRecord := by
  have htok := tokens_view (collectChunk_view h)
  rw [State.chunkRecord, State.chunkRecord, buildTree_tree_congr htok, htok]

/-! ### MSTEP repeated (R163) -/

/-- The input bytes from `s` to `t` are consumed and recorded (R162). -/
structure Consumed (s t : State) : Prop where
  ipos_le : s.ipos.toNat ≤ t.ipos.toNat
  history_eq : t.history = trim s.cap.toNat (s.history ++ s.ibufSlice s.ipos.toNat (t.ipos.toNat - s.ipos.toNat))

theorem Consumed.refl {s : State} (h : s.fill.toNat ≤ s.cap.toNat) : Consumed s s :=
  ⟨le_rfl, by simp [State.ibufSlice, Mem.readSeq, trim_of_length_le, h]⟩

theorem Consumed.trans {s t u : State} (h : Consumed s t) (h' : Consumed t u) (hcap : t.cap = s.cap)
    (hibuf : t.ibuf = s.ibuf) : Consumed s u := by
  have hle := h.ipos_le
  have hle' := h'.ipos_le
  have hslice : t.ibufSlice t.ipos.toNat (u.ipos.toNat - t.ipos.toNat) =
      s.ibufSlice t.ipos.toNat (u.ipos.toNat - t.ipos.toNat) := by rw [State.ibufSlice, hibuf, State.ibufSlice]
  refine ⟨hle.trans hle', ?_⟩
  rw [h'.history_eq, hcap, h.history_eq, trim_trim_append, List.append_assoc, hslice,
    show u.ipos.toNat - s.ipos.toNat = (t.ipos.toNat - s.ipos.toNat) + (u.ipos.toNat - t.ipos.toNat) by omega,
    State.ibufSlice, State.ibufSlice, State.ibufSlice, readSeq_append, Nat.add_sub_cancel' hle]

/-- `c` is `s` after matcher steps. -/
structure Collected (s c : State) : Prop where
  registers : RegisterInv c
  keeps : Keeps .mstep s c
  consumed : Consumed s c

theorem Collected.refl {s : State} (h : RegisterInv s) : Collected s s := ⟨h, .refl .mstep s, .refl h.fill_le⟩

theorem Collected.trans {s c d : State} (h : Collected s c) (h' : Collected c d) : Collected s d :=
  ⟨h'.registers, h.keeps.trans h'.keeps, h.consumed.trans h'.consumed (h.keeps .cap rfl) (h.keeps .ibuf rfl)⟩

/-- One more token, and the bytes it stands for recorded (R162). -/
theorem consume_history {s : State} (h : RegisterInv s) (r : Nat × Nat) (w : Word) (n : Nat) :
    (((s.setSearch r).pushToken w).consume n).history =
      trim s.cap.toNat (s.history ++ s.ibufSlice s.ipos.toNat n) := by
  have hring : RingOk ((s.setSearch r).pushToken w) := ⟨h.wptr_lt, h.fill_le⟩
  exact (history_congr rfl rfl rfl rfl).trans (history_recordAll_trim hring _)

theorem consume_ipos_toNat {s : State} (h : RegisterInv s) (r : Nat × Nat) (w : Word) {n : Nat}
    (hs : s.state = .collecting) (hn : s.ipos.toNat + n ≤ s.cend.toNat) :
    (((s.setSearch r).pushToken w).consume n).ipos.toNat = s.ipos.toNat + n := by
  obtain ⟨-, -, hend, -⟩ := h.collecting_range hs
  have hlt := h.ilen_lt
  simp only [State.consume_ipos, State.pushToken_ipos, State.setSearch_ipos, BitVec.toNat_ofNat]
  omega

/-- One matcher step consumes at least a byte, and none behind the chunk's end. -/
theorem mstepWith_collected {s : State} (h : RegisterInv s) (hs : s.state = .collecting)
    (hlt : s.ipos.toNat < s.cend.toNat) : ∃ c, mstepBody s = .ok c ∧ c = mstepWith s (s.findLongest s.upcoming) ∧
      Collected s c ∧ s.ipos.toNat < c.ipos.toNat ∧ c.ipos.toNat ≤ s.cend.toNat := by
  obtain ⟨n, w, hn, hend, hc⟩ : ∃ n w, 1 ≤ n ∧ s.ipos.toNat + n ≤ s.cend.toNat ∧
      mstepWith s (s.findLongest s.upcoming) = ((s.setSearch (s.findLongest s.upcoming)).pushToken w).consume n := by
    have hlen := (s.findLongest_bounds s.upcoming).2.1
    rw [length_upcoming] at hlen
    unfold mstepWith
    split
    · exact ⟨_, _, Nat.one_le_iff_ne_zero.mpr ‹_›, by omega, rfl⟩
    · exact ⟨1, _, le_rfl, hlt, rfl⟩
  have hipos := consume_ipos_toNat h (s.findLongest s.upcoming) w hs hend
  refine ⟨_, rfl, rfl, ⟨mstepBody_registers h hs hlt, mstepBody_keeps s, ?_, ?_⟩, ?_, ?_⟩
  · rw [hc, hipos]
    omega
  · rw [hc, hipos, Nat.add_sub_cancel_left, consume_history h]
  · rw [hc, hipos]
    omega
  · rwa [hc, hipos]

theorem repeatWhile_mstep (n : Nat) {s : State} (h : RegisterInv s) (hs : s.state = .collecting)
    (hn : s.cend.toNat - s.ipos.toNat ≤ n) :
    repeatWhile (fun s => decide (s.ipos.toNat < s.cend.toNat)) (runChecked .mstep mstepBody) n s =
        .ok (State.collect n s) ∧
      Collected s (State.collect n s) ∧ (State.collect n s).ipos = s.cend := by
  obtain ⟨-, hle, -, -⟩ := h.collecting_range hs
  induction n generalizing s with
  | zero =>
    have hend : s.ipos.toNat = s.cend.toNat := by omega
    refine ⟨?_, .refl h, BitVec.eq_of_toNat_eq hend⟩
    rw [repeatWhile, if_neg (by simp [hend])]
    rfl
  | succ n ih =>
    rw [repeatWhile, State.collect]
    by_cases hlt : s.ipos.toNat < s.cend.toNat
    · obtain ⟨c, hbody, rfl, hc, hipos, hend⟩ := mstepWith_collected h hs hlt
      have hstate : _ = s.state := hc.keeps .state rfl
      have hcend : _ = s.cend := hc.keeps .cend rfl
      have hchecked : runChecked .mstep mstepBody s = mstepBody s :=
        runChecked_legal rfl (by rw [hs]; rfl) (decide_eq_true hlt)
      obtain ⟨hrest, hcol, hstop⟩ := ih hc.registers (hstate.trans hs) (by rw [hcend]; omega) (by rw [hcend]; exact hend)
      rw [if_pos (decide_eq_true hlt), if_pos hlt, hchecked, hbody]
      exact ⟨hrest, hc.trans hcol, hstop.trans hcend⟩
    · rw [if_neg (by simpa using hlt), if_neg hlt]
      exact ⟨rfl, .refl h, BitVec.eq_of_toNat_eq (by omega)⟩

/-! ### The collected chunk (R227) -/

/-- The chunk that CBEGIN opens at IPOS, collected: all of it is consumed and recorded, and it is tokens now. -/
structure ChunkCollected (s c : State) : Prop where
  registers : RegisterInv c
  collecting : c.state = .collecting
  keeps : ∀ f, writes .cbegin f = false → writes .mstep f = false → f.Same s c
  ipos_eq : c.ipos.toNat = min s.ilen.toNat (s.ipos.toNat + s.chunk.toNat)
  ipos_cend : c.ipos = c.cend
  consumed : Consumed s c

theorem collectChunk_collected {s : State} (h : RegisterInv s) (hc : ChunkClosed s) (hibit : s.ibit = 0)
    (hnacc : s.nacc = 0) : collectAll s.openChunk = .ok s.collectChunk ∧ ChunkCollected s s.collectChunk := by
  have hopen : RegisterInv s.openChunk :=
    cbeginBody_registers h (not_failed_of_closed hc) (by simp [precondition, hibit, hnacc])
  have hcend : s.openChunk.cend.toNat = min s.ilen.toNat (s.ipos.toNat + s.chunk.toNat) := by
    have := h.ilen_lt
    simp only [State.openChunk_cend, BitVec.toNat_ofNat]
    omega
  obtain ⟨hall, hcol, hipos⟩ := repeatWhile_mstep _ hopen rfl le_rfl
  exact ⟨hall, hcol.registers, hcol.keeps .state rfl,
    fun f hb hm => (Keeps.of_eq_take (i := .cbegin) (s := s) (t := s.openChunk) rfl f hb).trans (hcol.keeps f hm),
    (congrArg BitVec.toNat hipos).trans hcend, hipos.trans (Eq.symm (hcol.keeps .cend rfl)),
    ⟨hcol.consumed.ipos_le, hcol.consumed.history_eq⟩⟩

end Sys2Proof.Machine
end

section
/-! ## ENCCHUNK writes the chunk's record where it fits (45_chunk_codec.md R227, R230, 44_bitstream.md R210) -/

namespace Sys2Proof.Machine

open Sys2Proof

/-! ### Pseudocode that writes where there is room, and raises where there is none -/

/-- Where there is room it completes as `P` says, and where there is none it raises `ResourceExhausted`, 2 (R210). -/
structure Res.FitsOr (room : Prop) (P : State → Prop) (r : Res) : Prop where
  fits : room → ∃ t, r = .ok t ∧ P t
  full : ¬ room → ∃ u, r = .raised .resourceExhausted 2 u

@[simp] theorem ok_andThen (s : State) (f : State → Res) : (Res.ok s).andThen f = f s := rfl

namespace Res.FitsOr
variable {a b : Prop} {P Q : State → Prop} {r : Res}

theorem ok {t : State} (ha : a) (ht : P t) : (Res.ok t).FitsOr a P :=
  ⟨fun _ => ⟨t, rfl, ht⟩, fun h => absurd ha h⟩

theorem congr (h : r.FitsOr a P) (hab : a ↔ b) (hPQ : ∀ t, P t → Q t) : r.FitsOr b Q :=
  ⟨fun hb => (h.fits (hab.mpr hb)).imp fun _ ht => ⟨ht.1, hPQ _ ht.2⟩, fun hb => h.full fun ha => hb (hab.mp ha)⟩

/-- Room for both pieces is room for the first. -/
theorem andThen {f : State → Res} (h : r.FitsOr a P) (hab : b → a) (hf : a → ∀ t, P t → (f t).FitsOr b Q) :
    (r.andThen f).FitsOr b Q := by
  by_cases ha : a
  · obtain ⟨t, rfl, ht⟩ := h.fits ha
    exact hf ha t ht
  · obtain ⟨u, rfl⟩ := h.full ha
    exact ⟨fun hb => absurd (hab hb) ha, fun _ => ⟨u, rfl⟩⟩

theorem needOut {s t : State} {k : Nat} {f : State → Res} (hf : f s = .ok t)
    (ht : s.olen.toNat + k ≤ s.params.outMax → P t) : (s.needOut k f).FitsOr (s.olen.toNat + k ≤ s.params.outMax) P :=
  ⟨fun h => ⟨t, by rw [needOut_of_room h, hf], ht h⟩, fun h => ⟨s, needOut_of_no_room (not_le.mp h)⟩⟩

theorem inComposite (h : r.FitsOr a P) (w : Word) : (r.inComposite w).FitsOr a P :=
  ⟨fun ha => (h.fits ha).imp fun _ ht => ⟨by rw [ht.1, Res.inComposite], ht.2⟩,
    fun ha => (h.full ha).imp fun _ hu => by rw [hu]; rfl⟩

end Res.FitsOr

/-! ### The codes of the tokens, then the stop code (R222, R223) -/

theorem withCode_of_codeOf {s : State} {w : Word} {c : Bits} (h : s.codeOf w = some c) (f : Bits → Res) :
    s.withCode w f = f c := by
  rw [State.withCode, h]

theorem tokens_drop {s : State} (h : s.eidx.toNat < s.ntok.toNat) :
    s.tokens.drop s.eidx.toNat = s.tokAt s.eidx.toNat :: s.tokens.drop (s.eidx.toNat + 1) := by
  have hlen : s.eidx.toNat < s.tokens.length := by simpa [State.tokens] using h
  have hget := Mem.getD_readSeq (d := (0 : Word)) s.tokmem 0 s.ntok.toNat s.eidx.toNat 0 h
  rw [Nat.zero_add] at hget
  rw [List.drop_eq_getElem_cons hlen, ← List.getD_eq_getElem _ 0 hlen, State.tokens, hget, State.tokAt]

/-- The encoder before token `e`, in the state `st` (R222, R223). -/
def State.atToken (s : State) (e : BitVec 16) (st : CodecState) : State := { s with eidx := e, state := st }

theorem putBits_atToken (s : State) (e : BitVec 16) (st : CodecState) (c : Bits) :
    (s.atToken e st).putBits c = (s.putBits c).atToken e st := putBits_with s e st c

theorem appendBytes_atToken (s : State) (e : BitVec 16) (st : CodecState) (bs : List Byte) :
    (s.atToken e st).appendBytes bs = (s.appendBytes bs).atToken e st := by
  induction bs generalizing s with
  | nil => rfl
  | cons b bs ih => exact ih (s.appendByte b)

/-- The bits `c` written, and the encoder before token `e`. -/
def State.encodedBits (s : State) (c : Bits) (e : BitVec 16) (st : CodecState) : State := (s.putBits c).atToken e st

/-- What is to be written, and with which codes: the encoder is between two tokens. -/
structure EncoderAt (enc : Word → Bits) (s : State) : Prop where
  legal : s.state = .treeReady ∨ s.state = .encoding
  outMax_lt : s.params.outMax < 2 ^ 32
  olen_le : s.olen.toNat ≤ s.params.outMax
  eidx_le : s.eidx.toNat ≤ s.ntok.toNat
  codes : ∀ w ∈ s.tokens, s.codeOf w = some (enc w)

theorem codeOf_encodedBits (s : State) (c : Bits) (e : BitVec 16) (st : CodecState) (w : Word) :
    (s.encodedBits c e st).codeOf w = s.codeOf w := by
  rw [State.encodedBits, State.putBits_frame]
  rfl

theorem encodedBits_encodedBits (s : State) (c d : Bits) (e e' : BitVec 16) (st st' : CodecState) :
    (s.encodedBits c e st).encodedBits d e' st' = s.encodedBits (c ++ d) e' st' := by
  rw [State.encodedBits, State.encodedBits, putBits_atToken, State.encodedBits, State.putBits_append]
  rfl

/-- ESTEP on the next token (R222). -/
theorem estep_fits {enc : Word → Bits} {s : State} (h : EncoderAt enc s) (hlt : s.eidx.toNat < s.ntok.toNat) :
    (runChecked .estep estepBody s).FitsOr
      (s.olen.toNat + (s.nacc.toNat + (enc (s.tokAt s.eidx.toNat)).length) / 8 ≤ s.params.outMax)
      (· = s.encodedBits (enc (s.tokAt s.eidx.toNat)) (BitVec.ofNat 16 (s.eidx.toNat + 1)) .encoding) := by
  have hcode : s.codeOf (s.tokAt s.eidx.toNat) = some (enc (s.tokAt s.eidx.toNat)) :=
    h.codes _ (mem_tokens.mpr ⟨_, hlt, rfl⟩)
  rw [runChecked_legal (i := .estep) rfl (by rcases h.legal with hs | hs <;> rw [hs] <;> rfl) (decide_eq_true hlt),
    estepBody, withCode_of_codeOf hcode]
  exact .needOut rfl fun _ => rfl

theorem encodedBits_counts {s : State} (c : Bits) (e : BitVec 16) (st : CodecState)
    (h : s.olen.toNat + (s.nacc.toNat + c.length) / 8 < 2 ^ 32) :
    (s.encodedBits c e st).nacc.toNat = (s.nacc.toNat + c.length) % 8 ∧
      (s.encodedBits c e st).olen.toNat = s.olen.toNat + (s.nacc.toNat + c.length) / 8 := State.putBits_counts s c h

section
variable (s : State) (c : Bits) (e : BitVec 16) (st : CodecState)

@[simp] theorem encodedBits_eidx : (s.encodedBits c e st).eidx = e := rfl
@[simp] theorem encodedBits_ntok : (s.encodedBits c e st).ntok = s.ntok := State.putBits_ntok s c
@[simp] theorem encodedBits_params : (s.encodedBits c e st).params = s.params := State.putBits_params s c
@[simp] theorem encodedBits_tokens : (s.encodedBits c e st).tokens = s.tokens := by
  rw [State.encodedBits, State.putBits_frame]
  rfl

end

theorem EncoderAt.encodedBits {enc : Word → Bits} {s : State} (h : EncoderAt enc s) {c : Bits} {e : BitVec 16}
    {st : CodecState} (hst : st = .treeReady ∨ st = .encoding) (he : e.toNat ≤ s.ntok.toNat)
    (hroom : s.olen.toNat + (s.nacc.toNat + c.length) / 8 ≤ s.params.outMax) :
    EncoderAt enc (s.encodedBits c e st) where
  legal := hst
  outMax_lt := by
    rw [encodedBits_params]
    exact h.outMax_lt
  olen_le := by
    rw [encodedBits_params, (encodedBits_counts c e st (hroom.trans_lt h.outMax_lt)).2]
    exact hroom
  eidx_le := by simpa using he
  codes w hw := by
    rw [codeOf_encodedBits, h.codes w (by simpa using hw)]

/-- With no token left nothing is written. -/
theorem encoder_ended {enc : Word → Bits} {s : State} (h : EncoderAt enc s) (hge : s.ntok.toNat ≤ s.eidx.toNat) :
    (Res.ok s).FitsOr
      (s.olen.toNat + (s.nacc.toNat + ((s.tokens.drop s.eidx.toNat).flatMap enc).length) / 8 ≤ s.params.outMax)
      (fun t => ∃ st, (st = .treeReady ∨ st = .encoding) ∧
        t = s.encodedBits ((s.tokens.drop s.eidx.toNat).flatMap enc) s.ntok st) := by
  have hend : s.eidx = s.ntok := BitVec.eq_of_toNat_eq (h.eidx_le.antisymm hge)
  have hnil : s.tokens.drop s.eidx.toNat = [] := List.drop_eq_nil_of_le (by simp [State.tokens, hend])
  rw [hnil, List.flatMap_nil, List.length_nil, Nat.add_zero, Nat.div_eq_of_lt s.nacc_lt, ← hend]
  exact .ok h.olen_le ⟨s.state, h.legal, rfl⟩

/-- `while EIDX < NTOK: ESTEP` writes the codes of the tokens left (R227). -/
theorem repeatWhile_estep {enc : Word → Bits} (n : Nat) {s : State} (h : EncoderAt enc s)
    (hn : s.ntok.toNat - s.eidx.toNat ≤ n) :
    (repeatWhile (fun s => decide (s.eidx.toNat < s.ntok.toNat)) (runChecked .estep estepBody) n s).FitsOr
      (s.olen.toNat + (s.nacc.toNat + ((s.tokens.drop s.eidx.toNat).flatMap enc).length) / 8 ≤ s.params.outMax)
      (fun t => ∃ st, (st = .treeReady ∨ st = .encoding) ∧
        t = s.encodedBits ((s.tokens.drop s.eidx.toNat).flatMap enc) s.ntok st) := by
  induction n generalizing s with
  | zero =>
    have hge : s.ntok.toNat ≤ s.eidx.toNat := by omega
    rw [repeatWhile, if_neg (by simpa using hge)]
    exact encoder_ended h hge
  | succ n ih =>
    rw [repeatWhile]
    by_cases hlt : s.eidx.toNat < s.ntok.toNat
    · have hnext : (BitVec.ofNat 16 (s.eidx.toNat + 1)).toNat = s.eidx.toNat + 1 := by
        have := s.ntok.isLt
        rw [BitVec.toNat_ofNat]
        omega
      rw [if_pos (decide_eq_true hlt), tokens_drop hlt, List.flatMap_cons, List.length_append]
      refine (estep_fits h hlt).andThen (by omega) ?_
      rintro hroom t rfl
      obtain ⟨hnacc, holen⟩ := encodedBits_counts _ (BitVec.ofNat 16 (s.eidx.toNat + 1)) .encoding
        (hroom.trans_lt h.outMax_lt)
      have hat := h.encodedBits (e := BitVec.ofNat 16 (s.eidx.toNat + 1)) (.inr rfl) (by omega) hroom
      have hrest := ih hat (by simp only [encodedBits_ntok, encodedBits_eidx, hnext]; omega)
      simp only [encodedBits_ntok, encodedBits_eidx, hnext, encodedBits_tokens, encodedBits_params, hnacc, holen,
        encodedBits_encodedBits] at hrest
      exact hrest.congr (by omega) fun _ => id
    · rw [if_neg (by simpa using hlt)]
      exact encoder_ended h (not_lt.mp hlt)

/-- EFIN writes the whole stop code and fills the byte with its bits (R223). -/
theorem efin_fits {enc : Word → Bits} {s : State} {stop : Bits} (h : EncoderAt enc s) (hend : s.eidx = s.ntok)
    (hstop : s.codeOf stopWord = some stop) :
    (runChecked .efin efinBody s).FitsOr
      (s.olen.toNat + (s.nacc.toNat + stop.length + 7) / 8 ≤ s.params.outMax)
      (· = s.encodedBits (stop ++ padding stop ((8 - (s.nacc.toNat + stop.length) % 8) % 8)) s.ntok .done) := by
  rw [runChecked_legal (i := .efin) rfl (by rcases h.legal with hs | hs <;> rw [hs] <;> rfl) (decide_eq_true hend),
    efinBody, withCode_of_codeOf hstop]
  refine .needOut rfl fun hroom => ?_
  have hmax := h.outMax_lt
  rw [State.finish_eq_putBits, (State.putBits_counts s stop (by omega)).1, ← State.putBits_append, State.encodedBits,
    State.putBits_frame, ← hend]
  rfl

/-- The bits of a chunk, from an empty accumulator: its tokens' codes, the stop code, the padding, as whole bytes
(R101, R227). -/
theorem encode_fits {T : HTree} {s : State} (h : EncoderAt T.codeFor s) (heidx : s.eidx = 0) (hnacc : s.nacc = 0)
    (hacc : s.acc = 0) (hstop : s.codeOf stopWord = some (T.codeFor stopWord)) :
    ((encodeAll s).andThen (runChecked .efin efinBody)).FitsOr
      (s.olen.toNat + (packBits (chunkBits T s.tokens)).length ≤ s.params.outMax)
      (· = (s.atToken s.ntok .done).appendBytes (packBits (chunkBits T s.tokens))) := by
  have hbits : (packBits (chunkBits T s.tokens)).length =
      ((s.tokens.flatMap T.codeFor).length + (T.codeFor stopWord).length + 7) / 8 := by
    rw [length_packBits, length_chunkBits, List.length_append]
    omega
  have hmax := h.outMax_lt
  have heidx0 : s.eidx.toNat = 0 := by rw [heidx]; rfl
  have hnacc0 : s.nacc.toNat = 0 := by rw [hnacc]; rfl
  have htokens : (encodeAll s).FitsOr _ _ := repeatWhile_estep _ h le_rfl
  rw [heidx0, List.drop_zero, hnacc0] at htokens
  rw [hbits]
  refine htokens.andThen (by omega) ?_
  rintro hroom t ⟨st, hst, rfl⟩
  obtain ⟨hn, ho⟩ := encodedBits_counts (s := s) (s.tokens.flatMap T.codeFor) s.ntok st (by omega)
  have hat := h.encodedBits (c := s.tokens.flatMap T.codeFor) (e := s.ntok) hst le_rfl (by omega)
  refine (efin_fits hat (by simp) (by rw [codeOf_encodedBits, hstop])).congr ?_ ?_
  · rw [hn, ho, encodedBits_params]
    omega
  · rintro t rfl
    have hchunk : s.tokens.flatMap T.codeFor ++ (T.codeFor stopWord ++ padding (T.codeFor stopWord)
        ((8 - ((s.nacc.toNat + (s.tokens.flatMap T.codeFor).length) % 8 + (T.codeFor stopWord).length) % 8) % 8)) =
        chunkBits T s.tokens := by
      rw [← List.append_assoc, chunkBits, List.length_append, hnacc0, Nat.zero_add, Nat.mod_add_mod]
    rw [encodedBits_encodedBits, hn, hchunk, encodedBits_ntok, State.encodedBits, ← putBits_atToken]
    exact State.putBits_eq_appendBytes (s := s.atToken s.ntok .done) hnacc hacc (length_chunkBits T s.tokens)

/-! ### The composite -/

theorem State.appendBytes_append (s : State) (bs cs : List Byte) :
    s.appendBytes (bs ++ cs) = (s.appendBytes bs).appendBytes cs := by
  induction bs generalizing s with
  | nil => rfl
  | cons b bs ih => exact ih (s.appendByte b)

theorem acc_eq_zero {s : State} (h : RegisterInv s) (hnacc : s.nacc = 0) : s.acc = 0 := by
  have hlow := h.acc_low
  have hlt := s.acc.isLt
  rw [hnacc] at hlow
  refine BitVec.eq_of_toNat_eq ?_
  simpa [Nat.mod_eq_of_lt hlt] using hlow

/-- TSTORE appends the tree's bytes where they fit (R184). -/
theorem tstore_fits {s : State} {T : HTree} (hs : s.state = .treeReady) (hT : s.tree = some T) :
    (runChecked .tstore tstoreBody s).FitsOr (s.olen.toNat + T.ser.length ≤ s.params.outMax)
      (· = s.appendBytes T.ser) := by
  rw [runChecked_legal (i := .tstore) rfl (by rw [hs]; rfl) rfl, tstoreBody, hT, T.length_ser]
  exact .needOut rfl fun _ => rfl

theorem tokens_stored (c : State) (T : HTree) (bs : List Byte) :
    ((c.buildTree.codeTree T).appendBytes bs).tokens = c.tokens := by
  simp [State.tokens]

section
variable {c : State} (h : RegisterInv c) {l r : HTree}
  (hT : TreeOf c.buildTree.nodeAt c.buildTree.root (.node l r))
  (hlv : (HTree.node l r).leaves.Perm (List.range c.buildTree.nleaf.toNat))
include h hT hlv

/-- After BUILD and TSTORE the encoder stands before the first token, with its tree's codes (R182, R184). -/
theorem stored_encoderAt {bs : List Byte} (hroom : c.olen.toNat + bs.length ≤ c.params.outMax) :
    EncoderAt (HTree.node l r).codeFor ((c.buildTree.codeTree (.node l r)).appendBytes bs) ∧
      ((c.buildTree.codeTree (.node l r)).appendBytes bs).codeOf stopWord = some ((HTree.node l r).codeFor stopWord) := by
  have hmax := h.outMax_lt
  have hcodes : ∀ w ∈ alphabet c.tokens, ((c.buildTree.codeTree (.node l r)).appendBytes bs).codeOf w =
      some ((HTree.node l r).codeFor w) := fun w hw => by
    rw [← codeTree_codeFor hT hlv hw, State.appendBytes_frame]
    rfl
  refine ⟨⟨.inl (by simp), by simpa using hmax, ?_, by simp, fun w hw => hcodes w ?_⟩,
    hcodes _ ((mem_alphabet _ _).mpr (.inl rfl))⟩
  · have holen := State.appendBytes_olen (c.buildTree.codeTree (.node l r)) bs (by simpa using hroom.trans_lt hmax)
    rw [holen]
    simpa using hroom
  · rw [tokens_stored] at hw
    exact (mem_alphabet _ _).mpr (.inr hw)

/-- TSTORE, ESTEP for each token and EFIN append the record of a built chunk where it fits (R227). -/
theorem storeAndEncode_fits (htree : c.buildTree.tree = some (.node l r)) (hnacc : c.nacc = 0) :
    ((runChecked .tstore tstoreBody (c.buildTree.codeTree (.node l r))).andThen fun t =>
        (encodeAll t).andThen (runChecked .efin efinBody)).FitsOr
      (c.olen.toNat + ((HTree.node l r).ser ++ packBits (chunkBits (.node l r) c.tokens)).length ≤ c.params.outMax)
      (· = ((c.buildTree.codeTree (.node l r)).atToken c.ntok .done).appendBytes
        ((HTree.node l r).ser ++ packBits (chunkBits (.node l r) c.tokens))) := by
  rw [List.length_append, ← Nat.add_assoc]
  have hstore := tstore_fits (s := c.buildTree.codeTree (.node l r)) rfl htree
  rw [State.codeTree_olen, State.buildTree_olen, State.codeTree_params, State.buildTree_params] at hstore
  refine hstore.andThen (by omega) ?_
  rintro hroom t rfl
  obtain ⟨hat, hstop⟩ := stored_encoderAt h hT hlv hroom
  have hlen := State.appendBytes_olen (c.buildTree.codeTree (.node l r)) (HTree.node l r).ser
    (by simpa using hroom.trans_lt h.outMax_lt)
  refine (encode_fits hat (by simp) (by simpa using hnacc) (by simpa using acc_eq_zero h hnacc) hstop).congr ?_ ?_
  · rw [tokens_stored, hlen, State.appendBytes_params, State.codeTree_olen, State.buildTree_olen, State.codeTree_params,
      State.buildTree_params]
  · rintro t rfl
    rw [tokens_stored, State.appendBytes_append, appendBytes_atToken (c.buildTree.codeTree (.node l r)),
      State.appendBytes_ntok, State.codeTree_ntok, State.buildTree_ntok]

end

/-- The state ENCCHUNK leaves when `c` is its chunk, collected, and `T` the tree BUILD makes of it: the codes are in the
code map, the record is appended, the encoder is behind the last token (R227, R230). -/
def State.encodedChunk (c : State) (T : HTree) (record : List Byte) : State :=
  ((c.buildTree.codeTree T).atToken c.ntok .done).appendBytes record

/-- ENCCHUNK appends the chunk's record where it fits, and raises where it does not. -/
theorem encchunkBody_fits {s : State} (h : RegisterInv s) (hc : ChunkClosed s) (hibit : s.ibit = 0) (hnacc : s.nacc = 0) :
    ∃ T, (encchunkBody s).FitsOr (s.olen.toNat + s.chunkRecord.length ≤ s.params.outMax)
      (· = s.collectChunk.encodedChunk T s.chunkRecord) := by
  obtain ⟨hall, hcol⟩ := collectChunk_collected h hc hibit hnacc
  have hbegin : runChecked .cbegin cbeginBody s = .ok s.openChunk :=
    runChecked_legal rfl (noChunk_of_closed hc) (by simp [precondition, hibit, hnacc])
  have holen : s.collectChunk.olen = s.olen := hcol.keeps .olen rfl rfl
  have hparams : s.collectChunk.params = s.params := hcol.keeps .params rfl rfl
  have hrecord : s.chunkRecord = match s.collectChunk.buildTree.tree with
    | some t => t.ser ++ packBits (chunkBits t s.collectChunk.tokens)
    | none => [] := rfl
  rw [encchunkBody, encchunkSteps, hbegin, ok_andThen, hall, ok_andThen, hrecord, ← holen, ← hparams]
  obtain ⟨c, hc⟩ : ∃ c, s.collectChunk = c := ⟨_, rfl⟩
  rw [hc] at hcol ⊢
  obtain ⟨l, r, htree, hT, hlv, -⟩ := buildTree_tree c
  have hbuild : runChecked .build buildBody c = .ok (c.buildTree.codeTree (.node l r)) := by
    rw [runChecked_legal (i := .build) rfl (by rw [hcol.collecting]; rfl) (decide_eq_true hcol.ipos_cend), buildBody, htree]
  rw [hbuild, ok_andThen, htree]
  exact ⟨_, .inComposite (storeAndEncode_fits hcol.registers hT hlv htree
    (hcol.registers.open_aligned (.inl hcol.collecting))) _⟩

end Sys2Proof.Machine
end

section
/-! ## COMPRESS writes the file (30_encoding.md R101, R102, 46_container.md R245, R246) -/

namespace Sys2Proof.Machine

open Sys2Proof

/-! ### Appending again and again -/

theorem Appended.congr {s s' t : State} {bs : List Byte} (h : Appended s' t bs) (holen : s'.olen = s.olen)
    (hobuf : s'.obuf = s.obuf) : Appended s t bs where
  olen_eq := holen ▸ h.olen_eq
  bytes_eq := holen ▸ h.bytes_eq
  others_kept a ha := (h.others_kept a (holen ▸ ha)).trans (by rw [State.obufAt, hobuf, State.obufAt])

theorem Appended.trans {s t u : State} {bs cs : List Byte} (h : Appended s t bs) (h' : Appended t u cs) :
    Appended s u (bs ++ cs) := by
  have holen := h.olen_eq
  have holen' := h'.olen_eq
  refine ⟨by rw [List.length_append]; omega, ?_, fun a ha => ?_⟩
  · have hold : u.obufSlice s.olen.toNat bs.length = t.obufSlice s.olen.toNat bs.length :=
      Mem.readSeq_congr fun a _ ha => h'.others_kept a (.inl (by omega))
    calc u.obufSlice s.olen.toNat (bs ++ cs).length
        = u.obufSlice s.olen.toNat bs.length ++ u.obufSlice t.olen.toNat cs.length := by
          rw [List.length_append, State.obufSlice, readSeq_append, ← holen]
          rfl
      _ = bs ++ cs := by rw [hold, h.bytes_eq, h'.bytes_eq]
  · rw [List.length_append] at ha
    rw [h'.others_kept a (by omega), h.others_kept a (by omega)]

/-! ### A chunk written -/

/-- A chunk has just ended: the encoder is behind its last token, the tree and its codes are valid (R223, R227). -/
structure ChunkEnded (t : State) : Prop where
  registers : RegisterInv t
  done : t.state = .done
  nacc : t.nacc = 0
  tvalid : t.tvalid = true
  cmvalid : t.cmvalid = true
  eidx : t.eidx = t.ntok
  cend : t.cend = t.ipos

/-- Whole chunks encoded from `s` on: `bs` is appended, and the bytes consumed are the ring's newest. -/
structure Encoded (s t : State) (bs : List Byte) : Prop where
  ended : ChunkEnded t
  keeps : Keeps .encchunk s t
  appended : Appended s t bs
  consumed : Consumed s t

namespace Encoded
variable {s t u : State} {bs cs : List Byte}

theorem refl (h : ChunkEnded s) : Encoded s s [] :=
  ⟨h, .refl .encchunk s, ⟨rfl, rfl, fun _ _ => rfl⟩, .refl h.registers.fill_le⟩

theorem trans (h : Encoded s t bs) (h' : Encoded t u cs) : Encoded s u (bs ++ cs) :=
  ⟨h'.ended, h.keeps.trans h'.keeps, h.appended.trans h'.appended,
    h.consumed.trans h'.consumed (h.keeps .cap rfl) (h.keeps .ibuf rfl)⟩

end Encoded

section
variable {s c : State} (T : HTree) (bs : List Byte)

theorem encodedChunk_view : (c.encodedChunk T bs).chunkView = c.chunkView := by
  simp [State.chunkView, State.encodedChunk, State.atToken]

theorem encodedChunk_ipos : (c.encodedChunk T bs).ipos = c.ipos := by
  simp [State.encodedChunk, State.atToken]

theorem encodedChunk_history : (c.encodedChunk T bs).history = c.history :=
  history_congr (by simp [State.encodedChunk, State.atToken]) (by simp [State.encodedChunk, State.atToken])
    (by simp [State.encodedChunk, State.atToken]) (by simp [State.encodedChunk, State.atToken])

variable (h : ChunkCollected s c)
include h

/-- The state ENCCHUNK leaves has its chunk ended. -/
theorem encodedChunk_ended (hr : RegisterInv (c.encodedChunk T bs)) : ChunkEnded (c.encodedChunk T bs) where
  registers := hr
  done := by simp [State.encodedChunk, State.atToken]
  nacc := by simpa [State.encodedChunk, State.atToken] using h.registers.open_aligned (.inl h.collecting)
  tvalid := by simp [State.encodedChunk, State.atToken]
  cmvalid := by simp [State.encodedChunk, State.atToken]
  eidx := by simp [State.encodedChunk, State.atToken]
  cend := by simpa [State.encodedChunk, State.atToken] using h.ipos_cend.symm

theorem encodedChunk_appended (hmax : s.params.outMax < 2 ^ 32) (hroom : s.olen.toNat + bs.length ≤ s.params.outMax) :
    Appended s (c.encodedChunk T bs) bs := by
  have holen : c.olen = s.olen := h.keeps .olen rfl rfl
  have hobuf : c.obuf = s.obuf := h.keeps .obuf rfl rfl
  have hstart : ((c.buildTree.codeTree T).atToken c.ntok .done).olen = s.olen := by simpa [State.atToken] using holen
  exact (State.appended_appendBytes _ bs (by rw [hstart]; omega)).congr hstart (by simpa [State.atToken] using hobuf)

theorem encodedChunk_consumed : Consumed s (c.encodedChunk T bs) where
  ipos_le := by
    rw [encodedChunk_ipos]
    exact h.consumed.ipos_le
  history_eq := by
    rw [encodedChunk_ipos, encodedChunk_history]
    exact h.consumed.history_eq

end

/-- ENCCHUNK appends its chunk's record, or raises where it does not fit; what a later chunk depends on is as after
collecting this one (R227, R230). -/
theorem encchunkBody_encodes {s : State} (h : RegisterInv s) (hc : ChunkClosed s) (hibit : s.ibit = 0)
    (hnacc : s.nacc = 0) :
    (encchunkBody s).FitsOr (s.olen.toNat + s.chunkRecord.length ≤ s.params.outMax) fun t =>
      Encoded s t s.chunkRecord ∧ t.chunkView = s.collectChunk.chunkView ∧
        t.ipos.toNat = min s.ilen.toNat (s.ipos.toNat + s.chunk.toNat) := by
  obtain ⟨-, hcol⟩ := collectChunk_collected h hc hibit hnacc
  obtain ⟨T, hfits⟩ := encchunkBody_fits h hc hibit hnacc
  have hregs := encchunkBody_registers h
  have hkeeps : (encchunkBody s).All (Keeps .encchunk s) := body_keeps (i := .encchunk) (by decide) s
  refine ⟨fun hroom => ?_, hfits.full⟩
  obtain ⟨t, ht, rfl⟩ := hfits.fits hroom
  rw [ht] at hregs hkeeps
  exact ⟨_, ht, ⟨encodedChunk_ended T _ hcol hregs, hkeeps, encodedChunk_appended T _ hcol h.outMax_lt hroom,
    encodedChunk_consumed T _ hcol⟩, encodedChunk_view T _, by rw [encodedChunk_ipos, hcol.ipos_eq]⟩

/-! ### Chunk after chunk (R246) -/

theorem collect_ilen (n : Nat) (s : State) : (State.collect n s).ilen = s.ilen := by
  induction n generalizing s with
  | zero => rfl
  | succ n ih =>
    have hstep (r : Nat × Nat) : (mstepWith s r).ilen = s.ilen := by
      unfold mstepWith
      split <;> simp
    rw [State.collect]
    split
    · rw [ih, hstep]
    · rfl

/-- The records of the chunks still to come after one that ended in `s`, at most `n` of them. -/
def State.laterRecords : Nat → State → List Byte
  | 0, _ => []
  | n + 1, s => if s.ipos.toNat < s.ilen.toNat then State.chunkRecords n s else []

theorem chunkRecords_eq (n : Nat) (s : State) :
    State.chunkRecords n s = s.chunkRecord ++ State.laterRecords n s.collectChunk := by
  cases n with
  | zero => simp [State.chunkRecords, State.laterRecords]
  | succ n =>
    have hilen : s.collectChunk.ilen = s.ilen := collect_ilen _ s.openChunk
    rw [State.chunkRecords, State.laterRecords, hilen]

theorem chunkRecords_view {s u : State} (n : Nat) (h : s.chunkView = u.chunkView) :
    State.chunkRecords n s = State.chunkRecords n u := by
  induction n generalizing s u with
  | zero => exact chunkRecord_view h
  | succ n ih =>
    have hipos : s.collectChunk.ipos = u.collectChunk.ipos := (congrArg State.ipos (collectChunk_view h) :)
    have hilen : s.ilen = u.ilen := (congrArg State.ilen h :)
    rw [State.chunkRecords, State.chunkRecords, chunkRecord_view h, hipos, hilen, ih (collectChunk_view h)]

theorem laterRecords_view {s u : State} (n : Nat) (h : s.chunkView = u.chunkView) :
    State.laterRecords n s = State.laterRecords n u := by
  cases n with
  | zero => rfl
  | succ n =>
    have hipos : s.ipos = u.ipos := (congrArg State.ipos h :)
    have hilen : s.ilen = u.ilen := (congrArg State.ilen h :)
    rw [State.laterRecords, State.laterRecords, hipos, hilen, chunkRecords_view n h]

theorem laterRecords_of_used {s : State} (n : Nat) (h : s.ilen.toNat ≤ s.ipos.toNat) : State.laterRecords n s = [] := by
  cases n with
  | zero => rfl
  | succ n => rw [State.laterRecords, if_neg (Nat.not_lt.mpr h)]

/-- The input bytes not consumed yet. -/
def State.inputLeft (s : State) : Nat := s.ilen.toNat - s.ipos.toNat

/-- What encodes the chunks left after one that ended: their records appended, the input used up. -/
def EncodesRest (k : Nat) (f : State → Res) (s : State) : Prop :=
  (f s).FitsOr (s.olen.toNat + (State.laterRecords k s).length ≤ s.params.outMax) fun t =>
    Encoded s t (State.laterRecords k s) ∧ t.ipos = t.ilen

/-- ENCCHUNK, then the chunks left after it. -/
theorem encchunk_andThen_rest {s : State} {f : State → Res} {k : Nat} (h : RegisterInv s) (hc : ChunkClosed s)
    (hibit : s.ibit = 0) (hnacc : s.nacc = 0)
    (hf : ∀ t, ChunkEnded t → t.ibit = 0 → t.inputLeft ≤ s.inputLeft - 1 → EncodesRest k f t) :
    ((runChecked .encchunk encchunkBody s).andThen f).FitsOr
      (s.olen.toNat + (State.chunkRecords k s).length ≤ s.params.outMax)
      fun t => Encoded s t (State.chunkRecords k s) ∧ t.ipos = t.ilen := by
  rw [runChecked_legal (i := .encchunk) rfl (noChunk_of_closed hc) (by simp [precondition, hibit, hnacc])]
  refine (encchunkBody_encodes h hc hibit hnacc).andThen (fun hroom => ?_) fun _ t ht => ?_
  · rw [chunkRecords_eq, List.length_append] at hroom
    omega
  · obtain ⟨henc, hview, hipos⟩ := ht
    have hilen : t.ilen = s.ilen := henc.keeps .ilen rfl
    have hparams : t.params = s.params := henc.keeps .params rfl
    have holen := henc.appended.olen_eq
    have hleft : t.inputLeft ≤ s.inputLeft - 1 := by
      have := h.chunk_pos
      rw [State.inputLeft, State.inputLeft, hilen, hipos]
      omega
    have hrecords : State.chunkRecords k s = s.chunkRecord ++ State.laterRecords k t := by
      rw [chunkRecords_eq, laterRecords_view k hview]
    refine (hf t henc.ended (Eq.trans (henc.keeps .ibit rfl) hibit) hleft).congr ?_ fun u hu => ?_
    · rw [hrecords, List.length_append, holen, hparams, Nat.add_assoc]
    · rw [hrecords]
      exact ⟨henc.trans hu.1, hu.2⟩

/-- `while IPOS < ILEN: ENCCHUNK`. -/
def encodeRest (n : Nat) : State → Res :=
  repeatWhile (fun s => decide (s.ipos.toNat < s.ilen.toNat)) (runChecked .encchunk encchunkBody) n

/-- With the input used up nothing is written. -/
theorem encodeRest_of_used (n k : Nat) {s : State} (h : ChunkEnded s) (hused : s.ilen.toNat ≤ s.ipos.toNat) :
    EncodesRest k (encodeRest n) s := by
  have hstop : encodeRest n s = .ok s := by cases n <;> rw [encodeRest, repeatWhile, if_neg (by simpa using hused)]
  rw [EncodesRest, laterRecords_of_used k hused, hstop]
  exact .ok h.registers.olen_le ⟨.refl h, BitVec.eq_of_toNat_eq (h.registers.ipos_le.antisymm hused)⟩

/-- After a chunk that ended in `s`, the records of the chunks left are appended. -/
theorem encodeRest_encodes (n k : Nat) {s : State} (h : ChunkEnded s) (hibit : s.ibit = 0) (hn : s.inputLeft ≤ n)
    (hk : s.inputLeft ≤ k) : EncodesRest k (encodeRest n) s := by
  induction n generalizing s k with
  | zero => exact encodeRest_of_used 0 k h (Nat.sub_eq_zero_iff_le.mp (Nat.le_zero.mp hn))
  | succ n ih =>
    by_cases hlt : s.ipos.toNat < s.ilen.toNat
    · have hpos : 1 ≤ s.inputLeft := Nat.sub_pos_of_lt hlt
      obtain ⟨k, rfl⟩ : ∃ k', k = k' + 1 := ⟨k - 1, by omega⟩
      rw [EncodesRest, State.laterRecords, if_pos hlt, encodeRest, repeatWhile, if_pos (decide_eq_true hlt)]
      exact encchunk_andThen_rest h.registers (.inr h.done) hibit h.nacc fun t ht hbit hleft =>
        ih k ht hbit (by omega) (by omega)
    · exact encodeRest_of_used (n + 1) k h (Nat.not_lt.mp hlt)

/-- ENCCHUNK until the input is used appends all its chunk records (46_container.md R246). -/
theorem untilInputUsed_encchunk {s : State} (h : RegisterInv s) (hc : ChunkClosed s) (hibit : s.ibit = 0)
    (hnacc : s.nacc = 0) :
    (untilInputUsed (runChecked .encchunk encchunkBody) s).FitsOr
      (s.olen.toNat + (State.chunkRecords s.inputLeft s).length ≤ s.params.outMax)
      fun t => Encoded s t (State.chunkRecords s.inputLeft s) ∧ t.ipos = t.ilen :=
  encchunk_andThen_rest h hc hibit hnacc fun t ht hbit hleft =>
    encodeRest_encodes t.inputLeft s.inputLeft ht hbit le_rfl (hleft.trans (Nat.sub_le _ _))

/-! ### The file (R246) -/

/-- The state in which COMPRESS starts its first chunk: outputs and ring cleared, the file header written. -/
def State.fileStart (s : State) : State := s.clearOut.clearRing.appendBytes (fileHeader s.cap)

theorem length_fileHeader (cap : BitVec 16) : (fileHeader cap).length = 6 := rfl

section
variable {s : State}

theorem fileStart_appended (s : State) : Appended s.clearOut.clearRing s.fileStart (fileHeader s.cap) :=
  State.appended_appendBytes _ _ (by simp [length_fileHeader])

theorem fileStart_view (s : State) : s.fileStart.chunkView = s.clearRing.chunkView := by
  simp [State.chunkView, State.fileStart]

theorem fileStart_history (s : State) : s.fileStart.history = [] := by
  simp [State.history, State.fileStart]

theorem fileBytes_eq (s : State) :
    s.fileBytes = fileHeader s.cap ++ State.chunkRecords s.fileStart.inputLeft s.fileStart := by
  have hleft : s.fileStart.inputLeft = s.ilen.toNat - s.ipos.toNat := by simp [State.inputLeft, State.fileStart]
  rw [State.fileBytes, hleft, chunkRecords_view _ (fileStart_view s)]

/-- The file written: its records follow the header. -/
theorem compressBody_fits (h : RegisterInv s) (hc : ChunkClosed s) (hibit : s.ibit = 0) :
    (compressBody s).FitsOr (s.fileBytes.length ≤ s.params.outMax) fun t =>
      Encoded s.fileStart t (State.chunkRecords s.fileStart.inputLeft s.fileStart) ∧ t.ipos = t.ilen := by
  have hlen : s.fileBytes.length = 6 + (State.chunkRecords s.fileStart.inputLeft s.fileStart).length := by
    rw [fileBytes_eq, List.length_append, length_fileHeader]
  rw [compressBody]
  split
  · next h6 =>
    have hstart : RegisterInv s.fileStart := registerInv_stepInvariant.writeHeader h (noChunk_of_closed hc) h6
    have holen : s.fileStart.olen.toNat = 6 := by simpa [length_fileHeader] using (fileStart_appended s).olen_eq
    have hclosed : ChunkClosed s.fileStart := by simpa [ChunkClosed, State.fileStart] using hc
    have hfits := untilInputUsed_encchunk hstart hclosed (by simpa [State.fileStart] using hibit) (by simp [State.fileStart])
    refine (hfits.inComposite _).congr ?_ fun _ ht => ht
    rw [hlen, holen, show s.fileStart.params = s.params by simp [State.fileStart]]
  · next h6 => exact ⟨fun hroom => absurd (hlen ▸ hroom) (by omega), fun _ => ⟨s, rfl⟩⟩

end

/-- A state that kept every other field is the old one with the selected fields replaced. -/
theorem Field.eq_take_of_same {w : Field → Bool} {s t : State} (h : ∀ f, w f = false → f.Same s t) :
    t = s.take w t := by
  have hsame {α : Type} {b : Bool} {x y : α} (hb : b = false → x = y) : x = if b then x else y := by
    cases b
    · exact hb rfl
    · rfl
  have hfield {f : Field} := h f
  rw [State.take]
  cases t
  congr 1 <;> exact hsame hfield

/-- What COMPRESS leaves when the file fits (46_container.md R246). -/
theorem compressed_eq {s t : State} {bs : List Byte} (hk : Keeps .compress s t) (h : Encoded s.fileStart t bs)
    (hipos : t.ipos = t.ilen) : t = { s with
        ring := t.ring, wptr := t.wptr, fill := t.fill, ipos := s.ilen, obuf := t.obuf, olen := t.olen, omark := 0
        acc := 0, nacc := 0, tokmem := t.tokmem, ntok := t.ntok, cstart := t.cstart, cend := s.ilen, eidx := t.ntok
        nodemem := t.nodemem, nnode := t.nnode, nleaf := t.nleaf, root := t.root, tvalid := true
        codemap := t.codemap, cmvalid := true, moff := t.moff, mlen := t.mlen, fMatch := t.fMatch, state := .done } := by
  obtain ⟨hregs, hdone, hnacc, htvalid, hcmvalid, heidx, hcend⟩ := h.ended
  have hilen : t.ilen = s.ilen := hk .ilen rfl
  have homark : t.omark = 0 := Eq.trans (h.keeps .omark rfl) (by simp [State.fileStart])
  have hacc := acc_eq_zero hregs hnacc
  calc t = s.take (writes .compress) t := Field.eq_take_of_same hk
    _ = { s with
        ring := t.ring, wptr := t.wptr, fill := t.fill, ipos := t.ipos, obuf := t.obuf, olen := t.olen, omark := t.omark
        acc := t.acc, nacc := t.nacc, tokmem := t.tokmem, ntok := t.ntok, cstart := t.cstart, cend := t.cend
        eidx := t.eidx, nodemem := t.nodemem, nnode := t.nnode, nleaf := t.nleaf, root := t.root, tvalid := t.tvalid
        codemap := t.codemap, cmvalid := t.cmvalid, moff := t.moff, mlen := t.mlen, fMatch := t.fMatch
        state := t.state } := rfl
    _ = _ := by rw [hcend, hipos, hilen, homark, hacc, hnacc, heidx, htvalid, hcmvalid, hdone]

/-- The bytes of the file, and what is kept behind it. -/
theorem compressed_output {s t : State} (h : Encoded s.fileStart t (State.chunkRecords s.fileStart.inputLeft s.fileStart)) :
    t.output = s.fileBytes ∧ ∀ a, t.olen.toNat ≤ a → t.obufAt a = s.obufAt a := by
  obtain ⟨holen, hbytes, hothers⟩ := (fileStart_appended s).trans h.appended
  rw [← fileBytes_eq] at holen hbytes hothers
  have hzero : s.clearOut.clearRing.olen.toNat = 0 := by simp
  rw [hzero, Nat.zero_add] at holen hothers
  rw [hzero] at hbytes
  refine ⟨by rw [State.output, holen, hbytes], fun a ha => ?_⟩
  rw [hothers a (.inr (holen ▸ ha))]
  simp [State.obufAt]

/-- The history is the newest bytes of the input. -/
theorem compressed_history {s t : State} (h : Consumed s.fileStart t) (hipos : t.ipos = s.ilen) :
    t.history = trim s.cap.toNat (s.ibufSlice s.ipos.toNat (s.ilen.toNat - s.ipos.toNat)) := by
  rw [h.history_eq, fileStart_history, hipos]
  simp [State.fileStart, State.ibufSlice]

/-- Settles O48: the header, then chunk after chunk, each appended where it fits and raised where it does not. -/
theorem compressWritesTheFile : Obligations.CompressWritesTheFile := by
  intro s h hc hibit
  have hexec : exec .compress s = (compressBody s).outcome :=
    exec_of_legal rfl (not_failed_of_closed hc) (noChunk_of_closed hc) (decide_eq_true hibit)
  have hfits := compressBody_fits h hc hibit
  have hkeeps : (compressBody s).All (Keeps .compress s) := body_keeps (i := .compress) (by decide) s
  rw [hexec]
  refine ⟨fun hroom => ?_, fun hfull => ?_⟩
  · obtain ⟨t, ht, henc, hipos⟩ := hfits.fits hroom
    rw [ht] at hkeeps ⊢
    have hilen : t.ilen = s.ilen := hkeeps .ilen rfl
    obtain ⟨houtput, hbehind⟩ := compressed_output henc
    exact ⟨t, rfl, compressed_eq hkeeps henc hipos, houtput,
      compressed_history henc.consumed (hipos.trans hilen), hbehind⟩
  · obtain ⟨u, hu⟩ := hfits.full (Nat.not_le.mpr hfull)
    rw [hu]
    exact ⟨_, rfl, rfl, rfl, rfl⟩

end Sys2Proof.Machine
end

section
/-! ## The legality table and the host's configuration commands (40_host_config.md R121 to R128) -/

namespace Sys2Proof.Machine

open Sys2Proof

/-! ### The checks of R120 are the rows of R121 -/

theorem noChunk_iff {st : CodecState} : st.noChunk = true ↔ st = .idle ∨ st = .done :=
  ⟨noChunk_cases, by rintro (rfl | rfl) <;> rfl⟩

theorem csrWritable_iff {a : BitVec 8} {v : BitVec 16} : csrWritable a v = true ↔ legalCsrWrite a v := by
  refine ⟨csrWritable_cases, ?_⟩
  rintro (⟨rfl, h⟩ | ⟨rfl, h⟩ | ⟨rfl, h⟩ | ⟨rfl, h⟩ | ⟨rfl, h⟩) <;> simpa [csrWritable] using h

theorem csrImplemented_iff {a : BitVec 8} : csrImplemented a = true ↔ implementedCsr a := by
  simp [csrImplemented, implementedCsr]

/-- Both checks pass exactly in the command's row of the table. -/
theorem accepted_iff (i : Instr) (s : State) :
    Accepted i s ↔ legalIn i s.state = true ∧ precondition i s = true := by
  cases i <;> simp [Accepted, legalIn, precondition, noChunk_iff, csrWritable_iff, csrImplemented_iff]

/-- Settles O10: outside its row one of the two checks fails, and that is error entry. -/
theorem commandsOutsideTheLegalityTableRaise : Obligations.CommandsOutsideTheLegalityTableRaise := by
  intro i s _ hf hrow
  rw [accepted_iff, not_and_or, Bool.not_eq_true, Bool.not_eq_true] at hrow
  rw [exec_eq_command]
  exact command_illegal hf (.inr hrow)

/-- In its row a command runs its pseudocode (R120). -/
theorem exec_of_accepted {i : Instr} {s : State} (hw : i.wellFormed = true) (hf : s.state ≠ .failed)
    (h : Accepted i s) : exec i s = (bodyOf i s).outcome :=
  exec_of_legal hw hf ((accepted_iff i s).mp h).1 ((accepted_iff i s).mp h).2

theorem runChecked_of_accepted {i : Instr} {s : State} (hw : i.wellFormed = true) (h : Accepted i s)
    (body : State → Res) : runChecked i body s = body s :=
  runChecked_legal hw ((accepted_iff i s).mp h).1 ((accepted_iff i s).mp h).2

/-! ### Pseudocode that raises no `IllegalCommand` -/

/-- No `IllegalCommand` is raised, and where the pseudocode completes, `Q` holds. -/
def Res.NoIllegal (Q : State → Prop) : Res → Prop
  | .ok t => Q t
  | .raised k _ _ => k ≠ .illegalCommand
  | .stuck _ => True

namespace Res.NoIllegal

variable {P Q : State → Prop} {r : Res}

theorem imp (h : r.NoIllegal P) (hPQ : ∀ t, P t → Q t) : r.NoIllegal Q := by
  cases r with
  | ok t => exact hPQ t h
  | raised => exact h
  | stuck => trivial

/-- What holds of the state in every case holds where the pseudocode completes. -/
theorem and_all (h : r.NoIllegal P) (h' : r.All Q) : r.NoIllegal fun t => P t ∧ Q t := by
  cases r with
  | ok t => exact ⟨h, h'⟩
  | raised => exact h
  | stuck => trivial

theorem andThen {f : State → Res} (h : r.NoIllegal P) (hf : ∀ t, P t → (f t).NoIllegal Q) :
    (r.andThen f).NoIllegal Q := by
  cases r with
  | ok t => exact hf t h
  | raised => exact h
  | stuck => trivial

theorem inComposite (h : r.NoIllegal P) (w : Word) : (r.inComposite w).NoIllegal P := by
  cases r with
  | ok t => exact h
  | raised k => cases k <;> exact h
  | stuck => trivial

theorem needOut {s : State} {k : Nat} {f : State → Res} (hf : (f s).NoIllegal P) : (s.needOut k f).NoIllegal P := by
  unfold State.needOut
  split
  · exact hf
  · exact nofun

theorem withCode {s : State} {w : Word} {f : Bits → Res} (hf : ∀ c, (f c).NoIllegal P) :
    (s.withCode w f).NoIllegal P := by
  unfold State.withCode
  split
  · exact hf _
  · trivial

theorem of_fitsOr {room : Prop} (h : r.FitsOr room P) : r.NoIllegal P := by
  by_cases hroom : room
  · obtain ⟨t, rfl, ht⟩ := h.fits hroom
    exact ht
  · obtain ⟨u, rfl⟩ := h.full hroom
    exact nofun

/-- A loop whose rounds keep `P` ends, where it completes, with `P` and without its condition. -/
theorem repeatWhile {cond : State → Bool} {body : State → Res}
    (hb : ∀ s, P s → cond s = true → (body s).NoIllegal P) (n : Nat) {s : State} (hs : P s) :
    (repeatWhile cond body n s).NoIllegal fun t => P t ∧ cond t = false := by
  induction n generalizing s with
  | zero =>
    unfold Machine.repeatWhile
    split
    · trivial
    · exact ⟨hs, Bool.eq_false_of_not_eq_true ‹_›⟩
  | succ n ih =>
    unfold Machine.repeatWhile
    split
    · exact (hb s hs ‹_›).andThen fun t ht => ih ht
    · exact ⟨hs, Bool.eq_false_of_not_eq_true ‹_›⟩

theorem untilInputUsed {body : State → Res} (hb : ∀ s, P s → (body s).NoIllegal P) {s : State} (hs : P s) :
    (untilInputUsed body s).NoIllegal P :=
  (hb s hs).andThen fun _ ht => (repeatWhile (fun u hu _ => hb u hu) _ ht).imp fun _ hu => hu.1

end Res.NoIllegal

/-! ### The primitives -/

theorem tloadBody_noIllegal (s : State) : (tloadBody s).NoIllegal (·.state = .headerParsed) := by
  unfold tloadBody
  split
  · exact nofun
  · exact rfl

/-- Where DSTEP stands: before a symbol, or behind the chunk on a byte boundary (45_chunk_codec.md R225, R226). -/
def DecodesOrEnded (s : State) : Prop :=
  (s.state = .headerParsed ∨ s.state = .decoding) ∨ (s.state = .done ∧ s.ibit = 0)

theorem dstepBody_noIllegal (s : State) : (dstepBody s).NoIllegal DecodesOrEnded := by
  unfold dstepBody
  split
  · unfold dstepSymbol
    split
    · trivial
    · exact .inr ⟨rfl, State.align_ibit _⟩
    · split
      · exact .inl (.inr rfl)
      · exact nofun
    · split
      · split
        · exact .inl (.inr rfl)
        · exact nofun
      · exact nofun
  · split
    · exact .inr ⟨rfl, rfl⟩
    · exact nofun
  · exact nofun

/-- A primitive raises `IllegalCommand` by its checks only: CSRW and CSRR by their precondition, the others have no such
raise in their pseudocode. -/
theorem primitive_noIllegal {i : Instr} (hc : Composite i = false) {s : State} (hp : precondition i s = true) :
    (bodyOf i s).NoIllegal fun _ => True := by
  cases i with
  | csrw a v =>
    rcases csrWritable_cases hp with ⟨rfl, -⟩ | ⟨rfl, -⟩ | ⟨rfl, -⟩ | ⟨rfl, -⟩ | ⟨rfl, -⟩ <;> trivial
  | csrr a =>
    obtain ⟨w, hw⟩ := csrRead_isSome hp s
    simp only [bodyOf, csrrBody, hw, Res.NoIllegal]
  | push b =>
    show (pushBody b s).NoIllegal _
    unfold pushBody
    split
    · trivial
    · exact nofun
  | build =>
    show (buildBody s).NoIllegal _
    unfold buildBody
    split <;> trivial
  | tstore =>
    show (tstoreBody s).NoIllegal _
    unfold tstoreBody
    split
    · trivial
    · exact .needOut trivial
  | tload => exact (tloadBody_noIllegal s).imp fun _ _ => trivial
  | wbits n v =>
    show (wbitsBody n v s).NoIllegal _
    exact .needOut trivial
  | wfin =>
    show (wfinBody s).NoIllegal _
    unfold wfinBody
    split
    · exact .needOut (.withCode fun _ => trivial)
    · trivial
  | rbit =>
    show (rbitBody s).NoIllegal _
    unfold rbitBody
    split <;> trivial
  | estep =>
    show (estepBody s).NoIllegal _
    exact .withCode fun _ => .needOut trivial
  | efin =>
    show (efinBody s).NoIllegal _
    exact .withCode fun _ => .needOut trivial
  | dstep => exact (dstepBody_noIllegal s).imp fun _ _ => trivial
  | encchunk | decchunk | compress | decompress => cases hc
  | nop | reset | iclr | oclr | lbclr | lbrec | lbfind | cbegin | mstep | ralign => trivial

/-! ### The composites: each primitive of the sequence is accepted (45_chunk_codec.md R229) -/

/-- After TLOAD each DSTEP until `Done` is accepted. -/
theorem decodeAll_noIllegal {s : State} (hs : s.state = .headerParsed) :
    (decodeAll s).NoIllegal fun t => t.state = .done ∧ t.ibit = 0 := by
  have hround : ∀ u, DecodesOrEnded u → decide (u.state ≠ .done) = true →
      (runChecked .dstep dstepBody u).NoIllegal DecodesOrEnded := by
    intro u hu hne
    have hrow : Accepted .dstep u := hu.resolve_right fun h => of_decide_eq_true hne h.1
    rw [runChecked_of_accepted rfl hrow]
    exact dstepBody_noIllegal u
  refine (Res.NoIllegal.repeatWhile hround _ (.inl (.inl hs))).imp fun t ht => ?_
  obtain ⟨hend, hcond⟩ := ht
  have hdone : t.state = .done := by simpa using hcond
  exact hend.resolve_left (by simp [hdone])

/-- DECCHUNK leaves a state in which the next one is accepted (R228). -/
theorem decchunkBody_noIllegal {s : State} (h : Accepted .decchunk s) :
    (decchunkBody s).NoIllegal (Accepted .decchunk) := by
  have hload : Accepted .tload s := h
  obtain ⟨-, -, hnacc⟩ := h
  have hkeeps : (decchunkBody s).All (Keeps .decchunk s) := body_keeps (i := .decchunk) (by decide) s
  have hsteps : (decchunkBody s).NoIllegal fun t => t.state = .done ∧ t.ibit = 0 := by
    rw [decchunkBody, decchunkSteps, runChecked_of_accepted rfl hload]
    exact ((tloadBody_noIllegal s).andThen fun t ht => decodeAll_noIllegal ht).inComposite _
  refine (hsteps.and_all hkeeps).imp fun t ht => ?_
  obtain ⟨⟨hdone, hibit⟩, hk⟩ := ht
  have hn : t.nacc = s.nacc := hk .nacc rfl
  exact ⟨.inr hdone, hibit, hn.trans hnacc⟩

/-- DECOMPRESS opens the file aligned, with no bits pending, and so every DECCHUNK is accepted (46_container.md R247). -/
theorem decompressBody_noIllegal {s : State} (h : Accepted .decompress s) :
    (decompressBody s).NoIllegal fun _ => True := by
  obtain ⟨hclosed, hibit⟩ := h
  unfold decompressBody
  split
  · exact nofun
  · next cap _ =>
    have hround : ∀ u, Accepted .decchunk u → (runChecked .decchunk decchunkBody u).NoIllegal (Accepted .decchunk) := by
      intro u hu
      rw [runChecked_of_accepted rfl hu]
      exact decchunkBody_noIllegal hu
    have hstart : Accepted .decchunk (s.openFile cap) := ⟨hclosed, hibit, rfl⟩
    exact ((Res.NoIllegal.untilInputUsed hround hstart).inComposite _).imp fun _ _ => trivial

/-- An accepted command's pseudocode raises no `IllegalCommand`; an encoding composite raises only where its record does
not fit (R230, R246). -/
theorem body_noIllegal {i : Instr} {s : State} (h : RegisterInv s) (hrow : Accepted i s) :
    (bodyOf i s).NoIllegal fun _ => True := by
  by_cases hc : Composite i = false
  · exact primitive_noIllegal hc ((accepted_iff i s).mp hrow).2
  · cases i with
    | encchunk =>
      obtain ⟨hclosed, hibit, hnacc⟩ := hrow
      exact (Res.NoIllegal.of_fitsOr (encchunkBody_encodes h hclosed hibit hnacc)).imp fun _ _ => trivial
    | decchunk => exact (decchunkBody_noIllegal hrow).imp fun _ _ => trivial
    | compress =>
      obtain ⟨hclosed, hibit⟩ := hrow
      exact (Res.NoIllegal.of_fitsOr (compressBody_fits h hclosed hibit)).imp fun _ _ => trivial
    | decompress => exact decompressBody_noIllegal hrow
    | _ => exact absurd rfl hc

/-- Where a command's pseudocode completes outside `Failed`, no error is recorded. -/
theorem err_of_body_ok {i : Instr} {s t : State} (h : RegisterInv s) (hf : s.state ≠ .failed) (hb : bodyOf i s = .ok t) :
    t.err = none := by
  by_cases hr : i = .reset
  · subst hr
    exact Res.ok.inj hb ▸ rfl
  · have hkeeps := body_keeps hr s
    rw [hb] at hkeeps
    have herr : t.err = s.err := hkeeps .err rfl
    exact herr.trans (h.err_eq_none hf)

/-- Settles O11: the pseudocode of an accepted command raises no `IllegalCommand`, and completing records no error. -/
theorem acceptedCommandsRaiseNoIllegalCommand : Obligations.AcceptedCommandsRaiseNoIllegalCommand := by
  intro i s t h hf hw hrow he
  have hbody := body_noIllegal h hrow
  rw [exec_of_accepted hw hf hrow] at he
  rcases Res.outcome_next he with hb | ⟨k, info, u, hb, rfl⟩
  · rw [err_of_body_ok h hf hb]
    exact nofun
  · rw [hb] at hbody
    exact fun hk => hbody (Option.some.inj hk)

/-! ### NOP, CSRW, PUSH and the clears -/

/-- Settles O17: NOP runs in every state and writes nothing; the word 1 has a bit in a field its format shows as 0. -/
theorem nopChangesNothing : Obligations.NopChangesNothing := by
  refine ⟨by decide, fun s => ⟨?_, fun rest hp hf => ?_⟩⟩
  · by_cases hf : s.state = .failed
    · simp [exec, execNop, command, hf, runsInFailed, Res.outcome]
    · exact exec_of_accepted rfl hf trivial
  · have hword : decode 0x00000001#32 = .error .nonzeroField := by decide
    simp [step, serve, hp, accept, issue, hword, hf]

/-- Where no chunk is open, CSRW of a legal value runs its pseudocode. -/
theorem exec_csrw {a : BitVec 8} {v : BitVec 16} {s : State} (hc : ChunkClosed s) (hv : legalCsrWrite a v) :
    exec (.csrw a v) s = (csrwBody a v s).outcome :=
  exec_of_accepted rfl (not_failed_of_closed hc) ⟨hc, hv⟩

theorem extractLsb'_zero_eq_ofNat (v : BitVec 16) (k : Nat) : v.extractLsb' 0 k = BitVec.ofNat k v.toNat := by
  apply BitVec.eq_of_toNat_eq
  simp

/-- Settles O18: each address writes its register; the values are legal, so none is cut. -/
theorem csrwWritesTheConfiguration : Obligations.CsrwWritesTheConfiguration := by
  intro s v hc
  refine ⟨fun h => ?_, fun h h' => ?_, fun h h' => ?_, fun h => ?_, fun h => ?_⟩
  · exact exec_csrw hc (.inl ⟨rfl, h⟩)
  · rw [exec_csrw hc (.inr (.inl ⟨rfl, h, h'⟩)), ← extractLsb'_zero_eq_ofNat]
    rfl
  · rw [exec_csrw hc (.inr (.inr (.inl ⟨rfl, h, h'⟩))), ← extractLsb'_zero_eq_ofNat]
    rfl
  · exact exec_csrw hc (.inr (.inr (.inr (.inl ⟨rfl, h⟩))))
  · rw [exec_csrw hc (.inr (.inr (.inr (.inr ⟨rfl, h⟩)))), ← extractLsb'_zero_eq_ofNat]
    rfl

/-- Settles O20: the byte goes to index ILEN, where there is one. -/
theorem pushAppendsOneInputByte : Obligations.PushAppendsOneInputByte := by
  intro s b hc
  have hexec : exec (.push b) s = (pushBody b s).outcome := exec_of_accepted rfl (not_failed_of_closed hc) hc
  rw [hexec, pushBody]
  refine ⟨fun hlt => ?_, fun hfull => ?_⟩
  · have hilen : BitVec.ofNat 32 (s.ilen.toNat + 1) = s.ilen + 1 := by
      apply BitVec.eq_of_toNat_eq
      simp
    rw [if_pos hlt, hilen]
    exact ⟨_, rfl, rfl, Mem.read_write_same .., fun a ha => Mem.read_write_ne _ _ ha⟩
  · rw [if_neg (Nat.not_lt.mpr hfull)]
    exact congrArg _ (State.raise_of_not_decoding (by rcases hc with h | h <;> simp [h]) _ _)

/-- Settles O21: where no chunk is open each clear runs its pseudocode. -/
theorem clearsResetTheirCountersOnly : Obligations.ClearsResetTheirCountersOnly := by
  intro s hc
  have hf := not_failed_of_closed hc
  exact ⟨exec_of_accepted (i := .iclr) rfl hf hc, exec_of_accepted (i := .oclr) rfl hf hc,
    exec_of_accepted (i := .lbclr) rfl hf hc⟩

end Sys2Proof.Machine
end

section
/-! ## The lookback buffer and the longest-match search (41_lookback.md R140 to R149) -/

namespace Sys2Proof.Machine

open Sys2Proof

/-! ### Recording -/

theorem recordAll_wptr_toNat {s : State} (h : RingOk s) (bs : List Byte) :
    (s.recordAll bs).wptr.toNat = (s.wptr.toNat + bs.length) % s.cap.toNat := by
  induction bs generalizing s with
  | nil => exact (Nat.mod_eq_of_lt h.wptr_lt).symm
  | cons b bs ih =>
    rw [State.recordAll, ih (State.record_ringOk h b), State.record_wptr_toNat h, State.record_cap, Nat.mod_add_mod,
      List.length_cons]
    congr 1
    omega

/-- Recording writes the entries from WPTR on, round the end of the ring, and no other. -/
theorem ringAt_recordAll_of_ne {s : State} (h : RingOk s) {bs : List Byte} {a : Nat}
    (ha : ∀ j < bs.length, a ≠ (s.wptr.toNat + j) % s.cap.toNat) : (s.recordAll bs).ringAt a = s.ringAt a := by
  induction bs generalizing s with
  | nil => rfl
  | cons b bs ih =>
    have hfirst : a ≠ s.wptr.toNat := by
      simpa [Nat.mod_eq_of_lt h.wptr_lt] using ha 0 (by simp)
    have hrest : ∀ j < bs.length, a ≠ ((s.record b).wptr.toNat + j) % (s.record b).cap.toNat := by
      intro j hj
      rw [State.record_wptr_toNat h, State.record_cap, Nat.mod_add_mod, Nat.add_right_comm]
      exact ha (j + 1) (by simpa using hj)
    rw [State.recordAll, ih (State.record_ringOk h b) hrest]
    exact Mem.read_write_ne _ _ hfirst

/-- What R140 and R141 say of recording one byte, for a list of bytes. -/
theorem recorded_recordAll {s : State} (h : RingOk s) (bs : List Byte) : Recorded s (s.recordAll bs) bs where
  history_eq := history_recordAll_trim h bs
  wptr_eq := recordAll_wptr_toNat h bs
  fill_eq := State.recordAll_fill_toNat s bs h.fill_le
  others_kept _ ha := ringAt_recordAll_of_ne h ha

/-- Settles O22: where no chunk is open LBREC runs its pseudocode, `Record`. -/
theorem lbrecRecordsOneByte : Obligations.LbrecRecordsOneByte := by
  intro s b h hc
  exact ⟨s.record b, exec_of_accepted (i := .lbrec b) rfl (not_failed_of_closed hc) hc, rfl, Mem.read_write_same ..,
    recorded_recordAll h.ringOk [b]⟩

/-! ### The search finds the longest match -/

/-- The matches at an offset are the beginnings of the upcoming bytes no longer than `MatchLen` (R142). -/
theorem isMatch_iff {s : State} {U : List Byte} {o L : Nat} :
    s.IsMatch U o L ↔ (1 ≤ o ∧ o ≤ s.fill.toNat) ∧ L ≤ s.matchLen o U := by
  constructor
  · rintro ⟨ho, hfill, hlen, hovl, hsrc⟩
    refine ⟨⟨ho, hfill⟩, Nat.le_of_not_lt fun hlt => ?_⟩
    have hmax : L ≤ s.lmax o U.length := by
      unfold State.lmax
      split
      · exact hlen
      · exact le_min hlen (hovl (Bool.eq_false_of_not_eq_true ‹_›))
    exact s.src_at_matchLen (lt_of_lt_of_le hlt hmax) (hsrc _ hlt).symm
  · rintro ⟨⟨ho, hfill⟩, hle⟩
    exact ⟨ho, hfill, hle.trans (s.matchLen_le o U), fun hovl => hle.trans (s.matchLen_le_offset hovl o U),
      fun i hi => (s.src_of_lt_matchLen (lt_of_lt_of_le hi hle)).symm⟩

/-- `FindLongest` returns the pair R143 names. -/
theorem isLongest_findLongest {s : State} (U : List Byte) (hmin : 1 ≤ s.minlen.toNat) :
    s.IsLongest U (s.findLongest U).1 (s.findLongest U).2 := by
  rcases s.findLongest_spec U hmin with ⟨hnone, hshort⟩ | ⟨ho, hfill, hlen, hge, hlongest, hsmallest⟩
  · refine .inl ⟨congrArg Prod.fst hnone, congrArg Prod.snd hnone, fun p K hm => ?_⟩
    obtain ⟨⟨hp, hpf⟩, hK⟩ := isMatch_iff.mp hm
    exact lt_of_le_of_lt hK (hshort p hp hpf)
  · refine .inr ⟨isMatch_iff.mpr ⟨⟨ho, hfill⟩, hlen.le⟩, hge, fun p K hm => ?_, fun p K hm hlt => ?_⟩
    · obtain ⟨⟨hp, hpf⟩, hK⟩ := isMatch_iff.mp hm
      exact hK.trans (hlongest p hp hpf)
    · obtain ⟨⟨hp, -⟩, hK⟩ := isMatch_iff.mp hm
      exact lt_of_le_of_lt hK (hsmallest p hp hlt)

/-- Settles O23: where no chunk is open and the cursor is aligned LBFIND runs its pseudocode, which is the search. -/
theorem lbfindFindsTheLongestMatch : Obligations.LbfindFindsTheLongestMatch := by
  intro s h hc hibit
  have hmin := h.minlen_ge
  exact ⟨_, _, isLongest_findLongest s.lookahead (by omega),
    exec_of_accepted (i := .lbfind) rfl (not_failed_of_closed hc) ⟨hc, hibit⟩⟩

/-! ### What a search result is good for, and what it depends on (R148) -/

/-- With `OVL = 0` no result is longer than its offset, "no match" included. -/
theorem findLongest_le_offset {s : State} (hovl : s.ovl = false) (U : List Byte) :
    (s.findLongest U).2 ≤ (s.findLongest U).1 := by
  obtain ⟨-, -, hfound⟩ := s.findLongest_bounds U
  by_cases hne : (s.findLongest U).2 = 0
  · omega
  · rw [(hfound hne).2]
    exact s.matchLen_le_offset hovl _ U

/-- Replaying a match records the bytes the match copy produces (45_chunk_codec.md R224). -/
theorem replay_eq_recordAll (o n : Nat) (s : State) : State.replay o n s = s.recordAll (State.copied o n s) := by
  induction n generalizing s with
  | zero => rfl
  | succ n ih => exact ih (s.record (s.hist o))

/-- Replaying a found match appends the bytes it was found for. -/
theorem history_replay_findLongest {s : State} (h : RingOk s) (U : List Byte) (hne : (s.findLongest U).2 ≠ 0) :
    (State.replay (s.findLongest U).1 (s.findLongest U).2 s).history =
      trim s.cap.toNat (s.history ++ U.take (s.findLongest U).2) := by
  rw [replay_eq_recordAll, State.copied_findLongest h U hne, history_recordAll_trim h]

section
variable {s t : State} (hhist : s.history = t.history)
include hhist

theorem fill_of_history : s.fill = t.fill :=
  BitVec.eq_of_toNat_eq (by simpa using congrArg List.length hhist)

/-- An offset in the ring reads the same byte of equal histories. -/
theorem hist_of_history {d : Nat} (hd : 1 ≤ d) (hf : d ≤ s.fill.toNat) : s.hist d = t.hist d := by
  rw [← State.getD_history s hd hf, hhist, State.getD_history t hd (fill_of_history hhist ▸ hf)]

theorem src_of_history {o : Nat} (hf : o ≤ s.fill.toNat) (U : List Byte) (i : Nat) : s.src o U i = t.src o U i := by
  unfold State.src
  split
  · exact hist_of_history hhist (by omega) (by omega)
  · rfl

variable (hovl : s.ovl = t.ovl)
include hovl

theorem matchLen_of_history {o : Nat} (hf : o ≤ s.fill.toNat) (U : List Byte) : s.matchLen o U = t.matchLen o U := by
  simp only [State.matchLen, State.lmax, src_of_history hhist hf, hovl]

theorem bestMatch_of_history (U : List Byte) {k : Nat} (hk : k ≤ s.fill.toNat) : s.bestMatch U k = t.bestMatch U k := by
  induction k with
  | zero => rfl
  | succ k ih => rw [State.bestMatch, State.bestMatch, ih (by omega), matchLen_of_history hhist hovl hk]

/-- The search depends on the history, the upcoming bytes, MINLEN and OVL only (R148). -/
theorem findLongest_of_history (hmin : s.minlen = t.minlen) (U : List Byte) : s.findLongest U = t.findLongest U := by
  rw [State.findLongest, State.findLongest, hmin, bestMatch_of_history hhist hovl U (le_refl _), fill_of_history hhist]

end

/-- Settles O24: (a) a match is cut at its offset; (b) each byte replayed is the next byte searched for; (c) the search
reads the ring through the history; (d) WIN and CHUNK are no part of what it reads. -/
theorem searchResultReplaysAndIsDeterministic : Obligations.SearchResultReplaysAndIsDeterministic :=
  ⟨fun _ U hovl => findLongest_le_offset hovl U,
    fun _ U h hne => history_replay_findLongest h.ringOk U hne,
    fun _ _ U hhist hmin hovl => findLongest_of_history hhist hovl hmin U,
    fun s U win chunk => findLongest_of_history (s := { s with win := win, chunk := chunk }) (t := s)
      (history_congr rfl rfl rfl rfl) rfl rfl U⟩

end Sys2Proof.Machine
end

section
/-! ## The LZSS matcher (42_matcher.md R160 to R164) -/

namespace Sys2Proof.Machine

open Sys2Proof

/-! ### CBEGIN -/

/-- The end of the chunk CBEGIN opens fits CEND, because ILEN does (R161). -/
theorem openChunk_cend_toNat (s : State) :
    s.openChunk.cend.toNat = min s.ilen.toNat (s.ipos.toNat + s.chunk.toNat) := by
  have hilen := s.ilen.isLt
  simp only [State.openChunk_cend, BitVec.toNat_ofNat]
  omega

/-- Settles O25: in its row CBEGIN runs its pseudocode, which opens the chunk. -/
theorem cbeginOpensAChunk : Obligations.CbeginOpensAChunk := by
  intro s hc hibit hnacc
  exact ⟨s.openChunk.cend, exec_of_accepted (i := .cbegin) rfl (not_failed_of_closed hc) ⟨hc, hibit, hnacc⟩,
    openChunk_cend_toNat s⟩

/-! ### MSTEP -/

/-- The token word a search result stands for: its match, or the literal at IPOS when there is none (R162). -/
def State.foundWord (s : State) (r : Nat × Nat) : Word :=
  if r.2 ≠ 0 then matchWord (BitVec.ofNat 16 r.1) (BitVec.ofNat 8 r.2) else literalWord (s.ibufAt s.ipos.toNat)

/-- A matcher step is one token pushed and its bytes consumed, a match or a literal alike (R162). -/
theorem mstepWith_eq (s : State) (r : Nat × Nat) :
    mstepWith s r = ((s.setSearch r).pushToken (s.foundWord r)).consume (if r.2 ≠ 0 then r.2 else 1) := by
  unfold mstepWith State.foundWord
  split <;> rfl

theorem foundWord_toNat (s : State) {r : Nat × Nat} (ho : r.1 < 2 ^ 16) (hL : r.2 < 2 ^ 8) :
    (s.foundWord r).toNat =
      if r.2 ≠ 0 then 0x40000000 + r.1 * 2 ^ 8 + r.2 else (s.ibufAt s.ipos.toNat).toNat := by
  rw [State.foundWord, apply_ite BitVec.toNat, toNat_matchWord, toNat_literalWord, BitVec.toNat_ofNat,
    BitVec.toNat_ofNat, Nat.mod_eq_of_lt ho, Nat.mod_eq_of_lt hL]

/-- What a search finds fits MOFF and MLEN and stays inside the chunk (R160, R162). -/
theorem findLongest_upcoming_bounds (s : State) :
    (s.findLongest s.upcoming).1 < 2 ^ 16 ∧ (s.findLongest s.upcoming).2 < 2 ^ 8 ∧
      (s.findLongest s.upcoming).2 ≤ s.cend.toNat - s.ipos.toNat := by
  obtain ⟨hoff, hlen, -⟩ := s.findLongest_bounds s.upcoming
  rw [length_upcoming] at hlen
  exact ⟨lt_of_le_of_lt hoff s.fill.isLt, by omega, by omega⟩

section
variable (s : State) (r : Nat × Nat) (w : Word) (n : Nat)

/-- The registers and memories a matcher step may write, and no other (R162). -/
theorem consume_pushToken_frame : ((s.setSearch r).pushToken w).consume n =
    { s with
      moff := BitVec.ofNat 16 r.1, mlen := BitVec.ofNat 8 r.2, fMatch := decide (r.2 ≠ 0)
      tokmem := (((s.setSearch r).pushToken w).consume n).tokmem, ntok := s.ntok + 1
      ring := (((s.setSearch r).pushToken w).consume n).ring, wptr := (((s.setSearch r).pushToken w).consume n).wptr
      fill := (((s.setSearch r).pushToken w).consume n).fill, ipos := (((s.setSearch r).pushToken w).consume n).ipos } := by
  have hntok : BitVec.ofNat 16 (s.ntok.toNat + 1) = s.ntok + 1 := by simp [BitVec.ofNat_add]
  rw [← hntok, State.consume_tokmem]
  exact State.consume_frame ((s.setSearch r).pushToken w) n

theorem consume_pushToken_tokAt (k : Nat) :
    (((s.setSearch r).pushToken w).consume n).tokAt k = if k = s.ntok.toNat then w else s.tokAt k := by
  rw [State.tokAt, State.consume_tokmem, State.pushToken_tokmem, Mem.read_write]
  rfl

/-- The ring is written as by the recording of the consumed bytes alone. -/
theorem consume_pushToken_recorded (h : RegisterInv s) :
    Recorded s (((s.setSearch r).pushToken w).consume n) (s.ibufSlice s.ipos.toNat n) where
  history_eq := consume_history h r w n
  wptr_eq := recordAll_wptr_toNat (s := (s.setSearch r).pushToken w) ⟨h.wptr_lt, h.fill_le⟩ _
  fill_eq := State.recordAll_fill_toNat ((s.setSearch r).pushToken w) _ h.fill_le
  others_kept _ ha := ringAt_recordAll_of_ne (s := (s.setSearch r).pushToken w) ⟨h.wptr_lt, h.fill_le⟩ ha

end

/-- Settles O26: in its row MSTEP runs its pseudocode: the longest match of the window (R143), its token pushed, its bytes
consumed. -/
theorem mstepEmitsOneToken : Obligations.MstepEmitsOneToken := by
  intro s h hs hlt
  have hmin := h.minlen_ge
  obtain ⟨hoff, hlen, hend⟩ := findLongest_upcoming_bounds s
  have hexec : exec .mstep s = .next (mstepWith s (s.findLongest s.upcoming)) :=
    exec_of_accepted (i := .mstep) rfl (by simp [hs]) ⟨hs, hlt⟩
  rw [mstepWith_eq] at hexec
  refine ⟨_, _, _, isLongest_findLongest s.upcoming (by omega), hexec, consume_pushToken_frame ..,
    consume_ipos_toNat h _ _ hs ?_, ?_, fun k hk => ?_, consume_pushToken_recorded s _ _ _ h⟩
  · split <;> omega
  · rw [consume_pushToken_tokAt, if_pos rfl, foundWord_toNat s hoff hlen]
  · rw [consume_pushToken_tokAt, if_neg hk]

end Sys2Proof.Machine
end

section
/-! ## BUILD's rounds: each internal node joins the two lightest active nodes (43_huffman.md R175 to R178) -/

namespace Sys2Proof.Machine

open Sys2Proof

/-! ### One round of `Build` (R177) -/

/-- `a` and then `b` are the nodes a round takes from the active nodes `A` (R177). -/
structure Lightest (A : List Active) (a b : Active) : Prop where
  first_mem : a ∈ A
  second_mem : b ∈ A.erase a
  first_least : ∀ x ∈ A, Active.less x a = false
  second_least : ∀ x ∈ A.erase a, Active.less x b = false

/-- The nodes that stay active in a round that takes `a` and `b`. -/
def remaining (A : List Active) (a b : Active) : List Active := (A.erase a).erase b

/-- The active nodes after the round that makes node `next` (R177). -/
def joined (A : List Active) (a b : Active) (next : Nat) : List Active := (a.1 + b.1, next) :: remaining A a b

theorem Lightest.perm {A : List Active} {a b : Active} (h : Lightest A a b) : A.Perm (a :: b :: remaining A a b) :=
  (List.perm_cons_erase h.first_mem).trans ((List.perm_cons_erase h.second_mem).cons a)

/-- What every round keeps holds when each node is made and at the end; `f` is what the loop leaves in node memory. -/
theorem combineAll_rounds {f : Nat → Node} {M : Nat → List Active → Prop} (k : Nat) : ∀ (next : Nat) (A : List Active),
    A.length = k + 1 → M next A → (∀ j < k, f (next + j) = (combineAll k A next).getD j Node.zero) →
    (∀ n B a b, next ≤ n → n < next + k → M n B → Lightest B a b → f n = combined a b → M (n + 1) (joined B a b n)) →
    ∀ j ≤ k, ∃ B, B.length = k + 1 - j ∧ M (next + j) B ∧
      (j < k → ∃ a b, Lightest B a b ∧ f (next + j) = combined a b) := by
  induction k with
  | zero =>
    intro next A hA hM _ _ j hj
    obtain rfl : j = 0 := by omega
    exact ⟨A, hA, hM, fun h => absurd h (by omega)⟩
  | succ k ih =>
    intro next A hA hM hf hstep j hj
    obtain ⟨a, b, ha, hb, hal, hbl, hlen, hc⟩ := combineAll_succ k A next (by omega)
    have hab : Lightest A a b := ⟨ha, hb, hal, hbl⟩
    have hnode : f next = combined a b := by simpa [hc] using hf 0 (by omega)
    cases j with
    | zero => exact ⟨A, by omega, hM, fun _ => ⟨a, b, hab, hnode⟩⟩
    | succ j =>
      obtain ⟨B, hB, hMB, hjoin⟩ := ih (next + 1) (joined A a b next) (by rw [joined, remaining]; omega)
        (hstep next A a b (le_refl _) (by omega) hM hab hnode)
        (fun i hi => by
          have hi' := hf (i + 1) (by omega)
          rw [hc, List.getD_cons_succ] at hi'
          rw [Nat.add_right_comm, Nat.add_assoc, hi']
          rfl)
        (fun n B a b h1 h2 => hstep n B a b (by omega) (by omega)) j (by omega)
      have hnext : next + 1 + j = next + (j + 1) := by omega
      rw [hnext] at hMB hjoin
      exact ⟨B, by omega, hMB, fun h => hjoin (by omega)⟩

/-! ### The active nodes of the loop are the active nodes of the statement -/

/-- The list `A` of the loop is the set of nodes active when node `next` is made, with their weights. -/
structure ActiveNodes (t : State) (next : Nat) (A : List Active) : Prop where
  nodup : (A.map Prod.snd).Nodup
  mem_iff : ∀ j, j ∈ A.map Prod.snd ↔ t.ActiveFor next j
  weight_eq : ∀ x ∈ A, (t.nodeAt x.2).weight.toNat = x.1
  total_le : (A.map Prod.fst).sum ≤ t.ntok.toNat + 1
  child_lt : ∀ i, t.nleaf.toNat ≤ i → i < next → ∀ j, t.ChildOf i j → j < i

/-- A round's choice as the rule words it: node `k` joins the first and the second of its active nodes (R177). -/
def State.JoinsLightest (t : State) (k : Nat) : Prop :=
  ∃ a b w, t.nodeAt k = .internal a b w ∧
    w.toNat = (t.nodeAt a.toNat).weight.toNat + (t.nodeAt b.toNat).weight.toNat ∧
    t.ActiveFor k a.toNat ∧ t.ActiveFor k b.toNat ∧ a ≠ b ∧
    (∀ j, t.ActiveFor k j → t.NotLater a.toNat j) ∧ ∀ j, t.ActiveFor k j → j ≠ a.toNat → t.NotLater b.toNat j

namespace ActiveNodes

variable {t : State} {next : Nat} {A : List Active} {a b : Active}

theorem index_lt (h : ActiveNodes t next A) {x : Active} (hx : x ∈ A) : x.2 < next :=
  ((h.mem_iff x.2).mp (List.mem_map_of_mem hx)).1

theorem index_toNat (h : ActiveNodes t next A) (hlt : next < Config.nodeMax) {x : Active} (hx : x ∈ A) :
    (BitVec.ofNat 17 x.2).toNat = x.2 :=
  (ofNat17_ne_nil ((h.index_lt hx).trans hlt)).1

/-- The order of the loop is the order of the statement. -/
theorem notLater (h : ActiveNodes t next A) {x y : Active} (hx : x ∈ A) (hy : y ∈ A)
    (hle : Active.less y x = false) : t.NotLater x.2 y.2 := by
  rw [State.NotLater, h.weight_eq x hx, h.weight_eq y hy]
  simp only [Active.less, Bool.or_eq_false_iff, Bool.and_eq_false_iff, decide_eq_false_iff_not] at hle
  omega

/-- The weights of the two nodes a round takes are part of the total. -/
theorem joined_weight (h : ActiveNodes t next A) (hab : Lightest A a b) :
    a.1 + b.1 + ((remaining A a b).map Prod.fst).sum ≤ t.ntok.toNat + 1 := by
  have htotal := h.total_le
  rw [(hab.perm.map _).sum_eq] at htotal
  simp only [List.map_cons, List.sum_cons] at htotal
  omega

theorem childOf_iff (h : ActiveNodes t next A) (hlt : next < Config.nodeMax) (hab : Lightest A a b)
    (hnode : t.nodeAt next = combined a b) (j : Nat) : t.ChildOf next j ↔ j = a.2 ∨ j = b.2 := by
  have ha := h.index_toNat hlt hab.first_mem
  have hb := h.index_toNat hlt (List.mem_of_mem_erase hab.second_mem)
  rw [State.ChildOf, hnode, combined]
  constructor
  · rintro ⟨l, r, w, he, hj⟩
    obtain ⟨rfl, rfl, -⟩ := Node.internal.inj he
    omega
  · intro hj
    exact ⟨_, _, _, rfl, by omega⟩

/-- The two nodes a round takes and those it leaves are different. -/
theorem taken_ne (h : ActiveNodes t next A) (hab : Lightest A a b) :
    a.2 ≠ b.2 ∧ (∀ x ∈ remaining A a b, x.2 ≠ a.2 ∧ x.2 ≠ b.2) ∧ ((remaining A a b).map Prod.snd).Nodup := by
  have hnd := (hab.perm.map Prod.snd).nodup_iff.mp h.nodup
  simp only [List.map_cons, List.nodup_cons, List.mem_cons, not_or] at hnd
  obtain ⟨⟨hne, ha⟩, hb, hrest⟩ := hnd
  exact ⟨hne, fun x hx => ⟨fun he => ha (he ▸ List.mem_map_of_mem hx), fun he => hb (he ▸ List.mem_map_of_mem hx)⟩,
    hrest⟩

/-- When node `next` is made its children stop being active and it becomes active (R177). -/
theorem activeFor_succ (h : ActiveNodes t next A) (hn : t.nleaf.toNat ≤ next) (hlt : next < Config.nodeMax)
    (hab : Lightest A a b) (hnode : t.nodeAt next = combined a b) (j : Nat) :
    t.ActiveFor (next + 1) j ↔ j = next ∨ t.ActiveFor next j ∧ j ≠ a.2 ∧ j ≠ b.2 := by
  have hchild := h.childOf_iff hlt hab hnode
  have ha := h.index_lt hab.first_mem
  have hb := h.index_lt (List.mem_of_mem_erase hab.second_mem)
  constructor
  · rintro ⟨hj, hno⟩
    by_cases he : j = next
    · exact .inl he
    · have hnot := hno next hn (by omega)
      rw [hchild, not_or] at hnot
      exact .inr ⟨⟨by omega, fun i h1 h2 => hno i h1 (by omega)⟩, hnot⟩
  · rintro (rfl | ⟨⟨hj, hno⟩, hne⟩)
    · refine ⟨by omega, fun i h1 h2 hc => ?_⟩
      by_cases he : i = j
      · rw [he, hchild] at hc
        omega
      · exact absurd (h.child_lt i h1 (by omega) j hc) (by omega)
    · refine ⟨by omega, fun i h1 h2 hc => ?_⟩
      by_cases he : i = next
      · rw [he, hchild] at hc
        omega
      · exact hno i h1 (by omega) hc

/-- Every round keeps the correspondence. -/
theorem round (h : ActiveNodes t next A) (hn : t.nleaf.toNat ≤ next) (hlt : next < Config.nodeMax)
    (hab : Lightest A a b) (hnode : t.nodeAt next = combined a b) : ActiveNodes t (next + 1) (joined A a b next) := by
  obtain ⟨-, hrest, hnd⟩ := h.taken_ne hab
  have hmem : ∀ x, x ∈ A ↔ x = a ∨ x = b ∨ x ∈ remaining A a b := fun x => by simp [hab.perm.mem_iff]
  have hsum := h.joined_weight hab
  have hntok := t.ntok.isLt
  constructor
  · refine List.nodup_cons.mpr ⟨fun hin => ?_, hnd⟩
    obtain ⟨x, hx, he⟩ := List.mem_map.mp hin
    exact absurd (h.index_lt ((hmem x).mpr (.inr (.inr hx)))) (by omega)
  · intro j
    rw [h.activeFor_succ hn hlt hab hnode, ← h.mem_iff, joined, List.map_cons, List.mem_cons]
    refine or_congr_right ⟨fun hj => ?_, fun ⟨hj, hne⟩ => ?_⟩
    · obtain ⟨x, hx, rfl⟩ := List.mem_map.mp hj
      exact ⟨List.mem_map_of_mem ((hmem x).mpr (.inr (.inr hx))), hrest x hx⟩
    · obtain ⟨x, hx, rfl⟩ := List.mem_map.mp hj
      rcases (hmem x).mp hx with rfl | rfl | hx
      · exact absurd rfl hne.1
      · exact absurd rfl hne.2
      · exact List.mem_map_of_mem hx
  · intro x hx
    rcases List.mem_cons.mp hx with rfl | hx
    · rw [hnode, combined, Node.weight, BitVec.toNat_ofNat, Nat.mod_eq_of_lt (by omega)]
    · exact h.weight_eq x ((hmem x).mpr (.inr (.inr hx)))
  · rw [joined, List.map_cons, List.sum_cons]
    exact hsum
  · intro i h1 h2 j hc
    by_cases he : i = next
    · rw [he, h.childOf_iff hlt hab hnode] at hc
      have ha := h.index_lt hab.first_mem
      have hb := h.index_lt (List.mem_of_mem_erase hab.second_mem)
      omega
    · exact h.child_lt i h1 (by omega) j hc

theorem joinsLightest (h : ActiveNodes t next A) (hlt : next < Config.nodeMax) (hab : Lightest A a b)
    (hnode : t.nodeAt next = combined a b) : t.JoinsLightest next := by
  have hbA := List.mem_of_mem_erase hab.second_mem
  have ha := h.index_toNat hlt hab.first_mem
  have hb := h.index_toNat hlt hbA
  have hsum := h.joined_weight hab
  have hntok := t.ntok.isLt
  have hactive : ∀ x ∈ A, t.ActiveFor next x.2 := fun x hx => (h.mem_iff _).mp (List.mem_map_of_mem hx)
  refine ⟨_, _, _, hnode, ?_, ?_, ?_, fun he => (h.taken_ne hab).1 ?_, fun j hj => ?_, fun j hj hne => ?_⟩
  · rw [ha, hb, h.weight_eq a hab.first_mem, h.weight_eq b hbA, BitVec.toNat_ofNat, Nat.mod_eq_of_lt (by omega)]
  · rw [ha]
    exact hactive a hab.first_mem
  · rw [hb]
    exact hactive b hbA
  · rw [← ha, he, hb]
  · obtain ⟨x, hx, rfl⟩ := List.mem_map.mp ((h.mem_iff j).mpr hj)
    rw [ha]
    exact h.notLater hab.first_mem hx (hab.first_least x hx)
  · obtain ⟨x, hx, rfl⟩ := List.mem_map.mp ((h.mem_iff j).mpr hj)
    have hxa : x ≠ a := fun he => hne (by rw [he, ha])
    rw [hb]
    exact h.notLater hbA hx (hab.second_least x ((List.mem_erase_of_ne hxa).mpr hx))

end ActiveNodes

/-! ### BUILD (R177, R182) -/

section
variable (s : State)

/-- The weights the construction starts with are the counts (R175). -/
theorem activeLeaves_tokens : activeLeaves (leafNodes s.tokens) =
    ((alphabet s.tokens).map (freq s.tokens)).zip (List.range (alphabet s.tokens).length) := by
  rw [activeLeaves, length_leafNodes, leafNodes, List.map_map]
  congr 1
  refine List.map_congr_left fun w hw => ?_
  have hlt := freq_lt s w hw
  simp only [Function.comp_apply, Node.weight, BitVec.toNat_ofNat, Nat.mod_eq_of_lt hlt]

/-- The entries of the leaves (R176). -/
theorem buildTree_leaf_nodeAt {k : Nat} (hk : k < (alphabet s.tokens).length) : s.buildTree.nodeAt k =
    .leaf ((alphabet s.tokens).getD k 0) (BitVec.ofNat 32 (freq s.tokens ((alphabet s.tokens).getD k 0))) := by
  rw [buildTree_nodeAt, if_pos (by rw [length_buildNodes]; split <;> omega), buildNodes_leaf _ _ hk]

theorem activeNodes_leaves :
    ActiveNodes s.buildTree s.buildTree.nleaf.toNat (activeLeaves (leafNodes s.tokens)) := by
  rw [activeLeaves_tokens, buildTree_nleaf_toNat]
  refine ⟨?_, fun j => ?_, fun x hx => ?_, ?_, fun i h1 h2 => ?_⟩
  · rw [List.map_snd_zip (by simp)]
    exact List.nodup_range
  · rw [List.map_snd_zip (by simp), List.mem_range, State.ActiveFor, buildTree_nleaf_toNat]
    exact ⟨fun hj => ⟨hj, fun i h1 h2 => absurd h2 (by omega)⟩, fun hj => hj.1⟩
  · obtain ⟨k, hk, rfl⟩ := List.getElem_of_mem hx
    have hka : k < (alphabet s.tokens).length := by simpa using hk
    have hlt := freq_lt s _ (List.getElem_mem hka)
    simp only [List.getElem_zip, List.getElem_range, List.getElem_map, buildTree_leaf_nodeAt s hka, Node.weight,
      BitVec.toNat_ofNat, List.getD_eq_getElem _ _ hka, Nat.mod_eq_of_lt hlt]
  · have hsum := sum_freq_le s.tokens
    rw [List.map_fst_zip (by simp)]
    simpa [State.tokens, State.buildTree] using hsum
  · rw [buildTree_nleaf_toNat] at h1
    exact absurd h2 (by omega)

/-- The entries behind the leaves are what the loop makes (R177). -/
theorem buildTree_joined_nodeAt (hn : 2 ≤ s.buildTree.nleaf.toNat) {j : Nat} (hj : j < s.buildTree.nleaf.toNat - 1) :
    s.buildTree.nodeAt (s.buildTree.nleaf.toNat + j) = (combineAll (s.buildTree.nleaf.toNat - 1)
      (activeLeaves (leafNodes s.tokens)) s.buildTree.nleaf.toNat).getD j Node.zero := by
  rw [buildTree_nleaf_toNat] at hn hj ⊢
  rw [buildTree_nodeAt, if_pos (by rw [length_buildNodes]; split <;> omega), buildNodes]
  simp only [length_leafNodes]
  rw [if_neg (by omega), List.getD_append_right _ _ _ _ (by simp), length_leafNodes, Nat.add_sub_cancel_left]

theorem buildTree_nnode_eq : s.buildTree.nnode.toNat =
    if s.buildTree.nleaf.toNat = 1 then 2 else 2 * s.buildTree.nleaf.toNat - 1 := by
  rw [buildTree_nnode_toNat, buildTree_nleaf_toNat, length_buildNodes]

/-- What every round of BUILD keeps holds when each of its nodes is made and at the end. -/
theorem buildTree_rounds {M : Nat → List Active → Prop} (hn : 2 ≤ s.buildTree.nleaf.toNat)
    (hstart : M s.buildTree.nleaf.toNat (activeLeaves (leafNodes s.tokens)))
    (hstep : ∀ n B a b, ActiveNodes s.buildTree n B → n < Config.nodeMax → M n B → Lightest B a b →
      s.buildTree.nodeAt n = combined a b → M (n + 1) (joined B a b n))
    {k : Nat} (h1 : s.buildTree.nleaf.toNat ≤ k) (h2 : k ≤ s.buildTree.nnode.toNat) :
    ∃ B, B.length = s.buildTree.nnode.toNat + 1 - k ∧ ActiveNodes s.buildTree k B ∧ M k B ∧
      (k < s.buildTree.nnode.toNat → ∃ a b, Lightest B a b ∧ s.buildTree.nodeAt k = combined a b) := by
  have hnnode := buildTree_nnode_eq s
  have hmax := length_buildNodes_le s
  rw [if_neg (by omega)] at hnnode
  rw [← buildTree_nnode_toNat] at hmax
  obtain ⟨B, hlen, ⟨hB, hM⟩, hjoin⟩ := combineAll_rounds (M := fun n B => ActiveNodes s.buildTree n B ∧ M n B)
    (s.buildTree.nleaf.toNat - 1) s.buildTree.nleaf.toNat (activeLeaves (leafNodes s.tokens))
    (by rw [length_activeLeaves, length_leafNodes, ← buildTree_nleaf_toNat]; omega) ⟨activeNodes_leaves s, hstart⟩
    (fun j hj => buildTree_joined_nodeAt s hn hj)
    (fun n B a b hge hlt h hab hnode => ⟨h.1.round hge (by omega) hab hnode,
      hstep n B a b h.1 (by omega) h.2 hab hnode⟩) (k - s.buildTree.nleaf.toNat) (by omega)
  rw [Nat.add_sub_cancel' h1] at hB hM hjoin
  exact ⟨B, by omega, hB, hM, fun hk => hjoin (by omega)⟩

theorem buildTree_joinsLightest (hn : 2 ≤ s.buildTree.nleaf.toNat) {k : Nat} (h1 : s.buildTree.nleaf.toNat ≤ k)
    (h2 : k < s.buildTree.nnode.toNat) : s.buildTree.JoinsLightest k := by
  have hmax := length_buildNodes_le s
  rw [← buildTree_nnode_toNat] at hmax
  obtain ⟨B, -, hB, -, hjoin⟩ := buildTree_rounds s (M := fun _ _ => True) hn trivial
    (fun _ _ _ _ _ _ _ _ _ => trivial) h1 h2.le
  obtain ⟨a, b, hab, hnode⟩ := hjoin h2
  exact hB.joinsLightest (by omega) hab hnode

/-- The one-leaf arm of `Build` (R177). -/
theorem buildTree_single (hn : s.buildTree.nleaf.toNat = 1) :
    s.buildTree.nodeAt 1 = .internal 0 Config.nil (s.buildTree.nodeAt 0).weight := by
  have hmax := length_buildNodes_le s
  rw [buildTree_nleaf_toNat] at hn
  rw [buildTree_nodeAt, buildTree_nodeAt, if_pos (by omega), if_pos (by omega), buildNodes]
  simp only [length_leafNodes]
  rw [if_pos hn, List.getD_append_right _ _ _ _ (by simp [hn]), List.getD_append _ _ _ _ (by simp [hn])]
  simp [hn]

end

/-- BUILD completes: its next state is the built tree with its codes (R182). -/
theorem exec_build_next {s t : State} (hs : s.state = .collecting) (hend : s.ipos = s.cend)
    (he : exec .build s = .next t) : ∃ l r, s.buildTree.tree = some (.node l r) ∧
      TreeOf s.buildTree.nodeAt s.buildTree.root (.node l r) ∧
      (HTree.node l r).leaves.Perm (List.range s.buildTree.nleaf.toNat) ∧ t = s.buildTree.codeTree (.node l r) := by
  obtain ⟨l, r, htree, hT, hlv, -⟩ := buildTree_tree s
  rw [exec_build hs hend, buildBody, htree] at he
  injection he with he
  exact ⟨l, r, htree, hT, hlv, he.symm⟩

/-- Settles O29: the loop's list is the set of active nodes of the statement in every round (`ActiveNodes`), and a round
takes the first two of it. -/
theorem buildCombinesTheTwoLightestNodes : Obligations.BuildCombinesTheTwoLightestNodes := by
  intro s t hs hend he
  obtain ⟨l, r, -, -, -, rfl⟩ := exec_build_next hs hend he
  exact ⟨fun h1 => buildTree_single s (congrArg BitVec.toNat h1), fun hn k h1 h2 => buildTree_joinsLightest s hn h1 h2⟩

end Sys2Proof.Machine
end

section
/-! ## How long the codes of a built tree get (43_huffman.md R179) -/

namespace Sys2Proof.Machine

open Sys2Proof

/-! ### Code lengths and Fibonacci numbers (R179) -/

theorem fib_eq (n : Nat) : fib n = Nat.fib n := by
  induction n using Nat.twoStepInduction with
  | zero => rfl
  | one => rfl
  | more n ih1 ih2 => rw [fib, ih1, ih2, Nat.fib_add_two]

/-- The path to a leaf is shorter than the tree is high, and than it has nodes. -/
theorem HTree.length_lt_of_follow {t : HTree} {c : Bits} {k : Nat} {w : Word} (h : t.follow c = some (.leaf k w)) :
    c.length + 1 ≤ t.height ∧ c.length + 1 ≤ t.size := by
  induction c generalizing t with
  | nil =>
    obtain rfl : t = .leaf k w := by simpa [HTree.follow] using h
    exact ⟨le_refl 1, le_refl 1⟩
  | cons b c ih =>
    cases t with
    | nil | leaf => simp [HTree.follow] at h
    | node l r =>
      rw [List.length_cons, HTree.height, HTree.size]
      cases b
      · have := ih (t := l) (by simpa [HTree.follow] using h)
        omega
      · have := ih (t := r) (by simpa [HTree.follow] using h)
        omega

/-- The weights of the active nodes against the heights of the trees under them: a tree of height `h` weighs at least
`Fib(h + 1)`, and every other active node at least `Fib(h)`, since the children of its root were the lightest (R179). -/
def WeightsBound (f : Nat → Node) (A : List Active) : Prop :=
  ∀ x ∈ A, ∀ T, TreeOf f (BitVec.ofNat 17 x.2) T → fib (T.height + 1) ≤ x.1 ∧ ∀ y ∈ A, y ≠ x → fib T.height ≤ y.1

theorem weightsBound_leaves (s : State) : WeightsBound s.buildTree.nodeAt (activeLeaves (leafNodes s.tokens)) := by
  have hn := length_alphabet_tokens s
  have hntok := s.ntok.isLt
  have hpos : ∀ x ∈ activeLeaves (leafNodes s.tokens), 1 ≤ x.1 := by
    intro x hx
    rw [activeLeaves_tokens] at hx
    obtain ⟨w, hw, hfreq⟩ := List.mem_map.mp (List.of_mem_zip (a := x.1) (b := x.2) hx).1
    rw [← hfreq, freq]
    split
    · exact le_refl 1
    · next hne => exact List.one_le_count_iff.mpr (((mem_alphabet _ _).mp hw).resolve_left hne)
  intro x hx T hT
  have hlt := (activeNodes_leaves s).index_lt hx
  rw [buildTree_nleaf_toNat] at hlt
  obtain ⟨hidx, hne⟩ := ofNat17_ne_nil (cnt := x.2) (by unfold Config.nodeMax; omega)
  have hnode := buildTree_leaf_nodeAt s hlt
  obtain rfl : T = .leaf x.2 ((alphabet s.tokens).getD x.2 0) := hT.unique ⟨hne, hidx, _, hnode⟩
  exact ⟨hpos x hx, fun y hy _ => hpos y hy⟩

theorem le_of_not_less {a b : Active} (h : Active.less b a = false) : a.1 ≤ b.1 := by
  simp only [Active.less, Bool.or_eq_false_iff, decide_eq_false_iff_not] at h
  omega

/-- A round keeps the bound: the two trees it joins are the lightest, and each weighs enough for the other (R179). -/
theorem WeightsBound.round {t : State} {next : Nat} {A : List Active} {a b : Active} (h : WeightsBound t.nodeAt A)
    (hA : ActiveNodes t next A) (hlt : next < Config.nodeMax) (hab : Lightest A a b)
    (hnode : t.nodeAt next = combined a b) : WeightsBound t.nodeAt (joined A a b next) := by
  have hbA := List.mem_of_mem_erase hab.second_mem
  have hne : a ≠ b := fun he => (hA.taken_ne hab).1 (congrArg Prod.snd he)
  have hrest : ∀ x ∈ remaining A a b, x ∈ A ∧ x ≠ a ∧ x ≠ b := by
    intro x hx
    obtain ⟨h1, h2⟩ := (hA.taken_ne hab).2.1 x hx
    exact ⟨List.mem_of_mem_erase (List.mem_of_mem_erase hx), fun he => h1 (by rw [he]), fun he => h2 (by rw [he])⟩
  have hle : ∀ x ∈ remaining A a b, a.1 ≤ x.1 ∧ b.1 ≤ x.1 := fun x hx =>
    ⟨le_of_not_less (hab.first_least x (hrest x hx).1), le_of_not_less (hab.second_least x (List.mem_of_mem_erase hx))⟩
  intro x hx T hT
  rcases List.mem_cons.mp hx with rfl | hx
  · obtain ⟨hidx, hnil⟩ := ofNat17_ne_nil hlt
    cases T with
    | nil => exact absurd hT hnil
    | leaf k w =>
      obtain ⟨-, rfl, x, hx⟩ := hT
      rw [hidx, hnode] at hx
      cases hx
    | node l r =>
      obtain ⟨-, i, j, w, hij, hl, hr⟩ := hT
      rw [hidx, hnode] at hij
      obtain ⟨rfl, rfl, -⟩ := Node.internal.inj hij
      obtain ⟨hla, hother_a⟩ := h a hab.first_mem l hl
      obtain ⟨hrb, hother_b⟩ := h b hbA r hr
      have hlb := hother_a b hbA hne.symm
      have hra := hother_b a hab.first_mem hne
      rw [HTree.height, Nat.add_comm 1]
      rcases max_choice l.height r.height with hmax | hmax <;> rw [hmax]
      · exact ⟨by rw [fib]; omega, fun y hy hyne => hla.trans
          (hle y ((List.mem_cons.mp hy).resolve_left hyne)).1⟩
      · exact ⟨by rw [fib]; omega, fun y hy hyne => hrb.trans
          (hle y ((List.mem_cons.mp hy).resolve_left hyne)).2⟩
  · obtain ⟨hxA, hxa, hxb⟩ := hrest x hx
    obtain ⟨hself, hother⟩ := h x hxA T hT
    refine ⟨hself, fun y hy hyne => ?_⟩
    rcases List.mem_cons.mp hy with rfl | hy
    · exact (hother a hab.first_mem hxa.symm).trans (Nat.le_add_right ..)
    · exact hother y (hrest y hy).1 hyne

/-- The tree of a chunk with two symbols or more: its height is bounded by its weight (R179). -/
theorem buildTree_fib_height {s : State} (hn : 2 ≤ s.buildTree.nleaf.toNat) {T : HTree}
    (hT : TreeOf s.buildTree.nodeAt s.buildTree.root T) : fib (T.height + 1) ≤ s.ntok.toNat + 1 := by
  have hnnode := buildTree_nnode_eq s
  have hroot := buildTree_root_toNat s
  rw [if_neg (by omega)] at hnnode
  obtain ⟨B, hlen, hB, hM, -⟩ := buildTree_rounds s (M := fun _ A => WeightsBound s.buildTree.nodeAt A) hn
    (weightsBound_leaves s) (fun n B a b hB hlt hM hab hnode => hM.round hB hlt hab hnode)
    (k := s.buildTree.nnode.toNat) (by omega) (le_refl _)
  obtain ⟨x, rfl⟩ := List.length_eq_one_iff.mp (by omega : B.length = 1)
  have hx : s.buildTree.root.toNat ∈ [x].map Prod.snd := (hB.mem_iff _).mpr
    ⟨by omega, fun i h1 h2 hc => absurd (hB.child_lt i h1 h2 _ hc) (by omega)⟩
  have hxroot : s.buildTree.root.toNat = x.2 := by simpa using hx
  have htotal := hB.total_le
  simp only [List.map_cons, List.map_nil, List.sum_cons, List.sum_nil, Nat.add_zero] at htotal
  refine (hM x (by simp) T ?_).1.trans htotal
  rw [← hxroot, BitVec.ofNat_toNat, BitVec.setWidth_eq]
  exact hT

/-- Settles O32: a code is a path of the built tree, and the tree's height is bounded by its weight. -/
theorem codeLengthsAreBounded : Obligations.CodeLengthsAreBounded := by
  intro s t hs hend he k hk
  obtain ⟨l, r, htree, hT, hlv, rfl⟩ := exec_build_next hs hend he
  obtain ⟨c, w, -, hc, hw, -⟩ := buildTree_path hT hlv hk
  rw [show (s.buildTree.codeTree (.node l r)).codeAt k = c from
    codeTree_codeAt s.buildTree (hlv.nodup_iff.mpr List.nodup_range) _ hc]
  have hntok := s.ntok.isLt
  have hn := length_alphabet_tokens s
  rw [← buildTree_nleaf_toNat] at hn
  rcases Nat.lt_or_ge s.buildTree.nleaf.toNat 2 with h1 | h2
  · have hlen : c.length ≤ 1 := by
      obtain ⟨l', r', htree', -, -, -, hsize, -⟩ := buildTree_tree s
      obtain ⟨rfl, rfl⟩ := HTree.node.inj (Option.some.inj (htree.symm.trans htree'))
      have hlt := (HTree.length_lt_of_follow hw).2
      rw [hsize, buildTree_nnode_eq, if_pos (by omega)] at hlt
      omega
    have hfib : fib (c.length + 2) ≤ fib 3 := by
      rw [fib_eq, fib_eq]
      exact Nat.fib_mono (by omega)
    exact ⟨fun hpos => hfib.trans (by rw [show fib 3 = 2 from rfl]; omega), by omega⟩
  · have hfib : fib (c.length + 2) ≤ s.ntok.toNat + 1 := by
      have hlt := (HTree.length_lt_of_follow hw).1
      refine le_trans ?_ (buildTree_fib_height h2 hT)
      rw [fib_eq, fib_eq]
      exact Nat.fib_mono (by omega)
    refine ⟨fun _ => hfib, ?_⟩
    by_contra hlong
    have h25 : fib 25 ≤ fib (c.length + 2) := by
      rw [fib_eq, fib_eq]
      exact Nat.fib_mono (by omega)
    rw [show fib 25 = 75025 by rw [fib_eq]; decide] at h25
    omega

end Sys2Proof.Machine
end

section
/-! ## What BUILD leaves: the tree's size, the leaves, what they depend on (43_huffman.md R175 to R178, R183, R187) -/

namespace Sys2Proof.Machine

open Sys2Proof

/-- Settles O27: the counts are those of the tree `Build` makes, each node and leaf of it once. -/
theorem buildCompletesWithATree : Obligations.BuildCompletesWithATree := by
  intro s hs hend
  obtain ⟨l, r, htree, -, hlv, -, hsize, hnils⟩ := buildTree_tree s
  have hexec : exec .build s = .next (s.buildTree.codeTree (.node l r)) := by
    rw [exec_build hs hend, buildBody, htree]
    rfl
  have hn := length_alphabet_tokens s
  rw [← buildTree_nleaf_toNat] at hn
  have hnnode := buildTree_nnode_eq s
  refine ⟨_, .node l r, hexec, rfl, hn.1, hn.2, hnnode, buildTree_root_toNat s, fun k hk => ?_, htree, ?_⟩
  · have hk' : (buildNodes s.tokens).length ≤ k := buildTree_nnode_toNat s ▸ hk
    exact (buildTree_nodeAt s k).trans (if_neg (by omega))
  · have hleaves : (HTree.node l r).leafCount = s.buildTree.nleaf.toNat := by
      rw [← HTree.length_leaves, hlv.length_eq, List.length_range]
    rw [HTree.length_ser, HTree.serLen_eq, hsize, hleaves, hnils, hnnode]
    show _ = if s.buildTree.nleaf.toNat = 1 then 7 else 6 * s.buildTree.nleaf.toNat - 1
    split <;> omega

/-! ### The leaves (R175, R176) -/

/-- Literals and matches come before `Stop` (30_encoding.md R98). -/
theorem toNat_lt_stopWord {w : Word} (h : tokenWord w = true) : w.toNat < stopWord.toNat := by
  rw [tokenWord, Bool.and_eq_true, decide_eq_true_eq] at h
  obtain ⟨hvalid, hne⟩ := h
  obtain ⟨x, hx⟩ := Option.isSome_iff_exists.mp hvalid
  have hstop : stopWord.toNat = 0x80000000 := rfl
  obtain ⟨rfl, -⟩ := toWord_of_symbolOf hx
  cases x with
  | literal b => rw [Symbol.toWord, toNat_literalWord, hstop]; omega
  | copy o l => rw [Symbol.toWord, toNat_matchWord, hstop]; omega
  | stop => exact absurd rfl hne

/-- The last symbol word of the alphabet is `Stop` (R176). -/
theorem alphabet_last {toks : List Word} (h : ∀ w ∈ toks, tokenWord w = true) :
    (alphabet toks).getD ((alphabet toks).length - 1) 0 = stopWord := by
  obtain ⟨j, hj, hstop⟩ := List.getElem_of_mem ((mem_alphabet stopWord toks).mpr (.inl rfl))
  have hlast : (alphabet toks).length - 1 < (alphabet toks).length := by omega
  rw [List.getD_eq_getElem _ _ hlast]
  refine ((mem_alphabet _ _).mp (List.getElem_mem hlast)).resolve_right fun hmem => ?_
  have hlt := toNat_lt_stopWord (h _ hmem)
  rcases Nat.lt_or_ge j ((alphabet toks).length - 1) with hj1 | hj1
  · have hrise := List.pairwise_iff_getElem.mp (sorted_alphabet toks) j _ hj hlast hj1
    rw [hstop] at hrise
    omega
  · obtain rfl : j = (alphabet toks).length - 1 := by omega
    rw [hstop] at hlt
    omega

/-- Settles O28: the leaves stand in the alphabet's order, which is rising, and the alphabet is the tokens and
`Stop`. -/
theorem buildLeavesAreTheCountedAlphabet : Obligations.BuildLeavesAreTheCountedAlphabet := by
  intro s t hs hend htok he
  obtain ⟨l, r, -, -, -, rfl⟩ := exec_build_next hs hend he
  have hn : (s.buildTree.codeTree (.node l r)).nleaf.toNat = (alphabet s.tokens).length := buildTree_nleaf_toNat s
  have hleaf : ∀ k (hk : k < (alphabet s.tokens).length), (s.buildTree.codeTree (.node l r)).nodeAt k =
      .leaf (alphabet s.tokens)[k] (BitVec.ofNat 32 (freq s.tokens (alphabet s.tokens)[k])) := fun k hk => by
    rw [← List.getD_eq_getElem _ 0 hk]
    exact buildTree_leaf_nodeAt s hk
  rw [hn]
  refine ⟨fun k hk => ⟨_, hleaf k hk, (mem_alphabet _ _).mp (List.getElem_mem hk)⟩, fun w hw => ?_,
    fun j k v w x y hjk hk hv hw => ?_, ?_⟩
  · obtain ⟨k, hk, rfl⟩ := List.getElem_of_mem ((mem_alphabet w s.tokens).mpr hw)
    exact ⟨k, _, hk, hleaf k hk⟩
  · rw [hleaf j (by omega)] at hv
    rw [hleaf k hk] at hw
    rw [← (Node.leaf.inj hv).1, ← (Node.leaf.inj hw).1]
    exact List.pairwise_iff_getElem.mp (sorted_alphabet s.tokens) j k (by omega) hk hjk
  · have hlast : (alphabet s.tokens).length - 1 < (alphabet s.tokens).length := by
      have := (length_alphabet s.tokens).1
      omega
    have hstop := alphabet_last (toks := s.tokens) fun w hw => by
      obtain ⟨k, hk, rfl⟩ := mem_tokens.mp hw
      exact htok k hk
    rw [List.getD_eq_getElem _ _ hlast] at hstop
    exact ⟨_, (hleaf _ hlast).trans (by rw [hstop])⟩

/-! ### The order of the tokens (R187 (b)) -/

section
variable {s u : State} (h : s.tokens.Perm u.tokens)
include h

theorem buildTree_registers_perm : s.buildTree.nnode = u.buildTree.nnode ∧ s.buildTree.nleaf = u.buildTree.nleaf ∧
    s.buildTree.root = u.buildTree.root := by
  simp only [State.buildTree, leafNodes_perm h, and_self]

theorem buildTree_nodeAt_perm {k : Nat} (hk : k < s.buildTree.nnode.toNat) :
    s.buildTree.nodeAt k = u.buildTree.nodeAt k := by
  rw [buildTree_nnode_toNat] at hk
  rw [buildTree_nodeAt, buildTree_nodeAt, ← buildNodes_perm h, if_pos hk, if_pos hk]

/-- The tree BUILD makes depends on the counts of the tokens only: no node of it is one BUILD did not write. -/
theorem buildTree_tree_perm : s.buildTree.tree = u.buildTree.tree := by
  obtain ⟨l, r, hs, hT, -, hnodes, hsize, -⟩ := buildTree_tree s
  obtain ⟨hnnode, -, hroot⟩ := buildTree_registers_perm h
  rw [hs]
  refine (State.tree_of_size (hroot ▸ hT.congr_nodes fun k hk => ?_) (by rw [← hnnode, hsize])).symm
  rw [hnodes.mem_iff, List.mem_range] at hk
  exact buildTree_nodeAt_perm h hk

end

/-- Settles O31: the leaves, and with them the nodes, are a function of the counts, and the codes of the tree. -/
theorem buildDoesNotDependOnTokenOrder : Obligations.BuildDoesNotDependOnTokenOrder := by
  intro s s' t t' hs hend hs' hend' hperm he he'
  obtain ⟨l, r, htree, hT, hlv, rfl⟩ := exec_build_next hs hend he
  obtain ⟨l', r', htree', -, hlv', rfl⟩ := exec_build_next hs' hend' he'
  have hsame : HTree.node l r = .node l' r' :=
    Option.some.inj (htree.symm.trans ((buildTree_tree_perm hperm).trans htree'))
  obtain ⟨hnnode, hnleaf, hroot⟩ := buildTree_registers_perm hperm
  refine ⟨hnnode, hnleaf, hroot, fun k hk => buildTree_nodeAt_perm hperm hk, fun k hk => ?_⟩
  obtain ⟨c, -, -, hc, -⟩ := buildTree_path hT hlv hk
  calc (s.buildTree.codeTree (.node l r)).codeAt k
    _ = c := codeTree_codeAt s.buildTree (hlv.nodup_iff.mpr List.nodup_range) _ hc
    _ = (s'.buildTree.codeTree (.node l' r')).codeAt k :=
      (codeTree_codeAt s'.buildTree (hlv'.nodup_iff.mpr List.nodup_range) _ (hsame ▸ hc)).symm

end Sys2Proof.Machine
end

section
/-! ## Why a parse fails: the items read and the tag after them (43_huffman.md R185, R186, 60_exceptions.md R261) -/

namespace Sys2Proof.Machine

open Sys2Proof

/-! ### The items of a tree -/

/-- What `Parse` takes in of a tree, in pre-order (R185). -/
def HTree.items : HTree → List TreeItem
  | .nil => [.absent]
  | .leaf _ w => [.leaf w]
  | .node l r => .internal :: (l.items ++ r.items)

@[simp] theorem HTree.itemBytes_items (t : HTree) : itemBytes t.items = t.ser := by
  induction t with
  | nil | leaf => simp [HTree.items, HTree.ser, TreeItem.bytes]
  | node l r ihl ihr => simp [HTree.items, HTree.ser, TreeItem.bytes, ihl, ihr]

@[simp] theorem HTree.itemNodes_items (t : HTree) : itemNodes t.items = t.size := by
  induction t with
  | nil | leaf => simp [HTree.items, HTree.size, TreeItem.isNode]
  | node l r ihl ihr => simp [HTree.items, HTree.size, TreeItem.isNode, ihl, ihr, Nat.add_assoc]

theorem HTree.symbolsValid_iff (t : HTree) :
    t.symbolsValid = true ↔ ∀ w, TreeItem.leaf w ∈ t.items → validSymbol w = true := by
  induction t with
  | nil => simp [HTree.items, HTree.symbolsValid]
  | leaf => simp [HTree.items, HTree.symbolsValid]
  | node l r ihl ihr =>
    simp only [HTree.symbolsValid, Bool.and_eq_true, ihl, ihr, HTree.items, List.mem_cons, List.mem_append,
      reduceCtorEq, false_or, or_imp, forall_and]

/-- A whole tree is one subtree less to come. -/
theorem moreToCome_items (t : HTree) (n : Nat) (is : List TreeItem) :
    moreToCome (n + 1) (t.items ++ is) = moreToCome n is := by
  induction t generalizing n is with
  | nil | leaf => simp [HTree.items, moreToCome]
  | node l r ihl ihr => simp [HTree.items, moreToCome, ihl, ihr]

/-- Items that leave subtrees to come stop inside the first subtree, or they are that subtree whole and items after
it. -/
theorem moreToCome_split (is : List TreeItem) (n : Nat) (h : moreToCome (n + 1) is = true) :
    moreToCome 1 is = true ∨ ∃ (L : HTree) (js : List TreeItem), is = L.items ++ js ∧ moreToCome n js = true := by
  match is with
  | [] => exact .inl rfl
  | .leaf w :: is => exact .inr ⟨.leaf 0 w, is, rfl, by simpa [moreToCome] using h⟩
  | .absent :: is => exact .inr ⟨.nil, is, rfl, by simpa [moreToCome] using h⟩
  | .internal :: is =>
    have h' : moreToCome (n + 1 + 1) is = true := by simpa [moreToCome] using h
    rcases moreToCome_split is (n + 1) h' with hl | ⟨L, js, rfl, hjs⟩
    · exact .inl (by simpa [moreToCome] using moreToCome_mono (by omega) hl)
    · have hlen : js.length < (L.items ++ js).length + 1 := by rw [List.length_append]; omega
      rcases moreToCome_split js n hjs with hr | ⟨R, ks, rfl, hks⟩
      · exact .inl (by simpa [moreToCome, moreToCome_items] using hr)
      · exact .inr ⟨.node L R, ks, by simp [HTree.items], hks⟩
termination_by is.length

/-! ### One tag (R185) -/

/-- `Node(top)` at the tag at `pos` with `cnt` nodes taken: the information word it fails with there, if it does. -/
def tagError (at_ : Nat → Byte) (ilen : Nat) (top : Bool) (pos cnt : Nat) : Option Nat :=
  if ilen ≤ pos then some ilen
  else if top = true ∧ at_ pos ≠ 0x00#8 then some pos
  else if at_ pos = 0x00#8 then if Config.nodeMax ≤ cnt then some pos else none
  else if at_ pos = 0x01#8 then
    if ilen < pos + 1 + 4 then some ilen
    else if validSymbol (wordOfBytes (at_ (pos + 1)) (at_ (pos + 2)) (at_ (pos + 3)) (at_ (pos + 4))) = false then
      some pos
    else if Config.nodeMax ≤ cnt then some pos else none
  else if at_ pos = 0x02#8 then none
  else some pos

section
variable {at_ : Nat → Byte} {ilen : Nat}

/-- Where an internal node's tag does not fail there is a byte and a node index left. -/
theorem tagError_internal {top : Bool} {pos cnt : Nat} (h0 : at_ pos = 0x00#8) :
    tagError at_ ilen top pos cnt = none ↔ pos < ilen ∧ cnt < Config.nodeMax := by
  unfold tagError
  simp only [h0, ne_eq, not_true_eq_false, and_false, if_false, if_true]
  split_ifs <;> simp <;> omega

/-- Everything `Node` can do at its tag: fail there, go on with two subtrees, or be done (R185). -/
theorem parseNode_cases (top : Bool) (pos cnt k : Nat) :
    (∃ info, tagError at_ ilen top pos cnt = some info ∧ parseNode at_ ilen (k + 1) top pos cnt = .error info) ∨
    tagError at_ ilen top pos cnt = none ∧ (at_ pos = 0x00#8 ∨ ∃ r, parseNode at_ ilen (k + 1) top pos cnt = .ok r) := by
  rw [tagError, parseNode]
  simp only [BitVec.ofNat_eq_ofNat]
  by_cases hend : ilen ≤ pos
  · simp only [if_pos hend]
    exact .inl ⟨_, rfl, rfl⟩
  by_cases htop : top = true ∧ at_ pos ≠ 0x00#8
  · simp only [if_neg hend, if_pos htop]
    exact .inl ⟨_, rfl, rfl⟩
  simp only [if_neg hend, if_neg htop]
  by_cases h0 : at_ pos = 0x00#8
  · by_cases hfull : Config.nodeMax ≤ cnt
    · simp only [if_pos h0, if_pos hfull]
      exact .inl ⟨_, rfl, rfl⟩
    · simp only [if_pos h0, if_neg hfull]
      exact .inr ⟨trivial, .inl h0⟩
  by_cases h1 : at_ pos = 0x01#8
  · simp only [if_neg h0, if_pos h1]
    by_cases hshort : ilen < pos + 1 + 4
    · simp only [if_pos hshort]
      exact .inl ⟨_, rfl, rfl⟩
    by_cases hbad : validSymbol (wordOfBytes (at_ (pos + 1)) (at_ (pos + 2)) (at_ (pos + 3)) (at_ (pos + 4))) = false
    · simp only [if_neg hshort, if_pos hbad]
      exact .inl ⟨_, rfl, rfl⟩
    by_cases hfull : Config.nodeMax ≤ cnt
    · simp only [if_neg hshort, if_neg hbad, if_pos hfull]
      exact .inl ⟨_, rfl, rfl⟩
    · simp only [if_neg hshort, if_neg hbad, if_neg hfull]
      exact .inr ⟨trivial, .inr ⟨_, rfl⟩⟩
  by_cases h2 : at_ pos = 0x02#8
  · simp only [if_neg h0, if_neg h1, if_pos h2]
    exact .inr ⟨trivial, .inr ⟨_, rfl⟩⟩
  · simp only [if_neg h0, if_neg h1, if_neg h2]
    exact .inl ⟨_, rfl, rfl⟩

theorem parseNode_of_tagError {top : Bool} {pos cnt info : Nat} (h : tagError at_ ilen top pos cnt = some info)
    (k : Nat) : parseNode at_ ilen (k + 1) top pos cnt = .error info := by
  rcases parseNode_cases (at_ := at_) (ilen := ilen) top pos cnt k with ⟨e, he, hp⟩ | ⟨hnone, -⟩
  · rw [hp, Option.some.inj (he.symm.trans h)]
  · rw [hnone] at h
    cases h

/-- Past its tag `Node` fails for an internal node only, in the left or the right subtree (R185). -/
theorem parseNode_internal_eq_error_iff {top : Bool} {pos cnt info : Nat} (h : pos < ilen ∧ cnt < Config.nodeMax)
    (h0 : at_ pos = 0x00#8) (k : Nat) : parseNode at_ ilen (k + 1) top pos cnt = .error info ↔
      parseNode at_ ilen k false (pos + 1) (cnt + 1) = .error info ∨
        ∃ l, parseNode at_ ilen k false (pos + 1) (cnt + 1) = .ok l ∧
          parseNode at_ ilen k false l.pos (cnt + 1 + l.nodes.length) = .error info := by
  rw [parseNode, if_neg (by omega), if_neg (by simp [h0]), if_pos (by rw [h0]; rfl), if_neg (by omega)]
  cases parseNode at_ ilen k false (pos + 1) (cnt + 1) with
  | error e => simp
  | ok l => cases hr : parseNode at_ ilen k false l.pos (cnt + 1 + l.nodes.length) <;> simp [hr]

/-! ### What is read before the failing tag -/

/-- `Parse`, `n` subtrees to come, `cnt` nodes taken, reads the items `is` at `pos` without a failure, and fails with
`info` at the tag after them. -/
structure FailsAfter (at_ : Nat → Byte) (ilen info n : Nat) (top : Bool) (pos cnt : Nat) (is : List TreeItem) :
    Prop where
  unfinished : moreToCome n is = true
  root_internal : top = true → ∀ x ∈ is.head?, x = .internal
  symbols_valid : ∀ w, TreeItem.leaf w ∈ is → validSymbol w = true
  nodes_fit : cnt + itemNodes is ≤ Config.nodeMax
  bytes_there : pos + (itemBytes is).length ≤ ilen
  bytes : BytesAt at_ pos (itemBytes is)
  fails : tagError at_ ilen (top && is.isEmpty) (pos + (itemBytes is).length) (cnt + itemNodes is) = some info

variable {info n pos cnt : Nat} {top : Bool} {is : List TreeItem}

theorem failsAfter_nil (hpos : pos ≤ ilen) (hcnt : cnt ≤ Config.nodeMax) :
    FailsAfter at_ ilen info 1 top pos cnt [] ↔ tagError at_ ilen top pos cnt = some info :=
  ⟨fun h => by simpa using h.fails, fun h => ⟨rfl, by simp, by simp, by simpa using hcnt, by simpa using hpos,
    by simp [BytesAt], by simpa using h⟩⟩

/-- An internal node first: two subtrees are to come behind its tag. -/
theorem failsAfter_internal (hn : 1 ≤ n) : FailsAfter at_ ilen info n top pos cnt (.internal :: is) ↔
    at_ pos = 0x00#8 ∧ (pos < ilen ∧ cnt < Config.nodeMax) ∧
      FailsAfter at_ ilen info (n + 1) false (pos + 1) (cnt + 1) is := by
  have hpos : pos + 1 + (itemBytes is).length = pos + (itemBytes (.internal :: is)).length := by
    simp [TreeItem.bytes]; omega
  have hcnt : cnt + 1 + itemNodes is = cnt + itemNodes (.internal :: is) := by simp [TreeItem.isNode]; omega
  have hbytes : itemBytes (.internal :: is) = 0x00 :: itemBytes is := by simp [TreeItem.bytes]
  constructor
  · intro h
    have h1 := h.bytes_there
    have h2 := h.nodes_fit
    obtain ⟨h0, hrest⟩ := bytesAt_cons.mp (hbytes ▸ h.bytes)
    exact ⟨h0, by omega, by simpa [moreToCome, hn] using h.unfinished, by simp,
      fun w hw => h.symbols_valid w (List.mem_cons_of_mem _ hw), by omega, by omega, hrest,
      by simpa [hpos, hcnt] using h.fails⟩
  · rintro ⟨h0, -, h⟩
    exact ⟨by simpa [moreToCome, hn] using h.unfinished, by simp, fun w hw => h.symbols_valid w (by simpa using hw),
      hcnt ▸ h.nodes_fit, hpos ▸ h.bytes_there, hbytes ▸ bytesAt_cons.mpr ⟨h0, h.bytes⟩,
      by simpa [hpos, hcnt] using h.fails⟩

/-- A whole subtree first: it stands in the bytes, and one subtree less is to come behind it. -/
theorem failsAfter_subtree (L : HTree) : FailsAfter at_ ilen info (n + 1) false pos cnt (L.items ++ is) ↔
    BytesAt at_ pos L.ser ∧ L.symbolsValid = true ∧
      FailsAfter at_ ilen info n false (pos + L.ser.length) (cnt + L.size) is := by
  have hpos : pos + L.ser.length + (itemBytes is).length = pos + (itemBytes (L.items ++ is)).length := by simp; omega
  have hcnt : cnt + L.size + itemNodes is = cnt + itemNodes (L.items ++ is) := by simp; omega
  have hbytes : BytesAt at_ pos (itemBytes (L.items ++ is)) ↔
      BytesAt at_ pos L.ser ∧ BytesAt at_ (pos + L.ser.length) (itemBytes is) := by
    rw [itemBytes_append, HTree.itemBytes_items, bytesAt_append]
  constructor
  · intro h
    obtain ⟨hL, hrest⟩ := hbytes.mp h.bytes
    exact ⟨hL, L.symbolsValid_iff.mpr fun w hw => h.symbols_valid w (List.mem_append_left _ hw),
      (moreToCome_items L n is).symm.trans h.unfinished, by simp,
      fun w hw => h.symbols_valid w (List.mem_append_right _ hw), hcnt ▸ h.nodes_fit, hpos ▸ h.bytes_there, hrest,
      by simpa [hpos, hcnt] using h.fails⟩
  · rintro ⟨hL, hvalid, h⟩
    exact ⟨(moreToCome_items L n is).trans h.unfinished, by simp,
      fun w hw => (List.mem_append.mp hw).elim (L.symbolsValid_iff.mp hvalid w) (h.symbols_valid w),
      hcnt ▸ h.nodes_fit, hpos ▸ h.bytes_there, hbytes.mpr ⟨hL, h.bytes⟩, by simpa [hpos, hcnt] using h.fails⟩

theorem FailsAfter.more {m : Nat} (h : FailsAfter at_ ilen info n top pos cnt is) (hm : n ≤ m) :
    FailsAfter at_ ilen info m top pos cnt is :=
  { h with unfinished := moreToCome_mono hm h.unfinished }

/-- Where the items end and the tag after them fails, so does the parse (R185). -/
theorem parseNode_error_of_failsAfter (k : Nat) (hk : ilen < pos + k) (h : FailsAfter at_ ilen info 1 top pos cnt is) :
    parseNode at_ ilen k top pos cnt = .error info := by
  have hpos := h.bytes_there
  have hcnt := h.nodes_fit
  induction k generalizing top pos cnt is with
  | zero => omega
  | succ k ih =>
    match is with
    | [] => exact parseNode_of_tagError ((failsAfter_nil (by omega) (by omega)).mp h) k
    | .leaf w :: is => exact absurd (moreToCome_pos (n := 0) (by simpa [moreToCome] using h.unfinished)) (by omega)
    | .absent :: is => exact absurd (moreToCome_pos (n := 0) (by simpa [moreToCome] using h.unfinished)) (by omega)
    | .internal :: is =>
      obtain ⟨h0, hroom, hrest⟩ := (failsAfter_internal (le_refl 1)).mp h
      rw [parseNode_internal_eq_error_iff hroom h0]
      rcases moreToCome_split is 1 hrest.unfinished with hl | ⟨L, js, rfl, -⟩
      · have hleft : FailsAfter at_ ilen info 1 false (pos + 1) (cnt + 1) is := { hrest with unfinished := hl }
        exact .inl (ih (by omega) hleft hleft.bytes_there hleft.nodes_fit)
      · obtain ⟨hL, hvalid, hright⟩ := (failsAfter_subtree L).mp hrest
        have h1 := hright.bytes_there
        have h2 := hright.nodes_fit
        obtain ⟨l, hl⟩ := parseNode_complete (ilen := ilen) L k false (pos + 1) (cnt + 1) (by omega) hL (by omega)
          hvalid (by omega) (by simp)
        obtain ⟨T, hT, -⟩ := parseNode_sound k hl (by omega)
        have hshape := HTree.ser_inj hT.bytes hL
        have hlpos : l.pos = pos + 1 + L.ser.length := by rw [hT.pos_eq, ← T.ser_shape, hshape, L.ser_shape]
        have hlnodes : l.nodes.length = L.size := by rw [hT.length_eq, ← T.size_shape, hshape, L.size_shape]
        rw [← hlpos, ← hlnodes] at hright
        exact .inr ⟨l, hl, ih (by omega) hright hright.bytes_there hright.nodes_fit⟩

/-- A parse fails for no other reason (R185). -/
theorem failsAfter_of_parseNode_error (k : Nat) (hk : ilen < pos + k) (hpos : pos ≤ ilen) (hcnt : cnt ≤ Config.nodeMax)
    (h : parseNode at_ ilen k top pos cnt = .error info) : ∃ is, FailsAfter at_ ilen info 1 top pos cnt is := by
  induction k generalizing top pos cnt with
  | zero => omega
  | succ k ih =>
    rcases parseNode_cases (at_ := at_) (ilen := ilen) top pos cnt k with ⟨e, htag, hp⟩ | ⟨htag, h0 | ⟨r, hr⟩⟩
    · obtain rfl : e = info := by simpa [hp] using h
      exact ⟨[], (failsAfter_nil hpos hcnt).mpr htag⟩
    · have hroom := (tagError_internal h0).mp htag
      rcases (parseNode_internal_eq_error_iff hroom h0 k).mp h with hl | ⟨l, hl, hr⟩
      · obtain ⟨is, his⟩ := ih (by omega) (by omega) (by omega) hl
        exact ⟨.internal :: is, (failsAfter_internal (le_refl 1)).mpr ⟨h0, hroom, his.more (by omega)⟩⟩
      · obtain ⟨L, hL, -⟩ := parseNode_sound k hl (by omega)
        have hlpos := hL.pos_eq
        have hfits := hL.fits
        have hlen := hL.length_eq
        obtain ⟨is, his⟩ := ih (by omega) hL.pos_le (by omega) hr
        rw [hlpos, hlen] at his
        exact ⟨.internal :: (L.items ++ is), (failsAfter_internal (le_refl 1)).mpr
          ⟨h0, hroom, (failsAfter_subtree L).mpr ⟨hL.bytes, hL.valid, his⟩⟩⟩
    · rw [hr] at h
      cases h

end

/-! ### The rows of R261 -/

/-- The rows of R261 are what `Node` fails with at the tag. -/
theorem badTag_iff {s : State} {is : List TreeItem} {info : Nat} (hle : s.tagAt is ≤ s.ilen.toNat)
    (hnodes : itemNodes is ≤ 131071) : s.BadTag is info ↔
      tagError s.ibufAt s.ilen.toNat is.isEmpty (s.tagAt is) (itemNodes is) = some info := by
  have hvalid : ∀ p, symbolOf (s.leafWordAt p) = none ↔
      validSymbol (wordOfBytes (s.ibufAt (p + 1)) (s.ibufAt (p + 2)) (s.ibufAt (p + 3)) (s.ibufAt (p + 4))) = false :=
    fun p => by rw [validSymbol, Option.isSome_eq_false_iff, Option.isNone_iff_eq_none]; rfl
  constructor
  · intro h
    unfold tagError
    cases h with
    | missing hend => rw [if_pos hend.ge]
    | root his hlt h0 => rw [if_neg (by omega), if_pos ⟨by simp [his], h0⟩]
    | unknown hlt hnone =>
      simp only [List.mem_cons, List.not_mem_nil, or_false, not_or] at hnone
      obtain ⟨h0, h1, h2⟩ := hnone
      rw [if_neg (by omega), if_neg h0, if_neg h1, if_neg h2, ite_self]
    | truncated his hlt h1 hshort =>
      rw [if_neg (by omega), if_neg (by simp [his]), if_neg (by rw [h1]; decide), if_pos h1, if_pos (by omega)]
    | invalid his hlt h1 hnone =>
      rw [if_neg (by omega), if_neg (by simp [his]), if_neg (by rw [h1]; decide), if_pos h1, if_neg (by omega),
        if_pos ((hvalid _).mp hnone)]
    | tooMany hfull hlt htag =>
      have hne : is ≠ [] := by rintro rfl; simp at hfull
      rw [if_neg (by omega), if_neg (by simp [hne])]
      rcases htag with h0 | ⟨h1, hroom, hsome⟩
      · rw [if_pos h0, if_pos (by rw [hfull]; exact le_refl _)]
      · rw [if_neg (by rw [h1]; decide), if_pos h1, if_neg (by omega), if_neg (fun h => hsome ((hvalid _).mpr h)),
          if_pos (by rw [hfull]; exact le_refl _)]
  · intro h
    have hmax : Config.nodeMax = 131071 := rfl
    unfold tagError at h
    split_ifs at h with hend htop h0 hfull h1 hshort hbad hfull h2 <;>
      simp only [Option.some.injEq] at h <;> subst h
    · exact .missing (by omega)
    · exact .root (by simpa using htop.1) (by omega) htop.2
    · exact .tooMany (by omega) (by omega) (.inl h0)
    · exact .truncated (by rintro rfl; exact htop ⟨rfl, h0⟩) (by omega) h1 (by omega)
    · exact .invalid (by rintro rfl; exact htop ⟨rfl, h0⟩) (by omega) h1 ((hvalid _).mpr hbad)
    · exact .tooMany (by omega) (by omega) (.inr ⟨h1, by omega, fun h => hbad ((hvalid _).mp h)⟩)
    · exact .unknown (by omega) (by simp [h0, h1, h2])

/-- The statement's words for a failing parse are those of the lemmas above. -/
theorem failsAfter_iff {s : State} {is : List TreeItem} {info : Nat} :
    FailsAfter s.ibufAt s.ilen.toNat info 1 true s.ipos.toNat 0 is ↔ s.ItemsRead is ∧ s.BadTag is info := by
  constructor
  · intro h
    have hnodes : itemNodes is ≤ 131071 := by simpa [Config.nodeMax] using h.nodes_fit
    exact ⟨⟨h.unfinished, h.root_internal rfl, h.symbols_valid, hnodes, h.bytes_there, bytesAt_ibuf.mp h.bytes⟩,
      (badTag_iff h.bytes_there hnodes).mpr (by simpa using h.fails)⟩
  · rintro ⟨h, hbad⟩
    have hfails := (badTag_iff h.bytes_there h.nodes_fit).mp hbad
    exact ⟨h.unfinished, fun _ => h.root_internal, h.symbols_valid, by simpa [Config.nodeMax] using h.nodes_fit,
      h.bytes_there, bytesAt_ibuf.mpr h.bytes_eq, by simpa using hfails⟩

/-- `Parse(IPOS)` fails exactly as the rows of R261 say. -/
theorem parse_eq_error_iff {s : State} (h : s.ipos.toNat ≤ s.ilen.toNat) {info : Nat} :
    s.parse s.ipos.toNat = .error info ↔ ∃ is, s.ItemsRead is ∧ s.BadTag is info := by
  simp only [← failsAfter_iff]
  exact ⟨failsAfter_of_parseNode_error _ (by omega) h (Nat.zero_le _),
    fun ⟨_, his⟩ => parseNode_error_of_failsAfter _ (by omega) his⟩

/-- The information word lies between the cursor and the end of the input (R261). -/
theorem info_bounds {s : State} {is : List TreeItem} {info : Nat} (his : s.ItemsRead is) (hbad : s.BadTag is info) :
    s.ipos.toNat ≤ info ∧ info ≤ s.ilen.toNat := by
  have hle : s.tagAt is ≤ s.ilen.toNat := his.bytes_there
  have hge : s.ipos.toNat ≤ s.tagAt is := Nat.le_add_right ..
  cases hbad with
  | missing | truncated => exact ⟨hge.trans hle, le_refl _⟩
  | root | unknown | invalid | tooMany => exact ⟨hge, hle⟩

/-! ### TLOAD (R186) -/

/-- Nothing read yet: the first tag is the one at IPOS. -/
theorem itemsRead_nil {s : State} (h : s.ipos.toNat ≤ s.ilen.toNat) : s.ItemsRead [] :=
  ⟨rfl, by simp, by simp, by simp, by simpa using h, rfl⟩

theorem exec_tload_of_error {s : State} (hc : ChunkClosed s) (hibit : s.ibit = 0) (hnacc : s.nacc = 0) {info : Nat}
    (h : s.parse s.ipos.toNat = .error info) : exec .tload s = .next { s with
      nnode := 0, nleaf := 0, root := 0x1FFFF#17, tvalid := false, cmvalid := false
      estate := s.state, err := some .malformedHeader, errinfo := BitVec.ofNat 32 info, state := .failed } := by
  have hnot : ¬ (s.dropTree.state = .headerParsed ∨ s.dropTree.state = .decoding) := by
    rcases hc with hs | hs <;> simp [hs]
  rw [exec_tload hc hibit hnacc, tloadBody, h]
  exact congrArg _ (State.raise_of_not_decoding hnot _ _)

/-- Settles O36: the parse fails exactly as the rows of R261 say, and TLOAD fails where the parse does. -/
theorem tloadOnBadTreeClearsTheTreeAndRaises : Obligations.TloadOnBadTreeClearsTheTreeAndRaises := by
  intro s h hc hibit hnacc
  have hle := h.ipos_le
  have hraises : ∀ is info, s.ItemsRead is → s.BadTag is info → exec .tload s = .next _ := fun is info his hbad =>
    exec_tload_of_error hc hibit hnacc ((parse_eq_error_iff hle).mpr ⟨is, his, hbad⟩)
  have hfirst : s.tagAt [] = s.ipos.toNat := by simp
  refine ⟨fun hend => ?_, fun hne h0 => ?_, hraises, fun t he ht => ?_⟩
  · exact ⟨_, hraises [] _ (itemsRead_nil hle) (.missing (by rw [hfirst, hend])), rfl, by simp⟩
  · have hlt : s.ipos.toNat < s.ilen.toNat :=
      lt_of_le_of_ne hle fun he => hne (BitVec.eq_of_toNat_eq he)
    exact ⟨_, hraises [] _ (itemsRead_nil hle) (.root rfl (by omega) (by rw [hfirst]; exact h0)), rfl, by simp [hfirst]⟩
  · cases hp : s.parse s.ipos.toNat with
    | ok r =>
      rw [exec_tload hc hibit hnacc, tloadBody_of_parse hp] at he
      injection he with he
      rw [← he] at ht
      cases ht
    | error info =>
      rw [exec_tload_of_error hc hibit hnacc hp] at he
      injection he with he
      obtain ⟨is, his, hbad⟩ := (parse_eq_error_iff hle).mp hp
      have hbounds := info_bounds his hbad
      have hilen := s.ilen.isLt
      have hinfo : t.errinfo.toNat = info := by
        rw [← he, BitVec.toNat_ofNat, Nat.mod_eq_of_lt (by omega)]
      rw [hinfo]
      exact ⟨⟨is, his, hbad⟩, hbounds.1, hbounds.2, by rw [← he]⟩

end Sys2Proof.Machine
end

section
/-! ## DSTEP decodes one symbol and applies it (43_huffman.md R181, 44_bitstream.md R203, R204, 45_chunk_codec.md R224,
R225) -/

namespace Sys2Proof.Machine

open Sys2Proof

/-! ### The cursor -/

theorem advance_zero (s : State) : s.advance 0 = s := by
  have hibit := s.ibit.isLt
  have hipos : (8 * s.ipos.toNat + s.ibit.toNat) / 8 = s.ipos.toNat := by omega
  have hmod : (8 * s.ipos.toNat + s.ibit.toNat) % 8 = s.ibit.toNat := by omega
  simp [State.advance, State.bitIndex, hipos, hmod]

/-- Reading available bits one by one moves the cursor by their number (R203). -/
theorem skipBits_eq_advance {s : State} {p : Bits} (h : p <+: s.unread) :
    State.skipBits p.length s = s.advance p.length := by
  induction p generalizing s with
  | nil => exact (advance_zero s).symm
  | cons b p ih =>
    have hbit := skipBit_bitIndex (avail_of_unread h)
    rw [List.length_cons, State.skipBits, ih (unread_prefix h).2, State.advance, State.advance, hbit, skipBit_frame,
      Nat.add_right_comm, Nat.add_assoc]

/-- Bits that are there to be read end no later than the input (20_memory.md R64). -/
theorem bitIndex_add_le {s : State} {p : Bits} (hne : p ≠ []) (h : p <+: s.unread) :
    s.bitIndex + p.length ≤ 8 * s.ilen.toNat := by
  obtain ⟨b, q, rfl⟩ := List.exists_cons_of_ne_nil hne
  have hlt : s.ipos.toNat < s.ilen.toNat := by simpa [State.avail] using avail_of_unread h
  have hlen := h.length_le
  rw [(unreadBitsAreMostSignificantFirst s hlt).1, List.length_cons] at hlen
  rw [State.bitIndex, List.length_cons]
  omega

theorem advance_bitIndex {s : State} {n : Nat} (h : s.bitIndex + n ≤ 8 * s.ilen.toNat) :
    (s.advance n).bitIndex = s.bitIndex + n := by
  have hilen := s.ilen.isLt
  simp only [State.bitIndex, State.advance, BitVec.toNat_ofNat] at h ⊢
  omega

/-- `Align()` goes to the next byte boundary (R204). -/
theorem align_ipos_toNat {s : State} (h : (s.bitIndex + 7) / 8 < 2 ^ 32) :
    s.align.ipos.toNat = (s.bitIndex + 7) / 8 := by
  have hibit := s.ibit.isLt
  rw [State.bitIndex] at h ⊢
  unfold State.align
  split
  · next hne =>
    have hpos : s.ibit.toNat ≠ 0 := fun h0 => hne (BitVec.eq_of_toNat_eq h0)
    simp only [BitVec.toNat_ofNat]
    omega
  · next h0 =>
    have hzero : s.ibit.toNat = 0 := by simpa using congrArg BitVec.toNat (not_not.mp h0)
    omega

/-- When the unread bits begin with the path of a leaf, `Walk` reads the path and ends there (R181). -/
theorem walk_of_path {s : State} {T : HTree} {p : Bits} {k : Nat} {w : Word} (hT : s.tree = some T) (hne : p ≠ [])
    (hf : T.follow p = some (.leaf k w)) (hp : p <+: s.unread) : s.walk = .symbol w (s.advance p.length) := by
  have hbits := bitIndex_add_le hne hp
  have htree := ((s.tree_eq_some T).mp hT).1
  obtain ⟨b, q, rfl⟩ := List.exists_cons_of_ne_nil hne
  cases T with
  | nil | leaf => simp [HTree.follow] at hf
  | node l r =>
    rw [State.bitIndex] at hbits
    rw [State.walk, walkFrom_leaf (b :: q) _ _ _ (by omega) htree hf hp, skipBits_eq_advance hp]

/-! ### The symbol (R224, R225) -/

/-- The state `u` with the bytes `bs` of the symbol word `w` recorded and appended (R224, R225). -/
def State.applied (u : State) (w : Word) (bs : List Byte) : State := ((u.recordAll bs).appendBytes bs).decoded w

section
variable {s : State} {w : Word} {x : Symbol} {n : Nat}

/-- A literal or a match within the history that fits is applied: its bytes are what it stands for (R164, R225). -/
theorem dstepSymbol_applied (h : RegisterInv s) (hx : symbolOf w = some x) (hne : w ≠ stopWord)
    (hfill : ∀ o l, x = .copy o l → o.toNat ≤ s.fill.toNat)
    (hroom : s.olen.toNat + (expand s.history x).length ≤ s.params.outMax) :
    dstepSymbol s (s.advance n) w = .ok ((s.advance n).applied w (expand s.history x)) := by
  obtain ⟨hword, hcopy⟩ := toWord_of_symbolOf hx
  unfold dstepSymbol
  cases x with
  | stop => exact absurd hword.symm hne
  | literal b =>
    rw [hx]
    exact if_pos (hasRoom_iff.mpr hroom)
  | copy o l =>
    have hpos : 1 ≤ o.toNat := Nat.pos_of_ne_zero fun h0 =>
      (hcopy o l rfl).1 (BitVec.eq_of_toNat_eq (by simpa using h0))
    have hbytes : expand s.history (.copy o l) = State.copied o.toNat l.toNat (s.advance n) :=
      expandCopy_history (s := s.advance n) ⟨h.wptr_lt, h.fill_le⟩ hpos (hfill o l rfl) l.toNat
    rw [hbytes, State.length_copied] at hroom
    rw [hx, hbytes, State.applied, ← State.copyMatch_eq]
    simp only
    rw [if_pos (hfill o l rfl), if_pos (hasRoom_iff.mpr hroom)]

variable (bs : List Byte)

/-- The registers and memories a decoded symbol may write, and no other (R225). -/
theorem applied_frame : (s.advance n).applied w bs = { s.advance n with
    dsym := w, fStop := false, fExh := false, state := .decoding
    ring := ((s.advance n).applied w bs).ring, wptr := ((s.advance n).applied w bs).wptr
    fill := ((s.advance n).applied w bs).fill, obuf := ((s.advance n).applied w bs).obuf
    olen := ((s.advance n).applied w bs).olen } := by
  simp only [State.applied]
  rw [State.appendBytes_frame, State.recordAll_frame]
  rfl

/-- The ring is written as by the recording of the bytes alone. -/
theorem applied_recorded (h : RegisterInv s) : Recorded s ((s.advance n).applied w bs) bs := by
  have hring : ((s.advance n).applied w bs).ring = ((s.advance n).recordAll bs).ring := by simp [State.applied]
  have hwptr : ((s.advance n).applied w bs).wptr = ((s.advance n).recordAll bs).wptr := by simp [State.applied]
  have hfill : ((s.advance n).applied w bs).fill = ((s.advance n).recordAll bs).fill := by simp [State.applied]
  have hcap : ((s.advance n).applied w bs).cap = ((s.advance n).recordAll bs).cap := by simp [State.applied]
  have hrec := recorded_recordAll (s := s.advance n) ⟨h.wptr_lt, h.fill_le⟩ bs
  refine ⟨(history_congr hring hwptr hfill hcap).trans hrec.history_eq, ?_, ?_, fun a ha => ?_⟩
  · rw [hwptr]
    exact hrec.wptr_eq
  · rw [hfill]
    exact hrec.fill_eq
  · rw [State.ringAt, hring]
    exact hrec.others_kept a ha

/-- The output is written as by the appending of the bytes alone. -/
theorem applied_appended (h : s.olen.toNat + bs.length < 2 ^ 32) : Appended s ((s.advance n).applied w bs) bs := by
  have holen : ((s.advance n).recordAll bs).olen = s.olen := State.recordAll_olen ..
  have happ := (State.appended_appendBytes ((s.advance n).recordAll bs) bs (holen ▸ h)).congr holen
    (State.recordAll_obuf ..)
  exact ⟨happ.olen_eq, happ.bytes_eq, happ.others_kept⟩

end

theorem exec_dstep {s : State} (hs : s.state = .headerParsed ∨ s.state = .decoding) :
    exec .dstep s = (dstepBody s).outcome :=
  exec_of_accepted (i := .dstep) rfl (by rcases hs with hs | hs <;> simp [hs]) hs

/-- Settles O42: the walk reads the leaf's path, and its symbol ends the chunk or is applied. -/
theorem dstepDecodesAndAppliesOneSymbol : Obligations.DstepDecodesAndAppliesOneSymbol := by
  intro s T p k w h hs hT hne hf hp
  have hbody : dstepBody s = dstepSymbol s (s.advance p.length) w := by rw [dstepBody, walk_of_path hT hne hf hp]
  rw [exec_dstep hs, hbody]
  refine ⟨fun hw => ?_, fun x hx hnostop hfill hroom => ?_⟩
  · subst hw
    have hbits := bitIndex_add_le hne hp
    have hindex := advance_bitIndex hbits
    have hilen := s.ilen.isLt
    refine ⟨(s.advance p.length).stopChunk, rfl, ?_, ?_⟩
    · rw [State.stopChunk, align_frame, State.align_ibit]
      rfl
    · rw [State.stopChunk_ipos, align_ipos_toNat (by omega), hindex, State.bitIndex]
  · have hmax := h.outMax_lt
    rw [dstepSymbol_applied h hx hnostop hfill hroom]
    exact ⟨_, rfl, applied_frame _, applied_recorded _ h, applied_appended _ (by omega)⟩

end Sys2Proof.Machine
end

section
/-! ## The bit stream commands and the writing half of the chunk codec (44_bitstream.md R201 to R210, 45_chunk_codec.md
R222, R223) -/

namespace Sys2Proof.Machine

open Sys2Proof

/-! ### Commands that write where there is room, and raise where there is none -/

/-- `NeedOut(k)` outside the decode states, as the statements about its users give it: what the pseudocode behind it
leaves, or error entry with nothing rolled back (R210, R268). -/
theorem outcome_needOut {s t : State} {k : Nat} {f : State → Res} {P : State → Prop}
    (hs : ¬ (s.state = .headerParsed ∨ s.state = .decoding)) (hf : f s = .ok t)
    (ht : s.olen.toNat + k ≤ s.params.outMax → P t) :
    (s.olen.toNat + k ≤ s.params.outMax → ∃ t, (s.needOut k f).outcome = .next t ∧ P t) ∧
    (s.params.outMax < s.olen.toNat + k → (s.needOut k f).outcome = .next { s with
      estate := s.state, err := some .resourceExhausted, errinfo := 2, state := .failed }) := by
  refine ⟨fun hroom => ⟨t, ?_, ht hroom⟩, fun hroom => ?_⟩
  · rw [needOut_of_room hroom, hf]
    rfl
  · rw [needOut_of_no_room hroom]
    exact congrArg _ (State.raise_of_not_decoding hs _ _)

theorem not_failed_of_encoder {s : State} (h : s.state = .treeReady ∨ s.state = .encoding) : s.state ≠ .failed := by
  rcases h with h | h <;> rw [h] <;> decide

theorem not_decoding_of_encoder {s : State} (h : s.state = .treeReady ∨ s.state = .encoding) :
    ¬ (s.state = .headerParsed ∨ s.state = .decoding) := by
  rcases h with h | h <;> rw [h] <;> decide

theorem not_decoding_of_closed {s : State} (h : ChunkClosed s) : ¬ (s.state = .headerParsed ∨ s.state = .decoding) := by
  rcases h with h | h <;> rw [h] <;> decide

/-! ### Bits written -/

theorem ofNat_toNat_succ {n : Nat} (x : BitVec n) : BitVec.ofNat n (x.toNat + 1) = x + 1 := by
  rw [BitVec.ofNat_add, BitVec.ofNat_toNat, BitVec.setWidth_eq]
  rfl

/-- Bits that end on a byte boundary leave the accumulator empty (R200, R201). -/
theorem BitsWritten.acc_nacc_eq_zero {s t : State} {c : Bits} (h : BitsWritten s t c)
    (hc : (s.nacc.toNat + c.length) % 8 = 0) : t.acc = 0 ∧ t.nacc = 0 := by
  have hnacc : t.nacc.toNat = 0 := h.nacc_eq.trans hc
  have hlow := h.low_zero
  rw [hnacc, Nat.mod_eq_of_lt t.acc.isLt] at hlow
  exact ⟨BitVec.eq_of_toNat_eq hlow, BitVec.eq_of_toNat_eq hnacc⟩

/-- The encoder's state registers are no part of the bit stream. -/
theorem bitsWritten_encodedBits {s : State} (hacc : AccLow s.acc s.nacc.toNat) {c : Bits} (e : BitVec 16)
    (st : CodecState) (h : s.olen.toNat + (s.nacc.toNat + c.length) / 8 < 2 ^ 32) :
    BitsWritten s (s.encodedBits c e st) c := by
  obtain ⟨hwritten, hnacc, holen, hlow, hkept⟩ := State.bitsWritten_putBits hacc c h
  exact ⟨hwritten, hnacc, holen, hlow, hkept⟩

theorem encodedBits_frame (s : State) (c : Bits) (e : BitVec 16) (st : CodecState) :
    s.encodedBits c e st = { s with
      obuf := (s.encodedBits c e st).obuf, olen := (s.encodedBits c e st).olen, acc := (s.encodedBits c e st).acc
      nacc := (s.encodedBits c e st).nacc, eidx := e, state := st } :=
  congrArg (State.atToken · e st) (State.putBits_frame s c)

/-! ### WFIN -/

/-- `Finish` with bits pending completes their byte (R202). -/
theorem finish_of_pending {s : State} (hlow : AccLow s.acc s.nacc.toNat) (hpos : 0 < s.nacc.toNat) (c : Bits)
    (h : s.olen.toNat + 1 < 2 ^ 32) :
    s.finish c = { s with obuf := (s.finish c).obuf, olen := s.olen + 1, acc := 0, nacc := 0 } ∧
      BitsWritten s (s.finish c) (padding c (8 - s.nacc.toNat)) := by
  have hn := s.nacc_lt
  have hbyte : s.nacc.toNat + (padding c (8 - s.nacc.toNat)).length = 8 := by
    rw [State.length_padding]
    omega
  have hbits : BitsWritten s (s.finish c) (padding c (8 - s.nacc.toNat)) := by
    rw [State.finish, if_pos hpos]
    exact State.bitsWritten_putBits hlow _ (by rwa [hbyte])
  obtain ⟨hacc, hnacc⟩ := hbits.acc_nacc_eq_zero (by rw [hbyte])
  have holen : (s.finish c).olen = s.olen + 1 := by
    rw [← ofNat_toNat_succ]
    apply BitVec.eq_of_toNat_eq
    rw [hbits.olen_eq, hbyte, BitVec.toNat_ofNat, Nat.mod_eq_of_lt h]
  refine ⟨?_, hbits⟩
  rw [← hacc, ← hnacc, ← holen]
  exact State.finish_frame ..

theorem exec_wfin {s : State} (hc : ChunkClosed s) (hp : s.nacc = 0 ∨ s.cmvalid = true) :
    exec .wfin s = (wfinBody s).outcome :=
  exec_of_accepted (i := .wfin) rfl (not_failed_of_closed hc) ⟨hc, hp⟩

/-- Settles O38: the padding completes the pending byte, and `NeedOut` asks for that one byte. -/
theorem wfinPadsWithTheStopCode : Obligations.WfinPadsWithTheStopCode := by
  intro s h hc
  refine ⟨fun h0 => ?_, fun c hne hcm hcode => ?_⟩
  · rw [exec_wfin hc (.inl h0), wfinBody, h0]
    rfl
  · have hpos : 0 < s.nacc.toNat := Nat.pos_of_ne_zero fun h0 => hne (BitVec.eq_of_toNat_eq h0)
    rw [exec_wfin hc (.inr hcm), wfinBody, if_pos hpos]
    exact outcome_needOut (not_decoding_of_closed hc) (withCode_of_codeOf (w := stopWord) hcode _)
      fun hroom => finish_of_pending h.acc_low hpos c (hroom.trans_lt h.outMax_lt)

/-! ### ESTEP and EFIN -/

/-- Settles O40: `NeedOut` asks for the bytes that the token's code completes. -/
theorem estepWritesOneTokenCode : Obligations.EstepWritesOneTokenCode := by
  intro s c h hs hlt hcode
  have hexec : exec .estep s = (estepBody s).outcome :=
    exec_of_accepted (i := .estep) rfl (not_failed_of_encoder hs) ⟨hs, hlt⟩
  rw [hexec, estepBody, withCode_of_codeOf hcode, ← ofNat_toNat_succ]
  refine outcome_needOut (t := s.encodedBits c (BitVec.ofNat 16 (s.eidx.toNat + 1)) .encoding)
    (not_decoding_of_encoder hs) rfl fun hroom => ?_
  exact ⟨encodedBits_frame .., bitsWritten_encodedBits h.acc_low _ _ (hroom.trans_lt h.outMax_lt)⟩

/-- The stop code and its padding end on a byte boundary (R202), with as many bytes as EFIN asks room for (R223). -/
theorem stopBits_fill_bytes (n : Nat) (c : Bits) :
    n + (c ++ padding c ((8 - (n + c.length) % 8) % 8)).length = 8 * ((n + c.length + 7) / 8) := by
  rw [List.length_append, State.length_padding]
  omega

/-- Stop code and padding are one sequence of bits (R202). -/
theorem finish_putBits {s : State} {c : Bits} (h : s.olen.toNat + (s.nacc.toNat + c.length) / 8 < 2 ^ 32) :
    (s.putBits c).finish c = s.putBits (c ++ padding c ((8 - (s.nacc.toNat + c.length) % 8) % 8)) := by
  rw [State.finish_eq_putBits, (State.putBits_counts s c h).1, State.putBits_append]

/-- Settles O41: stop code and padding are one sequence of bits (`finish_putBits`), and it ends on a byte
boundary. -/
theorem efinWritesTheStopCodeAndPads : Obligations.EfinWritesTheStopCodeAndPads := by
  intro s c h hs hend hcode
  have hexec : exec .efin s = (efinBody s).outcome :=
    exec_of_accepted (i := .efin) rfl (not_failed_of_encoder hs) ⟨hs, hend⟩
  have hbytes := stopBits_fill_bytes s.nacc.toNat c
  rw [hexec, efinBody, withCode_of_codeOf (w := stopWord) hcode]
  refine outcome_needOut (not_decoding_of_encoder hs) rfl fun hroom => ?_
  have hmax := h.outMax_lt
  have hfinish : { (s.putBits c).finish c with state := .done } =
      s.encodedBits (c ++ padding c ((8 - (s.nacc.toNat + c.length) % 8) % 8)) s.eidx .done := by
    rw [finish_putBits (by omega), State.encodedBits, State.putBits_frame]
    rfl
  have hbits := bitsWritten_encodedBits h.acc_low (c := c ++ padding c ((8 - (s.nacc.toNat + c.length) % 8) % 8))
    s.eidx .done (by omega)
  obtain ⟨hacc, hnacc⟩ := hbits.acc_nacc_eq_zero (by omega)
  rw [hfinish]
  refine ⟨?_, hbits⟩
  rw [← hacc, ← hnacc]
  exact encodedBits_frame ..

/-! ### RBIT and RALIGN -/

theorem ibit_eq_seven_iff (s : State) : s.ibit.toNat + 1 = 8 ↔ s.ibit = 7 := by
  rw [← BitVec.toNat_inj]
  exact Nat.succ_inj

/-- The cursor one bit further, register by register (R203). -/
theorem skipBit_eq (s : State) : s.skipBit = { s with
    ibit := if s.ibit = 7 then 0 else s.ibit + 1, ipos := if s.ibit = 7 then s.ipos + 1 else s.ipos } := by
  simp only [State.skipBit, ibit_eq_seven_iff, ofNat_toNat_succ]
  split <;> rfl

/-- Settles O39: both commands run wherever no chunk is open; RBIT's two cases are those of `Avail`, RALIGN's those of
`Align`. -/
theorem rbitAndRalignMoveTheReadCursor : Obligations.RbitAndRalignMoveTheReadCursor := by
  intro s hc
  have hrbit : exec .rbit s = (rbitBody s).outcome := exec_of_accepted rfl (not_failed_of_closed hc) hc
  have hralign : exec .ralign s = .next s.align := exec_of_accepted rfl (not_failed_of_closed hc) hc
  rw [hrbit, hralign, rbitBody]
  refine ⟨fun hlt => ?_, fun hge => ?_, fun hne => ?_, fun h0 => ?_⟩
  · have havail : s.avail = true := decide_eq_true hlt
    rw [if_pos havail, skipBit_eq]
    rfl
  · have hended : ¬ s.avail = true := by simpa [State.avail] using hge
    rw [if_neg hended]
    rfl
  · rw [State.align, if_pos hne, ofNat_toNat_succ]
  · rw [State.align, if_neg (not_not.mpr h0)]

end Sys2Proof.Machine
end

section
/-! ## DSTEP where no token applies (45_chunk_codec.md R225, R226, 60_exceptions.md R262 to R264, R268, R269) -/

namespace Sys2Proof.Machine

open Sys2Proof

/-! ### Walks that reach no leaf (43_huffman.md R181) -/

/-- When the unread bits begin with the path to an absent child, `Walk` ends in a mismatch. -/
theorem walk_of_nil_path {s : State} {T : HTree} {p : Bits} (hT : s.tree = some T) (hne : p ≠ [])
    (hf : T.follow p = some .nil) (hp : p <+: s.unread) : s.walk = .mismatch := by
  have hbits := bitIndex_add_le hne hp
  have htree := ((s.tree_eq_some T).mp hT).1
  obtain ⟨b, q, rfl⟩ := List.exists_cons_of_ne_nil hne
  cases T with
  | nil | leaf => simp [HTree.follow] at hf
  | node l r =>
    rw [State.bitIndex] at hbits
    exact walkFrom_nil (b :: q) _ _ _ (by omega) htree hf hp

/-- When the unread bits end at an internal node, `Walk` is out of bits. -/
theorem walk_of_node_path {s : State} {T l r : HTree} (hT : s.tree = some T)
    (hf : T.follow s.unread = some (.node l r)) : s.walk = .exhausted := by
  have htree := ((s.tree_eq_some T).mp hT).1
  cases T with
  | nil | leaf => cases hu : s.unread <;> simp [hu, HTree.follow] at hf
  | node => exact walkFrom_exhausted s.unread _ _ _ htree hf rfl

/-! ### Error entry in a decode state (R268, R269) -/

/-- The roll-back of R269: the output is the chunk's start again. -/
theorem State.raise_of_decoding {s : State} (h : s.state = .headerParsed ∨ s.state = .decoding) (k : ErrorKind)
    (info : Word) : s.raise k info =
      { s with estate := s.state, err := some k, errinfo := info, olen := s.omark, state := .failed } := by
  rw [State.raise, if_pos h]

theorem length_expandCopy (o n : Nat) (H : List Byte) : (expandCopy o n H).length = n := by
  induction n generalizing H with
  | zero => rfl
  | succ n ih => rw [expandCopy, List.length_cons, ih]

section
variable {s t : State} {w : Word} {x : Symbol}

/-- A match that reaches behind the history raises (R225, R264). -/
theorem dstepSymbol_of_bad_offset {o : BitVec 16} {l : BitVec 8} (hx : symbolOf w = some (.copy o l))
    (hfill : s.fill.toNat < o.toNat) : dstepSymbol s t w = .raised .invalidMatchReference w s := by
  rw [dstepSymbol, hx]
  exact if_neg (Nat.not_le.mpr hfill)

/-- A token that does not fit raises (R210, R225). -/
theorem dstepSymbol_of_no_room (hx : symbolOf w = some x) (hstop : x ≠ .stop)
    (hfill : ∀ o l, x = .copy o l → o.toNat ≤ s.fill.toNat)
    (hroom : s.params.outMax < s.olen.toNat + (expand s.history x).length) :
    dstepSymbol s t w = .raised .resourceExhausted 2 s := by
  have hnot : ¬ s.hasRoom (expand s.history x).length = true := fun h => absurd (hasRoom_iff.mp h) (by omega)
  rw [dstepSymbol, hx]
  cases x with
  | stop => exact absurd rfl hstop
  | literal b => exact if_neg hnot
  | copy o l =>
    rw [expand, length_expandCopy] at hnot
    exact (if_pos (hfill o l rfl)).trans (if_neg hnot)

end

/-- Settles O43: the walk ends as the unread bits say, and a symbol that cannot be applied raises on the state before
the walk, in a decode state. -/
theorem dstepEndsOrRaisesWhereNoTokenApplies : Obligations.DstepEndsOrRaisesWhereNoTokenApplies := by
  intro s T _ hs hT failedWith at_
  have hraise : ∀ k info, (Res.raised k info s).outcome = .next (failedWith k info) := fun k info =>
    congrArg _ (State.raise_of_decoding hs k info)
  rw [exec_dstep hs, dstepBody]
  refine ⟨fun p hne hf hp => ?_, fun l r hf => ?_, fun p k w x hne hf hp hx => ?_⟩
  · rw [walk_of_nil_path hT hne hf hp]
    exact hraise _ _
  · rw [walk_of_node_path hT hf]
    refine ⟨fun hlast => ?_, fun hlast => ?_⟩
    · simp only [if_pos hlast]
      rfl
    · simp only [hlast, Bool.false_eq_true, if_false]
      exact hraise _ _
  · rw [walk_of_path hT hne hf hp]
    refine ⟨fun o l hcopy hfill => ?_, fun hfill hstop hroom => ?_⟩
    · subst hcopy
      exact (congrArg Res.outcome (dstepSymbol_of_bad_offset hx hfill)).trans (hraise _ _)
    · exact (congrArg Res.outcome (dstepSymbol_of_no_room hx hstop hfill hroom)).trans (hraise _ _)

end Sys2Proof.Machine
end

section
/-! ## STATE follows the transition table (45_chunk_codec.md R221) -/

namespace Sys2Proof.Machine

open Sys2Proof

/-! ### Where a command that completes leaves STATE -/

theorem Res.NoIllegal.of_eq_ok {Q : State → Prop} {r : Res} {t : State} (h : r.NoIllegal Q) (hr : r = .ok t) : Q t := by
  subst hr
  exact h

theorem estepBody_noIllegal (s : State) : (estepBody s).NoIllegal (·.state = .encoding) :=
  .withCode fun _ => .needOut rfl

theorem efinBody_noIllegal (s : State) : (efinBody s).NoIllegal (·.state = .done) :=
  .withCode fun _ => .needOut rfl

/-- What DSTEP leaves where it completes: the chunk ended, or a symbol applied with the cursor where the walk left it
(R225). -/
theorem dstepBody_cases {s t : State} (h : dstepBody s = .ok t) :
    (t.state = .done ∧ (t = s.endChunk ∨ ∃ w u, s.walk = .symbol w u ∧ t = u.stopChunk)) ∨
    (t.state = .decoding ∧ ∃ w u, s.walk = .symbol w u ∧ t.ipos = u.ipos ∧ t.ibit = u.ibit) := by
  unfold dstepBody at h
  split at h
  · next w u hw =>
    unfold dstepSymbol at h
    split at h
    · cases h
    · exact Res.ok.inj h ▸ .inl ⟨rfl, .inr ⟨w, u, hw, rfl⟩⟩
    · split at h
      · exact Res.ok.inj h ▸ .inr ⟨rfl, w, u, hw, rfl, rfl⟩
      · cases h
    · split at h
      · split at h
        · exact Res.ok.inj h ▸ .inr ⟨rfl, w, u, hw, by simp, by simp⟩
        · cases h
      · cases h
  · split at h
    · exact Res.ok.inj h ▸ .inl ⟨rfl, .inl rfl⟩
    · cases h
  · cases h

/-- EFIN is the last primitive of ENCCHUNK (R227). -/
theorem done_of_encchunkBody {s t : State} (h : encchunkBody s = .ok t) : t.state = .done := by
  rw [encchunkBody, Res.inComposite_eq_ok, encchunkSteps] at h
  obtain ⟨_, -, h⟩ := Res.andThen_eq_ok.mp h
  obtain ⟨_, -, h⟩ := Res.andThen_eq_ok.mp h
  obtain ⟨_, -, h⟩ := Res.andThen_eq_ok.mp h
  obtain ⟨_, -, h⟩ := Res.andThen_eq_ok.mp h
  obtain ⟨u, -, h⟩ := Res.andThen_eq_ok.mp h
  exact (efinBody_noIllegal u).of_eq_ok (runChecked_eq_ok h).2.2

/-- DECCHUNK repeats DSTEP until `Done` (R228). -/
theorem done_of_decchunkBody {s t : State} (h : decchunkBody s = .ok t) : t.state = .done := by
  rw [decchunkBody, Res.inComposite_eq_ok, decchunkSteps] at h
  obtain ⟨u, -, h⟩ := Res.andThen_eq_ok.mp h
  simpa using repeatWhile_ends h

/-- What the rounds of a loop keep holds where it completes. -/
theorem repeatWhile_ok {P : State → Prop} {cond : State → Bool} {body : State → Res}
    (hb : ∀ s t, P s → cond s = true → body s = .ok t → P t) (n : Nat) {s t : State} (hs : P s) (h : repeatWhile cond body n s = .ok t) :
    P t := by
  induction n generalizing s with
  | zero =>
    unfold repeatWhile at h
    split at h
    · cases h
    · exact Res.ok.inj h ▸ hs
  | succ n ih =>
    unfold repeatWhile at h
    split at h
    · obtain ⟨u, hu, h⟩ := Res.andThen_eq_ok.mp h
      exact ih (hb _ _ hs ‹_› hu) h
    · exact Res.ok.inj h ▸ hs

/-- What every chunk's end satisfies, the file's end does (46_container.md R246, R247). -/
theorem untilInputUsed_ok {P : State → Prop} {body : State → Res} (hb : ∀ s t, body s = .ok t → P t) {s t : State}
    (h : untilInputUsed body s = .ok t) : P t := by
  obtain ⟨u, hu, h⟩ := Res.andThen_eq_ok.mp h
  exact repeatWhile_ok (fun v t _ _ => hb v t) _ (hb _ _ hu) h

theorem done_of_compressBody {s t : State} (h : compressBody s = .ok t) : t.state = .done := by
  unfold compressBody at h
  split at h
  · exact untilInputUsed_ok (fun _ _ hu => done_of_encchunkBody (runChecked_eq_ok hu).2.2) (Res.inComposite_eq_ok.mp h)
  · cases h

theorem done_of_decompressBody {s t : State} (h : decompressBody s = .ok t) : t.state = .done := by
  unfold decompressBody at h
  split at h
  · cases h
  · exact untilInputUsed_ok (fun _ _ hu => done_of_decchunkBody (runChecked_eq_ok hu).2.2) (Res.inComposite_eq_ok.mp h)

/-! ### The table (R221) -/

/-- Where its row of the legality table holds, a command that completes takes STATE along its row of R221. -/
theorem transition_of_body {i : Instr} {s t : State} (hl : legalIn i s.state = true) (hb : bodyOf i s = .ok t) :
    Transition i s.state t.state := by
  have hkept (hr : i ≠ .reset) (hw : writes i .state = false) : t.state = s.state := by
    have hkeeps := body_keeps hr s
    rw [hb] at hkeeps
    exact hkeeps .state hw
  cases i with
  | reset =>
    obtain rfl := Res.ok.inj hb
    rfl
  | cbegin =>
    obtain rfl := Res.ok.inj hb
    exact ⟨noChunk_iff.mp hl, rfl⟩
  | build =>
    replace hb : buildBody s = .ok t := hb
    unfold buildBody at hb
    split at hb
    · cases hb
    · obtain rfl := Res.ok.inj hb
      exact ⟨of_decide_eq_true hl, rfl⟩
  | tload => exact ⟨noChunk_iff.mp hl, (tloadBody_noIllegal s).of_eq_ok hb⟩
  | estep => exact ⟨by simpa [legalIn] using hl, (estepBody_noIllegal s).of_eq_ok hb⟩
  | efin => exact ⟨by simpa [legalIn] using hl, (efinBody_noIllegal s).of_eq_ok hb⟩
  | dstep =>
    exact ⟨by simpa [legalIn] using hl, (dstepBody_cases hb).symm.imp And.left And.left⟩
  | encchunk => exact ⟨noChunk_iff.mp hl, done_of_encchunkBody hb⟩
  | decchunk => exact ⟨noChunk_iff.mp hl, done_of_decchunkBody hb⟩
  | compress => exact ⟨noChunk_iff.mp hl, done_of_compressBody hb⟩
  | decompress => exact ⟨noChunk_iff.mp hl, done_of_decompressBody hb⟩
  | nop | csrw | csrr | push | iclr | oclr | lbclr | lbrec | lbfind | mstep | tstore | wbits | wfin | rbit | ralign =>
    exact hkept nofun rfl

/-- Settles O16: a command raises, or it completes and takes its row of the table. -/
theorem stateChangesFollowTheTransitionTable : Obligations.StateChangesFollowTheTransitionTable := by
  intro i s t hf he
  rcases exec_next he with ⟨hfailed, -⟩ | ⟨-, rfl⟩ | ⟨hl, -, hb, -⟩
  · exact absurd hfailed hf
  · exact .inl rfl
  · rcases Res.outcome_next hb with hok | ⟨_, _, _, -, rfl⟩
    · exact .inr (transition_of_body hl hok)
    · exact .inl rfl

end Sys2Proof.Machine
end

section
/-! ## A composite command is its primitives in sequence (45_chunk_codec.md R227 to R229, 46_container.md R246, R247) -/

namespace Sys2Proof.Machine

open Sys2Proof

/-! ### Loops as their bodies repeated -/

section
variable {P : State → Prop} {cond : State → Bool} {body : State → Res} {measure : State → Nat}
  (hround : ∀ s t, P s → cond s = true → body s = .ok t → P t ∧ (cond t = true → measure t < measure s))
include hround

/-- A loop whose rounds lower a measure answers the same with any bound above it. -/
theorem repeatWhile_bound (n : Nat) : ∀ (m : Nat) {s : State}, P s → (cond s = true → measure s < n) →
    (cond s = true → measure s < m) → repeatWhile cond body n s = repeatWhile cond body m s := by
  induction n with
  | zero =>
    intro m s _ hn _
    have hfalse : ¬ cond s = true := fun hc => absurd (hn hc) (Nat.not_lt_zero _)
    cases m <;> simp [repeatWhile, hfalse]
  | succ n ih =>
    intro m s hs hn hm
    by_cases hc : cond s = true
    · obtain ⟨m, rfl⟩ : ∃ k, m = k + 1 := ⟨m - 1, by have := hm hc; omega⟩
      rw [repeatWhile, repeatWhile, if_pos hc, if_pos hc]
      cases hb : body s with
      | ok t =>
        obtain ⟨ht, hlt⟩ := hround s t hs hc hb
        have hn := hn hc
        have hm := hm hc
        exact ih m ht (fun h => by have := hlt h; omega) (fun h => by have := hlt h; omega)
      | raised | stuck => rfl
    · cases m <;> simp [repeatWhile, hc]

/-- A loop bounded by what its state says is one round and the loop again. -/
theorem repeatWhile_unroll {bound : State → Nat} (hbound : ∀ s, P s → cond s = true → measure s < bound s) {s : State}
    (hs : P s) : repeatWhile cond body (bound s) s =
      if cond s then (body s).andThen fun t => repeatWhile cond body (bound t) t else .ok s := by
  split
  · next hc =>
    have hlt := hbound s hs hc
    obtain ⟨n, hn⟩ : ∃ n, bound s = n + 1 := ⟨bound s - 1, by omega⟩
    rw [hn, repeatWhile, if_pos hc]
    cases hb : body s with
    | ok t =>
      obtain ⟨ht, hdec⟩ := hround s t hs hc hb
      exact repeatWhile_bound hround n (bound t) ht (fun h => by have := hdec h; omega) (hbound t ht)
    | raised | stuck => rfl
  · next hc => cases bound s <;> simp [repeatWhile, hc]

end

/-- What a checked command that completes keeps. -/
theorem registers_of_checked {i : Instr} (hr : i ≠ .reset) {s t : State} (h : RegisterInv s)
    (hc : runChecked i (bodyOf i) s = .ok t) : RegisterInv t := by
  have hall := (registerInv_stepInvariant.body hr).checked h
  rwa [hc] at hall

theorem keeps_of_checked {i : Instr} (hr : i ≠ .reset) {s t : State} (hc : runChecked i (bodyOf i) s = .ok t) :
    Keeps i s t := by
  have hall := body_keeps hr s
  rwa [(runChecked_eq_ok hc).2.2] at hall

/-- MSTEP consumes input (R162). -/
theorem mstep_round {s t : State} (h : RegisterInv s) (hc : runChecked .mstep mstepBody s = .ok t) :
    RegisterInv t ∧ s.ipos.toNat < t.ipos.toNat ∧ t.ipos.toNat ≤ t.cend.toNat ∧ t.cend = s.cend := by
  obtain ⟨hl, hp, hb⟩ := runChecked_eq_ok hc
  obtain ⟨c, hbody, -, hcol, hipos, hend⟩ := mstepWith_collected h (of_decide_eq_true hl) (of_decide_eq_true hp)
  obtain rfl : c = t := Res.ok.inj (hbody.symm.trans hb)
  have hcend : c.cend = s.cend := hcol.keeps .cend rfl
  exact ⟨hcol.registers, hipos, hcend ▸ hend, hcend⟩

theorem collectAll_unroll {s : State} (h : RegisterInv s) : collectAll s =
    if s.ipos.toNat < s.cend.toNat then (runChecked .mstep mstepBody s).andThen collectAll else .ok s := by
  have hloop := repeatWhile_unroll (P := RegisterInv) (cond := fun s => decide (s.ipos.toNat < s.cend.toNat))
    (body := runChecked .mstep mstepBody) (measure := fun s => s.cend.toNat - s.ipos.toNat - 1)
    (bound := fun s => s.cend.toNat - s.ipos.toNat) (fun s t hs _ hb => ?_) (fun s _ hc => ?_) h
  · simp only [decide_eq_true_eq] at hloop
    exact hloop
  · obtain ⟨ht, hlt, -, hcend⟩ := mstep_round hs hb
    refine ⟨ht, fun hc => ?_⟩
    have := of_decide_eq_true hc
    rw [hcend] at this ⊢
    omega
  · have := of_decide_eq_true hc
    omega

/-- ESTEP steps to the next token (R222). -/
theorem estep_round {s t : State} (hc : runChecked .estep estepBody s = .ok t) :
    t.eidx.toNat = s.eidx.toNat + 1 ∧ t.ntok = s.ntok := by
  obtain ⟨-, hp, hb⟩ := runChecked_eq_ok hc
  have hlt : s.eidx.toNat < s.ntok.toNat := of_decide_eq_true hp
  have hmax := s.ntok.isLt
  have hnext : (estepBody s).NoIllegal (·.eidx = BitVec.ofNat 16 (s.eidx.toNat + 1)) := .withCode fun _ => .needOut rfl
  refine ⟨?_, keeps_of_checked (i := .estep) nofun hc .ntok rfl⟩
  rw [hnext.of_eq_ok hb, BitVec.toNat_ofNat, Nat.mod_eq_of_lt (by omega)]

theorem encodeAll_unroll (s : State) : encodeAll s =
    if s.eidx.toNat < s.ntok.toNat then (runChecked .estep estepBody s).andThen encodeAll else .ok s := by
  have hloop := repeatWhile_unroll (P := fun _ => True) (cond := fun s => decide (s.eidx.toNat < s.ntok.toNat))
    (body := runChecked .estep estepBody) (measure := fun s => s.ntok.toNat - s.eidx.toNat - 1)
    (bound := fun s => s.ntok.toNat - s.eidx.toNat) (fun s t _ _ hb => ?_) (fun s _ hc => ?_) (s := s) trivial
  · simp only [decide_eq_true_eq] at hloop
    exact hloop
  · obtain ⟨heidx, hntok⟩ := estep_round hb
    refine ⟨trivial, fun hc => ?_⟩
    have := of_decide_eq_true hc
    rw [hntok] at this ⊢
    omega
  · have := of_decide_eq_true hc
    omega

/-- DSTEP consumes at least a bit, unless it ends the chunk (R225, R229). -/
theorem dstep_round {s t : State} (h : RegisterInv s) (hc : runChecked .dstep dstepBody s = .ok t) :
    RegisterInv t ∧ t.ilen = s.ilen ∧ (t.state ≠ .done → s.bitIndex < t.bitIndex) := by
  have ht := registers_of_checked (i := .dstep) nofun h hc
  refine ⟨ht, keeps_of_checked (i := .dstep) nofun hc .ilen rfl, fun hne => ?_⟩
  rcases dstepBody_cases (runChecked_eq_ok hc).2.2 with ⟨hdone, -⟩ | ⟨-, w, u, hw, hipos, hibit⟩
  · exact absurd hdone hne
  · have hcursor : t.bitIndex = u.bitIndex := by rw [State.bitIndex, hipos, hibit, State.bitIndex]
    exact hcursor ▸ (walk_symbol hw).2.1

/-- The cursor of a state under the invariant is no further than the end of the input (10_state.md R48). -/
theorem bitIndex_le {s : State} (h : RegisterInv s) : s.bitIndex ≤ 8 * s.ilen.toNat := by
  have hle := h.ipos_le
  have hibit := s.ibit.isLt
  rw [State.bitIndex]
  by_cases hend : s.ipos = s.ilen
  · rw [h.ibit_end hend, hend]
    simp
  · have : s.ipos.toNat ≠ s.ilen.toNat := fun he => hend (BitVec.eq_of_toNat_eq he)
    omega

/-- DSTEP never moves the cursor back (R225). -/
theorem dstep_ipos_le {s t : State} (h : RegisterInv s) (hc : runChecked .dstep dstepBody s = .ok t) :
    s.ipos.toNat ≤ t.ipos.toNat := by
  obtain ⟨hl, -, hb⟩ := runChecked_eq_ok hc
  have hstate : s.state ≠ .collecting := fun hs => by
    rw [hs] at hl
    cases hl
  have hmoved {w : Word} {u : State} (hw : s.walk = .symbol w u) : RegisterInv u ∧ s.bitIndex < u.bitIndex :=
    ⟨(walk_symbol hw).2.2.2 h hstate, (walk_symbol hw).2.1⟩
  rcases dstepBody_cases hb with ⟨-, rfl | ⟨w, u, hw, rfl⟩⟩ | ⟨-, w, u, hw, hipos, -⟩
  · exact h.ipos_le
  · obtain ⟨hu, hlt⟩ := hmoved hw
    have hle := bitIndex_le hu
    have hilen := hu.ilen_lt
    have hge : 8 * s.ipos.toNat ≤ s.bitIndex := Nat.le_add_right ..
    rw [State.stopChunk_ipos, align_ipos_toNat (by omega)]
    omega
  · have hlt := (hmoved hw).2
    have hibit := u.ibit.isLt
    rw [State.bitIndex, State.bitIndex] at hlt
    rw [hipos]
    omega

theorem decodeAll_unroll {s : State} (h : RegisterInv s) : decodeAll s =
    if s.state ≠ .done then (runChecked .dstep dstepBody s).andThen decodeAll else .ok s := by
  have hloop := repeatWhile_unroll (P := RegisterInv) (cond := fun s => decide (s.state ≠ .done))
    (body := runChecked .dstep dstepBody) (measure := fun s => 8 * s.ilen.toNat - s.bitIndex)
    (bound := fun s => 8 * (s.ilen.toNat - s.ipos.toNat) + 1) (fun s t hs _ hb => ?_) (fun s hs hc => ?_) h
  · simp only [decide_eq_true_eq] at hloop
    exact hloop
  · obtain ⟨ht, hilen, hlt⟩ := dstep_round hs hb
    refine ⟨ht, fun hc => ?_⟩
    have := hlt (of_decide_eq_true hc)
    have := bitIndex_le ht
    rw [hilen] at this ⊢
    omega
  · rw [State.bitIndex]
    omega

/-- `repeat: body until IPOS >= ILEN` is a round and, while bytes remain, the rest, if each round that leaves bytes has
taken some. -/
theorem untilInputUsed_unroll {P : State → Prop} {body : State → Res}
    (hround : ∀ s t, P s → body s = .ok t →
      P t ∧ (t.ipos.toNat < t.ilen.toNat → s.ipos.toNat < t.ipos.toNat ∧ t.ilen = s.ilen)) {s : State} (hs : P s) :
    untilInputUsed body s =
      (body s).andThen fun t => if t.ipos.toNat < t.ilen.toNat then untilInputUsed body t else .ok t := by
  rw [untilInputUsed]
  cases hb : body s with
  | ok t =>
    have hloop := repeatWhile_unroll (P := P) (cond := fun s => decide (s.ipos.toNat < s.ilen.toNat)) (body := body)
      (measure := fun s => s.ilen.toNat - s.ipos.toNat - 1) (bound := fun s => s.ilen.toNat - s.ipos.toNat)
      (fun s t hs _ hb => ?_) (fun s _ hc => ?_) (hround s t hs hb).1
    · simpa [untilInputUsed] using hloop
    · obtain ⟨ht, hlt⟩ := hround s t hs hb
      refine ⟨ht, fun hc => ?_⟩
      have hc := of_decide_eq_true hc
      obtain ⟨hipos, hilen⟩ := hlt hc
      rw [hilen] at hc ⊢
      omega
    · have := of_decide_eq_true hc
      omega
  | raised | stuck => rfl

/-! ### Commands issued one after another -/

/-- Outside `Failed` a command is its checks and its pseudocode (R120). -/
theorem exec_of_not_failed {i : Instr} {s : State} (hf : s.state ≠ .failed) :
    exec i s = (runChecked i (bodyOf i) s).outcome := by
  rw [exec_eq_command, command, if_neg hf]

/-- A command that does not end in `Failed` has passed its checks and completed. -/
theorem checked_of_exec {i : Instr} {s t : State} (hi : runsInFailed i = false) (he : exec i s = .next t)
    (ht : t.state ≠ .failed) : runChecked i (bodyOf i) s = .ok t := by
  by_cases hf : s.state = .failed
  · rw [exec_eq_command, command, if_pos hf, if_neg (by simp [hi])] at he
    exact absurd (Host.Outcome.next.inj he ▸ hf) ht
  · rw [exec_of_not_failed hf] at he
    rcases Res.outcome_next he with hok | ⟨_, _, _, -, rfl⟩
    · exact hok
    · exact absurd rfl ht

theorem runs_cons {i : Instr} {is : List Instr} {s u : State} (hi : runsInFailed i = false) :
    Runs (i :: is) s u → ∃ t, runChecked i (bodyOf i) s = .ok t ∧ t.state ≠ .failed ∧ Runs is t u
  | .step he ht h => ⟨_, checked_of_exec hi he ht, ht, h⟩

theorem runs_singleton {i : Instr} {s u : State} (hi : runsInFailed i = false) (h : Runs [i] s u) :
    runChecked i (bodyOf i) s = .ok u := by
  obtain ⟨t, hc, -, hd⟩ := runs_cons hi h
  cases hd
  exact hc

theorem runs_append {is js : List Instr} {s u : State} (h : Runs (is ++ js) s u) : ∃ t, Runs is s t ∧ Runs js t u := by
  induction is generalizing s with
  | nil => exact ⟨s, .done s, h⟩
  | cons i is ih =>
    cases h with
    | step he ht h =>
      obtain ⟨v, h1, h2⟩ := ih h
      exact ⟨v, .step he ht h1, h2⟩

/-- A loop that is one round of a command and itself again is, after rounds of that command, what it is then. -/
theorem loop_of_runs {i : Instr} {P : State → Prop} {loop : State → Res} (hi : runsInFailed i = false)
    (hround : ∀ s t, P s → runChecked i (bodyOf i) s = .ok t → P t ∧ loop s = loop t) {k : Nat} {s u : State} (hs : P s)
    (h : Runs (List.replicate k i) s u) : P u ∧ loop s = loop u := by
  induction k generalizing s with
  | zero =>
    cases h
    exact ⟨hs, rfl⟩
  | succ k ih =>
    obtain ⟨t, hc, -, h⟩ := runs_cons hi h
    obtain ⟨ht, hloop⟩ := hround s t hs hc
    obtain ⟨hu, hrest⟩ := ih ht h
    exact ⟨hu, hloop.trans hrest⟩

theorem collectAll_of_runs {k : Nat} {s u : State} (h : RegisterInv s) (hr : Runs (List.replicate k .mstep) s u) :
    RegisterInv u ∧ collectAll s = collectAll u := by
  refine loop_of_runs rfl (fun s t hs hc => ⟨registers_of_checked (i := .mstep) nofun hs hc, ?_⟩) h hr
  have hlt : s.ipos.toNat < s.cend.toNat := of_decide_eq_true (runChecked_eq_ok hc).2.1
  rw [collectAll_unroll hs, if_pos hlt, show runChecked .mstep mstepBody s = .ok t from hc, ok_andThen]

theorem encodeAll_of_runs {k : Nat} {s u : State} (h : s.state = .treeReady ∨ s.state = .encoding)
    (hr : Runs (List.replicate k .estep) s u) :
    (u.state = .treeReady ∨ u.state = .encoding) ∧ encodeAll s = encodeAll u := by
  refine loop_of_runs (P := fun s => s.state = .treeReady ∨ s.state = .encoding) rfl (fun s t _ hc => ⟨?_, ?_⟩) h hr
  · exact .inr ((estepBody_noIllegal s).of_eq_ok (runChecked_eq_ok hc).2.2)
  · have hlt : s.eidx.toNat < s.ntok.toNat := of_decide_eq_true (runChecked_eq_ok hc).2.1
    rw [encodeAll_unroll, if_pos hlt, show runChecked .estep estepBody s = .ok t from hc, ok_andThen]

theorem decodeAll_of_runs {k : Nat} {s u : State} (h : RegisterInv s ∧ DecodesOrEnded s)
    (hr : Runs (List.replicate k .dstep) s u) :
    (RegisterInv u ∧ DecodesOrEnded u) ∧ decodeAll s = decodeAll u := by
  refine loop_of_runs (P := fun s => RegisterInv s ∧ DecodesOrEnded s) rfl (fun s t hs hc => ⟨⟨?_, ?_⟩, ?_⟩) h hr
  · exact registers_of_checked (i := .dstep) nofun hs.1 hc
  · exact (dstepBody_noIllegal s).of_eq_ok (runChecked_eq_ok hc).2.2
  · have hne : s.state ≠ .done := fun hd => by
      have hl := (runChecked_eq_ok hc).1
      rw [hd] at hl
      cases hl
    rw [decodeAll_unroll hs.1, if_pos hne, show runChecked .dstep dstepBody s = .ok t from hc, ok_andThen]

/-! ### The chunk composites along their primitives (R227, R228) -/

/-- What ENCCHUNK does once the chunk's tree is built (R227). -/
def storeChunk (s : State) : Res :=
  (runChecked .tstore tstoreBody s).andThen fun t => (encodeAll t).andThen (runChecked .efin efinBody)

theorem runs_registers {is : List Instr} {s u : State} (h : RegisterInv s) (hr : Runs is s u) : RegisterInv u := by
  induction hr with
  | done => exact h
  | step he _ _ ih => exact ih (registerInv_stepInvariant.exec_keeps h he)

section
variable {s u : State} (h : RegisterInv s)
include h

theorem encchunkSteps_of_built {m : Nat} (hr : Runs (.cbegin :: (List.replicate m .mstep ++ [.build])) s u) :
    u.state = .treeReady ∧ Accepted .encchunk s ∧ encchunkSteps s = storeChunk u := by
  obtain ⟨c, hbegin, -, hr⟩ := runs_cons rfl hr
  obtain ⟨d, hcollect, hbuild⟩ := runs_append hr
  obtain ⟨hd, hall⟩ := collectAll_of_runs (registers_of_checked (i := .cbegin) nofun h hbegin) hcollect
  replace hbuild : runChecked .build buildBody d = .ok u := runs_singleton rfl hbuild
  obtain ⟨hl, hp, hb⟩ := runChecked_eq_ok hbuild
  have hend : d.ipos = d.cend := of_decide_eq_true hp
  have hrow : legalIn .cbegin s.state = true ∧ precondition .cbegin s = true :=
    ⟨(runChecked_eq_ok hbegin).1, (runChecked_eq_ok hbegin).2.1⟩
  refine ⟨(transition_of_body (i := .build) hl hb).2, (accepted_iff .encchunk s).mpr hrow, ?_⟩
  rw [encchunkSteps, show runChecked .cbegin cbeginBody s = .ok c from hbegin, ok_andThen, hall, collectAll_unroll hd,
    if_neg (by rw [hend]; exact lt_irrefl _), ok_andThen, hbuild, ok_andThen]
  rfl

theorem encchunkSteps_of_encoding {m k : Nat}
    (hr : Runs (.cbegin :: (List.replicate m .mstep ++ [.build, .tstore] ++ List.replicate k .estep)) s u) :
    (u.state = .treeReady ∨ u.state = .encoding) ∧ Accepted .encchunk s ∧
      encchunkSteps s = (encodeAll u).andThen (runChecked .efin efinBody) := by
  rw [show Instr.cbegin :: (List.replicate m .mstep ++ [.build, .tstore] ++ List.replicate k .estep) =
    (.cbegin :: (List.replicate m .mstep ++ [.build])) ++ (.tstore :: List.replicate k .estep) by simp] at hr
  obtain ⟨b, hbuilt, hr⟩ := runs_append hr
  obtain ⟨hready, hrow, hsteps⟩ := encchunkSteps_of_built h hbuilt
  obtain ⟨c, hstore, -, hr⟩ := runs_cons rfl hr
  have hstate : c.state = b.state := keeps_of_checked (i := .tstore) nofun hstore .state rfl
  obtain ⟨hu, hall⟩ := encodeAll_of_runs (.inl (hstate.trans hready)) hr
  refine ⟨hu, hrow, ?_⟩
  rw [hsteps, storeChunk, show runChecked .tstore tstoreBody b = .ok c from hstore, ok_andThen, hall]

theorem decchunkSteps_of_runs {k : Nat} (hr : Runs (.tload :: List.replicate k .dstep) s u) :
    DecodesOrEnded u ∧ Accepted .decchunk s ∧ decchunkSteps s = decodeAll u := by
  obtain ⟨c, hload, -, hr⟩ := runs_cons rfl hr
  have hrow : legalIn .tload s.state = true ∧ precondition .tload s = true :=
    ⟨(runChecked_eq_ok hload).1, (runChecked_eq_ok hload).2.1⟩
  have hparsed : DecodesOrEnded c := .inl (.inl ((tloadBody_noIllegal s).of_eq_ok (runChecked_eq_ok hload).2.2))
  obtain ⟨⟨-, hu⟩, hall⟩ := decodeAll_of_runs ⟨registers_of_checked (i := .tload) nofun h hload, hparsed⟩ hr
  refine ⟨hu, (accepted_iff .decchunk s).mpr hrow, ?_⟩
  rw [decchunkSteps, show runChecked .tload tloadBody s = .ok c from hload, ok_andThen, hall]

end

/-! ### What a composite answers (R229) -/

/-- Where no `IllegalCommand` is raised the composite reports its primitives' outcome unchanged. -/
theorem outcome_inComposite {Q : State → Prop} {r : Res} {w : Word} (h : (r.inComposite w).NoIllegal Q) :
    (r.inComposite w).outcome = r.outcome := by
  cases r with
  | ok | stuck => rfl
  | raised k =>
    cases k with
    | illegalCommand => exact absurd rfl h
    | _ => rfl

theorem not_failed_of_accepted {i : Instr} {s : State} (hi : Composite i = true) (h : Accepted i s) :
    s.state ≠ .failed := by
  intro hf
  have hl := ((accepted_iff i s).mp h).1
  cases i with
  | encchunk | decchunk | compress | decompress =>
    rw [hf] at hl
    cases hl
  | _ => cases hi

/-- An accepted composite whose pseudocode is `r` under its own word answers `r`'s outcome. -/
theorem exec_composite {i : Instr} {s : State} {r : Res} {w : Word} (hi : Composite i = true) (h : RegisterInv s)
    (hrow : Accepted i s) (hbody : bodyOf i s = r.inComposite w) : exec i s = r.outcome := by
  have hwf : i.wellFormed = true := by
    cases i with
    | wbits => cases hi
    | _ => rfl
  have hno := body_noIllegal h hrow
  rw [exec_of_accepted hwf (not_failed_of_accepted hi hrow) hrow]
  rw [hbody] at hno ⊢
  exact outcome_inComposite hno

theorem exec_encchunk {s : State} (h : RegisterInv s) (hrow : Accepted .encchunk s) :
    exec .encchunk s = (encchunkSteps s).outcome := exec_composite rfl h hrow rfl

theorem exec_decchunk {s : State} (h : RegisterInv s) (hrow : Accepted .decchunk s) :
    exec .decchunk s = (decchunkSteps s).outcome := exec_composite rfl h hrow rfl

/-- COMPRESS after the file header (R246). -/
theorem exec_compress {s : State} (h : RegisterInv s) (hrow : Accepted .compress s) (h6 : 6 ≤ s.params.outMax) :
    exec .compress s = (untilInputUsed (runChecked .encchunk encchunkBody) s.fileStart).outcome :=
  exec_composite (w := encode .compress) rfl h hrow (if_pos h6)

/-- DECOMPRESS after the file header (R247). -/
theorem exec_decompress {s : State} {cap : BitVec 16} (h : RegisterInv s) (hrow : Accepted .decompress s)
    (hh : s.readHeader s.ipos.toNat = .ok cap) :
    exec .decompress s = (untilInputUsed (runChecked .decchunk decchunkBody) (s.openFile cap)).outcome :=
  exec_composite (w := encode .decompress) rfl h hrow (by rw [bodyOf, decompressBody, hh])

/-! ### The file header (46_container.md R245 to R247) -/

/-- The start of a file is given by its registers and its output bytes: equal memories are equal lists. -/
theorem eq_fileStart {s u : State} (hu : u = { s with
      olen := u.olen, omark := 0, acc := 0, nacc := 0, wptr := 0, fill := 0, obuf := u.obuf })
    (hs : Memory.wf s.obuf = true) (hw : Memory.wf u.obuf = true) (holen : u.olen = 6)
    (hhead : u.obufSlice 0 6 = fileHeader s.cap) (hrest : ∀ a, 6 ≤ a → u.obufAt a = s.obufAt a) : u = s.fileStart := by
  have hstart := fileStart_appended s
  have hlen : s.fileStart.olen = u.olen := BitVec.eq_of_toNat_eq (by simpa [length_fileHeader, holen] using hstart.olen_eq)
  have hbuf : s.fileStart.obuf = Mem.writeSeq (0 : Byte) s.obuf 0 (fileHeader s.cap) :=
    State.appendBytes_obuf _ _ (by simp [length_fileHeader])
  have hobuf : s.fileStart.obuf = u.obuf := by
    refine Mem.ext_of_wf (by rw [hbuf]; exact Mem.wf_writeSeq _ _ hs) hw fun a => ?_
    by_cases ha : a < 6
    · have h1 := Mem.getD_readSeq (d := (0 : Byte)) u.obuf 0 6 a 0 ha
      have h2 := Mem.getD_readSeq (d := (0 : Byte)) s.fileStart.obuf 0 6 a 0 ha
      have h3 : s.fileStart.obufSlice 0 6 = fileHeader s.cap := hstart.bytes_eq
      rw [State.obufSlice] at h3 hhead
      rw [Nat.zero_add] at h1 h2
      rw [← h1, ← h2, h3, hhead]
    · rw [show Mem.read 0 s.fileStart.obuf a = s.fileStart.obufAt a from rfl,
        hstart.others_kept a (.inr (by simp [length_fileHeader]; omega))]
      exact (hrest a (by omega)).symm
  have hframe : s.fileStart = { s with
      olen := s.fileStart.olen, omark := 0, acc := 0, nacc := 0, wptr := 0, fill := 0, obuf := s.fileStart.obuf } := by
    rw [State.fileStart, State.appendBytes_frame]
    rfl
  rw [hu, hframe, hlen, hobuf]

theorem capOfBytes_extract (cap : BitVec 16) : capOfBytes (cap.extractLsb' 8 8) (cap.extractLsb' 0 8) = cap := by
  refine BitVec.eq_of_toNat_eq ?_
  have := cap.isLt
  rw [capOfBytes, toNat_append_eq, BitVec.extractLsb'_toNat, BitVec.extractLsb'_toNat, Nat.shiftRight_eq_div_pow]
  simp
  omega

theorem readHeader_of_bytes {s : State} {p : Nat} {cap : BitVec 16} (hcap : cap ≠ 0) (hlen : p + 6 ≤ s.ilen.toNat)
    (hbytes : s.ibufSlice p 6 = fileHeader cap) : s.readHeader p = .ok cap := by
  have hat : BytesAt s.ibufAt p (fileHeader cap) := bytesAt_ibuf.mpr hbytes
  simp only [fileHeader, magicBytes, List.cons_append, List.nil_append, bytesAt_cons, Nat.add_assoc, Nat.reduceAdd] at hat
  obtain ⟨h0, h1, h2, h3, h4, h5, -⟩ := hat
  rw [State.readHeader, if_neg (by omega), h0, h1, h2, h3, h4, h5, capOfBytes_extract, if_neg hcap]
  rfl

theorem eq_openFile (s : State) (cap : BitVec 16) : { s with
    olen := 0, omark := 0, acc := 0, nacc := 0, cap := cap, wptr := 0, fill := 0, ipos := s.ipos + 6 } =
      s.openFile cap := by
  have hipos : BitVec.ofNat 32 (s.ipos.toNat + 6) = s.ipos + 6 := by simp [BitVec.ofNat_add]
  rw [State.openFile, hipos]
  rfl

/-! ### Chunk after chunk (46_container.md R246, R247) -/

/-- A chunk command that leaves input has consumed some. -/
def TakesInput (i : Instr) : Prop := ∀ s t, RegisterInv s → runChecked i (bodyOf i) s = .ok t →
  t.ipos.toNat < t.ilen.toNat → s.ipos.toNat < t.ipos.toNat ∧ t.ilen = s.ilen

theorem encchunk_takesInput : TakesInput .encchunk := by
  intro s t h hc hlt
  obtain ⟨hl, hp, hb⟩ := runChecked_eq_ok hc
  obtain ⟨hclosed, hibit, hnacc⟩ := (accepted_iff .encchunk s).mpr ⟨hl, hp⟩
  have hilen : t.ilen = s.ilen := keeps_of_checked (i := .encchunk) nofun hc .ilen rfl
  have hpos := h.chunk_pos
  refine ⟨?_, hilen⟩
  have henc := (Res.NoIllegal.of_fitsOr (encchunkBody_encodes h hclosed hibit hnacc)).of_eq_ok hb
  rw [hilen] at hlt
  omega

theorem decchunk_takesInput : TakesInput .decchunk := by
  intro s t h hc hlt
  obtain ⟨-, -, hb⟩ := runChecked_eq_ok hc
  refine ⟨?_, keeps_of_checked (i := .decchunk) nofun hc .ilen rfl⟩
  obtain ⟨c, hload, hall⟩ := Res.andThen_eq_ok.mp (Res.inComposite_eq_ok.mp (show decchunkBody s = .ok t from hb))
  have hfirst : s.ipos.toNat < c.ipos.toNat := by
    obtain ⟨-, -, hload⟩ := runChecked_eq_ok hload
    unfold tloadBody at hload
    split at hload
    · cases hload
    · next r hr =>
      obtain ⟨T, -, hT, -, -⟩ := loadTree_of_parse hr
      have hlen := T.one_le_length_ser
      rw [← Res.ok.inj hload, loadTree_ipos_toNat hT]
      omega
  have hrest := repeatWhile_ok (P := fun u => RegisterInv u ∧ c.ipos.toNat ≤ u.ipos.toNat)
    (fun u v hu _ hv => ⟨(dstep_round hu.1 hv).1, hu.2.trans (dstep_ipos_le hu.1 hv)⟩) _
    ⟨registers_of_checked (i := .tload) nofun h hload, le_rfl⟩ hall
  exact hfirst.trans_le hrest.2

section
variable {i : Instr} (hr : i ≠ .reset) (hi : runsInFailed i = false) (htake : TakesInput i)
include hr htake

theorem untilInputUsed_command {s : State} (h : RegisterInv s) : untilInputUsed (runChecked i (bodyOf i)) s =
    (runChecked i (bodyOf i) s).andThen fun t =>
      if t.ipos.toNat < t.ilen.toNat then untilInputUsed (runChecked i (bodyOf i)) t else .ok t :=
  untilInputUsed_unroll (P := RegisterInv)
    (fun s t hs hc => ⟨registers_of_checked hr hs hc, htake s t hs hc⟩) h

include hi

theorem untilInputUsed_of_runs {s t : State} (h : RegisterInv s) (hruns : RunsUntilUsed i s t) :
    untilInputUsed (runChecked i (bodyOf i)) s = .ok t := by
  induction hruns with
  | last he ht hused =>
    rw [untilInputUsed_command hr htake h, checked_of_exec hi he ht, ok_andThen, if_neg (Nat.not_lt.mpr hused)]
  | more he ht hleft _ ih =>
    rw [untilInputUsed_command hr htake h, checked_of_exec hi he ht, ok_andThen, if_pos hleft]
    exact ih (registerInv_stepInvariant.exec_keeps h he)

theorem untilInputUsed_of_rounds {s u : State} (h : RegisterInv s) (hrounds : RoundsBefore i s u) :
    untilInputUsed (runChecked i (bodyOf i)) s = untilInputUsed (runChecked i (bodyOf i)) u := by
  induction hrounds with
  | here => rfl
  | more he ht hleft _ ih =>
    rw [untilInputUsed_command hr htake h, checked_of_exec hi he ht, ok_andThen, if_pos hleft]
    exact ih (registerInv_stepInvariant.exec_keeps h he)

end

/-- What every round keeps holds before the last one. -/
theorem rounds_keep {i : Instr} {P : State → Prop} (hi : runsInFailed i = false)
    (hround : ∀ s t, P s → runChecked i (bodyOf i) s = .ok t → P t) {s u : State} (hs : P s)
    (h : RoundsBefore i s u) : P u := by
  induction h with
  | here => exact hs
  | more he ht _ _ ih => exact ih (hround _ _ hs (checked_of_exec hi he ht))

/-- Settles O44: the loops of a composite are its primitives repeated (`collectAll_unroll` and its like), and no
primitive raises. -/
theorem compositesAreTheirPrimitivesInSequence : Obligations.CompositesAreTheirPrimitivesInSequence := by
  intro s t h
  refine ⟨fun m k hr => ?_, fun k hr hdone => ?_, fun hc hibit h6 u hu hw hw' holen hhead hrest hr => ?_,
    fun hc hibit cap hcap hlen hbytes hr => ?_⟩
  · rw [← List.cons_append] at hr
    obtain ⟨u, hruns, hfin⟩ := runs_append hr
    obtain ⟨-, hrow, hsteps⟩ := encchunkSteps_of_encoding h hruns
    replace hfin : runChecked .efin efinBody u = .ok t := runs_singleton rfl hfin
    have hend : u.eidx = u.ntok := of_decide_eq_true (runChecked_eq_ok hfin).2.1
    rw [exec_encchunk h hrow, hsteps, encodeAll_unroll, if_neg (by rw [hend]; exact lt_irrefl _), ok_andThen, hfin]
    rfl
  · obtain ⟨-, hrow, hsteps⟩ := decchunkSteps_of_runs h hr
    rw [exec_decchunk h hrow, hsteps, decodeAll_unroll (runs_registers h hr), if_neg (not_not.mpr hdone)]
    rfl
  · obtain rfl := eq_fileStart hu hw hw' holen hhead hrest
    have hstart : RegisterInv s.fileStart := registerInv_stepInvariant.writeHeader h (noChunk_of_closed hc) h6
    have hall := untilInputUsed_of_runs (i := .encchunk) nofun rfl encchunk_takesInput hstart hr
    rw [exec_compress h ⟨hc, hibit⟩ h6]
    exact congrArg Res.outcome hall
  · rw [eq_openFile] at hr
    have hh := readHeader_of_bytes hcap hlen hbytes
    have hstart : RegisterInv (s.openFile cap) :=
      registerInv_stepInvariant.openFile h (noChunk_of_closed hc) hibit hh
    have hall := untilInputUsed_of_runs (i := .decchunk) nofun rfl decchunk_takesInput hstart hr
    rw [exec_decompress h ⟨hc, hibit⟩ hh]
    exact congrArg Res.outcome hall

/-! ### Where a composite stops (R229, 60_exceptions.md R268, R269) -/

/-- Error entry from the pseudocode leaves `t`. -/
def Res.RaisesTo (t : State) (r : Res) : Prop := ∃ k info u, r = .raised k info u ∧ t = u.raise k info

namespace Res.RaisesTo

variable {t : State} {r : Res}

theorem andThen (h : r.RaisesTo t) (f : State → Res) : (r.andThen f).RaisesTo t := by
  obtain ⟨k, info, u, rfl, ht⟩ := h
  exact ⟨k, info, u, rfl, ht⟩

theorem outcome (h : r.RaisesTo t) : r.outcome = .next t := by
  obtain ⟨k, info, u, rfl, rfl⟩ := h
  rfl

end Res.RaisesTo

/-- A command that ends in `Failed` has raised: completing leaves no error behind. -/
theorem raisesTo_of_exec {i : Instr} {u t : State} (h : RegisterInv u) (hf : u.state ≠ .failed)
    (he : exec i u = .next t) (ht : t.state = .failed) : (runChecked i (bodyOf i) u).RaisesTo t := by
  have htreg := registerInv_stepInvariant.exec_keeps h he
  rw [exec_of_not_failed hf] at he
  rcases Res.outcome_next he with hok | hraised
  · exact absurd (err_of_body_ok h hf (runChecked_eq_ok hok).2.2) (htreg.failed_iff.mp ht)
  · exact hraised

/-- `Failed` state of a chunk that began with OLEN = `a`: where the roll-back of R269 takes the output. -/
def RollsBackTo (a : BitVec 32) (u : State) : Prop :=
  ((u.state = .headerParsed ∨ u.state = .decoding) ∧ u.omark = a) ∨
    (¬ (u.state = .headerParsed ∨ u.state = .decoding) ∧ u.olen = a)

theorem RollsBackTo.raise {a : BitVec 32} {u : State} (h : RollsBackTo a u) (k : ErrorKind) (info : Word) :
    (u.raise k info).olen = a ∧
      ((u.raise k info).estate = .headerParsed ∨ (u.raise k info).estate = .decoding → (u.raise k info).omark = a) := by
  rcases h with ⟨hs, ha⟩ | ⟨hs, ha⟩
  · exact ⟨(if_pos hs).trans ha, fun _ => ha⟩
  · exact ⟨(if_neg hs).trans ha, fun hs' => absurd hs' hs⟩

theorem Res.RaisedOn.andThen {Q : State → Prop} {r : Res} {f : State → Res} (h : r.RaisedOn Q)
    (hf : ∀ t, r = .ok t → (f t).RaisedOn Q) : (r.andThen f).RaisedOn Q := by
  cases r with
  | ok t => exact hf t rfl
  | raised => exact h
  | stuck => trivial

theorem repeatWhile_raisedOn {P Q : State → Prop} {cond : State → Bool} {body : State → Res}
    (hb : ∀ s, P s → cond s = true → (body s).RaisedOn Q ∧ ∀ t, body s = .ok t → P t) (n : Nat) {s : State}
    (hs : P s) : (repeatWhile cond body n s).RaisedOn Q := by
  induction n generalizing s with
  | zero => unfold repeatWhile; split <;> trivial
  | succ n ih =>
    unfold repeatWhile
    split
    · next hc => exact (hb s hs hc).1.andThen fun t ht => ih ((hb s hs hc).2 t ht)
    · trivial

/-- A chunk that fails to decode takes the output back to where it began: before the tree is loaded nothing is written,
and from then on OMARK is there (R186, R269). -/
theorem decchunkSteps_raisedOn {u : State} (hrow : Accepted .decchunk u) :
    (decchunkSteps u).RaisedOn (RollsBackTo u.olen) := by
  have hload : Accepted .tload u := hrow
  have hclosed := not_decoding_of_closed hrow.1
  rw [decchunkSteps, runChecked_of_accepted rfl hload]
  have hfirst : (tloadBody u).RaisedOn (RollsBackTo u.olen) := by
    unfold tloadBody
    split
    · exact .inr ⟨hclosed, rfl⟩
    · trivial
  refine hfirst.andThen fun c hc => ?_
  have hmark : (tloadBody u).NoIllegal (·.omark = u.olen) := by
    unfold tloadBody
    split
    · exact nofun
    · exact rfl
  refine repeatWhile_raisedOn (P := fun v => DecodesOrEnded v ∧ v.omark = u.olen) (fun v hv hne => ?_) _
    ⟨.inl (.inl ((tloadBody_noIllegal u).of_eq_ok hc)), hmark.of_eq_ok hc⟩
  have hdstep : Accepted .dstep v := hv.1.resolve_right fun h => of_decide_eq_true hne h.1
  rw [runChecked_of_accepted rfl hdstep]
  refine ⟨?_, fun t ht => ⟨(dstepBody_noIllegal v).of_eq_ok ht, ?_⟩⟩
  · have hraised := dstepBody_raisedOn v
    cases hb : dstepBody v with
    | raised k info w =>
      rw [hb] at hraised
      obtain rfl : w = v := hraised
      exact .inl ⟨hdstep, hv.2⟩
    | ok | stuck => trivial
  · have hkeeps := dstepBody_keeps v
    rw [ht] at hkeeps
    exact Eq.trans (hkeeps .omark rfl) hv.2

/-- The failing chunk of DECOMPRESS (R247, R269). -/
theorem exec_decchunk_failed {u t : State} (h : RegisterInv u) (hrow : Accepted .decchunk u)
    (he : exec .decchunk u = .next t) (ht : t.state = .failed) : t.olen = u.olen ∧
      (∀ a < u.olen.toNat, t.obufAt a = u.obufAt a) ∧
      (t.estate = .headerParsed ∨ t.estate = .decoding → t.omark = u.olen) := by
  have hkept := (exec_outputStays (i := .decchunk) h nofun (by decide) he).bytes_kept
  have htreg := registerInv_stepInvariant.exec_keeps h he
  have hraised := decchunkSteps_raisedOn hrow
  rw [exec_decchunk h hrow] at he
  rcases Res.outcome_next he with hok | ⟨k, info, v, hra, rfl⟩
  · have hdone := done_of_decchunkBody (show decchunkBody u = .ok t by rw [decchunkBody, hok]; rfl)
    rw [ht] at hdone
    cases hdone
  · rw [hra] at hraised
    exact ⟨(hraised.raise k info).1, hkept, (hraised.raise k info).2⟩

/-- A chunk of COMPRESS, failing or not, adds to the output at its end (R230, R246). -/
theorem exec_encchunk_output {u t : State} (h : RegisterInv u) (hc : ChunkClosed u) (he : exec .encchunk u = .next t) :
    OutputGrows u t := by
  have hstays := exec_outputStays (i := .encchunk) h nofun (by decide) he
  refine ⟨Nat.not_lt.mp fun hlt => ?_, hstays.bytes_kept⟩
  rcases hstays.olen_falls hlt with hi | ⟨-, hd⟩
  · cases hi
  · exact not_decoding_of_closed hc hd

/-- ENCCHUNK stops at the first primitive that fails. -/
theorem encchunk_stops {s u t : State} (h : RegisterInv s) (ht : t.state = .failed) :
    (∀ m, Runs (.cbegin :: (List.replicate m .mstep ++ [.build])) s u → exec .tstore u = .next t →
      exec .encchunk s = .next t) ∧
    ∀ m k, Runs (.cbegin :: (List.replicate m .mstep ++ [.build, .tstore] ++ List.replicate k .estep)) s u →
      (u.eidx.toNat < u.ntok.toNat → exec .estep u = .next t → exec .encchunk s = .next t) ∧
      (u.eidx = u.ntok → exec .efin u = .next t → exec .encchunk s = .next t) := by
  refine ⟨fun m hr he => ?_, fun m k hr => ?_⟩
  · obtain ⟨hready, hrow, hsteps⟩ := encchunkSteps_of_built h hr
    have hfails := raisesTo_of_exec (i := .tstore) (runs_registers h hr) (by rw [hready]; nofun) he ht
    rw [exec_encchunk h hrow, hsteps]
    exact (hfails.andThen _).outcome
  · obtain ⟨hstate, hrow, hsteps⟩ := encchunkSteps_of_encoding h hr
    rw [exec_encchunk h hrow, hsteps, encodeAll_unroll]
    refine ⟨fun hlt he => ?_, fun hend he => ?_⟩
    · have hfails := raisesTo_of_exec (i := .estep) (runs_registers h hr) (not_failed_of_encoder hstate) he ht
      rw [if_pos hlt]
      exact ((hfails.andThen encodeAll).andThen _).outcome
    · have hfails := raisesTo_of_exec (i := .efin) (runs_registers h hr) (not_failed_of_encoder hstate) he ht
      rw [if_neg (by rw [hend]; exact lt_irrefl _), ok_andThen]
      exact hfails.outcome

/-- DECCHUNK stops at the first primitive that fails. -/
theorem decchunk_stops {s u t : State} (h : RegisterInv s) (ht : t.state = .failed) :
    (Accepted .tload s → exec .tload s = .next t → exec .decchunk s = .next t) ∧
    ∀ k, Runs (.tload :: List.replicate k .dstep) s u → u.state ≠ .done → exec .dstep u = .next t →
      exec .decchunk s = .next t := by
  refine ⟨fun hrow he => ?_, fun k hr hne he => ?_⟩
  · have hfails := raisesTo_of_exec (i := .tload) h (not_failed_of_closed hrow.1) he ht
    have hrow' : Accepted .decchunk s := hrow
    rw [exec_decchunk h hrow']
    exact (hfails.andThen decodeAll).outcome
  · obtain ⟨hu, hrow, hsteps⟩ := decchunkSteps_of_runs h hr
    have hdstep : Accepted .dstep u := hu.resolve_right fun hd => hne hd.1
    have hfails := raisesTo_of_exec (i := .dstep) (runs_registers h hr)
      (by rcases hdstep with hs | hs <;> rw [hs] <;> nofun) he ht
    rw [exec_decchunk h hrow, hsteps, decodeAll_unroll (runs_registers h hr), if_pos hne]
    exact (hfails.andThen decodeAll).outcome

/-- Settles O45: up to the failing primitive or chunk the composite is that primitive or chunk and what follows it, and
a raise ends it (`Res.RaisesTo.andThen`). -/
theorem compositesStopAtTheFirstError : Obligations.CompositesStopAtTheFirstError := by
  intro s h
  refine ⟨fun u t ht => ?_, fun hc hibit h6 w u t hw hwf hwf' holen hhead hrest hr he ht => ?_,
    fun hc hibit h6 => ?_, fun hc hibit cap u t hcap hlen hbytes hr he ht => ?_⟩
  · obtain ⟨htstore, hencode⟩ := encchunk_stops (u := u) h ht
    obtain ⟨htload, hdecode⟩ := decchunk_stops (u := u) h ht
    exact ⟨htstore, hencode, htload, hdecode⟩
  · obtain rfl := eq_fileStart hw hwf hwf' holen hhead hrest
    have hstart : RegisterInv s.fileStart := registerInv_stepInvariant.writeHeader h (noChunk_of_closed hc) h6
    have hclosed : ChunkClosed s.fileStart := by simpa [ChunkClosed, State.fileStart] using hc
    obtain ⟨hu, huc, hgrow⟩ : RegisterInv u ∧ ChunkClosed u ∧ OutputGrows s.fileStart u :=
      rounds_keep (i := .encchunk) (P := fun v => RegisterInv v ∧ ChunkClosed v ∧ OutputGrows s.fileStart v) rfl
        (fun v v' hv hc => ⟨registers_of_checked (i := .encchunk) nofun hv.1 hc,
          .inr (done_of_encchunkBody (runChecked_eq_ok hc).2.2),
          hv.2.2.trans (exec_encchunk_output hv.1 hv.2.1
            ((exec_of_not_failed (not_failed_of_closed hv.2.1)).trans (congrArg Res.outcome hc)))⟩)
        ⟨hstart, hclosed, .refl _⟩ hr
    have hall := untilInputUsed_of_rounds (i := .encchunk) nofun rfl encchunk_takesInput hstart hr
    have hfails := raisesTo_of_exec (i := .encchunk) hu (not_failed_of_closed huc) he ht
    have hlast := exec_encchunk_output hu huc he
    refine ⟨?_, hgrow.olen_le, hlast.olen_le, hlast.bytes_kept⟩
    rw [exec_compress h ⟨hc, hibit⟩ h6]
    exact (congrArg Res.outcome hall).trans (hfails.andThen _).outcome
  · have hbody : compressBody s = .raised .resourceExhausted 2 s := if_neg (Nat.not_le.mpr h6)
    rw [exec_of_accepted (i := .compress) rfl (not_failed_of_closed hc) ⟨hc, hibit⟩, bodyOf, hbody]
    exact congrArg _ (State.raise_of_not_decoding (not_decoding_of_closed hc) _ _)
  · rw [eq_openFile] at hr
    have hh := readHeader_of_bytes hcap hlen hbytes
    have hstart : RegisterInv (s.openFile cap) :=
      registerInv_stepInvariant.openFile h (noChunk_of_closed hc) hibit hh
    obtain ⟨hu, hrow⟩ : RegisterInv u ∧ Accepted .decchunk u :=
      rounds_keep (i := .decchunk) (P := fun v => RegisterInv v ∧ Accepted .decchunk v) rfl
        (fun v v' hv hc => ⟨registers_of_checked (i := .decchunk) nofun hv.1 hc,
          (decchunkBody_noIllegal hv.2).of_eq_ok (runChecked_eq_ok hc).2.2⟩)
        ⟨hstart, hc, hibit, rfl⟩ hr
    have hall := untilInputUsed_of_rounds (i := .decchunk) nofun rfl decchunk_takesInput hstart hr
    have hfails := raisesTo_of_exec (i := .decchunk) hu (not_failed_of_accepted rfl hrow) he ht
    refine ⟨?_, exec_decchunk_failed hu hrow he ht⟩
    rw [exec_decompress h ⟨hc, hibit⟩ hh]
    exact (congrArg Res.outcome hall).trans (hfails.andThen _).outcome

end Sys2Proof.Machine
end

section
/-! ## The tokens of a chunk stand for its bytes, and ENCCHUNK appends its record (42_matcher.md R162 to R164,
45_chunk_codec.md R227, R230) -/

namespace Sys2Proof.Machine

open Sys2Proof

/-! ### Recording again and again (41_lookback.md R140, R141) -/

namespace Recorded
variable {s t u : State} {bs cs : List Byte}

theorem refl (h : RingOk s) : Recorded s s [] where
  history_eq := by
    rw [List.append_nil, trim_of_length_le]
    simpa using h.fill_le
  wptr_eq := (Nat.mod_eq_of_lt h.wptr_lt).symm
  fill_eq := (Nat.min_eq_left h.fill_le).symm
  others_kept _ _ := rfl

theorem trans (h : Recorded s t bs) (h' : Recorded t u cs) (hcap : t.cap = s.cap) : Recorded s u (bs ++ cs) where
  history_eq := by rw [h'.history_eq, hcap, h.history_eq, trim_trim_append, List.append_assoc]
  wptr_eq := by rw [h'.wptr_eq, hcap, h.wptr_eq, Nat.mod_add_mod, List.length_append, Nat.add_assoc]
  fill_eq := by
    rw [h'.fill_eq, hcap, h.fill_eq, List.length_append]
    omega
  others_kept a ha := by
    rw [List.length_append] at ha
    refine (h'.others_kept a fun j hj => ?_).trans (h.others_kept a fun j hj => ha j (by omega))
    rw [hcap, h.wptr_eq, Nat.mod_add_mod, Nat.add_assoc]
    exact ha (bs.length + j) (by omega)

/-- Only the ring's fields matter. -/
theorem congr (h : Recorded s t bs) (hring : u.ring = t.ring) (hwptr : u.wptr = t.wptr) (hfill : u.fill = t.fill)
    (hcap : u.cap = t.cap) : Recorded s u bs where
  history_eq := (history_congr hring hwptr hfill hcap).trans h.history_eq
  wptr_eq := hwptr ▸ h.wptr_eq
  fill_eq := hfill ▸ h.fill_eq
  others_kept a ha := by
    rw [State.ringAt, hring]
    exact h.others_kept a ha

end Recorded

/-! ### Token words a decoder can apply -/

/-- Token words that can be applied one after another, the first of them to the history `H`: each is a token, and no match
reaches behind the history it meets (42_matcher.md R164, 45_chunk_codec.md R225). -/
def Applicable (cap : Nat) : List Byte → List Word → Prop
  | _, [] => True
  | H, w :: ws => ∃ x, symbolOf w = some x ∧ x ≠ .stop ∧ (∀ o l, x = .copy o l → o.toNat ≤ H.length) ∧
      Applicable cap (trim cap (H ++ expand H x)) ws

namespace Applicable
variable {cap : Nat} {H : List Byte} {ws : List Word}

theorem symbolOf_eq {w : Word} (h : Applicable cap H ws) (hw : w ∈ ws) : ∃ x, symbolOf w = some x ∧ x ≠ .stop := by
  induction ws generalizing H with
  | nil => cases hw
  | cons v ws ih =>
    obtain ⟨x, hx, hstop, -, hrest⟩ := h
    rcases List.mem_cons.mp hw with rfl | hw
    · exact ⟨x, hx, hstop⟩
    · exact ih hrest hw

/-- One more token, which the bytes of those before it leave room for. -/
theorem snoc {w : Word} {x : Symbol} (h : Applicable cap H ws) (hH : H.length ≤ cap) (hx : symbolOf w = some x)
    (hstop : x ≠ .stop) (hcopy : ∀ o l, x = .copy o l → o.toNat ≤ (trim cap (H ++ expandAll cap H ws)).length) :
    Applicable cap H (ws ++ [w]) := by
  induction ws generalizing H with
  | nil =>
    rw [expandAll, List.append_nil, trim_of_length_le hH] at hcopy
    exact ⟨x, hx, hstop, hcopy, trivial⟩
  | cons v ws ih =>
    obtain ⟨y, hy, hystop, hycopy, hrest⟩ := h
    refine ⟨y, hy, hystop, hycopy, ih hrest (by rw [length_trim]; omega) ?_⟩
    rw [trim_trim_append, List.append_assoc]
    simpa only [expandAll, hy] using hcopy

end Applicable

/-! ### The tokens of a chunk (R162, R163) -/

/-- `c` is `s` after matcher steps on a chunk opened in `s`: the input consumed is recorded, and the tokens stand for it,
taken against the history of `s`. -/
structure Tokenized (s c : State) : Prop where
  cap_eq : c.cap = s.cap
  ibuf_eq : c.ibuf = s.ibuf
  cstart_eq : c.cstart = s.ipos
  ipos_le : s.ipos.toNat ≤ c.ipos.toNat
  recorded : Recorded s c (s.ibufSlice s.ipos.toNat (c.ipos.toNat - s.ipos.toNat))
  applicable : Applicable s.cap.toNat s.history c.tokens
  expands : expandAll s.cap.toNat s.history c.tokens = s.ibufSlice s.ipos.toNat (c.ipos.toNat - s.ipos.toNat)

theorem tokenized_openChunk {s : State} (h : RingOk s) : Tokenized s s.openChunk := by
  have hnone : s.ibufSlice s.ipos.toNat (s.openChunk.ipos.toNat - s.ipos.toNat) = [] := by
    simp [State.ibufSlice, Mem.readSeq]
  have htokens : s.openChunk.tokens = [] := by simp [State.tokens, Mem.readSeq]
  refine ⟨rfl, rfl, rfl, le_rfl, ?_, ?_, ?_⟩
  · rw [hnone]
    exact (Recorded.refl h).congr rfl rfl rfl rfl
  · rw [htokens]
    trivial
  · rw [hnone, htokens, expandAll]

/-- What a matcher step pushes is a token within the history, and it stands for the bytes the step consumes (R162). -/
theorem mstepWith_token {c : State} (h : RegisterInv c) (hlt : c.ipos.toNat < c.cend.toNat) : ∃ r w x n,
    mstepWith c (c.findLongest c.upcoming) = ((c.setSearch r).pushToken w).consume n ∧
      c.ipos.toNat + n ≤ c.cend.toNat ∧ symbolOf w = some x ∧ x ≠ .stop ∧
      (∀ o l, x = .copy o l → o.toNat ≤ c.fill.toNat) ∧ expand c.history x = c.ibufSlice c.ipos.toNat n := by
  obtain ⟨⟨o, L⟩, hf⟩ : ∃ r, c.findLongest c.upcoming = r := ⟨_, rfl⟩
  obtain ⟨hoff, -, hend⟩ := findLongest_upcoming_bounds c
  have hfill := (c.findLongest_bounds c.upcoming).1
  rw [hf] at hoff hend hfill
  rw [hf, mstepWith]
  by_cases hne : L ≠ 0
  · obtain ⟨hsymbol, -, hexpand⟩ := findLongest_token h hf hne
    rw [if_pos hne]
    refine ⟨_, _, _, _, rfl, by simp only at hend ⊢; omega, hsymbol, nofun, fun p l hcopy => ?_, hexpand⟩
    obtain ⟨rfl, -⟩ := Symbol.copy.inj hcopy
    rwa [BitVec.toNat_ofNat, Nat.mod_eq_of_lt hoff]
  · rw [if_neg hne]
    refine ⟨_, _, _, 1, rfl, hlt, symbolOf_literalWord _, nofun, nofun, ?_⟩
    simp [expand, State.ibufSlice, Mem.readSeq, State.ibufAt]

theorem consume_pushToken_tokens {c : State} (h : RegisterInv c) (hs : c.state = .collecting)
    (hlt : c.ipos.toNat < c.cend.toNat) (r : Nat × Nat) (w : Word) (n : Nat) :
    (((c.setSearch r).pushToken w).consume n).tokens = c.tokens ++ [w] := by
  have hntok := ntok_lt_of_collecting h hs hlt
  simp only [Config.tokMax] at hntok
  have hpush := pushToken_tokens (s := c.setSearch r) w (by simpa using by omega)
  rw [← show (c.setSearch r).tokens = c.tokens from rfl, ← hpush]
  simp [State.tokens]

/-- One more matcher step (R162). -/
theorem tokenized_mstepWith {s c : State} (hs : s.fill.toNat ≤ s.cap.toNat) (h : RegisterInv c)
    (hc : c.state = .collecting) (hlt : c.ipos.toNat < c.cend.toNat) (ht : Tokenized s c) :
    Tokenized s (mstepWith c (c.findLongest c.upcoming)) := by
  obtain ⟨r, w, x, n, hstep, hend, hx, hstop, hcopy, hexpand⟩ := mstepWith_token h hlt
  obtain ⟨hcap, hibuf, hcstart, hle, hrec, happ, hexp⟩ := ht
  have hipos := consume_ipos_toNat h r w hc hend
  have htokens := consume_pushToken_tokens h hc hlt r w n
  have hhist : c.history = trim s.cap.toNat (s.history ++ expandAll s.cap.toNat s.history c.tokens) := by
    rw [hexp]
    exact hrec.history_eq
  have hbytes : c.ibufSlice c.ipos.toNat n = s.ibufSlice c.ipos.toNat n := by rw [State.ibufSlice, hibuf, State.ibufSlice]
  have hslice : s.ibufSlice s.ipos.toNat (c.ipos.toNat + n - s.ipos.toNat) =
      s.ibufSlice s.ipos.toNat (c.ipos.toNat - s.ipos.toNat) ++ c.ibufSlice c.ipos.toNat n := by
    rw [hbytes, show c.ipos.toNat + n - s.ipos.toNat = (c.ipos.toNat - s.ipos.toNat) + n by omega, State.ibufSlice,
      readSeq_append, Nat.add_sub_cancel' hle]
    rfl
  have hlen : s.history.length ≤ s.cap.toNat := by simpa using hs
  rw [hstep]
  refine ⟨by simpa using hcap, by simpa using hibuf, by simpa using hcstart, by omega, ?_, ?_, ?_⟩
  · rw [hipos, hslice]
    exact hrec.trans (consume_pushToken_recorded c r w n h) hcap
  · rw [htokens]
    refine happ.snoc hlen hx hstop fun o l ho => ?_
    rw [← hhist, State.length_history]
    exact hcopy o l ho
  · rw [htokens, hipos, hslice, expandAll_snoc _ _ _ hx (fun v hv => ?_) hlen, ← hhist, hexp, hexpand]
    obtain ⟨y, hy, -⟩ := happ.symbolOf_eq hv
    rw [hy]
    nofun

theorem tokenized_collect {s : State} (hs : s.fill.toNat ≤ s.cap.toNat) (n : Nat) {c : State} (h : RegisterInv c)
    (hc : c.state = .collecting) (ht : Tokenized s c) : Tokenized s (State.collect n c) := by
  induction n generalizing c with
  | zero => exact ht
  | succ n ih =>
    rw [State.collect]
    split
    · next hlt =>
      obtain ⟨d, -, rfl, hcol, -, -⟩ := mstepWith_collected h hc hlt
      exact ih hcol.registers (Eq.trans (hcol.keeps .state rfl) hc) (tokenized_mstepWith hs h hc hlt ht)
    · exact ht

/-- The tokens of the chunk that ENCCHUNK collects (R227). -/
theorem tokenized_collectChunk {s : State} (h : RegisterInv s) (hc : ChunkClosed s) (hibit : s.ibit = 0)
    (hnacc : s.nacc = 0) : Tokenized s s.collectChunk :=
  tokenized_collect h.fill_le _
    (cbeginBody_registers h (not_failed_of_closed hc) (by simp [precondition, hibit, hnacc])) rfl
    (tokenized_openChunk h.ringOk)

/-- The chunk is the next `min(CHUNK, ILEN - IPOS)` bytes of the input (R161). -/
theorem ChunkCollected.consumed_length {s c : State} (hs : RegisterInv s) (h : ChunkCollected s c) :
    c.ipos.toNat - s.ipos.toNat = min s.chunk.toNat (s.ilen.toNat - s.ipos.toNat) := by
  have hle := hs.ipos_le
  rw [h.ipos_eq]
  omega

/-! ### The record appended (R230) -/

section
variable {s : State} {T : HTree} {bs : List Byte}

theorem encodedChunk_tokens (c : State) : (c.encodedChunk T bs).tokens = c.tokens := by
  simp [State.tokens, State.encodedChunk, State.atToken]

theorem encodedChunk_cstart (c : State) : (c.encodedChunk T bs).cstart = c.cstart := by
  simp [State.encodedChunk, State.atToken]

theorem encodedChunk_recorded {c : State} {rs : List Byte} (h : Recorded s c rs) :
    Recorded s (c.encodedChunk T bs) rs :=
  h.congr (by simp [State.encodedChunk, State.atToken]) (by simp [State.encodedChunk, State.atToken])
    (by simp [State.encodedChunk, State.atToken]) (by simp [State.encodedChunk, State.atToken])

/-- What ENCCHUNK leaves when the record fits, register by register. -/
theorem encoded_eq {t : State} (hnacc : s.nacc = 0) (hk : Keeps .encchunk s t) (he : ChunkEnded t)
    (hcstart : t.cstart = s.ipos) : t = { s with
        ring := t.ring, wptr := t.wptr, fill := t.fill, ipos := t.ipos, obuf := t.obuf, olen := t.olen, acc := 0
        tokmem := t.tokmem, ntok := t.ntok, cstart := s.ipos, cend := t.ipos, eidx := t.ntok
        nodemem := t.nodemem, nnode := t.nnode, nleaf := t.nleaf, root := t.root, tvalid := true
        codemap := t.codemap, cmvalid := true, moff := t.moff, mlen := t.mlen, fMatch := t.fMatch, state := .done } := by
  obtain ⟨hregs, hdone, htnacc, htvalid, hcmvalid, heidx, hcend⟩ := he
  have hacc := acc_eq_zero hregs htnacc
  calc t = s.take (writes .encchunk) t := Field.eq_take_of_same hk
    _ = { s with
        ring := t.ring, wptr := t.wptr, fill := t.fill, ipos := t.ipos, obuf := t.obuf, olen := t.olen
        acc := t.acc, nacc := t.nacc, tokmem := t.tokmem, ntok := t.ntok, cstart := t.cstart, cend := t.cend
        eidx := t.eidx, nodemem := t.nodemem, nnode := t.nnode, nleaf := t.nleaf, root := t.root, tvalid := t.tvalid
        codemap := t.codemap, cmvalid := t.cmvalid, moff := t.moff, mlen := t.mlen, fMatch := t.fMatch
        state := t.state } := rfl
    _ = _ := by rw [hcend, hcstart, hacc, htnacc, ← hnacc, heidx, htvalid, hcmvalid, hdone]

end

/-- Settles O46: the record is appended where it fits (`encchunkBody_fits`), and its tokens stand for the bytes consumed
and recorded. -/
theorem encchunkAppendsTheChunkRecord : Obligations.EncchunkAppendsTheChunkRecord := by
  intro s h hc hibit hnacc n
  have hexec : exec .encchunk s = (encchunkBody s).outcome :=
    exec_of_accepted (i := .encchunk) rfl (not_failed_of_closed hc) ⟨hc, hibit, hnacc⟩
  have hkeeps : (encchunkBody s).All (Keeps .encchunk s) := body_keeps (i := .encchunk) nofun s
  have hregs := encchunkBody_registers h
  obtain ⟨T, hfits⟩ := encchunkBody_fits h hc hibit hnacc
  rw [hexec]
  refine ⟨fun hroom => ?_, fun hfull => ?_⟩
  · obtain ⟨t, ht, rfl⟩ := hfits.fits hroom
    obtain ⟨-, hcol⟩ := collectChunk_collected h hc hibit hnacc
    obtain ⟨-, -, hcstart, hle, hrec, -, hexp⟩ := tokenized_collectChunk h hc hibit hnacc
    have hn : s.collectChunk.ipos.toNat - s.ipos.toNat = n := hcol.consumed_length h
    rw [hn] at hrec hexp
    rw [ht] at hkeeps hregs ⊢
    refine ⟨_, rfl, encoded_eq hnacc hkeeps (encodedChunk_ended T _ hcol hregs)
        ((encodedChunk_cstart _).trans hcstart),
      encodedChunk_appended T _ hcol h.outMax_lt hroom, ?_, encodedChunk_recorded hrec, ?_⟩
    · rw [encodedChunk_ipos]
      omega
    · rw [encodedChunk_tokens, hexp]
  · obtain ⟨u, hu⟩ := hfits.full (Nat.not_le.mpr hfull)
    rw [hu]
    exact ⟨_, rfl, rfl, rfl, rfl⟩

end Sys2Proof.Machine
end

section
/-! ## DECCHUNK decodes what ENCCHUNK encodes (45_chunk_codec.md R228, R231) -/

namespace Sys2Proof.Machine

open Sys2Proof

/-! ### Bits packed into bytes and read again (20_memory.md R62, 44_bitstream.md R200, R203) -/

/-- The first `k` bits of `c`, put into an empty accumulator, are its first bits. -/
theorem take_bitsOfByte_accOf (c : Bits) {k : Nat} (hk : k ≤ 8) (hc : k ≤ c.length) :
    AccLow (accOf c k) k ∧ (bitsOfByte (accOf c k)).take k = c.take k := by
  induction k with
  | zero => exact ⟨by simp [AccLow, accOf], rfl⟩
  | succ k ih =>
    obtain ⟨hlow, hbits⟩ := ih (by omega) (by omega)
    have htake := take_bitsOfByte_accWith ⟨k, by omega⟩ (accOf c k) (c.getD k false) hlow
    rw [accOf_succ]
    refine ⟨?_, ?_⟩
    · by_cases h7 : k < 7
      · exact accWith_low ⟨k, h7⟩ _ _ hlow
      · obtain rfl : k = 7 := by omega
        simp [AccLow, Nat.mod_one]
    · rw [htake, hbits, List.getD_eq_getElem _ _ (by omega), ← List.take_succ_eq_append_getElem]

/-- Whole bytes of bits, packed, are those bits (R62). -/
theorem flatMap_bitsOfByte_packBits {c : Bits} {n : Nat} (hc : c.length = 8 * n) :
    (packBits c).flatMap bitsOfByte = c := by
  induction n generalizing c with
  | zero =>
    rw [List.length_eq_zero_iff.mp hc]
    rfl
  | succ n ih =>
    have hfirst := (take_bitsOfByte_accOf c (le_refl 8) (by omega)).2
    rw [List.take_of_length_le (by simp)] at hfirst
    rw [packBits_eq_cons (by omega), List.flatMap_cons, hfirst, ih (by rw [List.length_drop]; omega),
      List.take_append_drop]

/-- Bytes at the cursor are the next bits to be read (R64). -/
theorem prefix_unread_of_bytes {s : State} {bs : List Byte} (hibit : s.ibit = 0)
    (hroom : s.ipos.toNat + bs.length ≤ s.ilen.toNat) (hbytes : s.ibufSlice s.ipos.toNat bs.length = bs) :
    bs.flatMap bitsOfByte <+: s.unread := by
  have hsplit : s.ibufSlice s.ipos.toNat (s.ilen.toNat - s.ipos.toNat) =
      bs ++ s.ibufSlice (s.ipos.toNat + bs.length) (s.ilen.toNat - s.ipos.toNat - bs.length) := by
    rw [State.ibufSlice, show s.ilen.toNat - s.ipos.toNat = bs.length + (s.ilen.toNat - s.ipos.toNat - bs.length) by omega,
      readSeq_append, show Mem.readSeq 0 s.ibuf s.ipos.toNat bs.length = bs from hbytes]
    simp [State.ibufSlice]
  rw [State.unread, hibit, hsplit, List.flatMap_append]
  exact List.prefix_append _ _

/-- The bits of a chunk, packed at the cursor, are the next bits to be read. -/
theorem chunkBits_prefix_unread {s : State} {T : HTree} {toks : List Word} (hibit : s.ibit = 0)
    (hroom : s.ipos.toNat + (packBits (chunkBits T toks)).length ≤ s.ilen.toNat)
    (hbytes : BytesAt s.ibufAt s.ipos.toNat (packBits (chunkBits T toks))) : chunkBits T toks <+: s.unread := by
  have hprefix := prefix_unread_of_bytes hibit hroom (bytesAt_ibuf.mp hbytes)
  rwa [flatMap_bitsOfByte_packBits (length_chunkBits T toks)] at hprefix

theorem unread_skipBits {s : State} {p : Bits} (h : p <+: s.unread) :
    (State.skipBits p.length s).unread = s.unread.drop p.length := by
  induction p generalizing s with
  | nil => rfl
  | cons b p ih =>
    rw [List.length_cons, State.skipBits, ih (unread_prefix h).2, State.unread_eq_cons (avail_of_unread h)]
    rfl

/-! ### The tree read back has the codes of the tree written (43_huffman.md R180, R185) -/

theorem HTree.follow_shape (t : HTree) (p : Bits) : t.shape.follow p = (t.follow p).map HTree.shape := by
  induction t generalizing p with
  | nil | leaf => cases p <;> rfl
  | node l r ihl ihr =>
    cases p with
    | nil => rfl
    | cons b p => cases b <;> simp [HTree.shape, HTree.follow, ihl, ihr]

/-- In trees of one shape a path leads to the same symbol. -/
theorem HTree.follow_leaf_of_shape {t u : HTree} {p : Bits} {k : Nat} {w : Word} (h : u.shape = t.shape)
    (hf : t.follow p = some (.leaf k w)) : ∃ j, u.follow p = some (.leaf j w) := by
  have hshape : (u.follow p).map HTree.shape = some (.leaf 0 w) := by
    rw [← HTree.follow_shape, h, HTree.follow_shape, hf]
    rfl
  obtain ⟨v, hv, hleaf⟩ := Option.map_eq_some_iff.mp hshape
  cases v with
  | leaf j x =>
    obtain ⟨-, rfl⟩ := HTree.leaf.inj hleaf
    exact ⟨j, hv⟩
  | nil | node => cases hleaf

/-- A symbol word that has a leaf has a code, and the code leads to a leaf of it. -/
theorem HTree.follow_codeFor {t : HTree} {c : Bits} {k : Nat} {w : Word} (h : t.follow c = some (.leaf k w)) :
    ∃ j, t.follow (t.codeFor w) = some (.leaf j w) := by
  have hmem := (t.mem_paths w c).mpr ⟨k, h⟩
  cases hl : (t.paths []).lookup w with
  | none => simpa using List.lookup_eq_none_iff.mp hl _ hmem
  | some d =>
    obtain ⟨l₁, l₂, hsplit, -⟩ := List.lookup_eq_some_iff.mp hl
    rw [HTree.codeFor, hl]
    exact (t.mem_paths w d).mp (hsplit ▸ by simp)

theorem TreeOf.symbolsValid {f : Nat → Node} {i : BitVec 17} {t : HTree} (h : TreeOf f i t)
    (hv : ∀ k ∈ nodesOf f i t, ∀ w x, f k = .leaf w x → validSymbol w = true) : t.symbolsValid = true := by
  induction t generalizing i with
  | nil => rfl
  | leaf k w =>
    obtain ⟨-, -, x, hx⟩ := h
    exact hv k (by simp [nodesOf]) w x hx
  | node l r ihl ihr =>
    obtain ⟨-, a, b, x, hx, hl, hr⟩ := h
    simp only [nodesOf, hx, Node.child, List.mem_cons, List.mem_append, Bool.false_eq_true, if_false, if_true] at hv
    rw [HTree.symbolsValid, ihl hl fun k hk => hv k (.inr (.inl hk)), ihr hr fun k hk => hv k (.inr (.inr hk))]
    rfl

/-! ### The record an encoder in any state makes (R230) -/

/-- The encoder with no chunk open, aligned and without pending bits: its records are those of `s`, which the fields
changed are no part of. -/
def State.betweenChunks (s : State) : State := { s with state := .idle, err := none, ibit := 0, acc := 0, nacc := 0 }

theorem registers_betweenChunks {s : State} (h : RegisterInv s) : RegisterInv s.betweenChunks :=
  { h with
    ibit_end := fun _ => rfl
    acc_low := by simp [State.betweenChunks]
    encode_cmvalid := nofun
    decode_tvalid := nofun
    failed_iff := ⟨nofun, fun he => absurd rfl he⟩
    collecting_range := nofun
    collecting_tokens := nofun
    collecting_no_tree := nofun
    open_aligned := fun _ => rfl }

/-- What a decoder needs to know of the record of the chunk at IPOS: a tree that can be loaded, a code for each token and
for the stop code, tokens that stand for the chunk's bytes, taken against the history. -/
structure RecordOf (e : State) (l r : HTree) (toks : List Word) (bytes : List Byte) : Prop where
  record_eq : e.chunkRecord = (HTree.node l r).ser ++ packBits (chunkBits (.node l r) toks)
  symbols_valid : (HTree.node l r).symbolsValid = true
  size_le : (HTree.node l r).size ≤ 131071
  coded : ∀ w, w = stopWord ∨ w ∈ toks → ∃ k, (HTree.node l r).follow ((HTree.node l r).codeFor w) = some (.leaf k w)
  applicable : Applicable e.cap.toNat e.history toks
  expands : expandAll e.cap.toNat e.history toks = bytes
  history_eq : e.collectChunk.history = trim e.cap.toNat (e.history ++ bytes)

theorem recordOf_betweenChunks {e : State} (h : RegisterInv e) (hc : ChunkClosed e) (hibit : e.ibit = 0)
    (hnacc : e.nacc = 0) : ∃ l r toks, RecordOf e l r toks
      (e.ibufSlice e.ipos.toNat (min e.chunk.toNat (e.ilen.toNat - e.ipos.toNat))) := by
  obtain ⟨-, hcol⟩ := collectChunk_collected h hc hibit hnacc
  obtain ⟨-, -, -, -, hrec, happ, hexp⟩ := tokenized_collectChunk h hc hibit hnacc
  have htok : ∀ k < e.collectChunk.ntok.toNat, tokenWord (e.collectChunk.tokAt k) = true := fun k hk => by
    obtain ⟨x, hx, hstop⟩ := happ.symbolOf_eq (mem_tokens.mpr ⟨k, hk, rfl⟩)
    exact tokenWord_of_symbolOf hx hstop
  obtain ⟨l, r, hT, hlv⟩ := buildTree_holdsTree htok
  have hrecord : e.chunkRecord = (HTree.node l r).ser ++ packBits (chunkBits (.node l r) e.collectChunk.tokens) := by
    rw [State.chunkRecord, hT.tree_eq]
  rw [hcol.consumed_length h] at hrec hexp
  refine ⟨l, r, e.collectChunk.tokens, hrecord, hT.tree.symbolsValid fun k hk => hT.symbols_valid k (hT.mem_nodes.mp hk),
    ?_, fun w hw => ?_, happ, hexp, hrec.history_eq⟩
  · have hlt := e.collectChunk.buildTree.nnode.isLt
    rw [hT.size_eq]
    omega
  · obtain ⟨k, hk, rfl⟩ := List.getElem_of_mem ((mem_alphabet w _).mpr hw)
    have hkl : k < e.collectChunk.buildTree.nleaf.toNat := by rwa [buildTree_nleaf_toNat]
    obtain ⟨c, v, x, -, hv, hx⟩ := buildTree_path hT.tree hlv hkl
    obtain ⟨y, hy⟩ := buildTree_leaf e.collectChunk hkl
    rw [(Node.leaf.inj (hx.symm.trans hy)).1, List.getD_eq_getElem _ _ hk] at hv
    exact HTree.follow_codeFor hv

/-- The record depends on the ring, the input and the configuration only, so the encoder may be in any state. -/
theorem recordOf_chunkRecord {e : State} (h : RegisterInv e) : ∃ l r toks, RecordOf e l r toks
    (e.ibufSlice e.ipos.toNat (min e.chunk.toNat (e.ilen.toNat - e.ipos.toNat))) := by
  have hview : e.betweenChunks.chunkView = e.chunkView := rfl
  have hchunk := collectChunk_view hview
  obtain ⟨l, r, toks, hrecord, hvalid, hsize, hcoded, happ, hexp, hhist⟩ :=
    recordOf_betweenChunks (registers_betweenChunks h) (.inl rfl) rfl rfl
  exact ⟨l, r, toks, (chunkRecord_view hview).symm.trans hrecord, hvalid, hsize, hcoded, happ, hexp,
    Eq.trans (congrArg State.history hchunk).symm hhist⟩

/-! ### DSTEP repeated (R225, R228) -/

/-- `t` is `s` after DSTEPs that read the bits `c` and recorded and appended the bytes `bs`. -/
structure Decoded (s t : State) (c : Bits) (bs : List Byte) : Prop where
  registers : RegisterInv t
  decoding : t.state = .headerParsed ∨ t.state = .decoding
  keeps : Keeps .dstep s t
  cursor : t.bitIndex = s.bitIndex + c.length
  unread_eq : t.unread = s.unread.drop c.length
  recorded : Recorded s t bs
  appended : Appended s t bs

namespace Decoded
variable {s t u : State} {c d : Bits} {bs cs : List Byte}

theorem refl (h : RegisterInv s) (hs : s.state = .headerParsed ∨ s.state = .decoding) : Decoded s s [] [] :=
  ⟨h, hs, .refl _ s, rfl, rfl, .refl h.ringOk, rfl, rfl, fun _ _ => rfl⟩

theorem trans (h : Decoded s t c bs) (h' : Decoded t u d cs) : Decoded s u (c ++ d) (bs ++ cs) where
  registers := h'.registers
  decoding := h'.decoding
  keeps := h.keeps.trans h'.keeps
  cursor := by rw [h'.cursor, h.cursor, List.length_append, Nat.add_assoc]
  unread_eq := by rw [h'.unread_eq, h.unread_eq, List.drop_drop, List.length_append]
  recorded := h.recorded.trans h'.recorded (h.keeps .cap rfl)
  appended := h.appended.trans h'.appended

/-- DSTEP reads the tree and leaves it. -/
theorem tree_eq (h : Decoded s t c bs) : t.tree = s.tree := by
  have hnodes : t.nodemem = s.nodemem := h.keeps .nodemem rfl
  have hnnode : t.nnode = s.nnode := h.keeps .nnode rfl
  have hroot : t.root = s.root := h.keeps .root rfl
  rw [State.tree, hnodes, hnnode, hroot, State.tree]

end Decoded

/-- A code has at least one bit. -/
theorem HTree.ne_nil_of_follow_leaf {l r : HTree} {p : Bits} {k : Nat} {w : Word}
    (h : (HTree.node l r).follow p = some (.leaf k w)) : p ≠ [] := by
  rintro rfl
  cases h

section
variable {u : State} {l r : HTree} {p : Bits} {k : Nat} {w : Word} (h : RegisterInv u)
  (hs : u.state = .headerParsed ∨ u.state = .decoding) (hT : u.tree = some (.node l r))
  (hf : (HTree.node l r).follow p = some (.leaf k w)) (hp : p <+: u.unread)
include h hs hT hf hp

theorem decodeAll_dstep : decodeAll u = (dstepSymbol u (u.advance p.length) w).andThen decodeAll := by
  have hrow : Accepted .dstep u := hs
  rw [decodeAll_unroll h, if_pos (by rcases hs with hs | hs <;> rw [hs] <;> nofun), runChecked_of_accepted rfl hrow,
    dstepBody, walk_of_path hT (HTree.ne_nil_of_follow_leaf hf) hf hp]

/-- One token decoded (R224, R225). -/
theorem decodeAll_token {x : Symbol} (hx : symbolOf w = some x) (hstop : x ≠ .stop)
    (hfill : ∀ o m, x = .copy o m → o.toNat ≤ u.fill.toNat)
    (hroom : u.olen.toNat + (expand u.history x).length ≤ u.params.outMax) :
    ∃ t, decodeAll u = decodeAll t ∧ Decoded u t p (expand u.history x) := by
  have hne := HTree.ne_nil_of_follow_leaf hf
  have hnot : w ≠ stopWord := by
    rintro rfl
    exact hstop (Option.some.inj (hx.symm.trans symbolOf_stopWord))
  have happlied := dstepSymbol_applied (n := p.length) h hx hnot hfill hroom
  have hbody : dstepBody u = .ok ((u.advance p.length).applied w (expand u.history x)) := by
    rw [dstepBody, walk_of_path hT hne hf hp]
    exact happlied
  have hchecked : runChecked .dstep dstepBody u = .ok ((u.advance p.length).applied w (expand u.history x)) := by
    have hrow : Accepted .dstep u := hs
    rw [runChecked_of_accepted rfl hrow, hbody]
  have hframe := applied_frame (s := u) (w := w) (n := p.length) (expand u.history x)
  have hmax := h.outMax_lt
  refine ⟨(u.advance p.length).applied w (expand u.history x), ?_, (dstep_round h hchecked).1, .inr rfl,
    keeps_of_checked (i := .dstep) nofun hchecked, ?_, ?_, applied_recorded _ h, applied_appended _ (by omega)⟩
  · rw [decodeAll_dstep h hs hT hf hp, happlied, ok_andThen]
  · rw [hframe]
    exact advance_bitIndex (bitIndex_add_le hne hp)
  · rw [← unread_skipBits hp, skipBits_eq_advance hp, hframe]
    rfl

/-- The stop code ends the chunk at the next byte boundary (R204, R225). -/
theorem decodeAll_stop (hw : w = stopWord) :
    decodeAll u = .ok (u.advance p.length).stopChunk ∧
      (u.advance p.length).stopChunk.ipos.toNat = (u.bitIndex + p.length + 7) / 8 ∧
      Keeps .dstep u (u.advance p.length).stopChunk := by
  subst hw
  have hindex := advance_bitIndex (bitIndex_add_le (HTree.ne_nil_of_follow_leaf hf) hp)
  have hbits := bitIndex_add_le (HTree.ne_nil_of_follow_leaf hf) hp
  have hilen := u.ilen.isLt
  have hsymbol : dstepSymbol u (u.advance p.length) stopWord = .ok (u.advance p.length).stopChunk := by
    rw [dstepSymbol, symbolOf_stopWord]
  refine ⟨?_, ?_, ?_⟩
  · rw [decodeAll_dstep h hs hT hf hp, hsymbol, ok_andThen]
    cases 8 * ((u.advance p.length).stopChunk.ilen.toNat - (u.advance p.length).stopChunk.ipos.toNat) + 1 <;> rfl
  · rw [State.stopChunk_ipos, align_ipos_toNat (by omega), hindex]
  · refine .of_eq_take ?_
    rw [State.stopChunk, align_frame]
    rfl

end

/-- The codes of tokens that can be applied are decoded one after another (R225, R228). -/
theorem decodeAll_tokens {l r : HTree} {enc : Word → Bits} (toks : List Word) {u : State} (h : RegisterInv u)
    (hs : u.state = .headerParsed ∨ u.state = .decoding) (hT : u.tree = some (.node l r))
    (henc : ∀ w ∈ toks, ∃ k, (HTree.node l r).follow (enc w) = some (.leaf k w))
    (happ : Applicable u.cap.toNat u.history toks) (hp : toks.flatMap enc <+: u.unread)
    (hroom : u.olen.toNat + (expandAll u.cap.toNat u.history toks).length ≤ u.params.outMax) :
    ∃ t, decodeAll u = decodeAll t ∧ Decoded u t (toks.flatMap enc) (expandAll u.cap.toNat u.history toks) := by
  induction toks generalizing u with
  | nil => exact ⟨u, rfl, .refl h hs⟩
  | cons w toks ih =>
    obtain ⟨x, hx, hstop, hcopy, hrest⟩ := happ
    obtain ⟨k, hk⟩ := henc w (by simp)
    rw [List.flatMap_cons] at hp ⊢
    simp only [expandAll, hx, List.length_append] at hroom ⊢
    have hfill : ∀ o m, x = .copy o m → o.toNat ≤ u.fill.toNat := by simpa using hcopy
    obtain ⟨t, ht, hdec⟩ := decodeAll_token h hs hT hk ((List.prefix_append _ _).trans hp) hx hstop hfill (by omega)
    have hcap : t.cap = u.cap := hdec.keeps .cap rfl
    have hparams : t.params = u.params := hdec.keeps .params rfl
    have hhist : t.history = trim u.cap.toNat (u.history ++ expand u.history x) := hdec.recorded.history_eq
    have holen := hdec.appended.olen_eq
    rw [← hhist, ← hcap] at hrest hroom ⊢
    obtain ⟨v, hv, hdec'⟩ := ih hdec.registers hdec.decoding (hdec.tree_eq.trans hT)
      (fun w hw => henc w (List.mem_cons_of_mem _ hw)) hrest
      (by rw [hdec.unread_eq]; simpa using List.IsPrefix.drop hp (enc w).length) (by rw [hparams]; omega)
    exact ⟨v, ht.trans hv, hdec.trans hdec'⟩

/-! ### The record decoded (R231) -/

/-- Only the output of the result matters. -/
theorem Appended.congr_result {s t u : State} {bs : List Byte} (h : Appended s t bs) (holen : u.olen = t.olen)
    (hobuf : u.obuf = t.obuf) : Appended s u bs where
  olen_eq := holen ▸ h.olen_eq
  bytes_eq := by
    rw [State.obufSlice, hobuf]
    exact h.bytes_eq
  others_kept a ha := by
    rw [State.obufAt, hobuf]
    exact h.others_kept a ha

/-- Only the ring of the state the bytes are recorded in matters. -/
theorem Recorded.congr_start {s c t : State} {bs : List Byte} (h : Recorded c t bs) (hring : c.ring = s.ring)
    (hwptr : c.wptr = s.wptr) (hfill : c.fill = s.fill) (hcap : c.cap = s.cap) : Recorded s t bs where
  history_eq := by rw [h.history_eq, hcap, history_congr hring hwptr hfill hcap]
  wptr_eq := by rw [h.wptr_eq, hcap, hwptr]
  fill_eq := by rw [h.fill_eq, hcap, hfill]
  others_kept a ha := (h.others_kept a (by rwa [hcap, hwptr])).trans (by rw [State.ringAt, hring, State.ringAt])

/-- `t` is `s` after a chunk of `n` bits of codes that stands for the bytes `bs`. -/
structure ChunkDecoded (s t : State) (n : Nat) (bs : List Byte) : Prop where
  state_eq : t.state = .done
  dsym_eq : t.dsym = 0x80000000#32
  stop_eq : t.fStop = true
  exh_eq : t.fExh = false
  ibit_eq : t.ibit = 0
  ipos_eq : t.ipos.toNat = (s.bitIndex + n + 7) / 8
  keeps : Keeps .dstep s t
  recorded : Recorded s t bs
  appended : Appended s t bs

/-- The codes of the tokens and then of the stop code are a chunk. -/
theorem decodeAll_chunk {l r : HTree} {enc : Word → Bits} {toks : List Word} {s : State} (h : RegisterInv s)
    (hs : s.state = .headerParsed) (hT : s.tree = some (.node l r))
    (henc : ∀ w, w = stopWord ∨ w ∈ toks → ∃ k, (HTree.node l r).follow (enc w) = some (.leaf k w))
    (happ : Applicable s.cap.toNat s.history toks) (hp : toks.flatMap enc ++ enc stopWord <+: s.unread)
    (hroom : s.olen.toNat + (expandAll s.cap.toNat s.history toks).length ≤ s.params.outMax) :
    ∃ t, decodeAll s = .ok t ∧
      ChunkDecoded s t (toks.flatMap enc ++ enc stopWord).length (expandAll s.cap.toNat s.history toks) := by
  obtain ⟨u, hu, hdec⟩ := decodeAll_tokens toks h (.inl hs) hT (fun w hw => henc w (.inr hw)) happ
    ((List.prefix_append _ _).trans hp) hroom
  obtain ⟨k, hk⟩ := henc stopWord (.inl rfl)
  obtain ⟨ht, hipos, hkeeps⟩ := decodeAll_stop hdec.registers hdec.decoding (hdec.tree_eq.trans hT) hk
    (by rw [hdec.unread_eq]; simpa using List.IsPrefix.drop hp (toks.flatMap enc).length) rfl
  refine ⟨_, hu.trans ht, rfl, rfl, rfl, rfl, by simp, ?_, hdec.keeps.trans hkeeps,
    hdec.recorded.congr (State.stopChunk_ring _) (State.stopChunk_wptr _) (State.stopChunk_fill _) (State.stopChunk_cap _),
    hdec.appended.congr_result (State.stopChunk_olen _) (State.stopChunk_obuf _)⟩
  rw [hipos, hdec.cursor, List.length_append, Nat.add_assoc s.bitIndex]

theorem decchunkSteps_keeps {s t : State} (h : decchunkSteps s = .ok t) : Keeps .decchunk s t := by
  have hall : (decchunkBody s).All (Keeps .decchunk s) := body_keeps (i := .decchunk) nofun s
  rwa [decchunkBody, h] at hall

theorem RecordOf.codes_length {e : State} {l r : HTree} {toks : List Word} {bytes : List Byte}
    (R : RecordOf e l r toks bytes) : e.chunkRecord.length = (HTree.node l r).ser.length +
      ((toks.flatMap (HTree.node l r).codeFor ++ (HTree.node l r).codeFor stopWord).length + 7) / 8 := by
  rw [R.record_eq, List.length_append, length_packBits, length_chunkBits]
  omega

/-- What DECCHUNK leaves, register by register: `c` is the state in which the tree is loaded. -/
theorem decoded_eq {s c t : State} {n : Nat} {bs : List Byte} (hibit : s.ibit = 0) (hk : Keeps .decchunk s t)
    (h : ChunkDecoded c t n bs) (homark : c.omark = s.olen) (hroot : c.root = 0) (htvalid : c.tvalid = true)
    (hcmvalid : c.cmvalid = false) : t = { s with
        ring := t.ring, wptr := t.wptr, fill := t.fill, ipos := t.ipos, obuf := t.obuf, olen := t.olen, omark := s.olen
        nodemem := t.nodemem, nnode := t.nnode, nleaf := t.nleaf, root := 0, tvalid := true, cmvalid := false
        dsym := 0x80000000#32, fStop := true, fExh := false, state := .done } := by
  have homark_kept : t.omark = c.omark := h.keeps .omark rfl
  have hroot_kept : t.root = c.root := h.keeps .root rfl
  have htvalid_kept : t.tvalid = c.tvalid := h.keeps .tvalid rfl
  have hcmvalid_kept : t.cmvalid = c.cmvalid := h.keeps .cmvalid rfl
  calc t = s.take (writes .decchunk) t := Field.eq_take_of_same hk
    _ = { s with
        ring := t.ring, wptr := t.wptr, fill := t.fill, ipos := t.ipos, ibit := t.ibit, obuf := t.obuf, olen := t.olen
        omark := t.omark, nodemem := t.nodemem, nnode := t.nnode, nleaf := t.nleaf, root := t.root, tvalid := t.tvalid
        cmvalid := t.cmvalid, dsym := t.dsym, fStop := t.fStop, fExh := t.fExh, state := t.state } := rfl
    _ = _ := by rw [h.ibit_eq, ← hibit, homark_kept, homark, hroot_kept, hroot, htvalid_kept, htvalid, hcmvalid_kept, hcmvalid,
        h.dsym_eq, h.stop_eq, h.exh_eq, h.state_eq]

/-- Settles O47: TLOAD reads the record's tree (`tloadReadsTheTreeThatWasSerialised`), in which the encoder's codes lead to
the same symbols, so the DSTEPs decode the tokens and the stop code (`decodeAll_chunk`). -/
theorem decchunkDecodesWhatEncchunkEncodes : Obligations.DecchunkDecodesWhatEncchunkEncodes := by
  intro e s he h hc hibit hnacc hcap hhist hroom hbytes bytes hout
  obtain ⟨l, r, toks, R⟩ := recordOf_chunkRecord he
  have hlen := R.codes_length
  have hat : BytesAt s.ibufAt s.ipos.toNat e.chunkRecord := bytesAt_ibuf.mpr hbytes
  rw [R.record_eq] at hat
  obtain ⟨hser, hpack⟩ := bytesAt_append.mp hat
  obtain ⟨c, T, hload, hT, hshape, hcs, hipos, -, -⟩ :=
    tloadReadsTheTreeThatWasSerialised s l r h hc hibit hnacc R.symbols_valid R.size_le (by omega) (bytesAt_ibuf.mp hser)
  obtain ⟨l', r', rfl⟩ := HTree.shape_eq_node hshape
  have hstate : c.state = .headerParsed := congrArg State.state hcs
  have hchecked : runChecked .tload tloadBody s = .ok c := checked_of_exec (i := .tload) rfl hload (by rw [hstate]; nofun)
  have hregs : RegisterInv c := registers_of_checked (i := .tload) nofun h hchecked
  have hkept : Keeps .tload s c := keeps_of_checked (i := .tload) nofun hchecked
  have hcibit : c.ibit = 0 := Eq.trans (hkept .ibit rfl) hibit
  have hcibuf : c.ibuf = s.ibuf := hkept .ibuf rfl
  have hcilen : c.ilen = s.ilen := hkept .ilen rfl
  have hccap : c.cap = s.cap := hkept .cap rfl
  have hcring : c.ring = s.ring := hkept .ring rfl
  have hcwptr : c.wptr = s.wptr := hkept .wptr rfl
  have hcfill : c.fill = s.fill := hkept .fill rfl
  have hcolen : c.olen = s.olen := hkept .olen rfl
  have hcobuf : c.obuf = s.obuf := hkept .obuf rfl
  have hcparams : c.params = s.params := hkept .params rfl
  have hchist : c.history = e.history := (history_congr hcring hcwptr hcfill hccap).trans hhist
  have hunread : chunkBits (.node l r) toks <+: c.unread := by
    refine chunkBits_prefix_unread hcibit ?_ ?_
    · rw [length_packBits, length_chunkBits, hipos, hcilen]
      omega
    · rwa [hipos, show c.ibufAt = s.ibufAt from funext fun a => by rw [State.ibufAt, hcibuf, State.ibufAt]]
  obtain ⟨t, ht, hdec⟩ := decodeAll_chunk hregs hstate hT (toks := toks) (enc := (HTree.node l r).codeFor)
    (fun w hw => (R.coded w hw).elim fun _ hk => HTree.follow_leaf_of_shape hshape hk)
    (by rw [hccap, hcap, hchist]; exact R.applicable)
    ((List.prefix_append _ _).trans hunread)
    (by rw [hccap, hcap, hchist, R.expands, hcolen, hcparams]; exact hout)
  rw [hccap, hcap, hchist, R.expands] at hdec
  have hsteps : decchunkSteps s = .ok t := by rw [decchunkSteps, hchecked, ok_andThen, ht]
  have hrecorded : Recorded s t bytes := hdec.recorded.congr_start hcring hcwptr hcfill hccap
  refine ⟨t, ?_, decoded_eq hibit (decchunkSteps_keeps hsteps) hdec (congrArg State.omark hcs) (congrArg State.root hcs)
    (congrArg State.tvalid hcs) (congrArg State.cmvalid hcs), hdec.appended.congr hcolen hcobuf, ?_, hrecorded, ?_⟩
  · rw [exec_decchunk h ⟨hc, hibit, hnacc⟩, hsteps]
    rfl
  · rw [hdec.ipos_eq, State.bitIndex, hcibit, hipos, hlen, show (0 : BitVec 3).toNat = 0 from rfl]
    omega
  · rw [hrecorded.history_eq, hhist, hcap, R.history_eq]

end Sys2Proof.Machine
end

section
/-! ## The same tokens under another capacity (46_container.md R249) -/

namespace Sys2Proof.Machine

open Sys2Proof

theorem trim_nil (cap : Nat) : trim cap [] = [] := trim_of_length_le (Nat.zero_le _)

/-- A match within the newest bytes produces the same, whatever comes before them (42_matcher.md R164). -/
theorem expandCopy_append (P : List Byte) (n : Nat) {o : Nat} {H : List Byte} (ho : o ≤ H.length) :
    expandCopy o n (P ++ H) = expandCopy o n H := by
  induction n generalizing H with
  | zero => rfl
  | succ n ih =>
    have hbyte : (P ++ H).getD ((P ++ H).length - o) 0 = H.getD (H.length - o) 0 := by
      rw [List.length_append, Nat.add_sub_assoc ho, List.getD_append_right _ _ _ _ (Nat.le_add_right ..),
        Nat.add_sub_cancel_left]
    rw [expandCopy, expandCopy, hbyte, List.append_assoc, ih (by rw [List.length_append]; omega)]

/-- A token stands for the same bytes as long as the bytes kept reach back to its offset. -/
theorem expand_trim {cap : Nat} {E : List Byte} {x : Symbol}
    (h : ∀ o l, x = .copy o l → o.toNat ≤ (trim cap E).length) : expand (trim cap E) x = expand E x := by
  cases x with
  | literal | stop => rfl
  | copy o l =>
    have hsplit : E.take (E.length - cap) ++ trim cap E = E := List.take_append_drop ..
    rw [expand, expand, ← expandCopy_append (E.take (E.length - cap)) _ (h o l rfl), hsplit]

/-- After applicable tokens that stand for at most `n` bytes, one of the token words is a match that reaches behind the
history (45_chunk_codec.md R225). -/
def ReachesBehind (cap : Nat) (H : List Byte) (ws : List Word) (n : Nat) : Prop :=
  ∃ before w after o l, ws = before ++ w :: after ∧ Applicable cap H before ∧
    (expandAll cap H before).length ≤ n ∧ symbolOf w = some (.copy o l) ∧
    (trim cap (H ++ expandAll cap H before)).length < o.toNat

theorem ReachesBehind.cons {cap n : Nat} {H : List Byte} {w : Word} {ws : List Word} {x : Symbol}
    (hx : symbolOf w = some x) (hstop : x ≠ .stop) (hcopy : ∀ o l, x = .copy o l → o.toNat ≤ H.length)
    (h : ReachesBehind cap (trim cap (H ++ expand H x)) ws n) :
    ReachesBehind cap H (w :: ws) ((expand H x).length + n) := by
  obtain ⟨before, v, after, o, l, rfl, happ, hlen, hv, hbehind⟩ := h
  refine ⟨w :: before, v, after, o, l, rfl, ⟨x, hx, hstop, hcopy, happ⟩, ?_, hv, ?_⟩
  · simpa only [expandAll, hx, List.length_append, Nat.add_le_add_iff_left] using hlen
  · rw [trim_trim_append, List.append_assoc] at hbehind
    simpa only [expandAll, hx] using hbehind

/-- Tokens made with `C` bytes of the history `E` kept, taken with `c` bytes of it kept: they stand for the same bytes,
or `c` is less than `C` and one of them reaches behind what is kept (R249). -/
theorem applicable_or_reachesBehind {C : Nat} (c : Nat) {E : List Byte} {ws : List Word}
    (h : Applicable C (trim C E) ws) :
    (Applicable c (trim c E) ws ∧ expandAll c (trim c E) ws = expandAll C (trim C E) ws) ∨
    (c < C ∧ ReachesBehind c (trim c E) ws (expandAll C (trim C E) ws).length) := by
  induction ws generalizing E with
  | nil => exact .inl ⟨trivial, rfl⟩
  | cons w ws ih =>
    obtain ⟨x, hx, hstop, hcopy, hrest⟩ := h
    rw [expand_trim hcopy, trim_trim_append] at hrest
    simp only [expandAll, hx, expand_trim hcopy, trim_trim_append C]
    by_cases hfits : ∀ o l, x = .copy o l → o.toNat ≤ (trim c E).length
    · have hsame := expand_trim hfits
      rw [hsame, trim_trim_append]
      rcases ih hrest with ⟨happ, hexp⟩ | ⟨hlt, hbehind⟩
      · refine .inl ⟨⟨x, hx, hstop, hfits, ?_⟩, by rw [hexp]⟩
        rwa [hsame, trim_trim_append]
      · rw [List.length_append, ← hsame]
        refine .inr ⟨hlt, .cons hx hstop hfits ?_⟩
        rwa [hsame, trim_trim_append]
    · push Not at hfits
      obtain ⟨o, l, rfl, hlt⟩ := hfits
      have hle := hcopy o l rfl
      rw [length_trim] at hle
      refine .inr ⟨?_, [], w, ws, o, l, rfl, trivial, Nat.zero_le _, hx, ?_⟩
      · rw [length_trim] at hlt
        omega
      · rwa [expandAll, trim_trim_append, List.append_nil]

end Sys2Proof.Machine
end

section
/-! ## DECCHUNK on a chunk record, whatever the capacity (45_chunk_codec.md R228, R231, 46_container.md R249) -/

namespace Sys2Proof.Machine

open Sys2Proof

/-! ### Pseudocode that completes, or raises `InvalidMatchReference` -/

/-- It completes as `P` says, or, which asks for `miss`, it raises `InvalidMatchReference`. -/
def Res.DecodesOr (miss : Prop) (P : State → Prop) (r : Res) : Prop :=
  (∃ t, r = .ok t ∧ P t) ∨ (miss ∧ ∃ w u, r = .raised .invalidMatchReference w u)

namespace Res.DecodesOr
variable {miss miss' : Prop} {P Q : State → Prop} {r : Res}

theorem andThen {f : State → Res} (h : r.DecodesOr miss P) (hf : ∀ t, P t → (f t).DecodesOr miss Q) :
    (r.andThen f).DecodesOr miss Q := by
  rcases h with ⟨t, rfl, ht⟩ | ⟨hm, w, u, rfl⟩
  · exact hf t ht
  · exact .inr ⟨hm, w, u, rfl⟩

theorem imp (h : r.DecodesOr miss P) (hm : miss → miss') (hP : ∀ t, P t → Q t) : r.DecodesOr miss' Q :=
  Or.imp (fun ⟨t, ht, hp⟩ => ⟨t, ht, hP t hp⟩) (And.imp_left hm) h

end Res.DecodesOr

/-! ### A match that reaches behind the history (R225, 60_exceptions.md R264) -/

/-- The tokens before it are decoded, and then it raises. -/
theorem decodeAll_reachesBehind {l r : HTree} {enc : Word → Bits} {toks : List Word} {n : Nat} {u : State}
    (h : RegisterInv u) (hs : u.state = .headerParsed ∨ u.state = .decoding) (hT : u.tree = some (.node l r))
    (henc : ∀ w ∈ toks, ∃ k, (HTree.node l r).follow (enc w) = some (.leaf k w))
    (hbehind : ReachesBehind u.cap.toNat u.history toks n) (hp : toks.flatMap enc <+: u.unread)
    (hroom : u.olen.toNat + n ≤ u.params.outMax) : ∃ w v, decodeAll u = .raised .invalidMatchReference w v := by
  obtain ⟨before, w, after, o, m, rfl, happ, hlen, hw, hlt⟩ := hbehind
  rw [List.flatMap_append, List.flatMap_cons] at hp
  obtain ⟨t, ht, hdec⟩ := decodeAll_tokens before h hs hT (fun v hv => henc v (by simp [hv])) happ
    ((List.prefix_append _ _).trans hp) (by omega)
  obtain ⟨k, hk⟩ := henc w (by simp)
  have hnext : enc w <+: t.unread := by
    have hdrop := List.IsPrefix.drop hp (before.flatMap enc).length
    rw [List.drop_left, ← hdec.unread_eq] at hdrop
    exact (List.prefix_append _ _).trans hdrop
  have hfill : t.fill.toNat < o.toNat := by
    rwa [← State.length_history, hdec.recorded.history_eq]
  refine ⟨w, t, ?_⟩
  rw [ht, decodeAll_dstep hdec.registers hdec.decoding (hdec.tree_eq.trans hT) hk hnext,
    dstepSymbol_of_bad_offset hw hfill]
  rfl

/-! ### The record's tree loaded (R186, R228) -/

/-- `c` is `s` after TLOAD of a record of the tokens `toks`, with the codes `enc`: they lead to the symbols in the tree
loaded, and the codes of the tokens and the stop code are next. -/
structure RecordLoaded (s c : State) (enc : Word → Bits) (toks : List Word) : Prop where
  registers : RegisterInv c
  keeps : Keeps .tload s c
  state_eq : c.state = .headerParsed
  omark_eq : c.omark = s.olen
  root_eq : c.root = 0
  tvalid_eq : c.tvalid = true
  cmvalid_eq : c.cmvalid = false
  coded : ∃ l r, c.tree = some (.node l r) ∧
    ∀ w, w = stopWord ∨ w ∈ toks → ∃ k, (HTree.node l r).follow (enc w) = some (.leaf k w)
  unread_prefix : toks.flatMap enc ++ enc stopWord <+: c.unread

/-- TLOAD reads the record's tree, in which the encoder's codes lead to the same symbols (R185). -/
theorem RecordOf.loads {e s : State} {l r : HTree} {toks : List Word} {bytes : List Byte}
    (R : RecordOf e l r toks bytes) (h : RegisterInv s) (hrow : Accepted .decchunk s)
    (hroom : s.ipos.toNat + e.chunkRecord.length ≤ s.ilen.toNat)
    (hat : BytesAt s.ibufAt s.ipos.toNat e.chunkRecord) :
    ∃ c, decchunkSteps s = decodeAll c ∧ RecordLoaded s c (HTree.node l r).codeFor toks ∧
      c.ipos.toNat = s.ipos.toNat + (HTree.node l r).ser.length := by
  obtain ⟨hc, hibit, hnacc⟩ := hrow
  have hlen := R.codes_length
  rw [R.record_eq] at hat
  obtain ⟨hser, hpack⟩ := bytesAt_append.mp hat
  obtain ⟨c, T, hload, hT, hshape, hcs, hipos, -, -⟩ :=
    tloadReadsTheTreeThatWasSerialised s l r h hc hibit hnacc R.symbols_valid R.size_le (by omega)
      (bytesAt_ibuf.mp hser)
  obtain ⟨l', r', rfl⟩ := HTree.shape_eq_node hshape
  have hstate : c.state = .headerParsed := congrArg State.state hcs
  have hchecked : runChecked .tload tloadBody s = .ok c :=
    checked_of_exec (i := .tload) rfl hload (by rw [hstate]; nofun)
  have hkept : Keeps .tload s c := keeps_of_checked (i := .tload) nofun hchecked
  have hcibit : c.ibit = 0 := Eq.trans (hkept .ibit rfl) hibit
  have hcibuf : c.ibuf = s.ibuf := hkept .ibuf rfl
  have hcilen : c.ilen = s.ilen := hkept .ilen rfl
  have hunread : chunkBits (.node l r) toks <+: c.unread := by
    refine chunkBits_prefix_unread hcibit ?_ ?_
    · rw [length_packBits, length_chunkBits, hipos, hcilen]
      omega
    · rwa [hipos, show c.ibufAt = s.ibufAt from funext fun a => by rw [State.ibufAt, hcibuf, State.ibufAt]]
  refine ⟨c, by rw [decchunkSteps, hchecked, ok_andThen], ?_, hipos⟩
  exact ⟨registers_of_checked (i := .tload) nofun h hchecked, hkept, hstate, congrArg State.omark hcs,
    congrArg State.root hcs, congrArg State.tvalid hcs, congrArg State.cmvalid hcs,
    ⟨l', r', hT, fun w hw => (R.coded w hw).elim fun _ hk => HTree.follow_leaf_of_shape hshape hk⟩,
    (List.prefix_append _ _).trans hunread⟩

/-! ### Records decoded one after another -/

/-- A decoded chunk has just ended: its stop code was met, its tree is the one loaded (R186, R225). -/
structure DecodeEnded (t : State) : Prop where
  registers : RegisterInv t
  state_eq : t.state = .done
  ibit_eq : t.ibit = 0
  root_eq : t.root = 0
  tvalid_eq : t.tvalid = true
  cmvalid_eq : t.cmvalid = false
  dsym_eq : t.dsym = 0x80000000#32
  stop_eq : t.fStop = true
  exh_eq : t.fExh = false

/-- `t` is `s` after whole chunk records that stand for the bytes `bs`. -/
structure RecordsDecoded (s t : State) (bs : List Byte) : Prop where
  ended : DecodeEnded t
  keeps : Keeps .decchunk s t
  recorded : Recorded s t bs
  appended : Appended s t bs

theorem RecordsDecoded.trans {s t u : State} {bs cs : List Byte} (h : RecordsDecoded s t bs)
    (h' : RecordsDecoded t u cs) : RecordsDecoded s u (bs ++ cs) :=
  ⟨h'.ended, h.keeps.trans h'.keeps, h.recorded.trans h'.recorded (h.keeps .cap rfl), h.appended.trans h'.appended⟩

/-- The codes of a chunk, decoded after its tree was loaded. -/
theorem RecordLoaded.decoded {s c t : State} {enc : Word → Bits} {toks : List Word} {n : Nat} {bs : List Byte}
    (hload : RecordLoaded s c enc toks) (hsteps : decchunkSteps s = .ok t) (hregs : RegisterInv t)
    (h : ChunkDecoded c t n bs) : RecordsDecoded s t bs := by
  have hkept := hload.keeps
  refine ⟨⟨hregs, h.state_eq, h.ibit_eq, ?_, ?_, ?_, h.dsym_eq, h.stop_eq, h.exh_eq⟩, decchunkSteps_keeps hsteps,
    h.recorded.congr_start (hkept .ring rfl) (hkept .wptr rfl) (hkept .fill rfl) (hkept .cap rfl),
    h.appended.congr (hkept .olen rfl) (hkept .obuf rfl)⟩
  · exact Eq.trans (h.keeps .root rfl) hload.root_eq
  · exact Eq.trans (h.keeps .tvalid rfl) hload.tvalid_eq
  · exact Eq.trans (h.keeps .cmvalid rfl) hload.cmvalid_eq

/-- The codes of the tokens and the stop code decoded, by a decoder whose history is, like the encoder's with `C` bytes
kept, the newest bytes of `E`. -/
theorem RecordLoaded.decodes {s c : State} {enc : Word → Bits} {toks : List Word} {C : Nat} {E : List Byte}
    (hload : RecordLoaded s c enc toks) (hhist : c.history = trim c.cap.toNat E) (happ : Applicable C (trim C E) toks)
    (hroom : c.olen.toNat + (expandAll C (trim C E) toks).length ≤ c.params.outMax) :
    (decodeAll c).DecodesOr (c.cap.toNat < C) fun t =>
      ChunkDecoded c t (toks.flatMap enc ++ enc stopWord).length (expandAll C (trim C E) toks) := by
  obtain ⟨l, r, hT, hcoded⟩ := hload.coded
  have hsplit := applicable_or_reachesBehind c.cap.toNat happ
  rw [← hhist] at hsplit
  rcases hsplit with ⟨happ', hsame⟩ | ⟨hlt, hbehind⟩
  · rw [← hsame] at hroom ⊢
    exact .inl (decodeAll_chunk hload.registers hload.state_eq hT hcoded happ' hload.unread_prefix hroom)
  · exact .inr ⟨hlt, decodeAll_reachesBehind hload.registers (.inl hload.state_eq) hT
      (fun w hw => hcoded w (.inr hw)) hbehind ((List.prefix_append _ _).trans hload.unread_prefix) hroom⟩

/-- What DECCHUNK makes of a chunk record at the cursor, where the histories of encoder and decoder are the newest bytes
of `E`: the record's bytes, or, if the decoder keeps fewer bytes than the encoder did, `InvalidMatchReference`. -/
theorem RecordOf.decodes {e s : State} {l r : HTree} {toks : List Word} {bytes E : List Byte}
    (R : RecordOf e l r toks bytes) (h : RegisterInv s) (hrow : Accepted .decchunk s)
    (he : e.history = trim e.cap.toNat E) (hs : s.history = trim s.cap.toNat E)
    (hroom : s.ipos.toNat + e.chunkRecord.length ≤ s.ilen.toNat)
    (hat : BytesAt s.ibufAt s.ipos.toNat e.chunkRecord) (hout : s.olen.toNat + bytes.length ≤ s.params.outMax) :
    (runChecked .decchunk decchunkBody s).DecodesOr (s.cap.toNat < e.cap.toNat) fun t =>
      RecordsDecoded s t bytes ∧ t.ipos.toNat = s.ipos.toNat + e.chunkRecord.length := by
  obtain ⟨c, hsteps, hload, hipos⟩ := R.loads h hrow hroom hat
  have hkept := hload.keeps
  have hcap : c.cap = s.cap := hkept .cap rfl
  have holen : c.olen = s.olen := hkept .olen rfl
  have hparams : c.params = s.params := hkept .params rfl
  have hibit : c.ibit = 0 := Eq.trans (hkept .ibit rfl) hrow.2.1
  have hhist : c.history = trim c.cap.toNat E := by
    rw [history_congr (hkept .ring rfl) (hkept .wptr rfl) (hkept .fill rfl) hcap, hs, hcap]
  have hexp : expandAll e.cap.toNat (trim e.cap.toNat E) toks = bytes := he ▸ R.expands
  have hdecodes := hload.decodes hhist (he ▸ R.applicable) (by rwa [hexp, holen, hparams])
  have hchecked : runChecked .decchunk decchunkBody s = (decodeAll c).inComposite (encode .decchunk) := by
    rw [runChecked_of_accepted rfl hrow, decchunkBody, hsteps]
  rw [hexp, hcap] at hdecodes
  rcases hdecodes with ⟨t, ht, hdec⟩ | ⟨hlt, w, u, hu⟩
  · rw [ht] at hchecked hsteps
    have hlen := R.codes_length
    have hregs := registers_of_checked (i := .decchunk) nofun h hchecked
    refine .inl ⟨t, hchecked, hload.decoded hsteps hregs hdec, ?_⟩
    rw [hdec.ipos_eq, State.bitIndex, hibit, hipos, hlen, show (0 : BitVec 3).toNat = 0 from rfl]
    omega
  · rw [hu] at hchecked
    exact .inr ⟨hlt, w, u, hchecked⟩

end Sys2Proof.Machine
end

section
/-! ## DECOMPRESS on a file of chunk records, whatever the capacity (46_container.md R247 to R249) -/

namespace Sys2Proof.Machine

open Sys2Proof

/-! ### The encoder from chunk to chunk (R246) -/

/-- What the input bytes not consumed yet are. -/
def State.inputBytes (s : State) : List Byte := s.ibufSlice s.ipos.toNat s.inputLeft

@[simp] theorem length_ibufSlice (s : State) (a n : Nat) : (s.ibufSlice a n).length = n := by simp [State.ibufSlice]

/-- `u` is the encoder `e` after the chunk of the bytes `bs`, as far as its later chunks depend on it. -/
structure AfterChunk (e u : State) (bs : List Byte) : Prop where
  registers : RegisterInv u
  view_eq : u.chunkView = e.collectChunk.chunkView
  cap_eq : u.cap = e.cap
  input_eq : e.inputBytes = bs ++ u.inputBytes
  history_eq : u.history = trim e.cap.toNat (e.history ++ bs)
  takes : u.ipos.toNat < u.ilen.toNat → u.inputLeft < e.inputLeft

theorem AfterChunk.inputLeft_eq {e u : State} {bs : List Byte} (h : AfterChunk e u bs) :
    e.inputLeft = bs.length + u.inputLeft := by
  have hlen := congrArg List.length h.input_eq
  rwa [List.length_append, State.inputBytes, State.inputBytes, length_ibufSlice, length_ibufSlice] at hlen

/-- The bytes of the encoder's next chunk (42_matcher.md R161). -/
def State.nextChunk (e : State) : List Byte := e.ibufSlice e.ipos.toNat (min e.chunk.toNat e.inputLeft)

theorem exists_afterChunk {e : State} (h : RegisterInv e) : ∃ u, AfterChunk e u e.nextChunk := by
  have hb := registers_betweenChunks h
  obtain ⟨-, hcol⟩ := collectChunk_collected hb (.inl rfl) rfl rfl
  have hview : e.betweenChunks.chunkView = e.chunkView := rfl
  have hlen := hcol.consumed_length hb
  have hle := hcol.consumed.ipos_le
  have hhist := hcol.consumed.history_eq
  obtain ⟨u, hu⟩ : ∃ u, e.betweenChunks.collectChunk = u := ⟨_, rfl⟩
  have huview := collectChunk_view hview
  rw [hu] at hcol hlen hle hhist huview
  have hilen : u.ilen = e.ilen := hcol.keeps .ilen rfl rfl
  have hibuf : u.ibuf = e.ibuf := hcol.keeps .ibuf rfl rfl
  have hcap : u.cap = e.cap := hcol.keeps .cap rfl rfl
  rw [hlen] at hhist
  have hpos : u.ipos.toNat = e.ipos.toNat + min e.chunk.toNat e.inputLeft := by
    replace hle : e.ipos.toNat ≤ u.ipos.toNat := hle
    replace hlen : u.ipos.toNat - e.ipos.toNat = min e.chunk.toNat e.inputLeft := hlen
    omega
  have hleft : e.inputLeft = min e.chunk.toNat e.inputLeft + u.inputLeft := by
    simp only [State.inputLeft, hpos, hilen]
    omega
  refine ⟨u, hcol.registers, huview, hcap, ?_, hhist, fun hlt => ?_⟩
  · rw [State.inputBytes, hleft, State.ibufSlice, readSeq_append, State.inputBytes, State.ibufSlice, hpos, hibuf]
    rfl
  · have hpos : 0 < u.inputLeft := Nat.sub_pos_of_lt hlt
    have := h.chunk_pos
    omega

/-! ### The decoder along with the encoder (R247, R251) -/

/-- The decoder `s` is to decode the chunk records of what the encoder `e` has left, at most `n + 1` of them, and they
are all its input: both have the bytes `E` behind them, of which each keeps the newest in its history. -/
structure Follows (n : Nat) (E : List Byte) (e s : State) : Prop where
  encoder : RegisterInv e
  decoder : RegisterInv s
  accepted : Accepted .decchunk s
  encoder_history : e.history = trim e.cap.toNat E
  decoder_history : s.history = trim s.cap.toNat E
  left_le : e.inputLeft ≤ n
  room : s.olen.toNat + e.inputLeft ≤ s.params.outMax
  records_end : s.ipos.toNat + (State.chunkRecords n e).length = s.ilen.toNat
  records : BytesAt s.ibufAt s.ipos.toNat (State.chunkRecords n e)

section
variable {n : Nat} {E bs : List Byte} {e u s t : State}

/-- The first chunk (R228, R231). -/
theorem Follows.first (h : Follows n E e s) :
    (runChecked .decchunk decchunkBody s).DecodesOr (s.cap.toNat < e.cap.toNat) fun t =>
      RecordsDecoded s t e.nextChunk ∧ t.ipos.toNat = s.ipos.toNat + e.chunkRecord.length := by
  obtain ⟨l, r, toks, R⟩ := recordOf_chunkRecord h.encoder
  have hend := h.records_end
  have hat := h.records
  have hroom := h.room
  rw [chunkRecords_eq, List.length_append] at hend
  rw [chunkRecords_eq] at hat
  exact R.decodes h.decoder h.accepted h.encoder_history h.decoder_history (by omega) (bytesAt_append.mp hat).1
    (by rw [length_ibufSlice]; exact (Nat.add_le_add_left (Nat.min_le_right ..) _).trans hroom)

/-- A record is not empty: it begins with a tree (30_encoding.md R101). -/
theorem chunkRecords_pos (n : Nat) (h : RegisterInv e) : 0 < (State.chunkRecords n e).length := by
  obtain ⟨l, r, toks, R⟩ := recordOf_chunkRecord h
  rw [chunkRecords_eq, R.record_eq, List.length_append, List.length_append, HTree.ser, List.length_cons]
  omega

/-- After the first chunk the rest of the input is the later records. -/
theorem Follows.later (h : Follows n E e s) (hu : AfterChunk e u bs) (ht : RecordsDecoded s t bs)
    (hipos : t.ipos.toNat = s.ipos.toNat + e.chunkRecord.length) :
    t.ipos.toNat + (State.laterRecords n u).length = t.ilen.toNat ∧
      BytesAt t.ibufAt t.ipos.toNat (State.laterRecords n u) := by
  have hend := h.records_end
  have hat := h.records
  have hilen : t.ilen = s.ilen := ht.keeps .ilen rfl
  have hibuf : t.ibuf = s.ibuf := ht.keeps .ibuf rfl
  rw [chunkRecords_eq, ← laterRecords_view n hu.view_eq] at hend hat
  rw [List.length_append] at hend
  refine ⟨by rw [hipos, hilen]; omega, ?_⟩
  rw [hipos, show t.ibufAt = s.ibufAt from funext fun a => by rw [State.ibufAt, hibuf, State.ibufAt]]
  exact (bytesAt_append.mp hat).2

/-- Where the encoder has input left after the first chunk, the decoder follows it. -/
theorem Follows.next (h : Follows (n + 1) E e s) (hu : AfterChunk e u bs) (ht : RecordsDecoded s t bs)
    (hipos : t.ipos.toNat = s.ipos.toNat + e.chunkRecord.length) (hlt : u.ipos.toNat < u.ilen.toNat) :
    Follows n (E ++ bs) u t := by
  have hcap : t.cap = s.cap := ht.keeps .cap rfl
  have hparams : t.params = s.params := ht.keeps .params rfl
  have hnacc : t.nacc = s.nacc := ht.keeps .nacc rfl
  have holen := ht.appended.olen_eq
  have hinput := hu.inputLeft_eq
  have hroom := h.room
  have hleft := h.left_le
  have htakes := hu.takes hlt
  obtain ⟨hend, hat⟩ := h.later hu ht hipos
  rw [State.laterRecords, if_pos hlt] at hend hat
  obtain ⟨-, -, hsnacc⟩ := h.accepted
  have hrow : Accepted .decchunk t := ⟨.inr ht.ended.state_eq, ht.ended.ibit_eq, hnacc.trans hsnacc⟩
  refine ⟨hu.registers, ht.ended.registers, hrow, ?_, ?_, by omega, by rw [hparams]; omega, hend, hat⟩
  · rw [hu.history_eq, h.encoder_history, trim_trim_append, hu.cap_eq]
  · rw [ht.recorded.history_eq, h.decoder_history, trim_trim_append, hcap]

/-- DECCHUNK until the input is used: the bytes the encoder had left, or, if the decoder keeps fewer bytes than the
encoder did, `InvalidMatchReference` (R248, R249). -/
theorem untilInputUsed_decchunk (h : Follows n E e s) :
    (untilInputUsed (runChecked .decchunk decchunkBody) s).DecodesOr (s.cap.toNat < e.cap.toNat) fun t =>
      RecordsDecoded s t e.inputBytes ∧ t.ipos = t.ilen := by
  induction hm : e.inputLeft using Nat.strong_induction_on generalizing n E e s with
  | _ m ih =>
    obtain ⟨u, hu⟩ := exists_afterChunk h.encoder
    rw [show untilInputUsed (runChecked .decchunk decchunkBody) s = _ from
      untilInputUsed_command (i := .decchunk) nofun decchunk_takesInput h.decoder]
    refine h.first.andThen fun t ⟨ht, hipos⟩ => ?_
    obtain ⟨hend, -⟩ := h.later hu ht hipos
    by_cases hlt : u.ipos.toNat < u.ilen.toNat
    · obtain ⟨n, rfl⟩ : ∃ k, n = k + 1 := ⟨n - 1, by have := hu.takes hlt; have := h.left_le; omega⟩
      have hnext := h.next hu ht hipos hlt
      have hmore : t.ipos.toNat < t.ilen.toNat := by
        rw [← hnext.records_end]
        exact Nat.lt_add_of_pos_right (chunkRecords_pos n hu.registers)
      have hcap : t.cap = s.cap := ht.keeps .cap rfl
      rw [if_pos hmore, hu.input_eq]
      refine (ih _ (hm ▸ hu.takes hlt) hnext rfl).imp (by rw [hcap, hu.cap_eq]; exact id) fun v hv => ?_
      exact ⟨ht.trans hv.1, hv.2⟩
    · have hused : u.inputBytes = [] := by
        rw [State.inputBytes, State.inputLeft, Nat.sub_eq_zero_of_le (Nat.not_lt.mp hlt)]
        rfl
      rw [laterRecords_of_used n (Nat.not_lt.mp hlt), List.length_nil, Nat.add_zero] at hend
      rw [if_neg (by omega), hu.input_eq, hused, List.append_nil]
      exact .inl ⟨t, rfl, ht, BitVec.eq_of_toNat_eq hend⟩

end

end Sys2Proof.Machine
end

section
/-! ## DECOMPRESS (46_container.md R247 to R250) -/

namespace Sys2Proof.Machine

open Sys2Proof

/-! ### The checks of the file header (R247) -/

/-- A header check that fails is error entry on the state the command was issued in (60_exceptions.md R261, R268). -/
theorem exec_decompress_of_bad_header {s : State} {p : Nat} {info : BitVec 32} (hrow : Accepted .decompress s)
    (h : s.readHeader s.ipos.toNat = .error p) (hinfo : BitVec.ofNat 32 p = info) : exec .decompress s = .next { s with
      estate := s.state, err := some .malformedHeader, errinfo := info, state := .failed } := by
  have hbody : decompressBody s = .raised .malformedHeader (BitVec.ofNat 32 p) s := by rw [decompressBody, h]
  rw [exec_of_accepted rfl (not_failed_of_closed hrow.1) hrow, bodyOf, hbody, hinfo]
  exact congrArg _ (State.raise_of_not_decoding (not_decoding_of_closed hrow.1) _ _)

/-- Settles O51: the first of the header's checks that fails decides. -/
theorem decompressChecksTheFileHeader : Obligations.DecompressChecksTheFileHeader := by
  intro s _ hc hibit p failsWith
  have hfails {k : Nat} {info : BitVec 32} (h : s.readHeader p = .error k) (hinfo : BitVec.ofNat 32 k = info) :
      failsWith info := exec_decompress_of_bad_header ⟨hc, hibit⟩ h hinfo
  have hindex (k : Nat) : BitVec.ofNat 32 (p + k) = s.ipos + BitVec.ofNat 32 k := by simp [p, BitVec.ofNat_add]
  refine ⟨fun hlt => hfails (if_pos hlt) (by simp), fun hle => ?_⟩
  have hlen : ¬ s.ilen.toNat < p + 6 := Nat.not_lt.mpr hle
  refine ⟨fun h0 => hfails (k := p) ?_ (by simp [p]), fun h0 h1 => hfails ?_ (hindex 1),
    fun h0 h1 h2 => hfails ?_ (hindex 2), fun h0 h1 h2 h3 => hfails ?_ (hindex 3),
    fun h0 h1 h2 h3 h4 h5 => hfails ?_ (hindex 4)⟩
  · simp [State.readHeader, hlen, h0]
  · simp [State.readHeader, hlen, h0, h1]
  · simp [State.readHeader, hlen, h0, h1, h2]
  · simp [State.readHeader, hlen, h0, h1, h2, h3]
  · simp [State.readHeader, hlen, h0, h1, h2, h3, h4, h5, capOfBytes]

/-! ### A file of chunk records (R248, R249) -/

/-- The chunk records of a file, which follow its header (30_encoding.md R102). -/
def State.fileRecords (e : State) : List Byte := State.chunkRecords e.inputLeft e.clearRing

theorem fileBytes_eq_header_append (e : State) : e.fileBytes = fileHeader e.cap ++ e.fileRecords := rfl

theorem clearRing_history (s : State) : s.clearRing.history = [] := by simp [State.history]

theorem openFile_history (s : State) (cap : BitVec 16) : (s.openFile cap).history = [] := clearRing_history _

section
variable {e s : State} {cap : BitVec 16} (he : RegisterInv e) (h : RegisterInv s) (hrow : Accepted .decompress s)
  (hfile : s.ibufSlice s.ipos.toNat s.inputLeft = fileHeader cap ++ e.fileRecords)
include h hfile

/-- A file fills the input left: its header, then its records. -/
theorem bytesAt_file : s.ipos.toNat + (6 + e.fileRecords.length) = s.ilen.toNat ∧
    BytesAt s.ibufAt s.ipos.toNat (fileHeader cap) ∧ BytesAt s.ibufAt (s.ipos.toNat + 6) e.fileRecords := by
  have hlen := congrArg List.length hfile
  rw [length_ibufSlice, List.length_append, length_fileHeader] at hlen
  have hle := h.ipos_le
  refine ⟨by rw [← hlen, State.inputLeft]; omega, ?_⟩
  rw [← length_fileHeader cap, ← bytesAt_append, bytesAt_ibuf, ← hfile, length_ibufSlice]

include he hrow

/-- The decoder starts a file as the encoder did: with a cleared ring (R246, R247). -/
theorem follows_openFile (hcap : cap ≠ 0) (hout : e.inputBytes.length ≤ s.params.outMax) :
    s.readHeader s.ipos.toNat = .ok cap ∧ Follows e.inputLeft [] e.clearRing (s.openFile cap) := by
  obtain ⟨hend, hhead, hrecords⟩ := bytesAt_file h hfile
  have hheader : s.readHeader s.ipos.toNat = .ok cap :=
    readHeader_of_bytes hcap (by omega) (bytesAt_ibuf.mp hhead)
  have hilen := h.ilen_lt
  have hipos : (s.openFile cap).ipos.toNat = s.ipos.toNat + 6 := by
    rw [State.openFile_ipos, BitVec.toNat_ofNat]
    omega
  refine ⟨hheader, he.clearRing,
    registerInv_stepInvariant.openFile h (noChunk_of_closed hrow.1) hrow.2 hheader, ⟨hrow.1, hrow.2, rfl⟩,
    (clearRing_history e).trans (trim_nil _).symm, (openFile_history s cap).trans (trim_nil _).symm, le_rfl, ?_, ?_, ?_⟩
  · simpa [State.inputBytes, State.inputLeft] using hout
  · rw [hipos, State.openFile_ilen, Nat.add_assoc]
    exact hend
  · rw [hipos]
    exact hrecords

/-- DECOMPRESS of a file whose capacity may have been altered: the encoder's input, or, if the capacity is less than the
encoder's, `InvalidMatchReference`. -/
theorem exec_decompress_file (hcap : cap ≠ 0) (hout : e.inputBytes.length ≤ s.params.outMax) :
    (∃ t, exec .decompress s = .next t ∧ RecordsDecoded (s.openFile cap) t e.inputBytes ∧ t.ipos = t.ilen) ∨
    (cap.toNat < e.cap.toNat ∧ ∃ t, exec .decompress s = .next t ∧ t.state = .failed ∧
      t.err = some .invalidMatchReference) := by
  obtain ⟨hheader, hfollows⟩ := follows_openFile he h hrow hfile hcap hout
  rw [exec_decompress h hrow hheader]
  rcases untilInputUsed_decchunk hfollows with ⟨t, ht, hdec⟩ | ⟨hlt, w, u, hu⟩
  · rw [ht]
    exact .inl ⟨t, rfl, hdec⟩
  · rw [hu]
    exact .inr ⟨hlt, _, rfl, rfl, rfl⟩

end

/-- The output of a file is all its decoder has appended (R247). -/
theorem RecordsDecoded.output_eq {s t : State} {cap : BitVec 16} {bs : List Byte}
    (h : RecordsDecoded (s.openFile cap) t bs) : t.output = bs := by
  obtain ⟨holen, hbytes, -⟩ := h.appended
  rw [State.openFile_olen, show (0 : BitVec 32).toNat = 0 from rfl] at holen hbytes
  rw [State.output, holen, Nat.zero_add, hbytes]

/-- What DECOMPRESS leaves, register by register. -/
theorem decompressed_eq {s t : State} {cap : BitVec 16} {bs : List Byte} (hibit : s.ibit = 0)
    (h : RecordsDecoded (s.openFile cap) t bs) (hipos : t.ipos = t.ilen) : t = { s with
        ring := t.ring, wptr := t.wptr, fill := t.fill, ipos := s.ilen, obuf := t.obuf, olen := t.olen
        omark := t.omark, acc := 0, nacc := 0, cap := cap
        nodemem := t.nodemem, nnode := t.nnode, nleaf := t.nleaf, root := 0, tvalid := true, cmvalid := false
        dsym := 0x80000000#32, fStop := true, fExh := false, state := .done } := by
  obtain ⟨-, hdone, htibit, hroot, htvalid, hcmvalid, hdsym, hstop, hexh⟩ := h.ended
  have hilen : t.ilen = s.ilen := h.keeps .ilen rfl
  calc t = (s.openFile cap).take (writes .decchunk) t := Field.eq_take_of_same h.keeps
    _ = { s.openFile cap with
        ring := t.ring, wptr := t.wptr, fill := t.fill, ipos := t.ipos, ibit := t.ibit, obuf := t.obuf, olen := t.olen
        omark := t.omark, nodemem := t.nodemem, nnode := t.nnode, nleaf := t.nleaf, root := t.root, tvalid := t.tvalid
        cmvalid := t.cmvalid, dsym := t.dsym, fStop := t.fStop, fExh := t.fExh, state := t.state } := rfl
    _ = _ := by rw [hipos, hilen, htibit.trans hibit.symm, hroot, htvalid, hcmvalid, hdsym, hstop, hexh, hdone]; rfl

/-- Settles O49: the decoder follows the encoder from chunk to chunk (`untilInputUsed_decchunk`), and with the encoder's
capacity no match reaches behind its history. -/
theorem decompressInvertsCompress : Obligations.DecompressInvertsCompress := by
  intro e s he h hc hibit hfile bytes hout
  rw [fileBytes_eq_header_append] at hfile
  have hcap : e.cap ≠ 0 := fun h0 => by simpa [h0] using he.cap_pos
  rcases exec_decompress_file he h ⟨hc, hibit⟩ hfile hcap hout with
    ⟨t, hexec, hdec, hipos⟩ | ⟨hlt, -⟩
  · obtain ⟨holen, -, hothers⟩ := hdec.appended
    refine ⟨t, hexec, decompressed_eq hibit hdec hipos, hdec.output_eq, ?_, fun a ha =>
      hothers a (.inr (holen ▸ ha))⟩
    rw [hdec.recorded.history_eq, openFile_history, List.nil_append, State.openFile_cap]
    rfl
  · exact absurd hlt (lt_irrefl _)

/-- Settles O50: with another capacity the decoder either finds every match within its history or meets one that reaches
behind it, which takes a smaller capacity (`applicable_or_reachesBehind`). -/
theorem alteredCapacityIsNeverSilentlyWrong : Obligations.AlteredCapacityIsNeverSilentlyWrong := by
  intro e s t cap he h hc hibit hfile bytes hout hexec
  rw [fileBytes_eq_header_append, ← length_fileHeader e.cap, List.drop_left] at hfile
  have hdecodes (hcap : cap ≠ 0) : (t.state = .done ∧ t.output = bytes) ∨
      (cap.toNat < e.cap.toNat ∧ t.state = .failed ∧ t.err = some .invalidMatchReference) := by
    rcases exec_decompress_file he h ⟨hc, hibit⟩ hfile hcap hout with
      ⟨u, hu, hdec, -⟩ | ⟨hlt, u, hu, hfailed⟩
    · obtain rfl := Host.Outcome.next.inj (hexec.symm.trans hu)
      exact .inl ⟨hdec.ended.state_eq, hdec.output_eq⟩
    · obtain rfl := Host.Outcome.next.inj (hexec.symm.trans hu)
      exact .inr ⟨hlt, hfailed⟩
  refine ⟨fun hzero => ?_, fun hle => ?_, fun hcap => (hdecodes hcap).imp id And.right⟩
  · subst hzero
    obtain ⟨hend, hhead, -⟩ := bytesAt_file h hfile
    simp only [fileHeader, magicBytes, List.cons_append, List.nil_append, bytesAt_cons, Nat.add_assoc,
      Nat.reduceAdd] at hhead
    obtain ⟨h0, h1, h2, h3, h4, h5, -⟩ := hhead
    obtain ⟨-, hchecks⟩ := decompressChecksTheFileHeader s h hc hibit
    obtain ⟨-, -, -, -, hzero⟩ := hchecks (by omega)
    obtain rfl := Host.Outcome.next.inj (hexec.symm.trans (hzero h0 h1 h2 h3 h4 h5))
    exact ⟨rfl, rfl⟩
  · have hpos := he.cap_pos
    exact (hdecodes fun h0 => by rw [h0] at hle; simp at hle; omega).resolve_right fun hlt => by omega

end Sys2Proof.Machine
end

section
/-! ## The empty input (46_container.md R250) -/

namespace Sys2Proof.Machine

open Sys2Proof

/-- The bytes of the empty chunk's record: root, leaf `Stop`, `NIL`; the stop code and its padding (R250). -/
def emptyRecord : List Byte := [0x00, 0x01, 0x80, 0x00, 0x00, 0x00, 0x02, 0x00]

/-- The degenerate tree of the stop code alone (43_huffman.md R177). -/
def stopTree : HTree := .node (.leaf 0 stopWord) .nil

theorem buildTree_tree_of_no_tokens {s : State} (h : s.tokens = []) : s.buildTree.tree = some stopTree :=
  (buildTree_tree_congr (u := State.reset) h).trans (by decide)

/-- With the input used up a chunk is opened and closed at once (R161, R163). -/
theorem collectChunk_of_used {s : State} (h : s.ipos = s.ilen) : s.collectChunk = s.openChunk := by
  have hcend : s.openChunk.cend.toNat - s.ipos.toNat = 0 := by
    rw [State.openChunk_cend, h, Nat.min_eq_left (Nat.le_add_right ..)]
    simp
  rw [State.collectChunk, hcend, State.collect]

theorem chunkRecord_of_used {s : State} (h : s.ipos = s.ilen) : s.chunkRecord = emptyRecord := by
  have htokens : s.collectChunk.tokens = [] := by
    rw [collectChunk_of_used h]
    simp [State.tokens, Mem.readSeq]
  rw [State.chunkRecord, buildTree_tree_of_no_tokens htokens, htokens]
  decide

/-- The file of the empty input: the header and the empty chunk's record. -/
theorem fileBytes_of_used {s : State} (h : s.ipos = s.ilen) : s.fileBytes = fileHeader s.cap ++ emptyRecord := by
  rw [State.fileBytes, h, Nat.sub_self, State.chunkRecords, chunkRecord_of_used (by exact h)]

/-- An encoder of the capacity `cap` with no input. -/
def State.emptyEncoder (cap : BitVec 16) : State := { State.reset with cap := cap }

theorem emptyEncoder_registers {cap : BitVec 16} (h : cap ≠ 0) : RegisterInv (State.emptyEncoder cap) := by
  have hpos : 1 ≤ cap.toNat := Nat.pos_of_ne_zero fun h0 => h (BitVec.eq_of_toNat_eq h0)
  exact { RegisterInv.reset with
    cap_pos := hpos
    wptr_lt := hpos
    fill_le := Nat.zero_le _
    not_wrapped := fun _ => rfl }

/-- Settles O52: the file of the empty input is the header and the record of an empty chunk, and the decoder gives its
bytes back, which are none. -/
theorem emptyInputGivesFourteenBytes : Obligations.EmptyInputGivesFourteenBytes := by
  intro s h hc hibit
  refine ⟨fun hused hroom => ?_, fun c hcap hfile => ?_⟩
  · have hbytes := fileBytes_of_used hused
    obtain ⟨hfits, -⟩ := compressWritesTheFile s h hc hibit
    obtain ⟨t, hexec, hregs, houtput, -⟩ := hfits (by rw [hbytes]; exact hroom)
    exact ⟨t, hexec, congrArg State.state hregs, houtput.trans hbytes⟩
  · have hbytes : (State.emptyEncoder c).fileBytes = fileHeader c ++ emptyRecord := fileBytes_of_used rfl
    obtain ⟨t, hexec, hregs, houtput, -⟩ := decompressInvertsCompress (State.emptyEncoder c) s
      (emptyEncoder_registers hcap) h hc hibit (hfile.trans hbytes.symm) (Nat.zero_le _)
    have holen : t.olen.toNat = 0 := by
      have hlen := congrArg List.length houtput
      rwa [State.output, State.obufSlice, Mem.length_readSeq] at hlen
    exact ⟨t, hexec, BitVec.eq_of_toNat_eq holen, congrArg State.state hregs, congrArg State.fStop hregs⟩

end Sys2Proof.Machine
end

section
/-! ## No step stops (60_exceptions.md R270, 70_reset_and_hazards.md R293, R304) -/

namespace Sys2Proof.Machine

open Sys2Proof

/-! ### The primitives meet nothing undefined -/

/-- The children of a node in range are absent or in range (R31); a leaf has none. -/
theorem childInRange_child {n : Nat} {x : Node} (h : nodeInRange n x = true) (b : Bool) : childInRange n (x.child b) := by
  cases x with
  | leaf => exact .inl rfl
  | internal l r =>
    obtain ⟨hl, hr⟩ : childInRange n l ∧ childInRange n r := by simpa [nodeInRange] using h
    cases b with
    | false => exact hl
    | true => exact hr

/-- Under a valid tree the word a walk ends in is a valid symbol word: it goes from node to node of the tree (R31, R181). -/
theorem validSymbol_of_walkFrom {n : Nat} (k : Nat) {i : BitVec 17} {s t : State} {w : Word}
    (hnodes : ∀ j < n, nodeInRange n (s.nodeAt j) = true) (hi : i.toNat < n) (h : walkFrom k i s = .symbol w t) :
    validSymbol w = true := by
  induction k generalizing i s with
  | zero => cases h
  | succ k ih =>
    have hchild := childInRange_child (hnodes _ hi) s.nextBit
    unfold walkFrom at h
    split at h
    · cases h
    · split at h
      · cases h
      · next hne =>
        have hlt := hchild.resolve_left hne
        split at h
        · next v x hx =>
          obtain ⟨rfl, -⟩ := WalkEnd.symbol.inj h
          have hleaf := hnodes _ hlt
          rwa [hx] at hleaf
        · exact ih (fun j hj => by rw [skipBit_nodeAt]; exact hnodes j hj) hlt h

theorem symbolOf_of_walk {s t : State} {w : Word} (h : TreeInv s) (ht : s.tvalid = true) (hw : s.walk = .symbol w t) :
    ∃ x, symbolOf w = some x :=
  Option.isSome_iff_exists.mp (validSymbol_of_walkFrom _ (h.nodes_in_range ht) (h.root_in_range ht) hw)

theorem codeOf_of_hasCode {s : State} {w : Word} (h : s.hasCode w) : ∃ c, s.codeOf w = some c :=
  Option.ne_none_iff_exists'.mp h.1

theorem dstepBody_defined {s : State} (h : TreeInv s) (ht : s.tvalid = true) : (dstepBody s).Defined := by
  unfold dstepBody
  split
  · next w t hw =>
    obtain ⟨x, hx⟩ := symbolOf_of_walk h ht hw
    rw [dstepSymbol, hx]
    cases x with
    | stop => trivial
    | literal b => dsimp only; split <;> trivial
    | copy o l =>
      dsimp only
      split
      · split <;> trivial
      · trivial
  · split <;> trivial
  · trivial

/-- The invariants give each primitive what it looks up: TSTORE and DSTEP a tree, ESTEP, EFIN and WFIN a code, and BUILD
makes its tree. -/
theorem primitive_defined {i : Instr} (hc : Composite i = false) {s : State} (h : RegisterInv s) (ht : TreeInv s)
    (hl : legalIn i s.state = true) (hp : precondition i s = true) : (bodyOf i s).Defined := by
  have hrow := (accepted_iff i s).mpr ⟨hl, hp⟩
  cases i with
  | csrw a v =>
    show (csrwBody a v s).Defined
    unfold csrwBody
    split <;> trivial
  | csrr a =>
    show (csrrBody a s).Defined
    unfold csrrBody
    split <;> trivial
  | push b =>
    show (pushBody b s).Defined
    unfold pushBody
    split <;> trivial
  | build =>
    obtain ⟨l, r, hT, -⟩ := buildTree_holdsTree ht.tokens_valid
    show (buildBody s).Defined
    rw [buildBody, hT.tree_eq]
    trivial
  | tstore =>
    obtain ⟨T, hT⟩ := Option.isSome_iff_exists.mp
      (ht.is_tree (h.cmvalid_tvalid (h.encode_cmvalid (.inl hrow))))
    show (tstoreBody s).Defined
    rw [tstoreBody, hT]
    exact needOut_defined fun _ => trivial
  | tload =>
    show (tloadBody s).Defined
    unfold tloadBody
    split <;> trivial
  | wbits n v =>
    show (wbitsBody n v s).Defined
    exact needOut_defined fun _ => trivial
  | wfin =>
    show (wfinBody s).Defined
    unfold wfinBody
    split
    · next hpos =>
      have hcm : s.cmvalid = true := hrow.2.resolve_left fun h0 => by simp [h0] at hpos
      exact needOut_defined fun _ => withCode_defined (codeOf_of_hasCode (ht.stop_has_code hcm)) fun _ _ => trivial
    · trivial
  | rbit =>
    show (rbitBody s).Defined
    unfold rbitBody
    split <;> trivial
  | estep =>
    have hcode := ht.tokens_have_codes (h.encode_cmvalid hrow.1) _ hrow.2
    exact withCode_defined (codeOf_of_hasCode hcode) fun _ _ => needOut_defined fun _ => trivial
  | efin =>
    have hcode := ht.stop_has_code (h.encode_cmvalid hrow.1)
    exact withCode_defined (codeOf_of_hasCode hcode) fun _ _ => needOut_defined fun _ => trivial
  | dstep => exact dstepBody_defined ht (h.decode_tvalid hrow)
  | encchunk | decchunk | compress | decompress => cases hc
  | nop | reset | iclr | oclr | lbclr | lbrec | lbfind | cbegin | mstep | ralign => trivial

/-! ### The composites stay within the bounds of their loops (45_chunk_codec.md R229) -/

theorem Res.FitsOr.defined {room : Prop} {P : State → Prop} {r : Res} (h : r.FitsOr room P) : r.Defined := by
  by_cases hroom : room
  · obtain ⟨t, rfl, -⟩ := h.fits hroom
    trivial
  · obtain ⟨u, rfl⟩ := h.full hroom
    trivial

/-- The invariants under which every command has a next state. -/
abbrev RunInv (s : State) : Prop := RegisterInv s ∧ TreeInv s

theorem runInv_checked {i : Instr} (hr : i ≠ .reset) {s : State} (h : RunInv s) :
    (runChecked i (bodyOf i) s).All RunInv :=
  (treeInv_stepInvariant.body hr).checked h

/-- Every DSTEP but the last consumes a bit (R229). -/
theorem decodeAll_defined {s : State} (h : RunInv s) : (decodeAll s).Defined := by
  refine repeatWhile_defined (P := RunInv) (fun u => 8 * u.ilen.toNat - u.bitIndex)
    (fun u hu _ => ⟨runInv_checked (i := .dstep) nofun hu, ?_⟩) (fun u t hu _ hb hc => ?_) _ h fun _ => ?_
  · exact runChecked_defined fun hl hp => primitive_defined (i := .dstep) rfl hu.1 hu.2 hl hp
  · obtain ⟨ht, hilen, hlt⟩ := dstep_round hu.1 hb
    have hlt := hlt (of_decide_eq_true hc)
    have hle := bitIndex_le ht
    rw [hilen] at hle ⊢
    omega
  · rw [State.bitIndex]
    omega

theorem decchunkBody_defined {s : State} (h : RunInv s) : (decchunkBody s).Defined := by
  refine Res.inComposite_defined _ (Res.andThen_defined (runInv_checked (i := .tload) nofun h) ?_ fun u hu =>
    decodeAll_defined hu)
  exact runChecked_defined fun hl hp => primitive_defined (i := .tload) rfl h.1 h.2 hl hp

/-- A chunk command that is defined, repeated until the input is used: every round but the last takes input
(46_container.md R246, R247). -/
theorem untilInputUsed_defined {i : Instr} (hr : i ≠ .reset) (htake : TakesInput i)
    (hbody : ∀ {u}, RunInv u → (bodyOf i u).Defined) {s : State} (h : RunInv s) :
    (untilInputUsed (runChecked i (bodyOf i)) s).Defined := by
  have hround {u : State} (hu : RunInv u) : (runChecked i (bodyOf i) u).Defined := runChecked_defined fun _ _ => hbody hu
  refine Res.andThen_defined (runInv_checked hr h) (hround h) fun u hu => ?_
  refine repeatWhile_defined (P := RunInv) (fun v => v.ilen.toNat - v.ipos.toNat - 1)
    (fun v hv _ => ⟨runInv_checked hr hv, hround hv⟩) (fun v t hv _ hb hc => ?_) _ hu fun hc => ?_
  · have hlt := of_decide_eq_true hc
    obtain ⟨hipos, hilen⟩ := htake v t hv.1 hb hlt
    rw [hilen] at hlt ⊢
    omega
  · have hlt := of_decide_eq_true hc
    omega

theorem decompressBody_defined {s : State} (h : RunInv s) (hrow : Accepted .decompress s) :
    (decompressBody s).Defined := by
  obtain ⟨hclosed, hibit⟩ := hrow
  unfold decompressBody
  split
  · trivial
  · next cap hh =>
    have hstart : RunInv (s.openFile cap) := treeInv_stepInvariant.openFile h (noChunk_of_closed hclosed) hibit hh
    exact Res.inComposite_defined _
      (untilInputUsed_defined (i := .decchunk) nofun decchunk_takesInput decchunkBody_defined hstart)

/-- Under the invariants the pseudocode of an accepted command completes or raises; an encoding composite completes where
its record fits and raises where it does not (R230, R246). -/
theorem body_defined {i : Instr} {s : State} (h : RunInv s) (hl : legalIn i s.state = true)
    (hp : precondition i s = true) : (bodyOf i s).Defined := by
  have hrow := (accepted_iff i s).mpr ⟨hl, hp⟩
  by_cases hc : Composite i = false
  · exact primitive_defined hc h.1 h.2 hl hp
  · cases i with
    | encchunk =>
      obtain ⟨hclosed, hibit, hnacc⟩ := hrow
      exact (encchunkBody_encodes h.1 hclosed hibit hnacc).defined
    | decchunk => exact decchunkBody_defined h
    | compress =>
      obtain ⟨hclosed, hibit⟩ := hrow
      exact (compressBody_fits h.1 hclosed hibit).defined
    | decompress => exact decompressBody_defined h hrow
    | _ => exact absurd rfl hc

/-! ### Steps and runs -/

theorem exec_defined {s : State} (h : RunInv s) (i : Instr) : ∃ t, exec i s = .next t := by
  rw [exec_eq_command]
  refine command_defined fun hruns => ?_
  obtain ⟨hl, hp⟩ : legalIn i s.state = true ∧ precondition i s = true :=
    hruns.elim id fun hf => checks_of_runsInFailed hf.2
  exact body_defined h hl hp

theorem steps_of_runInv {s : State} (h : RunInv s) : Steps s := by
  rcases step_cases s with ⟨-, he⟩ | ⟨rest, -, he⟩ | ⟨w, rest, i, -, -, he⟩ | ⟨w, rest, e, -, -, -, he⟩ |
    ⟨w, rest, e, -, -, -, he⟩
  · exact ⟨_, he⟩
  · exact ⟨_, he⟩
  · obtain ⟨t, ht⟩ := exec_defined (treeInv_stepInvariant.takeInput rest h) i
    exact ⟨t, he.trans ht⟩
  · exact ⟨_, he⟩
  · exact ⟨_, he⟩

/-- What every step keeps holds in every state a run reaches. -/
theorem StepInvariant.reaches_keeps {P : State → Prop} (h : StepInvariant P) {s t : State} (hs : P s)
    (hr : Reaches s t) : P t := by
  induction hr with
  | here => exact hs
  | next _ he ih => exact h.step_keeps ih he

/-- The reset state satisfies them for every legal value of the parameters and every host (10_state.md R49). -/
theorem runInv_reset {p : Config.Params} (hp : p.legal) (inputs : List HostInput) :
    RunInv { State.reset with params := p, port := inputs } :=
  ⟨.resetRegisters (s := { State.reset with params := p, port := inputs }) hp,
    treeInv_of_no_tree rfl rfl fun k hk => absurd hk (Nat.not_lt_zero k)⟩

/-- Settles O60: under the invariants every look-up succeeds and every loop ends within its bound, and the invariants
hold along every run from reset. -/
theorem noStepStops : Obligations.NoStepStops := by
  refine ⟨fun s h ht => steps_of_runInv ⟨h, ht⟩, fun p inputs t hp hr => ?_⟩
  exact steps_of_runInv (treeInv_stepInvariant.reaches_keeps (runInv_reset hp inputs) hr)

end Sys2Proof.Machine
end

section
/-! ## Errors, the state `Failed`, and what leaves it (60_exceptions.md R268 to R271, R281, R282) -/

namespace Sys2Proof.Machine

open Sys2Proof

/-! ### Which errors the pseudocode raises (R282) -/

/-- Only errors of the list are raised. -/
def Res.RaisesOnly (ks : List ErrorKind) : Res → Prop
  | .ok _ => True
  | .raised k _ _ => k ∈ ks
  | .stuck _ => True

namespace Res.RaisesOnly

variable {ks : List ErrorKind} {r : Res} {s : State}

/-- A raise whose error the list marks. -/
theorem raised {k : ErrorKind} {info : Word} (hk : k ∈ ks) : (Res.raised k info s).RaisesOnly ks := hk

theorem mono {js : List ErrorKind} (h : r.RaisesOnly js) (hsub : js ⊆ ks) : r.RaisesOnly ks := by
  cases r with
  | raised => exact hsub h
  | ok | stuck => trivial

theorem andThen {f : State → Res} (h : r.RaisesOnly ks) (hf : ∀ t, (f t).RaisesOnly ks) :
    (r.andThen f).RaisesOnly ks := by
  cases r with
  | ok t => exact hf t
  | raised => exact h
  | stuck => trivial

theorem inComposite (h : r.RaisesOnly ks) (w : Word) : (r.inComposite w).RaisesOnly ks := by
  cases r with
  | raised k => cases k <;> exact h
  | ok | stuck => trivial

theorem needOut {k : Nat} {f : State → Res} (hk : .resourceExhausted ∈ ks) (hf : (f s).RaisesOnly ks) :
    (s.needOut k f).RaisesOnly ks := by
  unfold State.needOut
  split
  · exact hf
  · exact hk

theorem withCode {w : Word} {f : Bits → Res} (hf : ∀ c, (f c).RaisesOnly ks) : (s.withCode w f).RaisesOnly ks := by
  unfold State.withCode
  split
  · exact hf _
  · trivial

theorem runChecked {i : Instr} {body : State → Res} (hk : .illegalCommand ∈ ks) (hb : (body s).RaisesOnly ks) :
    (runChecked i body s).RaisesOnly ks := by
  rcases runChecked_cases i body s with ⟨-, -, -, he⟩ | ⟨-, he⟩ <;> rw [he]
  · exact hb
  · exact hk

theorem repeatWhile {cond : State → Bool} {body : State → Res} (hb : ∀ t, (body t).RaisesOnly ks) (n : Nat) :
    (repeatWhile cond body n s).RaisesOnly ks := by
  induction n generalizing s with
  | zero => unfold Machine.repeatWhile; split <;> trivial
  | succ n ih =>
    unfold Machine.repeatWhile
    split
    · exact (hb s).andThen fun _ => ih
    · trivial

theorem untilInputUsed {body : State → Res} (hb : ∀ t, (body t).RaisesOnly ks) :
    (untilInputUsed body s).RaisesOnly ks :=
  (hb s).andThen fun _ => repeatWhile hb _

end Res.RaisesOnly

theorem dstepBody_raisesOnly (s : State) : (dstepBody s).RaisesOnly (mayRaise .dstep) := by
  unfold dstepBody
  split
  · unfold dstepSymbol
    split
    · trivial
    · trivial
    · split
      · trivial
      · exact .raised (by simp [mayRaise])
    · split
      · split
        · trivial
        · exact .raised (by simp [mayRaise])
      · exact .raised (by simp [mayRaise])
  · split
    · trivial
    · exact .raised (by simp [mayRaise])
  · exact .raised (by simp [mayRaise])

/-- A primitive's pseudocode raises only what its row marks. -/
theorem primitive_raisesOnly {i : Instr} (hc : Composite i = false) (s : State) :
    (bodyOf i s).RaisesOnly (mayRaise i) := by
  cases i with
  | csrw a v =>
    show (csrwBody a v s).RaisesOnly _
    unfold csrwBody
    split
    case h_6 => exact .raised (by simp [mayRaise])
    all_goals trivial
  | csrr a =>
    show (csrrBody a s).RaisesOnly _
    unfold csrrBody
    split
    · trivial
    · exact .raised (by simp [mayRaise])
  | push b =>
    show (pushBody b s).RaisesOnly _
    unfold pushBody
    split
    · trivial
    · exact .raised (by simp [mayRaise])
  | build =>
    show (buildBody s).RaisesOnly _
    unfold buildBody
    split <;> trivial
  | tstore =>
    show (tstoreBody s).RaisesOnly _
    unfold tstoreBody
    split
    · trivial
    · exact .needOut (by simp [mayRaise]) trivial
  | tload =>
    show (tloadBody s).RaisesOnly _
    unfold tloadBody
    split
    · exact .raised (by simp [mayRaise])
    · trivial
  | wbits n v =>
    show (wbitsBody n v s).RaisesOnly _
    exact .needOut (by simp [mayRaise]) trivial
  | wfin =>
    show (wfinBody s).RaisesOnly _
    unfold wfinBody
    split
    · exact .needOut (by simp [mayRaise]) (.withCode fun _ => trivial)
    · trivial
  | rbit =>
    show (rbitBody s).RaisesOnly _
    unfold rbitBody
    split <;> trivial
  | estep =>
    show (estepBody s).RaisesOnly _
    exact .withCode fun _ => .needOut (by simp [mayRaise]) trivial
  | efin =>
    show (efinBody s).RaisesOnly _
    exact .withCode fun _ => .needOut (by simp [mayRaise]) trivial
  | dstep => exact dstepBody_raisesOnly s
  | encchunk | decchunk | compress | decompress => cases hc
  | nop | reset | iclr | oclr | lbclr | lbrec | lbfind | cbegin | mstep | ralign => trivial

/-- A primitive inside a composite raises what the composite's row marks. -/
theorem checkedPrimitive_raisesOnly {i j : Instr} (hc : Composite j = false) (hill : .illegalCommand ∈ mayRaise i)
    (hsub : mayRaise j ⊆ mayRaise i) (s : State) : (runChecked j (bodyOf j) s).RaisesOnly (mayRaise i) :=
  .runChecked hill ((primitive_raisesOnly hc s).mono hsub)

theorem encchunkBody_raisesOnly (s : State) : (encchunkBody s).RaisesOnly (mayRaise .encchunk) := by
  have hprim (j : Instr) (hj : Composite j = false ∧ mayRaise j ⊆ mayRaise .encchunk) (t : State) :
      (runChecked j (bodyOf j) t).RaisesOnly (mayRaise .encchunk) :=
    checkedPrimitive_raisesOnly hj.1 (by decide) hj.2 t
  refine Res.RaisesOnly.inComposite ?_ _
  refine (hprim .cbegin (by decide) s).andThen fun t => ?_
  refine (Res.RaisesOnly.repeatWhile (hprim .mstep (by decide)) _).andThen fun t => ?_
  refine (hprim .build (by decide) t).andThen fun t => ?_
  refine (hprim .tstore (by decide) t).andThen fun t => ?_
  refine (Res.RaisesOnly.repeatWhile (hprim .estep (by decide)) _).andThen fun t => ?_
  exact hprim .efin (by decide) t

theorem decchunkBody_raisesOnly (s : State) : (decchunkBody s).RaisesOnly (mayRaise .decchunk) := by
  have hprim (j : Instr) (hj : Composite j = false ∧ mayRaise j ⊆ mayRaise .decchunk) (t : State) :
      (runChecked j (bodyOf j) t).RaisesOnly (mayRaise .decchunk) :=
    checkedPrimitive_raisesOnly hj.1 (by decide) hj.2 t
  refine Res.RaisesOnly.inComposite ?_ _
  exact (hprim .tload (by decide) s).andThen fun t => Res.RaisesOnly.repeatWhile (hprim .dstep (by decide)) _

theorem compressBody_raisesOnly (s : State) : (compressBody s).RaisesOnly (mayRaise .compress) := by
  unfold compressBody
  split
  · exact .inComposite (.untilInputUsed fun t => .runChecked (by decide) (encchunkBody_raisesOnly t)) _
  · exact .raised (by decide)

theorem decompressBody_raisesOnly (s : State) : (decompressBody s).RaisesOnly (mayRaise .decompress) := by
  unfold decompressBody
  split
  · exact .raised (by decide)
  · exact .inComposite (.untilInputUsed fun t => .runChecked (by decide) (decchunkBody_raisesOnly t)) _

theorem body_raisesOnly (i : Instr) (s : State) : (bodyOf i s).RaisesOnly (mayRaise i) := by
  by_cases hc : Composite i = false
  · exact primitive_raisesOnly hc s
  · cases i with
    | encchunk => exact encchunkBody_raisesOnly s
    | decchunk => exact decchunkBody_raisesOnly s
    | compress => exact compressBody_raisesOnly s
    | decompress => exact decompressBody_raisesOnly s
    | _ => exact absurd rfl hc

/-- Every row but those of NOP and RESET marks `IllegalCommand`. -/
theorem illegalCommand_mem_mayRaise {i : Instr} (hn : i ≠ .nop) (hr : i ≠ .reset) : .illegalCommand ∈ mayRaise i := by
  cases i with
  | nop => exact absurd rfl hn
  | reset => exact absurd rfl hr
  | _ => simp [mayRaise]

/-- RESET runs in every state (R123, R271). -/
theorem exec_reset (s : State) : exec .reset s = .next s.resetRegisters := by
  by_cases hf : s.state = .failed
  · rw [exec_eq_command, command, if_pos hf]
    rfl
  · exact exec_of_accepted rfl hf trivial

theorem exec_nop (s : State) : exec .nop s = .next s := (nopChangesNothing.2 s).1

/-- Settles O12: a failed check raises `IllegalCommand`, and the pseudocode raises what its row marks. -/
theorem commandsRaiseOnlyTheirErrors : Obligations.CommandsRaiseOnlyTheirErrors := by
  intro i s t herr he k hk
  by_cases hn : i = .nop
  · subst hn
    rw [← Host.Outcome.next.inj ((exec_nop s).symm.trans he), herr] at hk
    cases hk
  by_cases hr : i = .reset
  · subst hr
    rw [← Host.Outcome.next.inj ((exec_reset s).symm.trans he)] at hk
    cases hk
  rcases exec_next he with ⟨-, rfl⟩ | ⟨-, rfl⟩ | ⟨-, -, hb, -⟩
  · rw [herr] at hk
    cases hk
  · exact Option.some.inj hk ▸ illegalCommand_mem_mayRaise hn hr
  · rcases Res.outcome_next hb with hok | ⟨k', info, u, hra, rfl⟩
    · have hkeeps := body_keeps hr s
      rw [hok] at hkeeps
      have hsame : t.err = s.err := hkeeps .err rfl
      rw [hsame, herr] at hk
      cases hk
    · have hrow := body_raisesOnly i s
      rw [hra] at hrow
      exact Option.some.inj hk ▸ hrow

/-! ### Error entry of a primitive (R268, R269) -/

/-- Among the primitives TLOAD alone raises `MalformedHeader`. -/
theorem eq_tload_of_malformedHeader {i : Instr} (hc : Composite i = false) (hk : .malformedHeader ∈ mayRaise i) :
    i = .tload := by
  cases i with
  | tload => rfl
  | encchunk | decchunk | compress | decompress => cases hc
  | _ => exact absurd hk (by simp [mayRaise])

theorem tloadBody_raised {s u : State} {k : ErrorKind} {info : Word} (h : tloadBody s = .raised k info u) :
    k = .malformedHeader ∧ u = s.dropTree := by
  unfold tloadBody at h
  split at h
  · obtain ⟨rfl, -, rfl⟩ := Res.raised.inj h
    exact ⟨rfl, rfl⟩
  · cases h

/-- What a primitive raises, it raises on the state it began in, but for TLOAD's `MalformedHeader`, which has dropped the
tree (43_huffman.md R186). -/
theorem primitive_raised {i : Instr} (hc : Composite i = false) {s u : State} {k : ErrorKind} {info : Word}
    (h : bodyOf i s = .raised k info u) :
    (k ≠ .malformedHeader ∧ u = s) ∨ (k = .malformedHeader ∧ i = .tload ∧ u = s.dropTree) := by
  by_cases hi : i = .tload
  · subst hi
    obtain ⟨hk, hu⟩ := tloadBody_raised h
    exact .inr ⟨hk, rfl, hu⟩
  · have hrow := primitive_raisesOnly hc s
    have hon := primitive_raisedOn hc s
    rw [h] at hrow hon
    exact .inl ⟨fun hk => hi (eq_tload_of_malformedHeader hc (hk ▸ hrow)), hon.resolve_right fun h => hi h.1⟩

/-- No row of R221's table leads a primitive to `Failed`. -/
theorem Transition.ne_failed {i : Instr} {a b : CodecState} (h : Transition i a b) (ha : a ≠ .failed) : b ≠ .failed := by
  rintro rfl
  cases i with
  | reset => cases h
  | cbegin | build | estep | efin | tload | encchunk | compress | decchunk | decompress => cases h.2
  | dstep => rcases h.2 with h | h <;> cases h
  | _ => exact ha h.symm

/-- A primitive that ends in `Failed` has entered the error, by a failed check or from its pseudocode. -/
theorem primitive_failed {i : Instr} (hc : Composite i = false) {s t : State} (hf : s.state ≠ .failed)
    (he : exec i s = .next t) (ht : t.state = .failed) : ∃ k info,
      (k ≠ .malformedHeader ∧ t = s.raise k info) ∨
      (k = .malformedHeader ∧ i = .tload ∧ t = s.dropTree.raise k info) := by
  rcases exec_next he with ⟨hfailed, -⟩ | ⟨-, rfl⟩ | ⟨hl, -, hb, -⟩
  · exact absurd hfailed hf
  · exact ⟨.illegalCommand, encode i, .inl ⟨nofun, rfl⟩⟩
  · rcases Res.outcome_next hb with hok | ⟨k, info, u, hra, rfl⟩
    · exact absurd ht ((transition_of_body hl hok).ne_failed hf)
    · refine ⟨k, info, (primitive_raised hc hra).imp ?_ ?_⟩
      · rintro ⟨hk, rfl⟩
        exact ⟨hk, rfl⟩
      · rintro ⟨hk, hi, rfl⟩
        exact ⟨hk, hi, rfl⟩

/-- Settles O13: what raises, raises on the state before, and TLOAD's `MalformedHeader` on that state without its tree. -/
theorem errorEntryRecordsTheStateAndRollsBack : Obligations.ErrorEntryRecordsTheStateAndRollsBack := by
  intro i s t hc hf he ht u
  obtain ⟨k, info, ⟨hk, rfl⟩ | ⟨rfl, hi, rfl⟩⟩ := primitive_failed hc hf he ht
  · exact ⟨nofun, fun _ => rfl, fun hmal => absurd (Option.some.inj hmal) hk⟩
  · exact ⟨nofun, fun hne => absurd rfl hne, fun _ => ⟨hi, rfl⟩⟩

/-! ### Waiting and illegal words (R281, R120) -/

theorem step_waits {s : State} (h : s.port = []) : step s = .next s := by
  rw [step, serve, h]

/-- An illegal word is ignored in `Failed` and raises `IllegalCommand` with the word elsewhere (R94, R120). -/
theorem step_illegal_word {s : State} {w : Word} {rest : List HostInput} {e : DecodeError}
    (hp : s.port = .command w :: rest) (hd : decode w = .error e) : step s =
      if s.state = .failed then .next { s with port := rest }
      else .next (({ s with port := rest } : State).raise .illegalCommand w) := by
  simp only [step, serve, hp, accept, issue, hd]

/-- Settles O9: the two cases of an illegal word are those of `issue`. -/
theorem stepWaitsAndRefusesIllegalWords : Obligations.StepWaitsAndRefusesIllegalWords :=
  ⟨fun _ => step_waits, fun _ _ _ _ hp hd =>
    ⟨fun hf => (step_illegal_word hp hd).trans (if_pos hf), fun hf => (step_illegal_word hp hd).trans (if_neg hf)⟩⟩

/-! ### `Failed` (R270, R271) -/

/-- In `Failed` a command that does not run there is ignored. -/
theorem exec_ignored {i : Instr} {s : State} (hf : s.state = .failed) (hi : runsInFailed i = false) :
    exec i s = .next s := by
  rw [exec_eq_command, command, if_pos hf, hi]
  rfl

/-- The commands that run in `Failed` (R120 step 1). -/
theorem runsInFailed_cases {i : Instr} (h : runsInFailed i = true) :
    i = .nop ∨ i = .reset ∨ ∃ a, i = .csrr a ∧ csrImplemented a = true := by
  cases i with
  | nop => exact .inl rfl
  | reset => exact .inr (.inl rfl)
  | csrr a => exact .inr (.inr ⟨a, rfl, h⟩)
  | _ => cases h

/-- Settles O14: NOP, RESET and CSRR of an implemented address run in `Failed`, everything else is ignored there. -/
theorem failedExecutesNopResetAndCsrrOnly : Obligations.FailedExecutesNopResetAndCsrrOnly := by
  intro s hf
  refine ⟨exec_nop s, ⟨_, exec_reset s, rfl, rfl⟩, fun a ha => ?_, fun a ha => ?_, fun i hn hr hcsrr => ?_,
    fun w rest e hp hd => (step_illegal_word hp hd).trans (if_pos hf), fun a ha => if_pos ha⟩
  · have himpl := csrImplemented_iff.mpr ha
    obtain ⟨v, hv⟩ := csrRead_isSome himpl s
    exact ⟨v, hv, exec_csrr himpl hv⟩
  · exact exec_ignored hf (Bool.eq_false_iff.mpr fun h => ha (csrImplemented_iff.mp h))
  · refine exec_ignored hf (Bool.eq_false_iff.mpr fun h => ?_)
    rcases runsInFailed_cases h with rfl | rfl | ⟨a, rfl, -⟩
    · exact hn rfl
    · exact hr rfl
    · exact hcsrr a rfl

/-- The state stays in `Failed` with the first error as it stood (R270). -/
def StaysFailed (s t : State) : Prop :=
  t.state = .failed ∧ t.err = s.err ∧ t.errinfo = s.errinfo ∧ t.estate = s.estate

/-- A command in `Failed` leaves the error as it stands, unless it is RESET. -/
theorem exec_in_failed {i : Instr} {s t : State} (hf : s.state = .failed) (he : exec i s = .next t) :
    StaysFailed s t ∨ (i = .reset ∧ t = s.resetRegisters) := by
  by_cases hi : runsInFailed i = true
  · rcases runsInFailed_cases hi with rfl | rfl | ⟨a, rfl, ha⟩
    · obtain rfl := Host.Outcome.next.inj ((exec_nop s).symm.trans he)
      exact .inl ⟨hf, rfl, rfl, rfl⟩
    · exact .inr ⟨rfl, (Host.Outcome.next.inj ((exec_reset s).symm.trans he)).symm⟩
    · obtain ⟨v, hv⟩ := csrRead_isSome ha s
      obtain rfl := Host.Outcome.next.inj ((exec_csrr ha hv).symm.trans he)
      exact .inl ⟨hf, rfl, rfl, rfl⟩
  · obtain rfl := Host.Outcome.next.inj ((exec_ignored hf (Bool.eq_false_of_not_eq_true hi)).symm.trans he)
    exact .inl ⟨hf, rfl, rfl, rfl⟩

/-- Settles O15: of all a step can do in `Failed`, only the reset input and RESET's word, the one word that decodes to it,
leave the error. -/
theorem onlyResetLeavesFailed : Obligations.OnlyResetLeavesFailed := by
  intro s t hf he
  rcases step_cases s with ⟨-, h⟩ | ⟨rest, hp, h⟩ | ⟨w, rest, i, hp, hd, h⟩ | ⟨w, rest, e, -, -, -, h⟩ |
    ⟨w, rest, e, -, -, hne, -⟩
  · obtain rfl := Host.Outcome.next.inj (h.symm.trans he)
    exact .inl ⟨hf, rfl, rfl, rfl⟩
  · obtain rfl := Host.Outcome.next.inj (h.symm.trans he)
    exact .inr ⟨rest, .inl hp, rfl⟩
  · rcases exec_in_failed (s := { s with port := rest }) hf (h.symm.trans he) with hstays | ⟨rfl, rfl⟩
    · exact .inl hstays
    · obtain ⟨-, rfl⟩ := (decodeIsTheInverseOfEncode w .reset).mp hd
      exact .inr ⟨rest, .inr hp, rfl⟩
  · obtain rfl := Host.Outcome.next.inj (h.symm.trans he)
    exact .inl ⟨hf, rfl, rfl, rfl⟩
  · exact absurd hf hne

end Sys2Proof.Machine
end

section
/-! ## Reset by command and by input (70_reset_and_hazards.md R290, R291) -/

namespace Sys2Proof.Machine

open Sys2Proof

/-- A pulse on the reset input is taken off the port and does in every state what RESET does (R290). -/
theorem step_resetInput {s : State} {rest : List HostInput} (hp : s.port = .resetInput :: rest) :
    step s = exec .reset { s with port := rest } := by
  simp only [step, serve, hp, accept, exec_reset]

/-- Settles O2: both ways of reset answer `resetRegisters`, whose fields are the values of R49 beside the six memories,
the parameters and the port of the state before. -/
theorem resetGivesResetValuesAndKeepsMemories : Obligations.ResetGivesResetValuesAndKeepsMemories := by
  have hdecode : decode 0x01000000#32 = .ok .reset := decode_encode (i := .reset) rfl
  exact ⟨hdecode, fun s => ⟨exec_reset s, fun rest hp => (step_resetInput hp).trans (exec_reset { s with port := rest })⟩⟩

end Sys2Proof.Machine
end
